-- ==== Sys2Proof/Word.lean ====
section
/-! DEFINITION. The two word sizes of the block: the 32-bit register word and the stream byte. -/

namespace Sys2Proof

/-- A register or command word: 32 bits (R9, R17). -/
abbrev Word := BitVec 32

/-- A byte of the stream, the buffer or the trie (R14: a symbol in 0..255). -/
abbrev Byte := BitVec 8

end Sys2Proof
end

