-- ==== Sys2Proof/Syntax.lean ====
section
/-! DEFINITION. The commands of the block (one constructor per row of the opcode table), the names of its
registers, and the actions a host takes on its register window. -/

namespace Sys2Proof

/-- The 16 commands of R66. A command word holds no operand (R60, R62), so no constructor has a field: the
operands are the latched ARG registers. -/
inductive Instr where
  | nop
  | softReset
  | encStart
  | encInterval
  | encClose
  | encSymbol
  | decStart
  | decCount
  | decRemove
  | decSymbol
  | ppmTotal
  | ppmPoint
  | ppmInterval
  | ppmEscaped
  | ppmExclude
  | ppmIncrement
  deriving DecidableEq, Repr

/-- The registers of the window, by the names of R17. -/
inductive Reg where
  | cmd
  | arg0
  | arg1
  | arg2
  | res0
  | res1
  | res2
  | status
  | errcode
  | config
  | inData
  | inCtrl
  | outData
  | fifoLevel
  | obsLow
  | obsHigh
  | obsBtf
  | obsValue
  | obsVbits
  | obsCtxlen
  | obsBuflen
  | obsNodes
  | obsBits
  | obsOrder
  | obsExcl (j : Fin 8)
  deriving DecidableEq, Repr

/-- One action on the block from outside: a host access to the window (R15, R73), named by its offset from
BLOCK_BASE and its width in bytes, or the platform's hardware reset (R161). -/
inductive HostAct where
  | read (offset bytes : Nat)
  | write (offset bytes : Nat) (value : Word)
  | hardReset
  deriving DecidableEq, Repr

/-- A host action and its place among the block's steps. Once a hold's condition has come true, the block
resumes before the next action unless that action is `early` (R151; 95_test_vectors.md P7 allows both orders). -/
structure HostEvent where
  act : HostAct
  early : Bool := false
  deriving DecidableEq, Repr

end Sys2Proof
end

