-- ==== Sys2Proof/WellFormed.lean ====
section
/-! DEFINITION. When a host access is one the window admits (R17, R48), when a command word has the one format of
R60, and when a command is well formed. -/

namespace Sys2Proof

/-- A 32-bit access at a 4-byte-aligned offset (R48). -/
def wordAccess (offset bytes : Nat) : Bool := bytes == 4 && offset % 4 == 0

/-- An offset inside the window 0x00..0xFC of 64 word slots (R17, R42). -/
def inWindow (offset : Nat) : Bool := offset < 256

/-- A host action the block admits: hardware reset, or an aligned 32-bit access inside the window. -/
def HostAct.wf : HostAct → Bool
  | .read offset bytes => wordAccess offset bytes && inWindow offset
  | .write offset bytes _ => wordAccess offset bytes && inWindow offset
  | .hardReset => true

/-- The MBZ field of format `CMD32` is zero (R60). -/
def mbzClear (w : Word) : Bool := w.extractLsb' 8 24 == 0

/-- Every command is well formed: a command has no field that could be out of range (R60, R62). Its operands are
register values, and each command's own rule checks them. -/
def Instr.wf : Instr → Bool
  | .nop | .softReset | .encStart | .encInterval | .encClose | .encSymbol | .decStart | .decCount
  | .decRemove | .decSymbol | .ppmTotal | .ppmPoint | .ppmInterval | .ppmEscaped | .ppmExclude
  | .ppmIncrement => true

end Sys2Proof
end

