-- ==== Sys2Proof/Decode.lean ====
section
/-! DEFINITION. Decoding a command word (R61, R66, R67), and the word of a command. -/

namespace Sys2Proof

/-- Why a word is no command (R67). -/
inductive Reject where
  /-- bits [31:8] are not all zero -/
  | mbzNonzero
  /-- bits [7:0] are no opcode of R66 -/
  | unknownOpcode
  deriving DecidableEq, Repr

/-- The opcode of a command: bits [7:0] of its word (R66). -/
def opcode : Instr → Byte
  | .nop => 0x00
  | .softReset => 0x01
  | .encStart => 0x10
  | .encInterval => 0x11
  | .encClose => 0x12
  | .encSymbol => 0x13
  | .decStart => 0x20
  | .decCount => 0x21
  | .decRemove => 0x22
  | .decSymbol => 0x23
  | .ppmTotal => 0x30
  | .ppmPoint => 0x31
  | .ppmInterval => 0x32
  | .ppmEscaped => 0x33
  | .ppmExclude => 0x34
  | .ppmIncrement => 0x35

/-- The opcode field of a word (R60). -/
def opField (w : Word) : Byte := w.extractLsb' 0 8

/-- The command an opcode names (R66), none for a reserved opcode (R67, R68). -/
def decodeOp (op : Byte) : Option Instr :=
  match op.toNat with
  | 0x00 => some .nop
  | 0x01 => some .softReset
  | 0x10 => some .encStart
  | 0x11 => some .encInterval
  | 0x12 => some .encClose
  | 0x13 => some .encSymbol
  | 0x20 => some .decStart
  | 0x21 => some .decCount
  | 0x22 => some .decRemove
  | 0x23 => some .decSymbol
  | 0x30 => some .ppmTotal
  | 0x31 => some .ppmPoint
  | 0x32 => some .ppmInterval
  | 0x33 => some .ppmEscaped
  | 0x34 => some .ppmExclude
  | 0x35 => some .ppmIncrement
  | _ => none

/-- Decoding of any word (R61), rejecting by name. It reads no state. -/
def decode (w : Word) : Except Reject Instr :=
  if mbzClear w then
    match decodeOp (opField w) with
    | some i => .ok i
    | none => .error .unknownOpcode
  else .error .mbzNonzero

/-- The word of a command: MBZ zero, its opcode in bits [7:0] (R60). -/
def encode (i : Instr) : Word := (0 : BitVec 24) ++ opcode i

/-- The first `nbits` bits of a command as the opcode table numbers them, every bit above them zero. A command is
one 32-bit word that reaches the block whole (R47, R59), so no byte order applies. -/
def tableWord (nbits w : Nat) : Word := BitVec.ofNat 32 (w % 2 ^ nbits)

/-- The command that the decoder reads from the bits `w` of a row of the opcode table. -/
def decodeTableWord (nbits w : Nat) : Option Instr :=
  match decode (tableWord nbits w) with
  | .ok i => some i
  | .error _ => none

end Sys2Proof
end

