-- ==== Sys2Proof/Machine/Data.lean ====
section
/-! DEFINITION. The plain data the units of the block hold: symbols, intervals, the trie, the coder, the bit
packer and unpacker, the PPM model, and the tasks a held command has left. -/

namespace Sys2Proof.Machine

/-- A symbol: a byte, EOF or ESCAPE (R14). -/
inductive Sym where
  | byte (b : Byte)
  | eof
  | escape
  deriving DecidableEq, Repr, Inhabited

/-- An interval: the triple (lowCount, highCount, totalCount) of the glossary. -/
structure Interval where
  low : Nat
  high : Nat
  total : Nat
  deriving DecidableEq, Repr, Inhabited

/-- `S.mode` (R31). -/
inductive Mode where
  | idle
  | enc
  | dec
  deriving DecidableEq, Repr, Inhabited

/-- The seven fault codes of R148. Code 0, NONE, is the absence of one. -/
inductive FaultCode where
  | illegalCmd
  | interval
  | protocol
  | desync
  | capacity
  | config
  | hostIo
  deriving DecidableEq, Repr, Inhabited

/-- A list of sibling trie nodes, as the source holds it: each node owns its first child and refers to its next
sibling (R36). -/
inductive Trie where
  | nil
  | cons (byte : Byte) (count outcomes : Nat) (children next : Trie)
  deriving DecidableEq, Repr, Inhabited

/-- A trie node (R36). `children` is its sibling list, first child first. -/
structure Node where
  byte : Byte
  count : Nat
  outcomes : Nat
  children : Trie
  deriving DecidableEq, Repr, Inhabited

/-- Coder state (R32). Its numbers are mathematical integers (R11). -/
structure Coder where
  low : Nat
  high : Nat
  btf : Nat
  value : Nat
  vbits : Nat
  eos : Bool
  deriving DecidableEq, Repr, Inhabited

/-- Bit packer and unpacker state (R33). -/
structure BitIO where
  oacc : Byte
  ocnt : Nat
  ibyte : Byte
  icnt : Nat
  deriving DecidableEq, Repr, Inhabited

/-- Model state (R35), with `S.eofdone` (R31), which only a model operation sets (R123). `root` has 256 slots,
`uni` has 257, and bit b of `excl` says that byte b is excluded (R28). -/
structure Model where
  order : Nat
  buf : List Byte
  root : List (Option Node)
  ctxlen : Nat
  excl : BitVec 256
  uni : List Nat
  nodes : Nat
  eofdone : Bool
  deriving DecidableEq, Repr, Inhabited

/-- What a held command waits for (R151). -/
inductive HoldKind where
  | input
  | output
  deriving DecidableEq, Repr, Inhabited

/-- What a held command has still to do, with its local values (R151). Each task names the piece of pseudocode
that runs when the command reaches it. -/
inductive Task where
  /-- `PutBit(b)` (R77) -/
  | putBit (b : Bool)
  /-- the loop of `BitPlusFollow`: while `S.btf` > 0, `PutBit(b)` and count down (R87) -/
  | follow (b : Bool)
  /-- the end of an `EncRenorm` pass: subtract `off` from both bounds and double them (R88) -/
  | encShift (off : Nat)
  /-- the head of `EncRenorm`'s loop, with at most `passes` passes left (R88, R90) -/
  | encRenorm (passes : Nat)
  /-- `PackerClose()` (R78) -/
  | packerClose
  /-- `S.closed <- 1` (R93) -/
  | markClosed
  /-- the head of ENC_SYMBOL's loop for `sym`, with `n` escapes coded and at most `more` still possible (R139) -/
  | encLoop (more : Nat) (sym : Sym) (n : Nat)
  /-- the end of ENC_SYMBOL: `RES0 <- n` (R139) -/
  | encEnd (n : Nat)
  /-- `ReadCodeBit()` `k` times (R81, R89, R95) -/
  | readBits (k : Nat)
  /-- the head of `DecRenorm`'s loop, with at most `passes` passes left (R89, R90) -/
  | decRenorm (passes : Nat)
  /-- the end of a pass of DEC_SYMBOL's loop that decoded `sym`, with `n` escapes before it and at most `more`
  passes still possible (R140) -/
  | decNext (more : Nat) (sym : Sym) (n : Nat)
  deriving DecidableEq, Repr, Inhabited

/-- Everything that a command's fault leaves unspecified (R155): the results, CLOSED, the coder, the packer and
unpacker, both FIFOs and the model. -/
structure Stream where
  res0 : Word
  res1 : Word
  res2 : Word
  closed : Bool
  coder : Coder
  bitio : BitIO
  inq : List Byte
  outq : List Byte
  model : Model
  deriving DecidableEq, Repr, Inhabited

end Sys2Proof.Machine
end

