-- ==== Sys2Proof/Config.lean ====
section
/-! DEFINITION. What an implementation fixes (R8) and the values the spec leaves unspecified (R29, R155), each an
opaque constant: no proof can see what it is. -/

namespace Sys2Proof.Config

/-- How far MAX_ORDER exceeds the least value R8 allows. -/
opaque orderHeadroom : Nat

/-- How far NODE_CAP exceeds the least value R8 allows. -/
opaque nodeHeadroom : Nat

/-- How far IN_DEPTH exceeds the least value R8 allows. -/
opaque inHeadroom : Nat

/-- How far OUT_DEPTH exceeds the least value R8 allows. -/
opaque outHeadroom : Nat

/-- BLOCK_BASE counted in words, which makes it 4-byte aligned (R8). -/
opaque baseWord : Nat

/-- MAX_ORDER: the largest CONFIG.ORDER that a START accepts, at least 16 (R8). -/
def maxOrder : Nat := orderHeadroom + 16

/-- NODE_CAP: how many non-root trie nodes the block can hold at once, at least 1 (R8). -/
def nodeCap : Nat := nodeHeadroom + 1

/-- IN_DEPTH: the capacity of the input FIFO in bytes, at least 1 (R8). -/
def inDepth : Nat := inHeadroom + 1

/-- OUT_DEPTH: the capacity of the output FIFO in bytes, at least 1 (R8). -/
def outDepth : Nat := outHeadroom + 1

/-- BLOCK_BASE: the host address of register offset 0x00 (R8). The model names an access by its offset from it
(R76), so nothing the block does depends on it. -/
def blockBase : Nat := 4 * baseWord

/-- The value of the n-th unspecified read (R29, R155: "A model returns any value (a draw)"). -/
opaque draw : Nat → Word

/-- What a command's fault leaves in the state that R155 calls unspecified. -/
opaque afterFault : Nat → Machine.Stream

end Sys2Proof.Config
end

