-- ==== Sys2Proof/Machine/State.lean ====
section
/-! DEFINITION. The state of the block as the spec gives it (10_state.md), the reasons a step can stop, and the state
after hardware reset (R40). -/

namespace Sys2Proof.Machine

/-- Why the machine stops. The block's own seven faults are no stop: each is a state it goes on from (R154). -/
inductive Fault where
  /-- Raised by the step when a command is held, its condition is false and the host takes no further action: R151,
  "a model shows this as a stuck block with no enabled step". Safe: the block does nothing there. -/
  | stuckHold
  /-- Raised by the step on an access beyond the 64 slots: R17, "The window has no other address". Safe: such an
  access does not reach the block. -/
  | outsideWindow
  deriving DecidableEq, Repr

/-- Why the machine gives no meaning to a step. -/
inductive Refusal where
  /-- Raised by exec for a command that has no meaning yet. Safe. No command is left so. -/
  | notModelled (mnemonic : String)
  /-- Raised by the step on a misaligned access or one that is not 32 bits wide: R48, "A model refuses such an
  access". Safe: no claim can rest on one. -/
  | badAccess
  deriving DecidableEq, Repr

/-- The block: the register window (R17, R18), control state (R31), the units' state (R32 to R35), and three fields
of the model's own (`hostq`, `rdata`, `draws`). -/
structure State where
  /-- operand registers (R18) -/
  arg0 : Word
  arg1 : Word
  arg2 : Word
  /-- result registers (R18) -/
  res0 : Word
  res1 : Word
  res2 : Word
  /-- CONFIG.ORDER, the stored half of CONFIG (R23) -/
  config : BitVec 16
  /-- control state (R31) -/
  mode : Mode
  closed : Bool
  /-- fault record (R22, R31); no code is NONE -/
  err : Bool
  errcode : Option FaultCode
  errop : Byte
  errhost : Bool
  /-- execution and hold flags (R21, R31) -/
  busy : Bool
  holdin : Bool
  holdout : Bool
  /-- operands latched at issue (R18, R31) -/
  a0 : Word
  a1 : Word
  a2 : Word
  /-- bits [7:0] of the word last issued, which a fault records (R154) -/
  op : Byte
  /-- what the held command has still to do (R151); empty when no command is held -/
  held : List Task
  /-- coder (R32) -/
  coder : Coder
  /-- bit packer and unpacker (R33) -/
  bitio : BitIO
  /-- stream FIFOs (R34), head first -/
  inq : List Byte
  inend : Bool
  outq : List Byte
  /-- PPM model (R35) -/
  model : Model
  /-- the model's own: what the host does next, in its program order (R54) -/
  hostq : List HostEvent
  /-- the model's own: the value the last host read returned -/
  rdata : Word
  /-- the model's own: how many free values have been drawn -/
  draws : Nat
  deriving DecidableEq, Repr

/-- The coder's START value (R40, R136): TOP_VALUE = 2^27 − 1 and VIRTUAL_BITS = 27 (R6, R9). -/
def Coder.reset : Coder :=
  { low := 0, high := 2 ^ 27 - 1, btf := 0, value := 0, vbits := 27, eos := false }

/-- An empty packer and unpacker (R40, R136). -/
def BitIO.reset : BitIO := { oacc := 0, ocnt := 0, ibyte := 0, icnt := 0 }

/-- The initial model of a given order: no node, every backoff count 1 (R40, R136). -/
def Model.fresh (order : Nat) : Model :=
  { order := order, buf := [], root := List.replicate 256 none, ctxlen := 0, excl := 0,
    uni := List.replicate 257 1, nodes := 0, eofdone := false }

/-- The block right after hardware reset (R40, R161). -/
def State.reset : State :=
  { arg0 := 0, arg1 := 0, arg2 := 0, res0 := 0, res1 := 0, res2 := 0, config := 0,
    mode := .idle, closed := false,
    err := false, errcode := none, errop := 0, errhost := false,
    busy := false, holdin := false, holdout := false,
    a0 := 0, a1 := 0, a2 := 0, op := 0, held := [],
    coder := Coder.reset, bitio := BitIO.reset, inq := [], inend := false, outq := [],
    model := Model.fresh 0, hostq := [], rdata := 0, draws := 0 }

end Sys2Proof.Machine
end

