-- ==== Sys2Proof/Machine/Operands.lean ====
section
/-! DEFINITION. The fixed constants (R6, R7, R9), how a command reads its latched operands, and how it writes a
result (R10, R62 to R65). -/

namespace Sys2Proof.Machine

/-- CODE_VALUE_BITS (R6). -/
def codeValueBits : Nat := 27

/-- TOP_VALUE (R6). -/
def topValue : Nat := 134217727

/-- FIRST_QUARTER (R7). -/
def firstQuarter : Nat := 33554432

/-- HALF (R7). -/
def half : Nat := 67108864

/-- THIRD_QUARTER (R7). -/
def thirdQuarter : Nat := 100663296

/-- MAX_INDIVIDUAL_COUNT (R6). -/
def maxIndividualCount : Nat := 8192

/-- MIN_COUNT (R6). -/
def minCount : Nat := 128

/-- MIN_CONTEXT_LENGTH (R6). -/
def minContextLength : Nat := 1

/-- VIRTUAL_BITS (R9). -/
def virtualBits : Nat := 27

/-- MAX_TOTAL (R9). -/
def maxTotal : Nat := 33554432

/-- The greatest value of the 32-bit counter `S.btf` (R32). -/
def maxBtf : Nat := 4294967295

/-- The most passes one renormalization makes (R90). -/
def renormPasses : Nat := 27

/-- `ceil_half` (R11). -/
def ceilHalf (x : Nat) : Nat := (x + 1) / 2

/-- `floor_half` (R11). -/
def floorHalf (x : Nat) : Nat := x / 2

/-- `s32(r)`: a register read as a two's-complement integer (R10). Every operand is read so (R62). -/
def s32 (r : Word) : Int := r.toInt

/-- The symbol a 32-bit value stands for, if any (R64). -/
def symOfInt (v : Int) : Option Sym :=
  if 0 ≤ v ∧ v ≤ 255 then some (.byte (BitVec.ofInt 8 v))
  else if v = -1 then some .eof
  else if v = -2 then some .escape
  else none

/-- The symbol operand in a latched register (R64); none is an operand error. -/
def symOperand (r : Word) : Option Sym := symOfInt (s32 r)

/-- The byte operand in a latched register (R64); EOF, ESCAPE and every other value are operand errors. -/
def byteOperand (r : Word) : Option Byte :=
  match symOperand r with
  | some (.byte b) => some b
  | _ => none

/-- The operand of a command that takes a byte or EOF (R63); ESCAPE is an operand error. -/
def byteOrEofOperand (r : Word) : Option Sym :=
  match symOperand r with
  | some (.byte b) => some (.byte b)
  | some .eof => some .eof
  | _ => none

/-- A symbol as a result register holds it (R14, R64). -/
def symWord : Sym → Word
  | .byte b => b.setWidth 32
  | .eof => 0xFFFFFFFF
  | .escape => 0xFFFFFFFE

/-- A boolean result (R65). -/
def boolWord (b : Bool) : Word := if b then 1 else 0

/-- A count, total or bound as a result register holds it. -/
def natWord (n : Nat) : Word := BitVec.ofNat 32 n

end Sys2Proof.Machine
end

