-- ==== Sys2Proof/Machine/TrieOps.lean ====
section
/-! DEFINITION. The exclusion set and the trie's node operations (42_ppm_model.md sections 1 and 3). -/

namespace Sys2Proof.Machine

/-! ### Exclusion set -/

/-- `Excluded(b)` (R101). -/
def excluded (excl : BitVec 256) (b : Byte) : Bool := excl.getLsbD b.toNat

/-- `ExclAdd(b)` (R101). -/
def exclAdd (excl : BitVec 256) (b : Byte) : BitVec 256 := excl ||| (1#256 <<< b.toNat)

/-! ### Sibling lists -/

/-- A sibling list as a sequence of nodes, first child first (R13, R36). -/
def Trie.toList : Trie → List Node
  | .nil => []
  | .cons b c o kids next => ⟨b, c, o, kids⟩ :: next.toList

/-- A sequence of nodes as a sibling list. -/
def Trie.ofList : List Node → Trie
  | [] => .nil
  | n :: rest => .cons n.byte n.count n.outcomes n.children (Trie.ofList rest)

/-- How many nodes a sibling list and everything below it hold (R44, R113). -/
def Trie.size : Trie → Nat
  | .nil => 0
  | .cons _ _ _ kids next => 1 + kids.size + next.size

/-- `N.children` (R36). -/
def Node.kids (n : Node) : List Node := n.children.toList

/-- The node with another sequence of children. -/
def Node.withKids (n : Node) (kids : List Node) : Node := { n with children := Trie.ofList kids }

/-- The number of nodes in the subtree rooted at a node, itself among them (R113). -/
def Node.size (n : Node) : Nat := 1 + n.children.size

/-- A node just created: count 1, outcomes 0, no children (R112, R124). -/
def Node.new (b : Byte) : Node := ⟨b, 1, 0, .nil⟩

/-! ### Queries -/

/-- `Child(N, b)` (R104). -/
def Node.child (n : Node) (b : Byte) : Option Node := n.kids.find? fun c => c.byte == b

/-- The unexcluded children, in list order. -/
def Node.openKids (n : Node) (excl : BitVec 256) : List Node :=
  n.kids.filter fun c => !excluded excl c.byte

/-- `Childless(N)` (R105). -/
def Node.childless (n : Node) (excl : BitVec 256) : Bool := n.kids.all fun c => excluded excl c.byte

/-- `Deterministic(N)`: exactly one child in total, excluded or not (R106). -/
def Node.deterministic (n : Node) : Bool := n.kids.length == 1

/-- `Σ C.count`. -/
def sumCounts (ns : List Node) : Nat := (ns.map Node.count).sum

/-- `NodeTotal(N)` (R107). -/
def Node.total (n : Node) (excl : BitVec 256) : Nat := n.outcomes + sumCounts (n.openKids excl)

/-- The scan of `NodeInterval` (R108): the unexcluded counts before the first child `b`, and those after it. -/
def scanKids (excl : BitVec 256) (b : Byte) : List Node → Nat × Nat
  | [] => (0, 0)
  | d :: rest =>
    if d.byte == b then (0, sumCounts (rest.filter fun c => !excluded excl c.byte && !(c.byte == b)))
    else if excluded excl d.byte then scanKids excl b rest
    else ((scanKids excl b rest).1 + d.count, (scanKids excl b rest).2)

/-- `NodeInterval(N, b)`, `c` being `Child(N, b)` (R108). -/
def Node.interval (n : Node) (excl : BitVec 256) (c : Node) : Interval :=
  let before := (scanKids excl c.byte n.kids).1
  let after := (scanKids excl c.byte n.kids).2
  ⟨before, before + c.count, before + c.count + after + n.outcomes⟩

/-- `NodeEscInterval(N)` (R109). -/
def Node.escInterval (n : Node) (excl : BitVec 256) : Interval :=
  ⟨n.total excl - n.outcomes, n.total excl, n.total excl⟩

/-- The scan of `NodePoint`, `acc` being the counts already passed (R110). -/
def pointKids (excl : BitVec 256) (c : Nat) : Nat → List Node → Sym
  | _, [] => .escape
  | acc, d :: rest =>
    if excluded excl d.byte then pointKids excl c acc rest
    else if c < acc + d.count then .byte d.byte
    else pointKids excl c (acc + d.count) rest

/-- `NodePoint(N, c)` (R110). -/
def Node.point (n : Node) (excl : BitVec 256) (c : Nat) : Sym := pointKids excl c 0 n.kids

/-! ### Updates -/

/-- `NewNode`'s storage check: raise CAPACITY when the node store is full, else count one node more (R112). -/
def takeNode (nodes : Nat) : Except FaultCode Nat :=
  if nodes = Config.nodeCap then .error .capacity else .ok (nodes + 1)

/-- The chain of new singleton nodes for a nonempty path, and the node count after it (R112). -/
def newChain (b : Byte) : List Byte → Nat → Except FaultCode (Node × Nat)
  | [], nodes => do
    let nodes ← takeNode nodes
    .ok (Node.new b, nodes)
  | q :: qs, nodes => do
    let nodes ← takeNode nodes
    let (d, nodes) ← newChain q qs nodes
    .ok ({ Node.new b with outcomes := 1, children := Trie.ofList [d] }, nodes)

/-- `AddChild(N, p)` for the path `b :: rest`: the new child goes to the front (R112). -/
def Node.addChild (n : Node) (b : Byte) (rest : List Byte) (nodes : Nat) :
    Except FaultCode (Node × Nat) := do
  let (c, nodes) ← newChain b rest nodes
  .ok ({ n.withKids (c :: n.kids) with outcomes := n.outcomes + 1 }, nodes)

/-- A child's count halved, rounding down (R113). -/
def Node.halved (d : Node) : Node := { d with count := floorHalf d.count }

/-- `Rescale(N)` (R113): the node, and the node count less the pruned subtrees. -/
def Node.rescale (n : Node) (nodes : Nat) : Node × Nat :=
  let halves := n.kids.map Node.halved
  let keep := halves.filter fun d => minCount ≤ d.count
  let drop := halves.filter fun d => !(minCount ≤ d.count)
  ({ n.withKids keep with outcomes := ceilHalf n.outcomes }, nodes - (drop.map Node.size).sum)

/-- The bump of an existing child `c` (R111): moved to the front, its count raised, and the parent rescaled when the
count exceeds MAX_INDIVIDUAL_COUNT. -/
def Node.bump (n c : Node) (nodes : Nat) : Node × Nat :=
  let c' := { c with count := c.count + 1 }
  let n' := n.withKids (c' :: n.kids.eraseP fun d => d.byte == c.byte)
  if maxIndividualCount < c'.count then n'.rescale nodes else (n', nodes)

/-- `NodeIncrement(N, p)` (R111), the bumped child being the first child after the bump. An empty path changes
nothing. -/
def nodeIncrement : List Byte → Node → Nat → Except FaultCode (Node × Nat)
  | [], n, nodes => .ok (n, nodes)
  | b :: rest, n, nodes =>
    match n.child b with
    | none => n.addChild b rest nodes
    | some c =>
      let (n', nodes') := n.bump c nodes
      match n'.kids with
      | c' :: others => do
        let (c'', nodes'') ← nodeIncrement rest c' nodes'
        .ok (n'.withKids (c'' :: others), nodes'')
      | [] => .ok (n', nodes')

end Sys2Proof.Machine
end

