-- ==== Sys2Proof/Machine/Backoff.lean ====
section
/-! DEFINITION. The order-0 backoff model (42_ppm_model.md section 4). Slot s < 256 is byte s, slot 256 is EOF. -/

namespace Sys2Proof.Machine

/-- A backoff slot that is skipped: an excluded byte. Slot 256, EOF, never is (R115). -/
def slotExcluded (excl : BitVec 256) (slot : Nat) : Bool := decide (slot < 256) && excl.getLsbD slot

/-- What each slot adds to a total: its count, or 0 when it is skipped. `slot` is the number of the first. -/
def slotMass (excl : BitVec 256) : Nat → List Nat → List Nat
  | _, [] => []
  | slot, c :: rest => (if slotExcluded excl slot then 0 else c) :: slotMass excl (slot + 1) rest

/-- The mass of every slot. -/
def Model.uniMass (m : Model) : List Nat := slotMass m.excl 0 m.uni

/-- `UniTotal()` (R115). -/
def Model.uniTotal (m : Model) : Nat := m.uniMass.sum

/-- The interval of `UniInterval(s)`, before its update (R116). -/
def Model.uniInterval (m : Model) (slot : Nat) : Interval :=
  let low := (m.uniMass.take slot).sum
  let high := low + m.uni.getD slot 0
  ⟨low, high, high + (m.uniMass.drop (slot + 1)).sum⟩

/-- The update of `UniInterval(s)` (R116): the slot's count up by 1, and every slot halved, rounding up, when that
count exceeds MAX_INDIVIDUAL_COUNT. -/
def bumpSlot (uni : List Nat) (slot : Nat) : List Nat :=
  let c := uni.getD slot 0 + 1
  let uni := uni.set slot c
  if maxIndividualCount < c then uni.map ceilHalf else uni

/-- The model after `UniInterval(s)` (R116). -/
def Model.uniBump (m : Model) (slot : Nat) : Model := { m with uni := bumpSlot m.uni slot }

/-- The slot a symbol has in the backoff model. -/
def slotOf (b : Byte) : Nat := b.toNat

/-- The slot of EOF (R115). -/
def eofSlot : Nat := 256

/-- The symbol of a slot (R117). -/
def slotSym (slot : Nat) : Sym := if slot = eofSlot then .eof else .byte (BitVec.ofNat 8 slot)

/-- The scan of `UniPoint`, `acc` being the counts already passed (R117). It ends inside the table whenever
c < `UniTotal()`. -/
def pointSlots (excl : BitVec 256) (c : Nat) : Nat → Nat → List Nat → Sym
  | _, _, [] => .eof
  | acc, slot, n :: rest =>
    if slotExcluded excl slot then pointSlots excl c acc (slot + 1) rest
    else if c < acc + n then slotSym slot
    else pointSlots excl c (acc + n) (slot + 1) rest

/-- `UniPoint(c)` (R117). -/
def Model.uniPoint (m : Model) (c : Nat) : Sym := pointSlots m.excl c 0 0 m.uni

end Sys2Proof.Machine
end

