-- ==== Sys2Proof/Machine/Context.lean ====
section
/-! DEFINITION. Lookup, the sliding buffer, and the two context-resolution algorithms (R37, R38, R103, R118, R119). -/

namespace Sys2Proof.Machine

/-- The root slot of a byte (R35). -/
def Model.rootOf (m : Model) (b : Byte) : Option Node := m.root.getD b.toNat none

/-- The descent of `Lookup` along the rest of a context (R37). -/
def descend : List Byte → Node → Option Node
  | [], n => some n
  | b :: rest, n =>
    match n.child b with
    | some c => descend rest c
    | none => none

/-- `Lookup(k)`: the node of the k most recent bytes, for 1 ≤ k ≤ `len(S.buf)` (R37). -/
def Model.lookup (m : Model) (k : Nat) : Option Node :=
  if k ≤ m.buf.length then
    match m.buf.drop (m.buf.length - k) with
    | [] => none
    | b :: rest =>
      match m.rootOf b with
      | some n => descend rest n
      | none => none
  else none

/-- `S.ctxnode` (R38): the node of the current context, none at length 0. -/
def Model.ctxNode (m : Model) : Option Node := m.lookup m.ctxlen

/-- `BufPush(b)` (R103). -/
def Model.bufPush (m : Model) (b : Byte) : Model :=
  let buf := m.buf ++ [b]
  { m with buf := if m.order + 1 < buf.length then buf.drop 1 else buf }

/-- The loop of `ContextBinarySearch` (R118): the bounds, the length found so far, and whether a deterministic
context has been found. `fuel` bounds its passes by the length it starts from. -/
def searchLoop (m : Model) : (fuel lo hi ctxlen : Nat) → (isdet : Bool) → Nat
  | 0, _, _, ctxlen, _ => ctxlen
  | fuel + 1, lo, hi, ctxlen, isdet =>
    if hi < lo then ctxlen
    else
      let k := (hi + lo) / 2
      let down := if k < hi then k else hi - 1
      let up := if lo < k then k else lo + 1
      match m.lookup k with
      | none => searchLoop m fuel lo down ctxlen isdet
      | some n =>
        if n.childless m.excl then searchLoop m fuel lo down ctxlen isdet
        else if n.deterministic then searchLoop m fuel lo down k true
        else if isdet then searchLoop m fuel up hi ctxlen isdet
        else searchLoop m fuel up hi k isdet

/-- `ContextBinarySearch()` (R118): the new `S.ctxlen`. -/
def Model.binarySearch (m : Model) : Nat :=
  searchLoop m m.ctxlen minContextLength m.ctxlen 0 false

/-- The walk-down of `ContextLongToShort` from length `k` and its node (R119). -/
def walkDown (m : Model) : Nat → Node → Nat
  | 0, _ => 0
  | 1, _ => 1
  | k + 2, n =>
    if n.deterministic then
      match m.lookup (k + 1) with
      | some b => if b.deterministic then walkDown m (k + 1) b else k + 2
      | none => k + 2
    else k + 2

/-- `ContextLongToShort()` from length `k` (R119): the new `S.ctxlen`. -/
def longToShort (m : Model) : Nat → Nat
  | 0 => 0
  | k + 1 =>
    match m.lookup (k + 1) with
    | none => longToShort m k
    | some n => if n.childless m.excl then longToShort m k else walkDown m (k + 1) n

end Sys2Proof.Machine
end

