-- ==== Sys2Proof/Machine/PpmModel.lean ====
section
/-! DEFINITION. The model operations (42_ppm_model.md section 6). Each uses the context node when there is one, and
the backoff model otherwise. -/

namespace Sys2Proof.Machine

/-- `ModelTotal()` (R120). -/
def Model.total (m : Model) : Nat :=
  match m.ctxNode with
  | some n => n.total m.excl
  | none => m.uniTotal

/-- `ModelPoint(c)` (R121). -/
def Model.point (m : Model) (c : Int) : Except FaultCode Sym :=
  if c < 0 ∨ (m.total : Int) ≤ c then .error .protocol
  else
    match m.ctxNode with
    | some n => .ok (n.point m.excl c.toNat)
    | none => .ok (m.uniPoint c.toNat)

/-- `ModelEscaped(s)` for a byte or EOF (R122). -/
def Model.escaped (m : Model) (s : Sym) : Bool :=
  match m.ctxNode with
  | none => false
  | some n =>
    match s with
    | .byte b => (n.child b).isNone
    | .eof => true
    | .escape => true

/-- The trie with the whole buffer inserted from its oldest byte's root (R124). -/
def Model.insertBuffer (m : Model) : Except FaultCode Model :=
  match m.buf with
  | [] => .ok m
  | f :: rest =>
    let n := (m.rootOf f).getD (Node.new f)
    match nodeIncrement rest n m.nodes with
    | .error code => .error code
    | .ok (n', nodes') => .ok { m with root := m.root.set f.toNat (some n'), nodes := nodes' }

/-- The new context after a byte, found under the exclusions as they stand, which are then cleared (R118, R124). -/
def Model.recontext (m : Model) : Model :=
  let m' := { m with ctxlen := min m.order m.buf.length }
  { m' with ctxlen := m'.binarySearch, excl := 0 }

/-- `ModelIncrement(b)` (R124). -/
def Model.increment (m : Model) (b : Byte) : Except FaultCode Model :=
  match (m.bufPush b).insertBuffer with
  | .error code => .error code
  | .ok m' => .ok m'.recontext

/-- `ModelExclude(b)` (R125). -/
def Model.exclude (m : Model) (b : Byte) : Model := { m with excl := exclAdd m.excl b }

/-- The model after an escape from context node `n` (R123): every child excluded, the length one less, and the
context resolved again from there. -/
def Model.escapeFrom (m : Model) (n : Node) : Model :=
  let m' := { m with excl := n.kids.foldl (fun e (d : Node) => exclAdd e d.byte) m.excl, ctxlen := m.ctxlen - 1 }
  { m' with ctxlen := longToShort m' m'.ctxlen }

/-- The interval of an unexcluded byte in the current context, and the backoff update when the backoff model codes
it (R123). -/
def Model.byteInterval (m : Model) (b : Byte) : Except FaultCode (Interval × Model) :=
  if excluded m.excl b then .error .protocol
  else
    match m.ctxNode with
    | some n =>
      match n.child b with
      | some c => .ok (n.interval m.excl c, m)
      | none => .error .protocol
    | none => .ok (m.uniInterval (slotOf b), m.uniBump (slotOf b))

/-- `ModelInterval(s)` (R123): the interval of `s`, and the model after the update that coding `s` implies. -/
def Model.codeSymbol (m : Model) : Sym → Except FaultCode (Interval × Model)
  | .escape =>
    match m.ctxNode with
    | none => .error .protocol
    | some n => .ok (n.escInterval m.excl, m.escapeFrom n)
  | .eof =>
    match m.ctxNode with
    | some _ => .error .protocol
    | none => .ok (m.uniInterval eofSlot, { m.uniBump eofSlot with eofdone := true })
  | .byte b =>
    match m.byteInterval b with
    | .error code => .error code
    | .ok (iv, m') =>
      match m'.increment b with
      | .error code => .error code
      | .ok m'' => .ok (iv, m'')

end Sys2Proof.Machine
end

