-- ==== Sys2Proof/Machine/Flags.lean ====
section
/-! DEFINITION. The flag words the host reads: STATUS (R21), ERRCODE (R22), IN_CTRL (R25) and FIFO_LEVEL (R27). -/

namespace Sys2Proof.Machine

/-- STATUS.MODE (R21). -/
def modeField : Mode → Word
  | .idle => 0
  | .enc => 1
  | .dec => 2

/-- A one-bit field at bit `i`. -/
def flagBit (b : Bool) (i : Nat) : Word := if b then 1#32 <<< i else 0

/-- STATUS.CTX: a trie context node is active (R21). -/
def State.ctxFlag (s : State) : Bool := decide (1 ≤ s.model.ctxlen)

/-- The fields of STATUS that stay exact after a fault (R155): MODE, BUSY, ERR, INEND, HOLD_IN, HOLD_OUT. -/
def State.statusExact (s : State) : Word :=
  modeField s.mode ||| flagBit s.busy 2 ||| flagBit s.err 3 ||| flagBit s.inend 7 |||
    flagBit s.holdin 8 ||| flagBit s.holdout 9

/-- The other fields of STATUS: EOS, CLOSED, EOFDONE, CTX (R21). -/
def State.statusStream (s : State) : Word :=
  flagBit s.coder.eos 4 ||| flagBit s.closed 5 ||| flagBit s.model.eofdone 6 |||
    flagBit s.ctxFlag 10

/-- The places of EOS, CLOSED, EOFDONE and CTX in STATUS (R21). -/
def streamFlagsMask : Word := 0x00000470

/-- STATUS while no fault has been raised (R21). -/
def State.status (s : State) : Word := s.statusExact ||| s.statusStream

/-- STATUS after a fault, given a draw for the unspecified fields (R155). Reserved bits read 0 (R21; DEDUCED, log entry 15). -/
def State.statusFaulted (s : State) (draw : Word) : Word :=
  s.statusExact ||| (draw &&& streamFlagsMask)

/-- ERRCODE.CODE (R22, R148). -/
def codeField : Option FaultCode → Word
  | none => 0
  | some .illegalCmd => 1
  | some .interval => 2
  | some .protocol => 3
  | some .desync => 4
  | some .capacity => 5
  | some .config => 6
  | some .hostIo => 7

/-- ERRCODE (R22). -/
def State.errWord (s : State) : Word :=
  codeField s.errcode ||| (s.errop.setWidth 32 <<< 8) ||| flagBit s.errhost 16

/-- IN_CTRL as read: INEND in bit 0 (R25). -/
def State.inCtrlWord (s : State) : Word := flagBit s.inend 0

/-- A number in a field of `bits` bits, when it fits; the spec states no value when it does not, and the draw
stands there. -/
def fieldOr (bits n : Nat) (draw : Word) : Word :=
  if n < 2 ^ bits then natWord n else draw &&& natWord (2 ^ bits - 1)

/-- FIFO_LEVEL: `len(S.outq)` in [31:16], `len(S.inq)` in [15:0] (R27). -/
def State.fifoLevel (s : State) (draw : Word) : Word :=
  (fieldOr 16 s.outq.length (draw >>> 16) <<< 16) ||| fieldOr 16 s.inq.length draw

end Sys2Proof.Machine
end

