-- ==== Sys2Proof/Machine/Ops.lean ====
section
/-! DEFINITION. The shared operations of command execution: issue and completion (R61, R150), the outcomes a piece of
a command can have (done, held, raised), holding (R151), taking a fault (R154, R155), and the one way back from it,
SoftReset (R156, R162). -/

namespace Sys2Proof.Machine

/-! ### Issue and completion -/

/-- The start of a command: the operands are latched and BUSY is set (R18, R61, R150). -/
def State.issue (s : State) (op : Byte) : State :=
  { s with busy := true, a0 := s.arg0, a1 := s.arg1, a2 := s.arg2, op := op }

/-- The end of a command (R150). -/
def State.complete (s : State) : State :=
  { s with busy := false, holdin := false, holdout := false, held := [] }

/-! ### Taking a fault, and leaving it -/

/-- `raise Fault(CODE)` as R154 writes it: the first fault is recorded, BUSY and the hold flags fall, the command
ends. Nothing else changes: no mode, no vector, no saved state. -/
def State.enterFault (s : State) (code : FaultCode) (op : Byte) (host : Bool) : State :=
  { s with err := true,
           errcode := if s.err then s.errcode else some code,
           errop := if s.err then s.errop else op,
           errhost := if s.err then s.errhost else host,
           busy := false, holdin := false, holdout := false, held := [] }

/-- The stream state of the block replaced by the given one. -/
def State.withStream (s : State) (f : Stream) : State :=
  { s with res0 := f.res0, res1 := f.res1, res2 := f.res2, closed := f.closed, coder := f.coder,
           bitio := f.bitio, inq := f.inq, outq := f.outq, model := f.model }

/-- A fault raised by a command: recorded with the command's opcode (R148), and then the stream state is
unspecified (R155), which a free value stands for (DESIGN CHOICE, log entry 6). -/
def State.commandFault (s : State) (code : FaultCode) : State :=
  let s' := s.enterFault code s.op false
  { s'.withStream (Config.afterFault s.draws) with draws := s.draws + 1 }

/-- Fault(ILLEGAL_CMD) for a word with bits [7:0] = `op`. R67: an illegal word has no other effect
(log entries 6 and 23). -/
def State.illegalCommand (s : State) (op : Byte) : State :=
  (s.issue op).enterFault .illegalCmd op false

/-- Fault(HOST_IO) (R152): OP = 0, HOSTSRC = 1, and the faulting access has no other effect. -/
def State.hostFault (s : State) : State := s.enterFault .hostIo 0 true

/-- Hardware reset (R161): every state item at its reset value. What the host does next, the value it last read and
the count of draws are no state of the block. -/
def State.hardReset (s : State) : State :=
  { State.reset with hostq := s.hostq, rdata := s.rdata, draws := s.draws }

/-- `SoftReset()` (R162): the reset state, but CONFIG and the ARG registers keep their values. A held command is
aborted and a fault cleared with the rest. -/
def State.softReset (s : State) : State :=
  { s.hardReset with config := s.config, arg0 := s.arg0, arg1 := s.arg1, arg2 := s.arg2 }

/-! ### What a piece of a command can do -/

/-- A piece of a command has run to its end, has stopped at a hold with the rest of it still to do, or has raised a
fault. -/
inductive Run where
  | done (s : State)
  | held (s : State) (kind : HoldKind) (rest : List Task)
  | raised (s : State) (code : FaultCode)
  deriving DecidableEq, Repr

/-- Two pieces in sequence. `rest` is what the second piece is, for a hold inside the first. -/
def Run.andThen (r : Run) (rest : List Task) (next : State → Run) : Run :=
  match r with
  | .done s => next s
  | .held s kind ts => .held s kind (ts ++ rest)
  | .raised s code => .raised s code

/-- Two pieces in sequence, where a hold inside the first is before any effect of it: `again` starts it afresh and goes
on to the second. -/
def Run.retryAs (r : Run) (again : List Task) (next : State → Run) : Run :=
  match r with
  | .done s => next s
  | .held s kind _ => .held s kind again
  | .raised s code => .raised s code

/-- The block after a command, or the rest of one, has run: completed, held with its flag up (R151), or in the
fault state. -/
def Run.finish : Run → State
  | .done s => s.complete
  | .held s kind rest =>
    { s with busy := true, holdin := kind == .input, holdout := kind == .output, held := rest }
  | .raised s code => s.commandFault code

/-- A command as one step (R150): issue, its body, and what becomes of it. A held or faulted command is a next
state too. -/
def runCommand (op : Byte) (body : State → Run) (s : State) : Host.Outcome State Fault Refusal :=
  .next (body (s.issue op)).finish

/-- The condition of the current hold has come true, or no command is held (R77, R80, R151). -/
def State.canResume (s : State) : Bool :=
  (s.holdin && (!s.inq.isEmpty || s.inend)) || (s.holdout && !decide (Config.outDepth ≤ s.outq.length))

/-! ### Result registers -/

/-- `RES0 <- v`. -/
def State.setRes0 (s : State) (v : Word) : State := { s with res0 := v }

/-- `RES0 <- v ; RES1 <- w`. -/
def State.setRes01 (s : State) (v w : Word) : State := { s with res0 := v, res1 := w }

/-- `(RES0, RES1, RES2) <- iv`. -/
def State.setResInterval (s : State) (iv : Interval) : State :=
  { s with res0 := natWord iv.low, res1 := natWord iv.high, res2 := natWord iv.total }

/-- A piece that computes a value or raises. -/
def Run.ofExcept {α : Type} (s : State) (r : Except FaultCode α) (next : α → Run) : Run :=
  match r with
  | .error code => .raised s code
  | .ok a => next a

/-- `if cond: raise Fault(CODE)`, else go on. -/
def Run.guard (s : State) (bad : Bool) (code : FaultCode) (next : Run) : Run :=
  if bad then .raised s code else next

end Sys2Proof.Machine
end

