-- ==== Sys2Proof/Machine/BitPack.lean ====
section
/-! DEFINITION. The bit packer and unpacker: PutBit, PackerClose, GetBit and ReadCodeBit (40_bitio.md). -/

namespace Sys2Proof.Machine

/-- `2·acc + b` on a partial byte (R77). -/
def pushBit (acc : Byte) (b : Bool) : Byte := (acc <<< 1) ||| (if b then 1 else 0)

/-- The output FIFO has no space: not `len(S.outq) < OUT_DEPTH` (R77). -/
def State.outFull (s : State) : Bool := decide (Config.outDepth ≤ s.outq.length)

/-- `OutPush(byte)`, after which the packer is empty (R77, R78). -/
def State.outPush (s : State) (byte : Byte) : State :=
  { s with outq := s.outq ++ [byte], bitio := { s.bitio with oacc := 0, ocnt := 0 } }

/-- `PutBit(b)` (R77). At a hold nothing has changed yet. -/
def putBit (b : Bool) (s : State) : Run :=
  if s.bitio.ocnt = 7 then
    if s.outFull then .held s .output [.putBit b]
    else .done (s.outPush (pushBit s.bitio.oacc b))
  else
    .done { s with bitio := { s.bitio with oacc := pushBit s.bitio.oacc b, ocnt := s.bitio.ocnt + 1 } }

/-- `PackerClose()` (R78). -/
def packerClose (s : State) : Run :=
  if 0 < s.bitio.ocnt then
    if s.outFull then .held s .output [.packerClose]
    else .done (s.outPush (s.bitio.oacc <<< (8 - s.bitio.ocnt)))
  else .done s

/-- The input byte source is exhausted (R79). -/
def State.exhausted (s : State) : Bool := s.bitio.icnt == 0 && s.inq.isEmpty && s.inend

/-- `GetBit()` after its hold (R80): the next bit and the state after it, no bit when the source is exhausted, and
nothing when the byte it needs has not arrived. -/
inductive GetBit where
  | bit (b : Bool) (s : State)
  | none
  | wait
  deriving DecidableEq, Repr

/-- Take the next bit of the current byte (R80): bit 7 first, bit 0 last. -/
def State.takeBit (s : State) : GetBit :=
  .bit (s.bitio.ibyte.getLsbD (s.bitio.icnt - 1))
    { s with bitio := { s.bitio with icnt := s.bitio.icnt - 1 } }

/-- `GetBit()` (R80). A byte leaves the FIFO only when its first bit is needed. -/
def getBit (s : State) : GetBit :=
  if s.bitio.icnt = 0 then
    match s.inq with
    | byte :: rest =>
      State.takeBit { s with inq := rest, bitio := { s.bitio with ibyte := byte, icnt := 8 } }
    | [] => if s.inend then .none else .wait
  else s.takeBit

/-- A real bit shifted into `S.value` (R81). -/
def Coder.shiftIn (c : Coder) (b : Bool) : Coder := { c with value := 2 * c.value + b.toNat }

/-- A virtual 0 bit shifted into `S.value`, and the count of them kept (R81). -/
def Coder.shiftVirtual (c : Coder) : Coder :=
  let c := { c with value := 2 * c.value }
  if 0 < c.vbits then { c with vbits := c.vbits - 1, eos := c.eos || c.vbits - 1 == 0 } else c

/-- `ReadCodeBit()` (R81). -/
def readCodeBit (s : State) : Run :=
  match getBit s with
  | .bit b s' => .done { s' with coder := s'.coder.shiftIn b }
  | .none => .done { s with coder := s.coder.shiftVirtual }
  | .wait => .held s .input [.readBits 1]

/-- `ReadCodeBit()` `k` times. -/
def readBits : Nat → State → Run
  | 0, s => .done s
  | k + 1, s => (readCodeBit s).andThen [.readBits k] (readBits k)

end Sys2Proof.Machine
end

