-- ==== Sys2Proof/Machine/Renorm.lean ====
section
/-! DEFINITION. The coder's shared subroutines: CheckInterval, Narrow, BitPlusFollow, EncRenorm, DecRenorm and
DecPrime (41_coder.md). -/

namespace Sys2Proof.Machine

/-- `CheckInterval(l, h, t)` passes (R85). -/
def intervalOk (l h t : Int) : Bool := decide (0 ≤ l ∧ l < h ∧ h ≤ t ∧ t ≤ maxTotal)

/-- `CheckInterval` on an interval the model gives. -/
def Interval.ok (iv : Interval) : Bool := intervalOk iv.low iv.high iv.total

/-- The interval in the three latched operands, if it passes `CheckInterval` (R85, R92, R98). -/
def State.operandInterval (s : State) : Except FaultCode Interval :=
  if intervalOk (s32 s.a0) (s32 s.a1) (s32 s.a2) then
    .ok ⟨(s32 s.a0).toNat, (s32 s.a1).toNat, (s32 s.a2).toNat⟩
  else .error .interval

/-- `range = S.high − S.low + 1` (R86). -/
def Coder.range (c : Coder) : Nat := c.high + 1 - c.low

/-- `Narrow`: the new low bound (R86). -/
def Coder.narrowLow (c : Coder) (iv : Interval) : Nat := c.low + c.range * iv.low / iv.total

/-- `Narrow`: the new high bound (R86). -/
def Coder.narrowHigh (c : Coder) (iv : Interval) : Nat := c.low + c.range * iv.high / iv.total - 1

/-- `(S.low, S.high) <- Narrow(l, h, t)` (R86). Both bounds come from the old low. -/
def Coder.narrow (c : Coder) (iv : Interval) : Coder :=
  { c with low := c.narrowLow iv, high := c.narrowHigh iv }

/-- The condition a renormalization pass finds, tested in the order E1, E2, E3 (R88, 90_conflicts.md C3). -/
inductive Pass where
  | e1
  | e2
  | e3
  | stop
  deriving DecidableEq, Repr

/-- Which pass the bounds call for (R88, R89). -/
def Coder.pass (c : Coder) : Pass :=
  if c.high < half then .e1
  else if half ≤ c.low then .e2
  else if firstQuarter ≤ c.low ∧ c.high < thirdQuarter then .e3
  else .stop

/-- The end of a pass: both bounds less `off`, then doubled (R88, R89). -/
def Coder.shiftBounds (c : Coder) (off : Nat) : Coder :=
  { c with low := 2 * (c.low - off), high := 2 * (c.high - off) + 1 }

/-- The loop of `BitPlusFollow`, `n` being `S.btf`: while it is above 0, `PutBit(b)` and count down (R87). During a
hold `S.btf` still counts the bit that waits. -/
def followBits (b : Bool) : Nat → State → Run
  | 0, s => .done s
  | n + 1, s =>
    (putBit b s).retryAs [.follow b] fun s =>
      followBits b n { s with coder := { s.coder with btf := n } }

/-- `BitPlusFollow(b)` (R87). A hold on the first bit leaves that bit and the loop to do. -/
def bitPlusFollow (b : Bool) (s : State) : Run :=
  (putBit b s).andThen [.follow (!b)] fun s => followBits (!b) s.coder.btf s

/-- The end of an encoder pass (R88). -/
def encShift (off : Nat) (s : State) : State := { s with coder := s.coder.shiftBounds off }

/-- `EncRenorm()` with at most `n` passes (R88, R90). -/
def encRenorm : Nat → State → Run
  | 0, s => .done s
  | n + 1, s =>
    match s.coder.pass with
    | .e1 =>
      (bitPlusFollow false s).andThen [.encShift 0, .encRenorm n] fun s => encRenorm n (encShift 0 s)
    | .e2 =>
      (bitPlusFollow true s).andThen [.encShift half, .encRenorm n] fun s =>
        encRenorm n (encShift half s)
    | .e3 =>
      Run.guard s (s.coder.btf == maxBtf) .capacity
        (encRenorm n
          (encShift firstQuarter { s with coder := { s.coder with btf := s.coder.btf + 1 } }))
    | .stop => .done s

/-- Encode one interval: CheckInterval, Narrow, EncRenorm (R92, R139). -/
def encodeInterval (iv : Interval) (s : State) : Run :=
  Run.guard s (!iv.ok) .interval
    (encRenorm renormPasses { s with coder := s.coder.narrow iv })

/-- The bounds and `S.value` less `off`, the bounds doubled (R89); the next code bit doubles the value. -/
def Coder.decShift (c : Coder) (off : Nat) : Coder :=
  { c.shiftBounds off with value := c.value - off }

/-- What a decoder pass subtracts (R89). -/
def Pass.offset : Pass → Nat
  | .e1 => 0
  | .e2 => half
  | .e3 => firstQuarter
  | .stop => 0

/-- `DecRenorm()` with at most `n` passes (R89, R90). -/
def decRenorm : Nat → State → Run
  | 0, s => .done s
  | n + 1, s =>
    if s.coder.pass = .stop then .done s
    else
      (readCodeBit { s with coder := s.coder.decShift s.coder.pass.offset }).andThen [.decRenorm n]
        (decRenorm n)

/-- The count that a total maps `S.value` to (R96, R140). -/
def Coder.count (c : Coder) (t : Nat) : Nat := ((c.value + 1 - c.low) * t - 1) / c.range

/-- `S.value` lies outside the narrowed bounds (R98). -/
def Coder.misses (c : Coder) (iv : Interval) : Bool :=
  decide (c.value < c.narrowLow iv ∨ c.narrowHigh iv < c.value)

/-- Remove one interval from the stream: Narrow, the DESYNC check, and the new bounds, before `DecRenorm`
(R98, R140). -/
def Coder.remove (c : Coder) (iv : Interval) : Except FaultCode Coder :=
  if c.misses iv then .error .desync else .ok (c.narrow iv)

/-- `DecPrime()` (R95). -/
def decPrime (s : State) : Run :=
  readBits codeValueBits
    { s with coder := { s.coder with low := 0, high := topValue, value := 0, vbits := virtualBits, eos := false } }

end Sys2Proof.Machine
end

