-- ==== Sys2Proof/Machine/Loop.lean ====
section
/-! DEFINITION. StreamInit, the escape/exclusion loops of ENC_SYMBOL and DEC_SYMBOL, and how a held command goes on
(43_loop_control.md, R151). -/

namespace Sys2Proof.Machine

/-- `StreamInit()` (R136). -/
def State.streamInit (s : State) : State :=
  { s with coder := { Coder.reset with low := 0, high := topValue, vbits := virtualBits },
           closed := false, bitio := BitIO.reset, model := Model.fresh s.config.toNat }

/-- Code one symbol of the model: ModelInterval, then the coder (R139). The model is ahead of the coder at a hold. -/
def encodeSym (sym : Sym) (s : State) : Run :=
  Run.ofExcept s (s.model.codeSymbol sym) fun r => encodeInterval r.1 { s with model := r.2 }

/-- The last interval of ENC_SYMBOL, and its result (R139). -/
def encFinal (sym : Sym) (n : Nat) (s : State) : Run :=
  (encodeSym sym s).andThen [.encEnd n] fun s => .done (s.setRes0 (natWord n))

/-- The loop of ENC_SYMBOL with `n` escapes coded (R139). Each escape lowers `S.ctxlen`, so the length it starts from
bounds them, and at length 0 no symbol escapes. -/
def encLoop : Nat → Sym → Nat → State → Run
  | 0, sym, n, s => encFinal sym n s
  | more + 1, sym, n, s =>
    if s.model.escaped sym then
      (encodeSym .escape s).andThen [.encLoop more sym (n + 1)] (encLoop more sym (n + 1))
    else encFinal sym n s

/-- One decoded symbol up to its renormalization (R140): the count, the symbol, its interval, the DESYNC check and
the new bounds. -/
def decodeSym (s : State) : Except FaultCode (Sym × State) := do
  let sym ← s.model.point (s.coder.count s.model.total)
  let (iv, m) ← s.model.codeSymbol sym
  if iv.ok then
    let c ← s.coder.remove iv
    .ok (sym, { s with model := m, coder := c })
  else .error .interval

/-- The end of a pass of DEC_SYMBOL's loop (R140): after an escape `again`, else the results. -/
def decNext (again : State → Run) (sym : Sym) (n : Nat) (s : State) : Run :=
  if sym = .escape then again s else .done (s.setRes01 (symWord sym) (natWord n))

/-- The loop of DEC_SYMBOL with `n` escapes decoded (R140). Each escape lowers `S.ctxlen`, so the length it starts
from bounds them, and at length 0 no count decodes to an escape. -/
def decLoop : Nat → Nat → State → Run
  | 0, n, s =>
    Run.ofExcept s (decodeSym s) fun r =>
      (decRenorm renormPasses r.2).andThen [.decNext 0 r.1 n] (decNext .done r.1 n)
  | more + 1, n, s =>
    Run.ofExcept s (decodeSym s) fun r =>
      (decRenorm renormPasses r.2).andThen [.decNext (more + 1) r.1 n]
        (decNext (decLoop more (n + 1)) r.1 n)

/-- What follows an escape in DEC_SYMBOL's loop when at most `more` passes are left. -/
def decAgain : Nat → Nat → State → Run
  | 0, _, s => .done s
  | more + 1, n, s => decLoop more (n + 1) s

/-- One task of a held command. -/
def runTask : Task → State → Run
  | .putBit b, s => putBit b s
  | .follow b, s => followBits b s.coder.btf s
  | .encShift off, s => .done (encShift off s)
  | .encRenorm passes, s => encRenorm passes s
  | .packerClose, s => packerClose s
  | .markClosed, s => .done { s with closed := true }
  | .encLoop more sym n, s => encLoop more sym n s
  | .encEnd n, s => .done (s.setRes0 (natWord n))
  | .readBits k, s => readBits k s
  | .decRenorm passes, s => decRenorm passes s
  | .decNext more sym n, s => decNext (decAgain more n) sym n s

/-- The tasks of a held command, in order. -/
def runTasks : List Task → State → Run
  | [], s => .done s
  | t :: ts, s => (runTask t s).andThen ts (runTasks ts)

/-- The held command goes on from its hold point, its hold flag down (R151). -/
def State.resume (s : State) : State :=
  (runTasks s.held { s with holdin := false, holdout := false, held := [] }).finish

end Sys2Proof.Machine
end

