-- ==== Sys2Proof/Machine/CoderCmds.lean ====
section
/-! DEFINITION. The raw coder commands ENC_INTERVAL, ENC_CLOSE, DEC_COUNT and DEC_REMOVE (41_coder.md). -/

namespace Sys2Proof.Machine

/-- An encoder command is out of place: MODE ≠ ENC or CLOSED (R92, R93, R149). -/
def State.encBarred (s : State) : Bool := s.mode != .enc || s.closed

/-- A decoder command is out of place: MODE ≠ DEC or EOS (R96, R98, R149). -/
def State.decBarred (s : State) : Bool := s.mode != .dec || s.coder.eos

/-- ENC_INTERVAL (R92). -/
def execEncInterval (s : State) : Host.Outcome State Fault Refusal :=
  runCommand (opcode .encInterval)
    (fun s => Run.guard s s.encBarred .protocol
      (Run.ofExcept s s.operandInterval fun iv => encodeInterval iv s)) s

/-- The bit ENC_CLOSE emits first: 0 when low < FIRST_QUARTER, else 1 (R93). -/
def Coder.closeBit (c : Coder) : Bool := !decide (c.low < firstQuarter)

/-- The body of ENC_CLOSE after its checks (R93). -/
def closeStream (s : State) : Run :=
  (bitPlusFollow s.coder.closeBit { s with coder := { s.coder with btf := s.coder.btf + 1 } }).andThen
    [.packerClose, .markClosed] fun s =>
      (packerClose s).andThen [.markClosed] fun s => .done { s with closed := true }

/-- ENC_CLOSE (R93). -/
def execEncClose (s : State) : Host.Outcome State Fault Refusal :=
  runCommand (opcode .encClose)
    (fun s => Run.guard s s.encBarred .protocol
      (Run.guard s (s.coder.btf == maxBtf) .capacity (closeStream s))) s

/-- The total operand of DEC_COUNT, if it lies in [1, MAX_TOTAL] (R96). -/
def State.operandTotal (s : State) : Except FaultCode Nat :=
  if 1 ≤ s32 s.a2 ∧ s32 s.a2 ≤ maxTotal then .ok (s32 s.a2).toNat else .error .interval

/-- DEC_COUNT (R96). -/
def execDecCount (s : State) : Host.Outcome State Fault Refusal :=
  runCommand (opcode .decCount)
    (fun s => Run.guard s s.decBarred .protocol
      (Run.ofExcept s s.operandTotal fun t => .done (s.setRes0 (natWord (s.coder.count t))))) s

/-- DEC_REMOVE (R98). -/
def execDecRemove (s : State) : Host.Outcome State Fault Refusal :=
  runCommand (opcode .decRemove)
    (fun s => Run.guard s s.decBarred .protocol
      (Run.ofExcept s s.operandInterval fun iv =>
        Run.ofExcept s (s.coder.remove iv) fun c =>
          decRenorm renormPasses { s with coder := c })) s

end Sys2Proof.Machine
end

