-- ==== Sys2Proof/Machine/ControlCmds.lean ====
section
/-! DEFINITION. The control commands NOP and SOFT_RESET, and the stream starts ENC_START and DEC_START
(43_loop_control.md). -/

namespace Sys2Proof.Machine

/-- NOP (R134). -/
def execNop (s : State) : Host.Outcome State Fault Refusal := runCommand (opcode .nop) .done s

/-- SOFT_RESET (R135, R162), from any state: idle, held or faulted. -/
def execSoftReset (s : State) : Host.Outcome State Fault Refusal := .next s.softReset

/-- The checks of ENC_START and DEC_START (R137, R138): MODE first (R153), then ORDER. -/
def startChecks (s : State) (next : Run) : Run :=
  Run.guard s (s.mode != .idle) .protocol
    (Run.guard s (decide (Config.maxOrder < s.config.toNat)) .config next)

/-- ENC_START (R137). -/
def execEncStart (s : State) : Host.Outcome State Fault Refusal :=
  runCommand (opcode .encStart)
    (fun s => startChecks s (.done { s.streamInit with mode := .enc })) s

/-- DEC_START (R138). MODE reads DEC during a hold of the priming. -/
def execDecStart (s : State) : Host.Outcome State Fault Refusal :=
  runCommand (opcode .decStart)
    (fun s => startChecks s (decPrime { s.streamInit with mode := .dec })) s

end Sys2Proof.Machine
end

