-- ==== Sys2Proof/Machine/ModelCmds.lean ====
section
/-! DEFINITION. The model commands PPM_TOTAL, PPM_POINT, PPM_INTERVAL, PPM_ESCAPED, PPM_EXCLUDE and PPM_INCREMENT
(42_ppm_model.md sections 7 and 8). -/

namespace Sys2Proof.Machine

/-- A model query is out of place: MODE = IDLE (R127). -/
def State.queryBarred (s : State) : Bool := s.mode == .idle

/-- A model update is out of place: MODE = IDLE, or EOF has been coded (R127). -/
def State.updateBarred (s : State) : Bool := s.mode == .idle || s.model.eofdone

/-- PPM_TOTAL (R128). -/
def execPpmTotal (s : State) : Host.Outcome State Fault Refusal :=
  runCommand (opcode .ppmTotal)
    (fun s => Run.guard s s.queryBarred .protocol (.done (s.setRes0 (natWord s.model.total)))) s

/-- PPM_POINT (R129). -/
def execPpmPoint (s : State) : Host.Outcome State Fault Refusal :=
  runCommand (opcode .ppmPoint)
    (fun s => Run.guard s s.queryBarred .protocol
      (Run.ofExcept s (s.model.point (s32 s.a0)) fun sym => .done (s.setRes0 (symWord sym)))) s

/-- PPM_INTERVAL (R130). -/
def execPpmInterval (s : State) : Host.Outcome State Fault Refusal :=
  runCommand (opcode .ppmInterval)
    (fun s => Run.guard s s.updateBarred .protocol
      (match symOperand s.a0 with
       | none => .raised s .protocol
       | some sym =>
         Run.ofExcept s (s.model.codeSymbol sym) fun r =>
           .done ({ s with model := r.2 }.setResInterval r.1))) s

/-- PPM_ESCAPED (R131). -/
def execPpmEscaped (s : State) : Host.Outcome State Fault Refusal :=
  runCommand (opcode .ppmEscaped)
    (fun s => Run.guard s s.queryBarred .protocol
      (match byteOrEofOperand s.a0 with
       | none => .raised s .protocol
       | some sym => .done (s.setRes0 (boolWord (s.model.escaped sym))))) s

/-- PPM_EXCLUDE (R132). -/
def execPpmExclude (s : State) : Host.Outcome State Fault Refusal :=
  runCommand (opcode .ppmExclude)
    (fun s => Run.guard s s.updateBarred .protocol
      (match byteOperand s.a0 with
       | none => .raised s .protocol
       | some b => .done { s with model := s.model.exclude b })) s

/-- PPM_INCREMENT (R133). -/
def execPpmIncrement (s : State) : Host.Outcome State Fault Refusal :=
  runCommand (opcode .ppmIncrement)
    (fun s => Run.guard s s.updateBarred .protocol
      (match byteOperand s.a0 with
       | none => .raised s .protocol
       | some b => Run.ofExcept s (s.model.increment b) fun m => .done { s with model := m })) s

end Sys2Proof.Machine
end

