-- ==== Sys2Proof/Machine/SymbolCmds.lean ====
section
/-! DEFINITION. The composite commands ENC_SYMBOL and DEC_SYMBOL (43_loop_control.md section 3). -/

namespace Sys2Proof.Machine

/-- ENC_SYMBOL (R139). -/
def execEncSymbol (s : State) : Host.Outcome State Fault Refusal :=
  runCommand (opcode .encSymbol)
    (fun s => Run.guard s (s.encBarred || s.model.eofdone) .protocol
      (match byteOrEofOperand s.a0 with
       | none => .raised s .protocol
       | some sym => encLoop s.model.ctxlen sym 0 s)) s

/-- DEC_SYMBOL (R140). -/
def execDecSymbol (s : State) : Host.Outcome State Fault Refusal :=
  runCommand (opcode .decSymbol)
    (fun s => Run.guard s (s.decBarred || s.model.eofdone) .protocol
      (decLoop s.model.ctxlen 0 s)) s

end Sys2Proof.Machine
end

