-- ==== Sys2Proof/Machine/Dispatch.lean ====
section
/-! DEFINITION. The meaning of each command, one arm per constructor. -/

namespace Sys2Proof.Machine

def exec (i : Instr) (s : State) : Host.Outcome State Fault Refusal :=
  match i with
  | .nop => Sys2Proof.Machine.execNop s
  | .softReset => Sys2Proof.Machine.execSoftReset s
  | .encStart => Sys2Proof.Machine.execEncStart s
  | .encInterval => Sys2Proof.Machine.execEncInterval s
  | .encClose => Sys2Proof.Machine.execEncClose s
  | .encSymbol => Sys2Proof.Machine.execEncSymbol s
  | .decStart => Sys2Proof.Machine.execDecStart s
  | .decCount => Sys2Proof.Machine.execDecCount s
  | .decRemove => Sys2Proof.Machine.execDecRemove s
  | .decSymbol => Sys2Proof.Machine.execDecSymbol s
  | .ppmTotal => Sys2Proof.Machine.execPpmTotal s
  | .ppmPoint => Sys2Proof.Machine.execPpmPoint s
  | .ppmInterval => Sys2Proof.Machine.execPpmInterval s
  | .ppmEscaped => Sys2Proof.Machine.execPpmEscaped s
  | .ppmExclude => Sys2Proof.Machine.execPpmExclude s
  | .ppmIncrement => Sys2Proof.Machine.execPpmIncrement s

end Sys2Proof.Machine
end

