-- ==== Sys2Proof/Machine/Window.lean ====
section
/-! DEFINITION. The register window: what a host read returns and does, what a host write does, and how a CMD write
issues a command (10_state.md section 1, 60_exceptions.md section 2). -/

namespace Sys2Proof.Machine

/-- The register at a window offset, none for a reserved one (R17). -/
def regAt (offset : Nat) : Option Reg :=
  match offset with
  | 0x00 => some .cmd
  | 0x04 => some .arg0
  | 0x08 => some .arg1
  | 0x0C => some .arg2
  | 0x10 => some .res0
  | 0x14 => some .res1
  | 0x18 => some .res2
  | 0x1C => some .status
  | 0x20 => some .errcode
  | 0x24 => some .config
  | 0x28 => some .inData
  | 0x2C => some .inCtrl
  | 0x30 => some .outData
  | 0x34 => some .fifoLevel
  | 0x40 => some .obsLow
  | 0x44 => some .obsHigh
  | 0x48 => some .obsBtf
  | 0x4C => some .obsValue
  | 0x50 => some .obsVbits
  | 0x54 => some .obsCtxlen
  | 0x58 => some .obsBuflen
  | 0x5C => some .obsNodes
  | 0x60 => some .obsBits
  | 0x64 => some .obsOrder
  | 0x80 => some (.obsExcl 0)
  | 0x84 => some (.obsExcl 1)
  | 0x88 => some (.obsExcl 2)
  | 0x8C => some (.obsExcl 3)
  | 0x90 => some (.obsExcl 4)
  | 0x94 => some (.obsExcl 5)
  | 0x98 => some (.obsExcl 6)
  | 0x9C => some (.obsExcl 7)
  | _ => none

/-- The offset of a register (R17). -/
def offsetOf : Reg → Nat
  | .cmd => 0x00
  | .arg0 => 0x04
  | .arg1 => 0x08
  | .arg2 => 0x0C
  | .res0 => 0x10
  | .res1 => 0x14
  | .res2 => 0x18
  | .status => 0x1C
  | .errcode => 0x20
  | .config => 0x24
  | .inData => 0x28
  | .inCtrl => 0x2C
  | .outData => 0x30
  | .fifoLevel => 0x34
  | .obsLow => 0x40
  | .obsHigh => 0x44
  | .obsBtf => 0x48
  | .obsValue => 0x4C
  | .obsVbits => 0x50
  | .obsCtxlen => 0x54
  | .obsBuflen => 0x58
  | .obsNodes => 0x5C
  | .obsBits => 0x60
  | .obsOrder => 0x64
  | .obsExcl j => 0x80 + 4 * j.val

/-! ### Reads -/

/-- A host read that returns `v` and takes the next draw. -/
def State.readDrawn (s : State) (v : Word → Word) : State :=
  { s with rdata := v (Config.draw s.draws), draws := s.draws + 1 }

/-- A host read that returns `v`. -/
def State.readExact (s : State) (v : Word) : State := { s with rdata := v }

/-- A read of a result or OBS_ register: `v` when no command is held and no fault has been raised, else an
unspecified value (R29, R155). A number that does not fit 32 bits is unspecified too. -/
def State.readView (s : State) (v : Nat) : State :=
  if s.busy || s.err then s.readDrawn fun d => d
  else if v < 2 ^ 32 then s.readExact (natWord v)
  else s.readDrawn fun d => d

/-- A read of OUT_DATA (R26): the head byte leaves the FIFO with the valid bit set, or 0 when there is none. After a
fault the value is unspecified, in the same {valid, byte} form (R155; DEDUCED, log entry 16). -/
def State.readOutData (s : State) : State :=
  if s.err then s.readDrawn fun d => d &&& 0x1FF
  else
    match s.outq with
    | b :: rest => { s with outq := rest, rdata := 0x100 ||| b.setWidth 32 }
    | [] => s.readExact 0

/-- A read of STATUS: exact, but for the fields R155 leaves unspecified after a fault (R21, R29). -/
def State.readStatus (s : State) : State :=
  if s.err then s.readDrawn s.statusFaulted else s.readExact s.status

/-- A read of FIFO_LEVEL: exact while a command is held, unspecified after a fault (R27, R29, R155). A draw stands
for a length that does not fit its field. -/
def State.readFifoLevel (s : State) : State :=
  if s.err then s.readDrawn fun d => d
  else if s.outq.length < 2 ^ 16 ∧ s.inq.length < 2 ^ 16 then s.readExact (s.fifoLevel 0)
  else s.readDrawn s.fifoLevel

/-- OBS_BITS: {`S.icnt` in [11:8], `S.ocnt` in [2:0]} (R17). -/
def BitIO.bitsView (b : BitIO) : Nat := (b.icnt % 16) * 256 + b.ocnt % 8

/-- OBS_EXCLj: bytes 32·j .. 32·j + 31 of the exclusion set (R28). -/
def Model.exclView (m : Model) (j : Fin 8) : Nat := (m.excl.extractLsb' (32 * j.val) 32).toNat

/-- A host read of a register (R17). -/
def readReg (s : State) : Reg → State
  | .cmd => s.readExact 0
  | .arg0 => s.readExact s.arg0
  | .arg1 => s.readExact s.arg1
  | .arg2 => s.readExact s.arg2
  | .res0 => s.readView s.res0.toNat
  | .res1 => s.readView s.res1.toNat
  | .res2 => s.readView s.res2.toNat
  | .status => s.readStatus
  | .errcode => s.readExact s.errWord
  | .config => s.readExact (s.config.setWidth 32)
  | .inData => s.readExact 0
  | .inCtrl => s.readExact s.inCtrlWord
  | .outData => s.readOutData
  | .fifoLevel => s.readFifoLevel
  | .obsLow => s.readView s.coder.low
  | .obsHigh => s.readView s.coder.high
  | .obsBtf => s.readView s.coder.btf
  | .obsValue => s.readView s.coder.value
  | .obsVbits => s.readView s.coder.vbits
  | .obsCtxlen => s.readView s.model.ctxlen
  | .obsBuflen => s.readView s.model.buf.length
  | .obsNodes => s.readView s.model.nodes
  | .obsBits => s.readView s.bitio.bitsView
  | .obsOrder => s.readView s.model.order
  | .obsExcl j => s.readView (s.model.exclView j)

/-- A host read at an offset of the window; a reserved offset reads 0 (R17, R152). -/
def State.readAt (s : State) (offset : Nat) : State :=
  match regAt offset with
  | some r => readReg s r
  | none => s.readExact 0

/-! ### Writes -/

/-- The word of SOFT_RESET, the one command that is accepted in every state (R66, R135, R150). -/
def softResetWord : Word := encode .softReset

/-- Issue of a word when the block can take one: decode and execute (R61, R150). -/
def State.issueWord (s : State) (w : Word) : Host.Outcome State Fault Refusal :=
  match decode w with
  | .ok i => exec i s
  | .error _ => .next (s.illegalCommand (opField w))

/-- A host write to CMD (R150). -/
def State.writeCmd (s : State) (w : Word) : Host.Outcome State Fault Refusal :=
  if s.err then
    if w = softResetWord then exec .softReset s else .next s
  else if s.busy then
    if w = softResetWord then exec .softReset s else .next s.hostFault
  else s.issueWord w

/-- A host write to IN_DATA (R24): the byte is queued, or HOST_IO when the FIFO is full or the input has been ended.
After a fault it is ignored (R155). -/
def State.writeInData (s : State) (w : Word) : State :=
  if s.err then s
  else if Config.inDepth = s.inq.length ∨ s.inend then s.hostFault
  else { s with inq := s.inq ++ [w.extractLsb' 0 8] }

/-- A host write to IN_CTRL (R25): bit 0 sets INEND. After a fault it is ignored (R155). -/
def State.writeInCtrl (s : State) (w : Word) : State :=
  if s.err then s else { s with inend := s.inend || w.getLsbD 0 }

/-- A host write of a register. Writes to read-only registers are ignored (R17, R49, R152); ARG and CONFIG take every
write, held or faulted (R151, R155). -/
def writeReg (s : State) (w : Word) : Reg → Host.Outcome State Fault Refusal
  | .cmd => s.writeCmd w
  | .arg0 => .next { s with arg0 := w }
  | .arg1 => .next { s with arg1 := w }
  | .arg2 => .next { s with arg2 := w }
  | .config => .next { s with config := w.extractLsb' 0 16 }
  | .inData => .next (s.writeInData w)
  | .inCtrl => .next (s.writeInCtrl w)
  | .res0 | .res1 | .res2 | .status | .errcode | .outData | .fifoLevel => .next s
  | .obsLow | .obsHigh | .obsBtf | .obsValue | .obsVbits | .obsCtxlen | .obsBuflen => .next s
  | .obsNodes | .obsBits | .obsOrder | .obsExcl _ => .next s

/-- A host write at an offset of the window; a reserved offset ignores it (R17, R152). -/
def State.writeAt (s : State) (offset : Nat) (w : Word) : Host.Outcome State Fault Refusal :=
  match regAt offset with
  | some r => writeReg s w r
  | none => .next s

/-! ### Host actions -/

/-- One action on the block from outside. A misaligned or not 32-bit access is refused (R48); an offset beyond the
window is no access to the block (R17). -/
def State.hostAct (s : State) : HostAct → Host.Outcome State Fault Refusal
  | .hardReset => .next s.hardReset
  | .read offset bytes =>
    if !wordAccess offset bytes then .refused .badAccess
    else if !inWindow offset then .fault .outsideWindow
    else .next (s.readAt offset)
  | .write offset bytes w =>
    if !wordAccess offset bytes then .refused .badAccess
    else if !inWindow offset then .fault .outsideWindow
    else s.writeAt offset w

/-- The host's next action and what it has to do after it, when the host moves now: no command is held that could go
on, or the action is early (R151). -/
def State.hostTurn (s : State) : Option (HostAct × List HostEvent) :=
  match s.hostq with
  | [] => none
  | e :: rest => if s.canResume && !e.early then none else some (e.act, rest)

/-- One step of the two agents: the host's action when it moves now; else the held command goes on if it can; else
nothing is enabled, which is a stuck block while a command is held (R151) and rest while none is. -/
def State.advance (s : State) : Host.Outcome State Fault Refusal :=
  match s.hostTurn with
  | some (act, rest) => { s with hostq := rest }.hostAct act
  | none =>
    if s.canResume then .next s.resume
    else if s.busy then .fault .stuckHold
    else .next s

/-- The host's write of a word to CMD, made before any further step of the block. -/
def cmdWrite (w : Word) : HostEvent := ⟨.write (offsetOf .cmd) 4 w, true⟩

end Sys2Proof.Machine
end

