-- ==== Sys2Proof/Machine/Step.lean ====
section
/-! DEFINITION. One step of the machine, and how a command is placed for the next step. -/

namespace Sys2Proof.Machine

/-- One step: a host action, or the block going on with a held command (R15, R52). -/
def step (s : State) : Host.Outcome State Fault Refusal := s.advance

/-- The state in which the host's next action is the CMD write of the command with bits `w`. The block has no
program counter: a command is the word written to CMD (R20). -/
def State.withFetchWord (s : State) (nbits w : Nat) : State :=
  { s with hostq := cmdWrite (tableWord nbits w) :: s.hostq }

end Sys2Proof.Machine
end

