-- ==== Sys2Proof/Safety.lean ====
section
/-! DEFINITION. The terms that claims about the block use: the bit streams of the packer and unpacker, what the
coder's loops do to a coder and a bit stream when nothing holds them, the plan of a symbol's escape cascade, and the
invariants that every step keeps. -/

namespace Sys2Proof.Machine

/-! ### Bit streams (R45, R69) -/

/-- The low `n` bits of a byte, most significant first. -/
def lowBits (b : Byte) (n : Nat) : List Bool := (List.range n).map fun i => b.getLsbD (n - 1 - i)

/-- A byte sequence as bits, most significant first within each byte (R45). -/
def bytesBits (bs : List Byte) : List Bool := bs.flatMap fun b => lowBits b 8

/-- The bits the packer has been given and the host has not taken: the output FIFO, then the partial byte. -/
def State.outBits (s : State) : List Bool := bytesBits s.outq ++ lowBits s.bitio.oacc s.bitio.ocnt

/-- The bits the host has pushed and the unpacker has not returned: the current byte's unread bits, then the input
FIFO. -/
def State.inBits (s : State) : List Bool := lowBits s.bitio.ibyte s.bitio.icnt ++ bytesBits s.inq

/-- A bit sequence as a number, first bit most significant (R95). -/
def bitsValue (bits : List Bool) : Nat := bits.foldl (fun v b => 2 * v + b.toNat) 0

/-! ### The loops of the coder, without holds -/

/-- What `EncRenorm` with at most `n` passes makes of a coder, and the bits it emits (R87, R88). -/
def Coder.encTrace : Nat → Coder → Coder × List Bool
  | 0, c => (c, [])
  | n + 1, c =>
    match c.pass with
    | .e1 =>
      let r := Coder.encTrace n ({ c with btf := 0 }.shiftBounds 0)
      (r.1, false :: List.replicate c.btf true ++ r.2)
    | .e2 =>
      let r := Coder.encTrace n ({ c with btf := 0 }.shiftBounds half)
      (r.1, true :: List.replicate c.btf false ++ r.2)
    | .e3 => Coder.encTrace n ({ c with btf := c.btf + 1 }.shiftBounds firstQuarter)
    | .stop => (c, [])

/-- The coder after the intervals of a list have been encoded, and the bits emitted. -/
def Coder.encAll : List Interval → Coder → Coder × List Bool
  | [], c => (c, [])
  | iv :: ivs, c =>
    let r := (c.narrow iv).encTrace renormPasses
    let q := Coder.encAll ivs r.1
    (q.1, r.2 ++ q.2)

/-- One code bit read from a bit stream that ends in virtual zeros (R81): the coder and the rest of the stream. -/
def Coder.readBit (c : Coder) : List Bool → Coder × List Bool
  | b :: rest => (c.shiftIn b, rest)
  | [] => (c.shiftVirtual, [])

/-- What `DecRenorm` with at most `n` passes makes of a coder that reads a bit stream (R89). -/
def Coder.decTrace : Nat → Coder → List Bool → Coder × List Bool
  | 0, c, bits => (c, bits)
  | n + 1, c, bits =>
    if c.pass = .stop then (c, bits)
    else
      let r := (c.decShift c.pass.offset).readBit bits
      Coder.decTrace n r.1 r.2

/-- How many passes a renormalization of these bounds makes, at most `n` (R88, R89). -/
def Coder.passCount : Nat → Coder → Nat
  | 0, _ => 0
  | n + 1, c => if c.pass = .stop then 0 else Coder.passCount n (c.shiftBounds c.pass.offset) + 1

/-- The block has `n` more code bits to read without waiting: they have been pushed, or the input has ended (R80). -/
def State.bitsReady (s : State) (n : Nat) : Prop := s.inend = true ∨ n ≤ s.inBits.length

/-- The output FIFO has room for every byte that `n` more bits complete (R77). -/
def State.roomFor (s : State) (n : Nat) : Prop :=
  s.outq.length + (s.bitio.ocnt + n) / 8 ≤ Config.outDepth

/-- The bit counter overflows in the renormalization of these bounds (R88): its first passes are E3, up to the one that
meets `S.btf` at its maximum. -/
def Coder.overflows (c : Coder) : Prop :=
  ∃ k < renormPasses, c.btf + k = maxBtf ∧
    ∀ j ≤ k, Coder.pass ((fun d : Coder => d.shiftBounds firstQuarter)^[j] c) = .e3

/-! ### What an insertion needs -/

/-- The chain of new singleton nodes for a path (R112). -/
def Node.chain (b : Byte) : List Byte → Node
  | [] => ⟨b, 1, 0, .nil⟩
  | q :: rest => ⟨b, 1, 1, Trie.ofList [Node.chain q rest]⟩

/-- How many nodes of a path the trie below a node lacks (R111, R112). -/
def Node.missing : List Byte → Node → Nat
  | [], _ => 0
  | b :: rest, n =>
    match n.child b with
    | none => rest.length + 1
    | some c => c.missing rest

/-- No count on a path is at MAX_INDIVIDUAL_COUNT, so its insertion rescales nothing (R111). -/
def Node.noRescale : List Byte → Node → Prop
  | [], _ => True
  | b :: rest, n =>
    match n.child b with
    | none => True
    | some c => c.count < maxIndividualCount ∧ c.noRescale rest

/-- The path that ModelIncrement inserts, and the root it goes below (R124). -/
def Model.incrementPath (m : Model) (b : Byte) : List Byte × Node :=
  match (m.bufPush b).buf with
  | [] => ([], Node.new 0)
  | f :: rest => (rest, (m.rootOf f).getD (Node.new f))

/-- How many nodes ModelIncrement of a byte needs (R112, R124). -/
def Model.missing (m : Model) (b : Byte) : Nat := (m.incrementPath b).2.missing (m.incrementPath b).1

/-- ModelIncrement of a byte rescales nothing. -/
def Model.noRescale (m : Model) (b : Byte) : Prop := (m.incrementPath b).2.noRescale (m.incrementPath b).1

/-- The model codes a byte in its current context (R123): it is not excluded, and it is a child of the context node
when there is one. -/
def Model.offers (m : Model) (b : Byte) : Prop :=
  excluded m.excl b = false ∧ ∀ n, m.ctxNode = some n → n.child b ≠ none

/-! ### The context search -/

/-- `k if k < hi else hi - 1`, and the upper bound so found (R118). -/
def searchDown (lo hi : Nat) : Nat := if (hi + lo) / 2 < hi then (hi + lo) / 2 else hi - 1

/-- `k if k > lo else lo + 1` (R118). -/
def searchUp (lo hi : Nat) : Nat := if lo < (hi + lo) / 2 then (hi + lo) / 2 else lo + 1

/-- The loop of `ContextBinarySearch` without a bound on its passes (R118): from these bounds, with this length found so
far and this flag, it ends with `result`. -/
inductive SearchEnds (m : Model) : (lo hi found : Nat) → (det : Bool) → (result : Nat) → Prop where
  | stop {lo hi found : Nat} {det : Bool} : hi < lo → SearchEnds m lo hi found det found
  | unusable {lo hi found result : Nat} {det : Bool} : lo ≤ hi →
      (∀ n, m.lookup ((hi + lo) / 2) = some n → n.childless m.excl = true) →
      SearchEnds m lo (searchDown lo hi) found det result → SearchEnds m lo hi found det result
  | deterministic {lo hi found result : Nat} {det : Bool} {n : Node} : lo ≤ hi →
      m.lookup ((hi + lo) / 2) = some n → n.childless m.excl = false → n.deterministic = true →
      SearchEnds m lo (searchDown lo hi) ((hi + lo) / 2) true result → SearchEnds m lo hi found det result
  | longer {lo hi found result : Nat} {n : Node} : lo ≤ hi →
      m.lookup ((hi + lo) / 2) = some n → n.childless m.excl = false → n.deterministic = false →
      SearchEnds m (searchUp lo hi) hi ((hi + lo) / 2) false result → SearchEnds m lo hi found false result
  | keep {lo hi found result : Nat} {n : Node} : lo ≤ hi →
      m.lookup ((hi + lo) / 2) = some n → n.childless m.excl = false → n.deterministic = false →
      SearchEnds m (searchUp lo hi) hi found true result → SearchEnds m lo hi found true result

/-! ### A held command and the host that serves it -/

/-- What a host may do to a block while a command holds, short of aborting it or raising a fault (R151): write ARG0 to
ARG2 and CONFIG, read registers, take bytes from the output FIFO, push bytes and end the input. -/
structure HostServes (s s' : State) (taken pushed : List Byte) : Prop where
  eq : s' = { s with arg0 := s'.arg0, arg1 := s'.arg1, arg2 := s'.arg2, config := s'.config, outq := s'.outq,
                     inq := s.inq ++ pushed, inend := s'.inend, hostq := s'.hostq, rdata := s'.rdata,
                     draws := s'.draws }
  taken : s.outq = taken ++ s'.outq
  inend : s.inend = true → s'.inend = true ∧ pushed = []

/-- The command in `s` comes to its end in `t`, going on after each of its holds, however many: meanwhile the host takes
the bytes `taken` and pushes the bytes `pushed`. With no hold the two states are the same. -/
inductive Served : State → (taken pushed : List Byte) → State → Prop where
  | ended {s : State} : s.busy = false → Served s [] [] s
  | hold {s s' t : State} {taken pushed taken' pushed' : List Byte} : s.busy = true →
      HostServes s s' taken pushed → s'.canResume = true → Served s'.resume taken' pushed' t →
      Served s (taken ++ taken') (pushed ++ pushed') t

/-- `s` with everything a host may change during a command as it is in `t`, FIFOs apart. -/
def State.hostSideOf (s t : State) : State :=
  { s with arg0 := t.arg0, arg1 := t.arg1, arg2 := t.arg2, config := t.config, inend := t.inend,
           hostq := t.hostq, rdata := t.rdata, draws := t.draws }

/-! ### The plan of one symbol -/

/-- The intervals ENC_SYMBOL codes for a symbol, escapes first, and the model after them (R139); `more` bounds the
escapes. -/
def Model.encPlan : Nat → Model → Sym → Except FaultCode (List Interval × Model)
  | 0, m, sym => do
    let (iv, m) ← m.codeSymbol sym
    .ok ([iv], m)
  | more + 1, m, sym =>
    if m.escaped sym then do
      let (iv, m) ← m.codeSymbol .escape
      let (ivs, m) ← Model.encPlan more m sym
      .ok (iv :: ivs, m)
    else do
      let (iv, m) ← m.codeSymbol sym
      .ok ([iv], m)

/-- What DEC_SYMBOL makes of a model, a coder and a bit stream when nothing holds it (R140). -/
structure Decoded where
  sym : Sym
  escapes : Nat
  model : Model
  coder : Coder
  bits : List Bool
  /-- the code bits read, virtual ones included -/
  reads : Nat
  deriving DecidableEq, Repr

/-- One pass of DEC_SYMBOL's loop (R140). -/
def decPass (m : Model) (c : Coder) (bits : List Bool) : Except FaultCode Decoded := do
  let sym ← m.point (c.count m.total)
  let (iv, m') ← m.codeSymbol sym
  if iv.ok then
    let c' ← c.remove iv
    let r := c'.decTrace renormPasses bits
    .ok ⟨sym, 0, m', r.1, r.2, c'.passCount renormPasses⟩
  else .error .interval

/-- The loop of DEC_SYMBOL without holds (R140); `more` bounds the escapes. -/
def decPlan : Nat → Model → Coder → List Bool → Except FaultCode Decoded
  | 0, m, c, bits => decPass m c bits
  | more + 1, m, c, bits => do
    let d ← decPass m c bits
    if d.sym = .escape then
      let e ← decPlan more d.model d.coder d.bits
      .ok { e with escapes := e.escapes + 1, reads := d.reads + e.reads }
    else .ok d

/-! ### Invariants -/

/-- Packer and unpacker in range (R33). -/
def BitIO.wf (b : BitIO) : Prop := b.ocnt ≤ 7 ∧ b.oacc.toNat < 2 ^ b.ocnt ∧ b.icnt ≤ 8

/-- FIFOs within their capacities (R34). -/
def State.fifosWf (s : State) : Prop :=
  s.inq.length ≤ Config.inDepth ∧ s.outq.length ≤ Config.outDepth

/-- A coder between commands (R32, R90): ordered bounds, and no renormalization pass left to make. -/
def Coder.settled (c : Coder) : Prop :=
  c.low < half ∧ half ≤ c.high ∧ c.high ≤ topValue ∧ (c.low < firstQuarter ∨ thirdQuarter ≤ c.high)

/-- Bounds in range and in order (R32). -/
def Coder.ordered (c : Coder) : Prop := c.low ≤ c.high ∧ c.high ≤ topValue

/-- The coder's counters in range (R32). -/
def Coder.countersWf (c : Coder) : Prop := c.btf ≤ maxBtf ∧ c.vbits ≤ virtualBits

/-- The decoder's value lies in the interval (R91). -/
def Coder.holdsValue (c : Coder) : Prop := c.low ≤ c.value ∧ c.value ≤ c.high

/-- The bytes of a sibling list, in order. -/
def Trie.bytes : Trie → List Byte
  | .nil => []
  | .cons b _ _ _ next => b :: next.bytes

/-- The outcomes count of a node with the given children: at least 1 once there is a child (R114), and at most 256
above their number, so at most 512 (R36). -/
def outcomesWf (outcomes : Nat) (kids : Trie) : Prop :=
  outcomes ≤ 256 + kids.bytes.length ∧ (kids ≠ .nil → 1 ≤ outcomes)

/-- A sibling list and everything below it is well formed: distinct bytes (R36), counts in [1, 8192] and outcomes in
range (R114). -/
def Trie.wf : Trie → Prop
  | .nil => True
  | .cons b count outcomes kids next =>
    1 ≤ count ∧ count ≤ maxIndividualCount ∧ outcomesWf outcomes kids ∧ b ∉ next.bytes ∧
      kids.wf ∧ next.wf

/-- A root node of byte `b`: its count stays 1 (R36, R124). -/
def Node.rootWf (n : Node) (b : Byte) : Prop :=
  n.byte = b ∧ n.count = 1 ∧ outcomesWf n.outcomes n.children ∧ n.children.wf

/-- How many non-root nodes a root slot holds (R44). -/
def slotSize : Option Node → Nat
  | some n => n.children.size
  | none => 0

/-- How many non-root nodes the trie holds (R44). -/
def Model.storedNodes (m : Model) : Nat := (m.root.map slotSize).sum

/-- The model between commands (R35, R36, R38, R44, R114, R116): every part in its range, `S.nodes` counting the
nodes, and a context node with a child whenever `S.ctxlen` ≥ 1. -/
structure Model.Wf (m : Model) : Prop where
  order_le : m.order ≤ Config.maxOrder
  buf_le : m.buf.length ≤ m.order + 1
  ctxlen_le : m.ctxlen ≤ m.order
  root_len : m.root.length = 256
  roots : ∀ b n, m.rootOf b = some n → n.rootWf b
  uni_len : m.uni.length = 257
  uni_range : ∀ u ∈ m.uni, 1 ≤ u ∧ u ≤ maxIndividualCount
  nodes_eq : m.nodes = m.storedNodes
  nodes_le : m.nodes ≤ Config.nodeCap
  context : 1 ≤ m.ctxlen → ∃ n, m.ctxNode = some n ∧ n.kids ≠ []

/-- Running these tasks from this coder leaves the coder settled (R90): what a held command still has to do matches
the pass it stopped in. -/
def tasksSettle : List Task → Coder → Prop
  | [], c => c.settled
  | .encShift off :: ts, c =>
    c.ordered ∧ ((off = 0 ∧ c.high < half) ∨ (off = half ∧ half ≤ c.low)) ∧
      tasksSettle ts (c.shiftBounds off)
  | .encRenorm n :: ts, c =>
    c.ordered ∧ 2 ^ codeValueBits ≤ c.range * 2 ^ n ∧ ∀ c' : Coder, c'.settled → tasksSettle ts c'
  | .decRenorm n :: ts, c =>
    c.ordered ∧ 2 ^ codeValueBits ≤ c.range * 2 ^ n ∧ ∀ c' : Coder, c'.settled → tasksSettle ts c'
  | .encLoop _ _ _ :: ts, c => c.settled ∧ ∀ c' : Coder, c'.settled → tasksSettle ts c'
  | .decNext _ _ _ :: ts, c => c.settled ∧ ∀ c' : Coder, c'.settled → tasksSettle ts c'
  | .putBit _ :: ts, c => tasksSettle ts c
  | .follow _ :: ts, c => tasksSettle ts c
  | .packerClose :: ts, c => tasksSettle ts c
  | .markClosed :: ts, c => tasksSettle ts c
  | .encEnd _ :: ts, c => tasksSettle ts c
  | .readBits _ :: ts, c => tasksSettle ts c

/-- `S.value` lies in the interval (R91), counting in the code bits a held command has to shift in first, before
`DecRenorm` or the loop goes on; outside `DecRenorm` it lies there as it stands. -/
def valueInInterval (ts : List Task) (c : Coder) : Prop :=
  ∃ (due : List Nat) (rest : List Task), ts = due.map Task.readBits ++ rest ∧
    (∀ x ∈ rest, (∃ n, x = .decRenorm n) ∨ ∃ more sym n, x = .decNext more sym n) ∧
    c.low ≤ 2 ^ due.sum * c.value ∧ 2 ^ due.sum * (c.value + 1) ≤ c.high + 1 ∧
    ((∀ n, .decRenorm n ∉ ts) → c.holdsValue)

/-- The control flags agree (R21, R22, R150, R151, R154): BUSY exactly while a command is held, with exactly one hold
flag; no command in execution after a fault; a fault code exactly when ERR; HOSTSRC exactly for HOST_IO, with OP 0. -/
structure State.ControlInv (s : State) : Prop where
  busy_held : s.busy = !s.held.isEmpty
  busy_hold : s.busy = (s.holdin || s.holdout)
  one_hold : (s.holdin && s.holdout) = false
  err_idle : s.err = true → s.busy = false
  err_code : s.err = s.errcode.isSome
  host_code : s.errhost = (s.errcode == some .hostIo)
  host_op : s.errhost = true → s.errop = 0
  no_fault_op : s.err = false → s.errop = 0

/-- Packer, unpacker and FIFOs in range while no fault has been raised (R33, R34). -/
def State.BufferInv (s : State) : Prop := s.err = false → s.bitio.wf ∧ s.fifosWf

/-- The model well formed while no fault has been raised. -/
def State.ModelInv (s : State) : Prop := s.err = false → s.model.Wf

/-- The coder settled between commands, and on its way there in a held one, and in DEC mode its value in the interval,
while no fault has been raised. -/
def State.CoderInv (s : State) : Prop :=
  s.err = false → s.coder.countersWf ∧ tasksSettle s.held s.coder ∧
    (s.mode = .dec → valueInInterval s.held s.coder)

/-! ### What becomes of a command -/

/-- The state after a command that has run to its end with no effect of its own: the operands and opcode latched,
nothing in execution (R61, R150). -/
def State.completed (s : State) (i : Instr) : State :=
  { s with a0 := s.arg0, a1 := s.arg1, a2 := s.arg2, op := opcode i,
           busy := false, holdin := false, holdout := false, held := [] }

/-- `t` is `s` after a fault of command `i` (R148, R154): the record written, nothing in execution, and everything
that stays exact after a fault (R155) as it was. -/
structure State.FaultedBy (s : State) (i : Instr) (code : FaultCode) (t : State) : Prop where
  err : t.err = true
  errcode : t.errcode = some code
  errop : t.errop = opcode i
  errhost : t.errhost = false
  busy : t.busy = false
  holdin : t.holdin = false
  holdout : t.holdout = false
  held : t.held = []
  mode : t.mode = s.mode
  config : t.config = s.config
  arg0 : t.arg0 = s.arg0
  arg1 : t.arg1 = s.arg1
  arg2 : t.arg2 = s.arg2
  inend : t.inend = s.inend
  hostq : t.hostq = s.hostq
  rdata : t.rdata = s.rdata

/-- Command `i` in state `s` raises the fault. -/
def raises (i : Instr) (s : State) (code : FaultCode) : Prop :=
  ∃ t, exec i s = .next t ∧ s.FaultedBy i code t

/-- `t` is `s` after a HOST_IO fault (R152, R154): the record written, the held command gone, nothing else changed. -/
def State.hostFaulted (s : State) : State :=
  { s with err := true, errcode := some .hostIo, errop := 0, errhost := true,
           busy := false, holdin := false, holdout := false, held := [] }

/-- The ARG registers hold an interval. -/
def State.argsHold (s : State) (iv : Interval) : Prop :=
  s.arg0 = natWord iv.low ∧ s.arg1 = natWord iv.high ∧ s.arg2 = natWord iv.total

/-- No command is in execution and no fault has been raised: what the host sees as BUSY = 0 and ERR = 0. -/
def State.ready (s : State) : Prop := s.busy = false ∧ s.err = false

end Sys2Proof.Machine
end

