-- ==== Sys2Proof/Certificates/Slice0/Obligations.lean ====
section
/-! DEFINITION. What is claimed of the block, each statement from the rules of spec/ that its docstring names. -/

open Sys2Proof Sys2Proof.Machine

/-! ### Reset and the control commands -/

/-- R40: the value of every state item after hardware reset, and after SOFT_RESET with its two exceptions. The
model's own fields, which R40 does not list, stay (log entry 17); the opcode kept for the fault record is 0 (log entry
8). -/
def Obligations.ResetLeavesTheStatedValues : Prop :=
  (let s := State.reset
   s.mode = .idle ∧ s.closed = false ∧ s.model.eofdone = false ∧ s.err = false ∧ s.busy = false ∧
     s.holdin = false ∧ s.holdout = false ∧ s.coder.eos = false ∧ s.inend = false ∧ s.errhost = false ∧
     s.errcode = none ∧ s.errop = 0 ∧ s.a0 = 0 ∧ s.a1 = 0 ∧ s.a2 = 0 ∧ s.arg0 = 0 ∧ s.arg1 = 0 ∧
     s.arg2 = 0 ∧ s.res0 = 0 ∧ s.res1 = 0 ∧ s.res2 = 0 ∧ s.config = 0 ∧ s.coder.low = 0 ∧
     s.coder.high = topValue ∧ s.coder.btf = 0 ∧ s.coder.value = 0 ∧ s.coder.vbits = 27 ∧
     s.bitio.oacc = 0 ∧ s.bitio.ocnt = 0 ∧ s.bitio.ibyte = 0 ∧ s.bitio.icnt = 0 ∧ s.inq = [] ∧
     s.outq = [] ∧ s.model.order = 0 ∧ s.model.buf = [] ∧ (∀ b, s.model.rootOf b = none) ∧
     s.model.ctxlen = 0 ∧ s.model.excl = 0 ∧ s.model.uni.length = 257 ∧ (∀ u ∈ s.model.uni, u = 1) ∧
     s.model.nodes = 0) ∧
  ∀ s, s.hostAct .hardReset =
      .next { State.reset with hostq := s.hostq, rdata := s.rdata, draws := s.draws } ∧
    exec .softReset s =
      .next { State.reset with hostq := s.hostq, rdata := s.rdata, draws := s.draws,
                               config := s.config, arg0 := s.arg0, arg1 := s.arg1, arg2 := s.arg2 }

/-- R162, R135: from every state, held or faulted, SOFT_RESET gives the state of hardware reset but for CONFIG and
ARG0..ARG2, with STATUS and ERRCODE zero. -/
def Obligations.SoftResetKeepsOnlyConfigAndArgs : Prop :=
  ∀ s : State, ∃ t, exec .softReset s = .next t ∧
    t = { State.reset with hostq := s.hostq, rdata := s.rdata, draws := s.draws,
                           config := s.config, arg0 := s.arg0, arg1 := s.arg1, arg2 := s.arg2 } ∧
    t.status = 0 ∧ t.errWord = 0

/-- R134: NOP completes in every state and changes nothing, the latched copies of the operands apart
(R61; log entry 23). -/
def Obligations.NopChangesNothing : Prop :=
  ∀ s : State, exec .nop s = .next (s.completed .nop)

/-- R136, R137: ENC_START from IDLE with an order that the block accepts. -/
def Obligations.EncStartBeginsAFreshStream : Prop :=
  ∀ s : State, s.mode = .idle → s.config.toNat ≤ Config.maxOrder →
    exec .encStart s = .next
      { s.completed .encStart with
        mode := .enc, closed := false, coder := ⟨0, topValue, 0, 0, 27, false⟩, bitio := ⟨0, 0, 0, 0⟩,
        model := ⟨s.config.toNat, [], List.replicate 256 none, 0, 0, List.replicate 257 1, 0, false⟩ }

/-- R95, R136, R138: DEC_START from IDLE with an order that the block accepts and its 27 code bits at hand primes the
value with the first 27 stream bits, zeros standing for missing ones and counted off `S.vbits`. -/
def Obligations.DecStartPrimesTheValue : Prop :=
  ∀ s : State, s.mode = .idle → s.config.toNat ≤ Config.maxOrder →
    (s.inend = true ∨ 27 ≤ (bytesBits s.inq).length) →
    ∃ t, exec .decStart s = .next t ∧
      t = { s.completed .decStart with
            mode := .dec, closed := false,
            coder := { low := 0, high := topValue, btf := 0,
                       value := bitsValue ((bytesBits s.inq ++ List.replicate 27 false).take 27),
                       vbits := min 27 (bytesBits s.inq).length, eos := s.inq.isEmpty },
            bitio := t.bitio, inq := s.inq.drop 4,
            model := ⟨s.config.toNat, [], List.replicate 256 none, 0, 0, List.replicate 257 1, 0, false⟩ } ∧
      t.bitio.oacc = 0 ∧ t.bitio.ocnt = 0 ∧ t.inBits = (bytesBits s.inq).drop 27

/-- R137, R138, R153: a START out of IDLE is PROTOCOL; in IDLE an order is within MAX_ORDER or it is CONFIG. -/
def Obligations.StartsCheckModeThenOrder : Prop :=
  ∀ (s : State) (i : Instr), (i = .encStart ∨ i = .decStart) → s.err = false →
    (s.mode ≠ .idle → raises i s .protocol) ∧
    (s.mode = .idle → s.config.toNat ≤ Config.maxOrder ∨ raises i s .config)

/-! ### Encoder commands -/

/-- R92, R86, R87, R88, R77: ENC_INTERVAL with room for its bits narrows, renormalizes and appends exactly the bits of
the passes to the output stream; it touches nothing but the coder and the packer. -/
def Obligations.EncIntervalEmitsTheRenormBits : Prop :=
  ∀ (s : State) (iv : Interval), s.mode = .enc → s.closed = false → s.argsHold iv → iv.ok = true →
    s.bitio.wf → s.coder.btf + renormPasses ≤ maxBtf →
    s.roomFor ((s.coder.narrow iv).encTrace renormPasses).2.length →
    ∃ t, exec .encInterval s = .next t ∧
      t = { s.completed .encInterval with
            coder := ((s.coder.narrow iv).encTrace renormPasses).1, bitio := t.bitio, outq := t.outq } ∧
      t.outBits = s.outBits ++ ((s.coder.narrow iv).encTrace renormPasses).2 ∧
      t.bitio.wf ∧ t.bitio.ibyte = s.bitio.ibyte ∧ t.bitio.icnt = s.bitio.icnt

/-- R93, R78: ENC_CLOSE with room for its bits emits the closing bit, `S.btf` + 1 opposite bits and zeros up to a
byte, leaves the packer empty and sets CLOSED. -/
def Obligations.EncCloseEndsTheStream : Prop :=
  ∀ s : State, s.mode = .enc → s.closed = false → s.bitio.wf → s.coder.btf < maxBtf →
    let b := !decide (s.coder.low < firstQuarter)
    let bits := b :: List.replicate (s.coder.btf + 1) (!b)
    let pad := (8 - (s.bitio.ocnt + bits.length) % 8) % 8
    s.roomFor (bits.length + pad) →
    ∃ t, exec .encClose s = .next t ∧
      t = { s.completed .encClose with
            closed := true, coder := { s.coder with btf := 0 },
            bitio := { s.bitio with oacc := 0, ocnt := 0 }, outq := t.outq } ∧
      bytesBits t.outq = s.outBits ++ bits ++ List.replicate pad false

/-- R139, R141, R123: ENC_SYMBOL with room for its bits codes the intervals of the symbol's escape cascade one after
another, leaves the model after them, and returns the number of escapes. A well-formed model has a cascade for EOF, and
for a byte that is not excluded when the store has the nodes it needs: at most S.ctxlen escapes, every interval passing
CheckInterval. -/
def Obligations.EncSymbolCodesItsCascade : Prop :=
  (∀ (s : State) (sym : Sym) (ivs : List Interval) (m : Model),
    s.mode = .enc → s.closed = false → s.model.eofdone = false → sym ≠ .escape → s.arg0 = symWord sym →
    s.model.encPlan s.model.ctxlen sym = .ok (ivs, m) → (∀ iv ∈ ivs, iv.ok = true) →
    s.bitio.wf → s.coder.btf + renormPasses * ivs.length ≤ maxBtf →
    s.roomFor (Coder.encAll ivs s.coder).2.length →
    ∃ t, exec .encSymbol s = .next t ∧
      t = { s.completed .encSymbol with
            model := m, coder := (Coder.encAll ivs s.coder).1, res0 := natWord (ivs.length - 1),
            bitio := t.bitio, outq := t.outq } ∧
      t.outBits = s.outBits ++ (Coder.encAll ivs s.coder).2 ∧
      t.bitio.wf ∧ t.bitio.ibyte = s.bitio.ibyte ∧ t.bitio.icnt = s.bitio.icnt) ∧
  ∀ (m : Model) (sym : Sym), m.Wf →
    (sym = .eof ∨ ∃ b, sym = .byte b ∧ excluded m.excl b = false ∧ m.nodes + m.missing b ≤ Config.nodeCap) →
    ∃ ivs m', m.encPlan m.ctxlen sym = .ok (ivs, m') ∧ (∀ iv ∈ ivs, iv.ok = true) ∧
      1 ≤ ivs.length ∧ ivs.length ≤ m.ctxlen + 1

/-- R141: a completed ENC_SYMBOL reaches the coder, packer, FIFO and model of the primitive sequence: for a symbol
that does not escape, PPM_INTERVAL of it and ENC_INTERVAL of the result; for one that does, the same two commands for
ESCAPE and then ENC_SYMBOL again. -/
def Obligations.EncSymbolIsThePrimitiveSequence : Prop :=
  ∀ (s t : State) (sym : Sym), sym ≠ .escape → s.arg0 = symWord sym → exec .encSymbol s = .next t →
    t.ready →
    let first := if s.model.escaped sym then Sym.escape else sym
    ∃ u v, exec .ppmInterval { s with arg0 := symWord first } = .next u ∧ u.ready ∧
      exec .encInterval { u with arg0 := u.res0, arg1 := u.res1, arg2 := u.res2 } = .next v ∧ v.ready ∧
      if s.model.escaped sym then
        ∃ w, exec .encSymbol { v with arg0 := symWord sym } = .next w ∧ w.ready ∧ w.coder = t.coder ∧
          w.bitio = t.bitio ∧ w.outq = t.outq ∧ w.model = t.model
      else v.coder = t.coder ∧ v.bitio = t.bitio ∧ v.outq = t.outq ∧ v.model = t.model

/-! ### Decoder commands -/

/-- R96: DEC_COUNT writes the count of the total to RES0 and nothing else; the count lies in [0, t) when `S.value`
lies in the interval (R91). -/
def Obligations.DecCountWritesTheCount : Prop :=
  ∀ (s : State) (t : Nat), s.mode = .dec → s.coder.eos = false → 1 ≤ t → t ≤ maxTotal →
    s.arg2 = natWord t →
    let count := ((s.coder.value + 1 - s.coder.low) * t - 1) / (s.coder.high + 1 - s.coder.low)
    exec .decCount s = .next { s.completed .decCount with res0 := natWord count } ∧
    (s.coder.holdsValue → count < t)

/-- R97: the count lies in [l, h) exactly when the narrowed bounds contain the value. -/
def Obligations.CountInIntervalIffValueInBounds : Prop :=
  ∀ (c : Coder) (iv : Interval), c.settled → c.holdsValue → iv.ok = true →
    ((iv.low ≤ c.count iv.total ∧ c.count iv.total < iv.high) ↔
      (c.narrowLow iv ≤ c.value ∧ c.value ≤ c.narrowHigh iv))

/-- R98, R86, R89, R81: DEC_REMOVE of an interval that contains the value, with its bits at hand, narrows and
renormalizes, reading one stream bit a pass; it touches nothing but the coder, the unpacker and the input FIFO. -/
def Obligations.DecRemoveReadsOneBitAPass : Prop :=
  ∀ (s : State) (iv : Interval), s.mode = .dec → s.coder.eos = false → s.argsHold iv → iv.ok = true →
    s.coder.misses iv = false → s.bitsReady ((s.coder.narrow iv).passCount renormPasses) →
    ∃ t, exec .decRemove s = .next t ∧
      t = { s.completed .decRemove with
            coder := ((s.coder.narrow iv).decTrace renormPasses s.inBits).1,
            bitio := t.bitio, inq := t.inq } ∧
      t.inBits = ((s.coder.narrow iv).decTrace renormPasses s.inBits).2 ∧
      (∃ k, t.inq = s.inq.drop k) ∧ t.bitio.oacc = s.bitio.oacc ∧ t.bitio.ocnt = s.bitio.ocnt

/-- R98: an interval that does not contain the value is DESYNC. -/
def Obligations.DecRemoveOfAMissIsDesync : Prop :=
  ∀ (s : State) (iv : Interval), s.err = false → s.mode = .dec → s.coder.eos = false → s.argsHold iv →
    iv.ok = true → (s.coder.value < s.coder.narrowLow iv ∨ s.coder.narrowHigh iv < s.coder.value) →
    raises .decRemove s .desync

/-- R140, R81, R123: DEC_SYMBOL with its bits at hand returns the symbol its loop decodes and the number of escapes, and
leaves the model and the coder after them. With a well-formed model, settled bounds and the value inside them the loop
decodes a symbol after at most S.ctxlen escapes, unless a byte it decodes needs more nodes than the store has. -/
def Obligations.DecSymbolFollowsItsCascade : Prop :=
  (∀ (s : State) (d : Decoded), s.mode = .dec → s.coder.eos = false → s.model.eofdone = false →
    decPlan s.model.ctxlen s.model s.coder s.inBits = .ok d → s.bitsReady d.reads →
    ∃ t, exec .decSymbol s = .next t ∧
      t = { s.completed .decSymbol with
            model := d.model, coder := d.coder, res0 := symWord d.sym, res1 := natWord d.escapes,
            bitio := t.bitio, inq := t.inq } ∧
      d.sym ≠ .escape ∧ t.inBits = d.bits ∧
      (∃ k, t.inq = s.inq.drop k) ∧ t.bitio.oacc = s.bitio.oacc ∧ t.bitio.ocnt = s.bitio.ocnt) ∧
  ∀ (m : Model) (c : Coder) (bits : List Bool), m.Wf → c.settled → c.holdsValue →
    (∀ b, m.nodes + m.missing b ≤ Config.nodeCap) →
    ∃ d, decPlan m.ctxlen m c bits = .ok d ∧ d.sym ≠ .escape ∧ d.escapes ≤ m.ctxlen

/-- R140, R151: after its entry checks DEC_SYMBOL completes or holds, or raises CAPACITY and no other fault, whatever the
stream; and so does what is left of it after each of its holds. -/
def Obligations.DecSymbolFaultsOnlyForCapacity : Prop :=
  ∀ s u : State, s.err = false → s.mode = .dec → s.coder.eos = false → s.model.eofdone = false →
    s.model.Wf → s.coder.settled → s.coder.holdsValue → exec .decSymbol s = .next u →
    (u.err = false ∨ u.errcode = some .capacity) ∧
    ∀ (taken pushed : List Byte) (t : State), Served u taken pushed t → t.err = false ∨ t.errcode = some .capacity

/-- R91: a decoder command that completes, after however many holds, leaves `S.value` in the interval: DEC_START
establishes it, DEC_REMOVE and DEC_SYMBOL keep it. -/
def Obligations.DecoderKeepsItsValueInTheInterval : Prop :=
  (∀ (s u t : State) (taken pushed : List Byte), exec .decStart s = .next u → Served u taken pushed t → t.ready →
    t.coder.settled ∧ t.coder.holdsValue) ∧
  ∀ (s u t : State) (taken pushed : List Byte) (i : Instr), (i = .decRemove ∨ i = .decSymbol) → s.coder.settled →
    exec i s = .next u → Served u taken pushed t → t.ready → t.coder.settled ∧ t.coder.holdsValue

/-- R99: an encoder and a decoder with equal bounds that are given the same triple hold equal bounds after it. -/
def Obligations.EncoderAndDecoderMoveInLockStep : Prop :=
  ∀ s d t u : State, s.coder.low = d.coder.low → s.coder.high = d.coder.high →
    s.arg0 = d.arg0 → s.arg1 = d.arg1 → s.arg2 = d.arg2 →
    exec .encInterval s = .next t → t.ready → exec .decRemove d = .next u → u.ready →
    t.coder.low = u.coder.low ∧ t.coder.high = u.coder.high

/-- R90: after either renormalization low < HALF ≤ high, and low < FIRST_QUARTER or high ≥ THIRD_QUARTER; so the range
is at least FIRST_QUARTER + 2; and more than 27 passes change nothing. -/
def Obligations.RenormSettlesWithinTwentySevenPasses : Prop :=
  ∀ s t : State, s.coder.ordered →
    (encRenorm renormPasses s = .done t ∨ decRenorm renormPasses s = .done t) →
    t.coder.settled ∧ firstQuarter + 2 ≤ t.coder.range ∧
    ∀ k, (encRenorm renormPasses s = .done t → encRenorm (renormPasses + k) s = .done t) ∧
      (decRenorm renormPasses s = .done t → decRenorm (renormPasses + k) s = .done t)

/-! ### Bit packer and unpacker -/

/-- R77: PutBit appends one bit to the output stream, most significant first; the eighth bit of a byte pushes it, or
holds, with nothing changed, while the output FIFO is full. -/
def Obligations.PutBitAppendsOneBit : Prop :=
  ∀ (s : State) (b : Bool), s.bitio.wf →
    (s.bitio.ocnt = 7 ∧ Config.outDepth ≤ s.outq.length → putBit b s = .held s .output [.putBit b]) ∧
    (¬(s.bitio.ocnt = 7 ∧ Config.outDepth ≤ s.outq.length) →
      ∃ t, putBit b s = .done t ∧ t.outBits = s.outBits ++ [b] ∧ t.bitio.wf ∧
        t = { s with outq := t.outq, bitio := { s.bitio with oacc := t.bitio.oacc, ocnt := t.bitio.ocnt } } ∧
        (s.bitio.ocnt = 7 → t.outq = s.outq ++ [BitVec.ofNat 8 (2 * s.bitio.oacc.toNat + b.toNat)] ∧
          t.bitio.oacc = 0 ∧ t.bitio.ocnt = 0) ∧
        (s.bitio.ocnt ≠ 7 → t.outq = s.outq ∧ t.bitio.oacc.toNat = 2 * s.bitio.oacc.toNat + b.toNat ∧
          t.bitio.ocnt = s.bitio.ocnt + 1))

/-- R78: PackerClose pads the partial byte with zero bits and pushes it; with no partial byte it pushes nothing. -/
def Obligations.PackerClosePadsWithZeros : Prop :=
  ∀ s : State, s.bitio.wf →
    (s.bitio.ocnt = 0 → packerClose s = .done s) ∧
    (0 < s.bitio.ocnt → Config.outDepth ≤ s.outq.length →
      packerClose s = .held s .output [.packerClose]) ∧
    (0 < s.bitio.ocnt → s.outq.length < Config.outDepth →
      packerClose s = .done
        { s with outq := s.outq ++ [BitVec.ofNat 8 (s.bitio.oacc.toNat * 2 ^ (8 - s.bitio.ocnt))],
                 bitio := { s.bitio with oacc := 0, ocnt := 0 } } ∧
      ∀ t, packerClose s = .done t →
        t.outBits = s.outBits ++ List.replicate (8 - s.bitio.ocnt) false)

/-- R80, R81: with a stream bit at hand ReadCodeBit shifts the next bit of the input stream into the value; with the
input ended and none left it shifts in a virtual zero and counts it, setting EOS at the last; else it holds. -/
def Obligations.ReadCodeBitReadsBitsThenVirtualZeros : Prop :=
  ∀ s : State,
    (∀ (b : Bool) (rest : List Bool), s.inBits = b :: rest →
      ∃ t, readCodeBit s = .done t ∧ t.inBits = rest ∧
        t = { s with inq := t.inq, bitio := { s.bitio with ibyte := t.bitio.ibyte, icnt := t.bitio.icnt },
                     coder := { s.coder with value := 2 * s.coder.value + b.toNat } } ∧
        (t.inq = s.inq ∨ s.bitio.icnt = 0 ∧ t.inq = s.inq.drop 1)) ∧
    (s.inBits = [] → s.inend = true →
      readCodeBit s = .done { s with coder :=
        { s.coder with value := 2 * s.coder.value, vbits := s.coder.vbits - 1,
                       eos := s.coder.eos || s.coder.vbits == 1 } }) ∧
    (s.inBits = [] → s.inend = false → readCodeBit s = .held s .input [.readBits 1])

/-! ### Model operations -/

/-- R110, R108: for a child that is not excluded, NodePoint returns its byte exactly on its interval; on the outcomes
region it returns ESCAPE. -/
def Obligations.NodePointInvertsNodeInterval : Prop :=
  ∀ (n c : Node) (excl : BitVec 256) (b : Byte) (x : Nat), n.children.wf → x < n.total excl →
    (n.child b = some c → excluded excl b = false →
      ((n.interval excl c).total = n.total excl ∧
       (n.point excl x = .byte b ↔ (n.interval excl c).low ≤ x ∧ x < (n.interval excl c).high))) ∧
    (n.point excl x = .escape ↔ n.total excl - n.outcomes ≤ x)

/-- R117, R116: for a slot that is not excluded, UniPoint returns its symbol exactly on its interval, whose total is
UniTotal. -/
def Obligations.UniPointInvertsUniInterval : Prop :=
  ∀ (m : Model) (slot x : Nat), m.uni.length = 257 → slot ≤ 256 → slotExcluded m.excl slot = false →
    x < m.uniTotal →
    (m.uniInterval slot).total = m.uniTotal ∧
    (m.uniPoint x = slotSym slot ↔ (m.uniInterval slot).low ≤ x ∧ x < (m.uniInterval slot).high)

/-- R116: the update of UniInterval raises the slot by 1, and halves all 257 slots rounding up when it passes 8192;
every slot stays in [1, 8192]. -/
def Obligations.UniUpdateKeepsCountsInRange : Prop :=
  ∀ (m : Model) (slot : Nat), m.uni.length = 257 → slot ≤ 256 →
    (∀ u ∈ m.uni, 1 ≤ u ∧ u ≤ maxIndividualCount) →
    (m.uniBump slot).uni.length = 257 ∧
    (∀ u ∈ (m.uniBump slot).uni, 1 ≤ u ∧ u ≤ maxIndividualCount) ∧
    (m.uni.getD slot 0 < maxIndividualCount →
      ∀ j, (m.uniBump slot).uni.getD j 0 = m.uni.getD j 0 + if j = slot then 1 else 0) ∧
    (m.uni.getD slot 0 = maxIndividualCount →
      ∀ j, (m.uniBump slot).uni.getD j 0 = if j = slot then 4097 else (m.uni.getD j 0 + 1) / 2)

/-- R123, R107, R114: every interval the model gives satisfies 0 ≤ l < h ≤ t ≤ MAX_TOTAL with t = ModelTotal(), and
the model stays well formed. -/
def Obligations.ModelIntervalsAreValid : Prop :=
  ∀ (m m' : Model) (sym : Sym) (iv : Interval), m.Wf → m.codeSymbol sym = .ok (iv, m') →
    iv.ok = true ∧ iv.total = m.total ∧ m'.Wf

/-- R97, R110, R117: the model maps the count of a value that lies in the narrowed interval of a symbol back to that
symbol, so a decoder with the encoder's model and bounds returns the encoder's symbol. -/
def Obligations.DecoderRecoversTheCodedSymbol : Prop :=
  ∀ (m m' : Model) (c : Coder) (sym : Sym) (iv : Interval), m.Wf → c.settled → c.holdsValue →
    m.codeSymbol sym = .ok (iv, m') → c.misses iv = false →
    m.point (c.count m.total) = .ok sym

/-- R126, R123: no excluded byte is offered, an excluded byte is refused, and an escape excludes every child of the
context and keeps what was excluded. -/
def Obligations.ExcludedBytesAreNotOffered : Prop :=
  ∀ m : Model, m.uni.length = 257 →
    (∀ (x : Int) (b : Byte), m.point x = .ok (.byte b) → excluded m.excl b = false) ∧
    (∀ b : Byte, excluded m.excl b = true → m.codeSymbol (.byte b) = .error .protocol) ∧
    ∀ (iv : Interval) (m' : Model) (n : Node), m.codeSymbol .escape = .ok (iv, m') →
      m.ctxNode = some n →
      ∀ b, excluded m'.excl b = true ↔ (excluded m.excl b = true ∨ ∃ c ∈ n.kids, c.byte = b)

/-- R119, R139: an escape lowers `S.ctxlen` by at least 1 and changes neither the buffer, the trie nor the counts. -/
def Obligations.EscapeShortensTheContext : Prop :=
  ∀ (m m' : Model) (iv : Interval), m.codeSymbol .escape = .ok (iv, m') →
    m'.ctxlen < m.ctxlen ∧ m' = { m with ctxlen := m'.ctxlen, excl := m'.excl } ∧
    (1 ≤ m'.ctxlen → ∃ n, m'.ctxNode = some n ∧ n.kids ≠ [])

/-- R118: the binary search ends where the loop of R118, without a bound on its passes, ends, and there alone; more than
`S.ctxlen` passes change nothing. So it ends at length 0 or at a length up to `S.ctxlen` whose node exists and is not
childless: at the shortest length when every length is usable and deterministic, at the longest when every length is
usable and none is. -/
def Obligations.SearchEndsAtAUsableContext : Prop :=
  ∀ m : Model,
    (∀ k, SearchEnds m 1 m.ctxlen 0 false k ↔ k = m.binarySearch) ∧
    (∀ k, searchLoop m (m.ctxlen + k) 1 m.ctxlen 0 false = m.binarySearch) ∧
    (m.binarySearch = 0 ∨
      (m.binarySearch ≤ m.ctxlen ∧
        ∃ n, m.lookup m.binarySearch = some n ∧ n.childless m.excl = false)) ∧
    ∀ det : Bool, 1 ≤ m.ctxlen →
      (∀ k, 1 ≤ k → k ≤ m.ctxlen →
        ∃ n, m.lookup k = some n ∧ n.childless m.excl = false ∧ n.deterministic = det) →
      m.binarySearch = if det then 1 else m.ctxlen

/-- R124, R103: ModelIncrement leaves the backoff table, the order and EOFDONE alone, keeps the last `S.order` + 1 bytes,
inserts them as one path below the root of the oldest and leaves every other root alone, takes the context length from
the search under the exclusions as they stood, clears them, and at order 0 leaves no context. It completes when the store
has the nodes it needs. -/
def Obligations.IncrementLeavesTheBackoffTable : Prop :=
  ∀ (m : Model) (b : Byte), m.buf.length ≤ m.order + 1 →
    (m.nodes + m.missing b ≤ Config.nodeCap → ∃ m', m.increment b = .ok m') ∧
    ∀ m' : Model, m.increment b = .ok m' →
      m'.uni = m.uni ∧ m'.order = m.order ∧ m'.eofdone = m.eofdone ∧ m'.excl = 0 ∧
      m'.buf = (m.buf ++ [b]).drop (m.buf.length - m.order) ∧ (m.order = 0 → m'.ctxlen = 0) ∧
      m'.ctxlen = Model.binarySearch { m' with excl := m.excl, ctxlen := min m.order m'.buf.length } ∧
      (m.root.length = 256 →
        ∃ (f : Byte) (rest : List Byte) (n : Node), m'.buf = f :: rest ∧
          nodeIncrement rest ((m.rootOf f).getD ⟨f, 1, 0, .nil⟩) m.nodes = .ok (n, m'.nodes) ∧
          ∀ g, m'.rootOf g = if g = f then some n else m.rootOf g)

/-- R111, R112, R113, R44: inserting a path. A first byte that is no child gets a chain of new nodes in front and raises
the outcomes by 1, or raises CAPACITY when the store cannot hold the chain. A child's count goes up by 1 and the child
to the front; past 8192 the outcomes and every child's count are halved (up, and down), children below 128 are pruned
with all below them, and the child goes on with 4096. The rest of the path goes below it. The node count changes by
exactly the nodes gained or lost below the node, and a path whose missing nodes the store can hold is inserted. -/
def Obligations.NodeIncrementCountsItsNodes : Prop :=
  ∀ (n : Node) (b : Byte) (rest : List Byte) (nodes : Nat),
    (n.child b = none → nodes ≤ Config.nodeCap →
      nodeIncrement (b :: rest) n nodes =
        if nodes + (rest.length + 1) ≤ Config.nodeCap then
          .ok ({ n.withKids (Node.chain b rest :: n.kids) with outcomes := n.outcomes + 1 }, nodes + (rest.length + 1))
        else .error .capacity) ∧
    (∀ c, n.child b = some c →
      let others := n.kids.eraseP fun d => d.byte == b
      (c.count < maxIndividualCount →
        nodeIncrement (b :: rest) n nodes =
          (nodeIncrement rest { c with count := c.count + 1 } nodes).map fun r =>
            (n.withKids (r.1 :: others), r.2)) ∧
      (c.count = maxIndividualCount →
        nodeIncrement (b :: rest) n nodes =
          (nodeIncrement rest { c with count := 4096 }
              (nodes - ((others.filter fun d => d.count < 256).map Node.size).sum)).map fun r =>
            ({ n.withKids (r.1 :: (others.filter fun d => 256 ≤ d.count).map fun d =>
                { d with count := d.count / 2 }) with outcomes := (n.outcomes + 1) / 2 }, r.2))) ∧
    (nodes + n.missing (b :: rest) ≤ Config.nodeCap → ∃ r, nodeIncrement (b :: rest) n nodes = .ok r) ∧
    ∀ (n' : Node) (nodes' : Nat), nodeIncrement (b :: rest) n nodes = .ok (n', nodes') →
      n.children.size ≤ nodes →
      nodes' + n.children.size = nodes + n'.children.size ∧ n'.byte = n.byte ∧ n'.count = n.count ∧
      ∃ c others, n'.kids = c :: others ∧ c.byte = b

/-! ### Model commands -/

/-- R120, R122, R127, R128, R129, R131: the queries complete once a stream has been started, write RES0 and change nothing
else. The total is the context node's, or the backoff model's without one; a symbol escapes exactly from a context that
has no entry for it, which EOF never has. -/
def Obligations.ModelQueriesWriteOnlyTheResult : Prop :=
  ∀ s : State, s.mode ≠ .idle →
    exec .ppmTotal s = .next { s.completed .ppmTotal with res0 := natWord s.model.total } ∧
    s.model.total = (match s.model.ctxNode with
      | some n => n.outcomes + ((n.kids.filter fun c => !excluded s.model.excl c.byte).map Node.count).sum
      | none => s.model.uniTotal) ∧
    (∀ c : Nat, s.arg0 = natWord c → c < 2 ^ 31 → c < s.model.total →
      let sym := match s.model.ctxNode with
        | some n => n.point s.model.excl c
        | none => s.model.uniPoint c
      exec .ppmPoint s = .next { s.completed .ppmPoint with res0 := symWord sym }) ∧
    (∀ sym : Sym, sym ≠ .escape → s.arg0 = symWord sym →
      exec .ppmEscaped s = .next
        { s.completed .ppmEscaped with res0 := if s.model.escaped sym then 1 else 0 }) ∧
    (s.model.ctxNode = none → ∀ sym, s.model.escaped sym = false) ∧
    ∀ n, s.model.ctxNode = some n → s.model.escaped .eof = true ∧
      ∀ b, (s.model.escaped (.byte b) = true ↔ ∀ c ∈ n.kids, c.byte ≠ b)

/-- R127, R130, R123: PPM_INTERVAL of a symbol the model accepts returns the interval and leaves the model after it. The
model accepts ESCAPE with a context, EOF without one, and a byte that it offers when the store has the nodes it needs;
the interval and the model are those of the context node, or of the backoff model without one. -/
def Obligations.PpmIntervalReturnsTheInterval : Prop :=
  (∀ (s : State) (sym : Sym) (iv : Interval) (m : Model), s.mode ≠ .idle → s.model.eofdone = false →
    s.arg0 = symWord sym → s.model.codeSymbol sym = .ok (iv, m) →
    exec .ppmInterval s = .next
      { s.completed .ppmInterval with
        model := m, res0 := natWord iv.low, res1 := natWord iv.high, res2 := natWord iv.total }) ∧
  ∀ m : Model,
    (∀ n, m.ctxNode = some n →
      m.codeSymbol .escape = .ok (⟨n.total m.excl - n.outcomes, n.total m.excl, n.total m.excl⟩, m.escapeFrom n)) ∧
    (m.ctxNode = none →
      m.codeSymbol .eof = .ok (m.uniInterval 256, { m.uniBump 256 with eofdone := true })) ∧
    ∀ b : Byte, m.offers b →
      (m.nodes + m.missing b ≤ Config.nodeCap → ∃ r, m.codeSymbol (.byte b) = .ok r) ∧
      (∀ n c m', m.ctxNode = some n → n.child b = some c → m.increment b = .ok m' →
        m.codeSymbol (.byte b) = .ok (n.interval m.excl c, m')) ∧
      ∀ m', m.ctxNode = none → (m.uniBump b.toNat).increment b = .ok m' →
        m.codeSymbol (.byte b) = .ok (m.uniInterval b.toNat, m')

/-- R127, R132, R133: PPM_EXCLUDE adds its byte to the exclusion set, PPM_INCREMENT updates the model with its byte;
neither writes a result. PPM_INCREMENT completes whenever the store has the nodes its byte needs. -/
def Obligations.ExcludeAndIncrementUpdateTheModel : Prop :=
  ∀ (s : State) (b : Byte), s.mode ≠ .idle → s.model.eofdone = false → s.arg0 = symWord (.byte b) →
    exec .ppmExclude s = .next
      { s.completed .ppmExclude with model := { s.model with excl := exclAdd s.model.excl b } } ∧
    (∀ m : Model, s.model.increment b = .ok m →
      exec .ppmIncrement s = .next { s.completed .ppmIncrement with model := m }) ∧
    (s.model.nodes + s.model.missing b ≤ Config.nodeCap →
      ∃ m, s.model.increment b = .ok m ∧
        exec .ppmIncrement s = .next { s.completed .ppmIncrement with model := m })

/-- R127: a PPM_* command that completes touches only the model and the result registers. -/
def Obligations.ModelCommandsLeaveTheCoderAndTheFifos : Prop :=
  ∀ (s t : State) (i : Instr),
    i ∈ [Instr.ppmTotal, .ppmPoint, .ppmInterval, .ppmEscaped, .ppmExclude, .ppmIncrement] →
    exec i s = .next t → t.ready →
    t = { s.completed i with model := t.model, res0 := t.res0, res1 := t.res1, res2 := t.res2 }

/-- R92, R93, R96, R98: a raw coder command that raises no fault, completed or held, leaves the model, the mode, the
registers and the host's input mark alone. -/
def Obligations.RawCoderCommandsLeaveTheModel : Prop :=
  ∀ (s t : State) (i : Instr), i ∈ [Instr.encInterval, .encClose, .decCount, .decRemove] →
    exec i s = .next t → t.err = false →
    t.model = s.model ∧ t.mode = s.mode ∧ t.config = s.config ∧ t.arg0 = s.arg0 ∧ t.arg1 = s.arg1 ∧
    t.arg2 = s.arg2 ∧ t.res1 = s.res1 ∧ t.res2 = s.res2 ∧ t.inend = s.inend ∧
    (i ≠ .decCount → t.res0 = s.res0) ∧ (i ≠ .encClose → t.closed = s.closed) ∧
    (i = .encInterval ∨ i = .encClose → t.inq = s.inq) ∧
    (i = .decCount ∨ i = .decRemove → t.outq = s.outq) ∧
    (i = .decCount → t.coder = s.coder ∧ t.bitio = s.bitio ∧ t.inq = s.inq)

/-! ### Faults of commands -/

/-- R149, R153: a command in the wrong mode or stream state raises PROTOCOL, whatever its operands. -/
def Obligations.MisplacedCommandsRaiseProtocol : Prop :=
  ∀ s : State, s.err = false →
    ((s.mode ≠ .enc ∨ s.closed = true) →
      raises .encInterval s .protocol ∧ raises .encClose s .protocol ∧ raises .encSymbol s .protocol) ∧
    ((s.mode ≠ .dec ∨ s.coder.eos = true) →
      raises .decCount s .protocol ∧ raises .decRemove s .protocol ∧ raises .decSymbol s .protocol) ∧
    (s.mode = .idle →
      raises .ppmTotal s .protocol ∧ raises .ppmPoint s .protocol ∧ raises .ppmEscaped s .protocol) ∧
    (s.model.eofdone = true → raises .encSymbol s .protocol ∧ raises .decSymbol s .protocol) ∧
    ((s.mode = .idle ∨ s.model.eofdone = true) →
      raises .ppmInterval s .protocol ∧ raises .ppmExclude s .protocol ∧ raises .ppmIncrement s .protocol)

/-- R62, R64, R85, R96, R148: an operand outside its legal range is not reduced: a symbol operand raises PROTOCOL, a
triple or total raises INTERVAL. -/
def Obligations.BadOperandsFault : Prop :=
  ∀ s : State, s.err = false →
    (s.mode = .enc → s.closed = false → s.model.eofdone = false →
      (∀ sym, sym ≠ .escape → s.arg0 ≠ symWord sym) → raises .encSymbol s .protocol) ∧
    (s.mode ≠ .idle → (∀ sym, sym ≠ .escape → s.arg0 ≠ symWord sym) → raises .ppmEscaped s .protocol) ∧
    (s.mode ≠ .idle → s.model.eofdone = false → (∀ sym, s.arg0 ≠ symWord sym) →
      raises .ppmInterval s .protocol) ∧
    (s.mode ≠ .idle → s.model.eofdone = false → (∀ b, s.arg0 ≠ symWord (.byte b)) →
      raises .ppmExclude s .protocol ∧ raises .ppmIncrement s .protocol) ∧
    (¬(0 ≤ s.arg0.toInt ∧ s.arg0.toInt < s.arg1.toInt ∧ s.arg1.toInt ≤ s.arg2.toInt ∧
        s.arg2.toInt ≤ 2 ^ 25) →
      (s.mode = .enc → s.closed = false → raises .encInterval s .interval) ∧
      (s.mode = .dec → s.coder.eos = false → raises .decRemove s .interval)) ∧
    (s.mode = .dec → s.coder.eos = false → ¬(1 ≤ s.arg2.toInt ∧ s.arg2.toInt ≤ 2 ^ 25) →
      raises .decCount s .interval)

/-- R149, R121, R123: what the model refuses raises PROTOCOL: a count outside [0, total); ESCAPE with no context and
EOF with one; an excluded byte; a byte that is no child of the context node. ENC_SYMBOL meets it for an excluded
byte only. -/
def Obligations.ModelRefusalsRaiseProtocol : Prop :=
  ∀ s : State, s.err = false → s.mode ≠ .idle →
    ((s.arg0.toInt < 0 ∨ (s.model.total : Int) ≤ s.arg0.toInt) → raises .ppmPoint s .protocol) ∧
    (s.model.eofdone = false →
      (s.model.ctxNode = none → s.arg0 = symWord .escape → raises .ppmInterval s .protocol) ∧
      (∀ n, s.model.ctxNode = some n → s.arg0 = symWord .eof → raises .ppmInterval s .protocol) ∧
      (∀ b, s.arg0 = symWord (.byte b) → excluded s.model.excl b = true →
        raises .ppmInterval s .protocol ∧
        (s.mode = .enc → s.closed = false → s.model.escaped (.byte b) = false →
          raises .encSymbol s .protocol)) ∧
      (∀ n b, s.model.ctxNode = some n → s.arg0 = symWord (.byte b) → n.child b = none →
        raises .ppmInterval s .protocol))

/-- R148, R88, R93, R112: what raises CAPACITY. `S.btf` at its maximum does in ENC_CLOSE, and in the E3 pass that meets it
there in ENC_INTERVAL and in the first interval of ENC_SYMBOL. ModelIncrement of a byte that needs more nodes than the
store has left does, wherever its path ends, unless a rescale on the way frees some; with it do PPM_INCREMENT,
PPM_INTERVAL of a byte the model offers, ENC_SYMBOL of one that does not escape, and DEC_SYMBOL of the byte it decodes
first. -/
def Obligations.FullStoresRaiseCapacity : Prop :=
  (∀ s : State, s.err = false → s.mode = .enc → s.closed = false →
    (s.coder.btf = 2 ^ 32 - 1 → raises .encClose s .capacity) ∧
    (∀ iv, s.argsHold iv → iv.ok = true → (s.coder.narrow iv).overflows →
      raises .encInterval s .capacity) ∧
    ∀ (sym : Sym) (iv : Interval) (m : Model), s.model.eofdone = false → sym ≠ .escape → s.arg0 = symWord sym →
      s.model.codeSymbol (if s.model.escaped sym then .escape else sym) = .ok (iv, m) → iv.ok = true →
      (s.coder.narrow iv).overflows → raises .encSymbol s .capacity) ∧
  (∀ (m : Model) (b : Byte), m.nodes ≤ Config.nodeCap →
    Config.nodeCap < m.nodes + m.missing b → m.noRescale b →
    m.increment b = .error .capacity ∧ (m.offers b → m.codeSymbol (.byte b) = .error .capacity)) ∧
  ∀ (s : State) (b : Byte), s.err = false → s.mode ≠ .idle → s.model.eofdone = false →
    (s.arg0 = symWord (.byte b) → s.model.increment b = .error .capacity → raises .ppmIncrement s .capacity) ∧
    (s.model.codeSymbol (.byte b) = .error .capacity →
      (s.arg0 = symWord (.byte b) → raises .ppmInterval s .capacity) ∧
      (s.arg0 = symWord (.byte b) → s.mode = .enc → s.closed = false → s.model.escaped (.byte b) = false →
        raises .encSymbol s .capacity) ∧
      (s.mode = .dec → s.coder.eos = false → s.model.point (s.coder.count s.model.total) = .ok (.byte b) →
        raises .decSymbol s .capacity))

/-- R67, R148: a word that is none of the 16 is illegal: bits [31:8] not zero, or a reserved opcode; writing it to CMD
raises ILLEGAL_CMD, records bits [7:0], and has no other effect, the copies latched at issue apart (R61; log entries 8 and
23). That everything else keeps its value, which R155 leaves unspecified, is the model's choice (log entry 6). -/
def Obligations.IllegalWordsFault : Prop :=
  ∀ w : Word,
    ((∀ i, w ≠ encode i) ↔
      (w >>> 8 ≠ 0 ∨ (0x02 ≤ w.toNat % 256 ∧ w.toNat % 256 ≤ 0x0F) ∨
        (0x14 ≤ w.toNat % 256 ∧ w.toNat % 256 ≤ 0x1F) ∨ (0x24 ≤ w.toNat % 256 ∧ w.toNat % 256 ≤ 0x2F) ∨
        0x36 ≤ w.toNat % 256)) ∧
    ((∀ i, w ≠ encode i) → ∀ s : State, s.ready →
      s.hostAct (.write 0x00 4 w) = .next
        { s with a0 := s.arg0, a1 := s.arg1, a2 := s.arg2, op := w.extractLsb' 0 8,
                 err := true, errcode := some .illegalCmd, errop := w.extractLsb' 0 8, errhost := false,
                 busy := false, holdin := false, holdout := false, held := [] })

/-! ### Decoding and stepping -/

/-- R66, R60: decoding the word of a command gives the command, and a word that decodes to a command is its word. -/
def Obligations.DecodeInvertsEncode : Prop :=
  (∀ i : Instr, i.wf = true → decode (encode i) = .ok i) ∧
  ∀ (w : Word) (i : Instr), decode w = .ok i → w = encode i

/-- R66: the words that decode to commands are the sixteen of the opcode table, each to its row's command, and no other
word does; the high nibble of the opcode names the family: control, encoder, decoder, model. -/
def Obligations.TableWordsDecode : Prop :=
  (∀ (w : Word) (i : Instr), decode w = .ok i ↔
    (w, i) ∈ [((0x00000000 : Word), Instr.nop), (0x00000001, .softReset), (0x00000010, .encStart),
      (0x00000011, .encInterval), (0x00000012, .encClose), (0x00000013, .encSymbol), (0x00000020, .decStart),
      (0x00000021, .decCount), (0x00000022, .decRemove), (0x00000023, .decSymbol), (0x00000030, .ppmTotal),
      (0x00000031, .ppmPoint), (0x00000032, .ppmInterval), (0x00000033, .ppmEscaped), (0x00000034, .ppmExclude),
      (0x00000035, .ppmIncrement)]) ∧
  (∀ (w : Word) (i : Instr), decode w = .ok i → w.toNat / 16 = match i with
    | .nop | .softReset => 0
    | .encStart | .encInterval | .encClose | .encSymbol => 1
    | .decStart | .decCount | .decRemove | .decSymbol => 2
    | .ppmTotal | .ppmPoint | .ppmInterval | .ppmEscaped | .ppmExclude | .ppmIncrement => 3) ∧
  decode 0x00000140 = .error .mbzNonzero ∧ decode 0x00000002 = .error .unknownOpcode

/-- R150, R61: when the host's next action is the CMD write of a word that decodes to a command, the step is that
command's meaning, in the state with the action taken off the host's list; SOFT_RESET in every state, any other
command when no command is held and no fault has been raised. The list and the early mark are the model's (log
entries 2 and 3). -/
def Obligations.StepRunsTheDecodedCommand : Prop :=
  ∀ (s : State) (w : Word) (i : Instr) (early : Bool) (rest : List HostEvent),
    s.hostq = ⟨.write 0x00 4 w, early⟩ :: rest → (early = true ∨ s.canResume = false) →
    decode w = .ok i → (i = .softReset ∨ s.ready) →
    step s = exec i { s with hostq := rest }

/-- R151, R52: a held command goes on when its condition has come true and the host's next action is not earlier; it
is stuck when the condition is false and the host does nothing more; with no command held the block rests. The early
mark, the name stuckHold and the resting step are the model's (log entries 3, 10 and 11). -/
def Obligations.HeldCommandResumesOrIsStuck : Prop :=
  ∀ s : State,
    (s.canResume = true ↔
      (s.holdin = true ∧ (s.inq ≠ [] ∨ s.inend = true)) ∨
      (s.holdout = true ∧ s.outq.length < Config.outDepth)) ∧
    (s.canResume = true → (∀ e ∈ s.hostq.head?, e.early = false) → step s = .next s.resume) ∧
    (s.canResume = false → s.hostq = [] → s.busy = true → step s = .fault .stuckHold) ∧
    (s.canResume = false → s.hostq = [] → s.busy = false → step s = .next s)

/-- R151, R52, R77 to R81, R88, R89, R93, R95, P7: holds change nothing of what a command does. An encoder
renormalization that was held and then ran to its end leaves the coder and the bit stream of one that was not held. A
command that comes to its end after any number of holds, whatever the host did meanwhile, leaves what it leaves with room
for all its bits, or with all its bits at hand: for an encoder command the bytes the host took and what is left are the
old output stream and the command's bits; a decoder command has read the old input stream with the pushed bytes after
it. -/
def Obligations.HoldsChangeNoBit : Prop :=
  (∀ (s s' t : State) (rest : List Task) (q : List Byte), s.bitio.wf →
    encRenorm renormPasses s = .held s' .output rest →
    runTasks rest { s' with outq := q } = .done t →
    t.coder = (s.coder.encTrace renormPasses).1 ∧
    ∃ tail, s'.outBits ++ tail = s.outBits ++ (s.coder.encTrace renormPasses).2 ∧
      t.outBits = bytesBits q ++ lowBits s'.bitio.oacc s'.bitio.ocnt ++ tail) ∧
  (∀ (s u t : State) (i : Instr) (taken pushed : List Byte), s.mode = .enc → s.closed = false → s.bitio.wf →
    exec i s = .next u → Served u taken pushed t →
    (∀ iv, i = .encInterval → s.argsHold iv → iv.ok = true → s.coder.btf + renormPasses ≤ maxBtf →
      t = { (s.completed i).hostSideOf t with
            coder := ((s.coder.narrow iv).encTrace renormPasses).1, bitio := t.bitio, outq := t.outq,
            inq := s.inq ++ pushed } ∧
      bytesBits taken ++ t.outBits = s.outBits ++ ((s.coder.narrow iv).encTrace renormPasses).2 ∧
      t.bitio.wf ∧ t.bitio.ibyte = s.bitio.ibyte ∧ t.bitio.icnt = s.bitio.icnt) ∧
    (i = .encClose → s.coder.btf < maxBtf →
      t = { (s.completed i).hostSideOf t with
            closed := true, coder := { s.coder with btf := 0 },
            bitio := { s.bitio with oacc := 0, ocnt := 0 }, outq := t.outq, inq := s.inq ++ pushed } ∧
      let b := !decide (s.coder.low < firstQuarter)
      let bits := b :: List.replicate (s.coder.btf + 1) (!b)
      bytesBits (taken ++ t.outq) =
        s.outBits ++ bits ++ List.replicate ((8 - (s.bitio.ocnt + bits.length) % 8) % 8) false) ∧
    (∀ (sym : Sym) (ivs : List Interval) (m : Model), i = .encSymbol → s.model.eofdone = false → sym ≠ .escape →
      s.arg0 = symWord sym → s.model.encPlan s.model.ctxlen sym = .ok (ivs, m) → (∀ iv ∈ ivs, iv.ok = true) →
      s.coder.btf + renormPasses * ivs.length ≤ maxBtf →
      t = { (s.completed i).hostSideOf t with
            model := m, coder := (Coder.encAll ivs s.coder).1, res0 := natWord (ivs.length - 1),
            bitio := t.bitio, outq := t.outq, inq := s.inq ++ pushed } ∧
      bytesBits taken ++ t.outBits = s.outBits ++ (Coder.encAll ivs s.coder).2 ∧
      t.bitio.wf ∧ t.bitio.ibyte = s.bitio.ibyte ∧ t.bitio.icnt = s.bitio.icnt)) ∧
  ∀ (s u t : State) (i : Instr) (taken pushed : List Byte), exec i s = .next u → Served u taken pushed t →
    (i = .decStart → s.mode = .idle → s.config.toNat ≤ Config.maxOrder →
      let stream := bytesBits (s.inq ++ pushed)
      t = { (s.completed i).hostSideOf t with
            mode := .dec, closed := false,
            coder := { low := 0, high := topValue, btf := 0,
                       value := bitsValue ((stream ++ List.replicate 27 false).take 27),
                       vbits := min 27 stream.length, eos := stream.isEmpty },
            bitio := t.bitio, inq := t.inq, outq := t.outq,
            model := ⟨s.config.toNat, [], List.replicate 256 none, 0, 0, List.replicate 257 1, 0, false⟩ } ∧
      t.inBits = stream.drop 27 ∧ t.bitio.oacc = 0 ∧ t.bitio.ocnt = 0 ∧ s.outq = taken ++ t.outq) ∧
    (∀ iv, i = .decRemove → s.mode = .dec → s.coder.eos = false → s.argsHold iv → iv.ok = true →
      s.coder.misses iv = false →
      let r := (s.coder.narrow iv).decTrace renormPasses (s.inBits ++ bytesBits pushed)
      t = { (s.completed i).hostSideOf t with
            coder := r.1, bitio := t.bitio, inq := t.inq, outq := t.outq } ∧
      t.inBits = r.2 ∧ t.bitio.oacc = s.bitio.oacc ∧ t.bitio.ocnt = s.bitio.ocnt ∧ s.outq = taken ++ t.outq) ∧
    ∀ d, i = .decSymbol → s.mode = .dec → s.coder.eos = false → s.model.eofdone = false →
      decPlan s.model.ctxlen s.model s.coder (s.inBits ++ bytesBits pushed) = .ok d →
      t = { (s.completed i).hostSideOf t with
            model := d.model, coder := d.coder, res0 := symWord d.sym, res1 := natWord d.escapes,
            bitio := t.bitio, inq := t.inq, outq := t.outq } ∧
      t.inBits = d.bits ∧ t.bitio.oacc = s.bitio.oacc ∧ t.bitio.ocnt = s.bitio.ocnt ∧ s.outq = taken ++ t.outq

/-! ### The register window -/

/-- R24, R152, R154: an IN_DATA write appends its low byte at the tail of the input FIFO, or raises HOST_IO when the FIFO
is full or the input has been ended; a read returns 0. That everything but the record and a held command keeps its value
after the fault, which R155 leaves unspecified, is the model's choice (log entry 6). -/
def Obligations.InDataPushesOrFaults : Prop :=
  ∀ (s : State) (w : Word), s.err = false →
    (s.inq.length ≠ Config.inDepth → s.inend = false →
      s.hostAct (.write 0x28 4 w) = .next { s with inq := s.inq ++ [w.extractLsb' 0 8] }) ∧
    (s.inq.length = Config.inDepth ∨ s.inend = true →
      s.hostAct (.write 0x28 4 w) = .next s.hostFaulted) ∧
    s.hostAct (.read 0x28 4) = .next { s with rdata := 0 }

/-- R26: an OUT_DATA read takes the head byte and returns it with bit 8 set, or returns 0 and changes nothing when the
FIFO is empty; writes are ignored. -/
def Obligations.OutDataPopsTheHead : Prop :=
  ∀ (s : State) (w : Word), s.err = false →
    (∀ b rest, s.outq = b :: rest →
      s.hostAct (.read 0x30 4) = .next { s with outq := rest, rdata := BitVec.ofNat 32 (256 + b.toNat) }) ∧
    (s.outq = [] → s.hostAct (.read 0x30 4) = .next { s with rdata := 0 }) ∧
    s.hostAct (.write 0x30 4 w) = .next s

/-- R18, R23, R25, R155: ARG and CONFIG take every write, held or faulted, and read back (CONFIG its low half);
IN_CTRL bit 0 sets INEND while no fault has been raised and reads back. -/
def Obligations.PlainRegistersReadBack : Prop :=
  ∀ (s : State) (w : Word),
    s.hostAct (.write 0x04 4 w) = .next { s with arg0 := w } ∧
    s.hostAct (.write 0x08 4 w) = .next { s with arg1 := w } ∧
    s.hostAct (.write 0x0C 4 w) = .next { s with arg2 := w } ∧
    s.hostAct (.write 0x24 4 w) = .next { s with config := w.extractLsb' 0 16 } ∧
    s.hostAct (.read 0x04 4) = .next { s with rdata := s.arg0 } ∧
    s.hostAct (.read 0x08 4) = .next { s with rdata := s.arg1 } ∧
    s.hostAct (.read 0x0C 4) = .next { s with rdata := s.arg2 } ∧
    s.hostAct (.read 0x24 4) = .next { s with rdata := BitVec.ofNat 32 s.config.toNat } ∧
    (s.err = false → s.hostAct (.write 0x2C 4 w) = .next { s with inend := s.inend || w.getLsbD 0 }) ∧
    s.hostAct (.read 0x2C 4) = .next { s with rdata := if s.inend then 1 else 0 }

/-- R21, R155: the fields of STATUS, bit by bit; after a fault MODE, BUSY, ERR, INEND and the hold flags stay exact and
the reserved bits stay 0, which is the model's reading of R155 (log entry 15). -/
def Obligations.StatusFieldsStandInTheirPlaces : Prop :=
  ∀ s : State,
    (∃ v, s.hostAct (.read 0x1C 4) = .next { s with rdata := v, draws := if s.err then s.draws + 1 else s.draws } ∧
      v.toNat % 4 = (match s.mode with | .idle => 0 | .enc => 1 | .dec => 2) ∧
      v.getLsbD 2 = s.busy ∧ v.getLsbD 3 = s.err ∧ v.getLsbD 7 = s.inend ∧ v.getLsbD 8 = s.holdin ∧
      v.getLsbD 9 = s.holdout ∧ v.toNat < 2 ^ 11 ∧
      (s.err = false → v.getLsbD 4 = s.coder.eos ∧ v.getLsbD 5 = s.closed ∧
        v.getLsbD 6 = s.model.eofdone ∧ v.getLsbD 10 = decide (1 ≤ s.model.ctxlen)))

/-- R22, R27, R28: ERRCODE's fields, FIFO_LEVEL's fields and the bits of the OBS_EXCL registers. -/
def Obligations.RecordLevelAndExclusionViews : Prop :=
  ∀ s : State,
    (∃ v, s.hostAct (.read 0x20 4) = .next { s with rdata := v } ∧
      v.toNat % 16 = (match s.errcode with
        | none => 0 | some .illegalCmd => 1 | some .interval => 2 | some .protocol => 3
        | some .desync => 4 | some .capacity => 5 | some .config => 6 | some .hostIo => 7) ∧
      v.toNat / 256 % 256 = s.errop.toNat ∧ v.getLsbD 16 = s.errhost ∧ v.toNat < 2 ^ 17) ∧
    (s.err = false → s.outq.length < 2 ^ 16 → s.inq.length < 2 ^ 16 →
      s.hostAct (.read 0x34 4) = .next
        { s with rdata := BitVec.ofNat 32 (s.outq.length * 2 ^ 16 + s.inq.length) }) ∧
    (s.ready → ∀ j : Fin 8, ∃ v, s.hostAct (.read (0x80 + 4 * j.val) 4) = .next { s with rdata := v } ∧
      ∀ i < 32, v.getLsbD i = excluded s.model.excl (BitVec.ofNat 8 (32 * j.val + i)))

/-- R29, R155, R17, R19: while a command is held or after a fault a read of a result register or an OBS_ register returns
an unspecified value and changes no state of the block; else it is exact, a number that fits 32 bits. A read of CMD
returns 0. The draws are the model's (log entry 5). -/
def Obligations.ViewsAreExactOnlyWhenReady : Prop :=
  ∀ s : State,
    let views : List (Nat × Nat) :=
      [(0x10, s.res0.toNat), (0x14, s.res1.toNat), (0x18, s.res2.toNat), (0x40, s.coder.low), (0x44, s.coder.high),
       (0x48, s.coder.btf), (0x4C, s.coder.value), (0x50, s.coder.vbits), (0x54, s.model.ctxlen),
       (0x58, s.model.buf.length), (0x5C, s.model.nodes), (0x64, s.model.order)]
    (s.ready → ∀ v ∈ views, v.2 < 2 ^ 32 →
      s.hostAct (.read v.1 4) = .next { s with rdata := BitVec.ofNat 32 v.2 }) ∧
    (s.ready → s.bitio.wf →
      s.hostAct (.read 0x60 4) = .next { s with rdata := BitVec.ofNat 32 (s.bitio.icnt * 256 + s.bitio.ocnt) }) ∧
    (¬ s.ready → ∀ o ∈ views.map Prod.fst ++ [0x60, 0x80, 0x84, 0x88, 0x8C, 0x90, 0x94, 0x98, 0x9C],
      ∃ v, s.hostAct (.read o 4) = .next { s with rdata := v, draws := s.draws + 1 }) ∧
    s.hostAct (.read 0x00 4) = .next { s with rdata := 0 }

/-- R17, R48, R49, R152: a reserved offset reads 0 and ignores writes, as read-only registers do; a misaligned or not
32-bit access is refused; an offset beyond the window is no access, the model's fault outsideWindow (log entry 18);
every other access is admitted. -/
def Obligations.WindowAdmitsAlignedWords : Prop :=
  ∀ (s : State) (o n : Nat) (w : Word),
    (¬(n = 4 ∧ o % 4 = 0) →
      s.hostAct (.read o n) = .refused .badAccess ∧ s.hostAct (.write o n w) = .refused .badAccess) ∧
    (n = 4 → o % 4 = 0 → 256 ≤ o →
      s.hostAct (.read o n) = .fault .outsideWindow ∧ s.hostAct (.write o n w) = .fault .outsideWindow) ∧
    (n = 4 → o % 4 = 0 → o < 256 →
      (∃ t u, s.hostAct (.read o n) = .next t ∧ s.hostAct (.write o n w) = .next u) ∧
      ((o = 0x38 ∨ o = 0x3C ∨ 0x68 ≤ o ∧ o < 0x80 ∨ 0xA0 ≤ o) →
        s.hostAct (.read o n) = .next { s with rdata := 0 }) ∧
      ((0x10 ≤ o ∧ o < 0x24 ∨ 0x30 ≤ o) → s.hostAct (.write o n w) = .next s))

/-- R150, R152, R155, R156: while a command is held a CMD write other than SOFT_RESET is HOST_IO; after a fault it is
ignored, as are IN_DATA and IN_CTRL writes; SOFT_RESET clears either. That everything but the record and the held command
keeps its value after HOST_IO, which R155 leaves unspecified, is the model's choice (log entry 6). -/
def Obligations.BusyAndFaultedBlocksTakeOnlySoftReset : Prop :=
  ∀ (s : State) (w : Word),
    (w ≠ 0x00000001 → s.err = false → s.busy = true →
      s.hostAct (.write 0x00 4 w) = .next s.hostFaulted) ∧
    (s.err = true →
      (w ≠ 0x00000001 → s.hostAct (.write 0x00 4 w) = .next s) ∧
      s.hostAct (.write 0x28 4 w) = .next s ∧ s.hostAct (.write 0x2C 4 w) = .next s) ∧
    (s.err = true ∨ s.busy = true →
      ∃ t, s.hostAct (.write 0x00 4 0x00000001) = .next t ∧ t.ready ∧ t.mode = .idle ∧ t.config = s.config)

/-! ### Invariants that every step keeps -/

/-- The reset state meets every invariant below (R40, R90). -/
def Obligations.ResetMeetsTheInvariants : Prop :=
  State.reset.ControlInv ∧ State.reset.BufferInv ∧ State.reset.ModelInv ∧ State.reset.CoderInv

/-- R21, R22, R150, R151, R154: every step keeps the control flags in agreement. The held task list is the
model's (log entry 9). -/
def Obligations.StepKeepsTheControlFlags : Prop :=
  ∀ s t : State, s.ControlInv → step s = .next t → t.ControlInv

/-- R33, R34: every step keeps packer, unpacker and FIFOs in range. -/
def Obligations.StepKeepsTheBuffers : Prop :=
  ∀ s t : State, s.BufferInv → step s = .next t → t.BufferInv

/-- R35, R36, R38, R44, R114, R116: every step keeps the model well formed. -/
def Obligations.StepKeepsTheModel : Prop :=
  ∀ s t : State, s.ModelInv → step s = .next t → t.ModelInv

/-- R32, R90: every step keeps the coder's bounds in order, its counters in range, and settled between commands. -/
def Obligations.StepKeepsTheCoder : Prop :=
  ∀ s t : State, s.ControlInv → s.CoderInv → step s = .next t → t.CoderInv
end

