-- ==== Sys2Proof/Laws/Bits.lean ====
section
/-! SUPPORT. Bytes as bits, most significant first (R45), and what the packer and unpacker do to them. -/

namespace Sys2Proof.Laws

open Sys2Proof.Machine

/-! ### Bytes as bits -/

@[simp] theorem lowBits_zero (b : Byte) : lowBits b 0 = [] := rfl

theorem lowBits_succ (b : Byte) (n : Nat) : lowBits b (n + 1) = b.getLsbD n :: lowBits b n := by
  simp only [lowBits, List.range_succ_eq_map, List.map_cons, List.map_map]
  congr 1
  apply List.map_congr_left
  intro i _
  simp only [Function.comp]
  congr 1
  omega

@[simp] theorem lowBits_length (b : Byte) (n : Nat) : (lowBits b n).length = n := by simp [lowBits]

@[simp] theorem bytesBits_nil : bytesBits [] = [] := rfl

@[simp] theorem bytesBits_cons (b : Byte) (bs : List Byte) :
    bytesBits (b :: bs) = lowBits b 8 ++ bytesBits bs := rfl

@[simp] theorem bytesBits_append (xs ys : List Byte) :
    bytesBits (xs ++ ys) = bytesBits xs ++ bytesBits ys := by
  simp [bytesBits]

@[simp] theorem bytesBits_length (bs : List Byte) : (bytesBits bs).length = 8 * bs.length := by
  induction bs with
  | nil => rfl
  | cons b bs ih => simp [ih]; omega

theorem bytesBits_eq_nil {bs : List Byte} : bytesBits bs = [] ↔ bs = [] := by
  constructor
  · intro h
    have := congrArg List.length h
    simpa using this
  · rintro rfl
    rfl

/-! ### The packer's partial byte -/

theorem pushBit_toNat {acc : Byte} (h : acc.toNat < 128) (b : Bool) :
    (pushBit acc b).toNat = 2 * acc.toNat + b.toNat := by
  have h2 : acc.toNat * 2 % 256 = acc.toNat * 2 := Nat.mod_eq_of_lt (by omega)
  cases b with
  | false =>
    simp only [pushBit, BitVec.toNat_or, BitVec.toNat_shiftLeft, Nat.shiftLeft_eq]
    simp [h2]; omega
  | true =>
    simp only [pushBit, BitVec.toNat_or, BitVec.toNat_shiftLeft, Nat.shiftLeft_eq]
    simp only [pow_one, Nat.reducePow, h2, if_true, Bool.toNat_true]
    have : (1#8).toNat = 1 := rfl
    have hor : ∀ m : Nat, m * 2 ||| 1 = 2 * m + 1 := by
      intro m
      have := Nat.two_pow_add_eq_or_of_lt (i := 1) (b := 1) (by omega) m
      rw [pow_one] at this
      rw [this, Nat.mul_comm]
    simpa using hor acc.toNat

theorem pushBit_getLsbD (acc : Byte) (b : Bool) (i : Nat) :
    (pushBit acc b).getLsbD i = if i = 0 then b else decide (i < 8) && acc.getLsbD (i - 1) := by
  cases i with
  | zero => cases b <;> simp [pushBit]
  | succ i => cases b <;> simp [pushBit]

/-- A bit pushed on a partial byte comes after its bits. -/
theorem lowBits_pushBit (acc : Byte) (b : Bool) {n : Nat} (hn : n ≤ 7) :
    lowBits (pushBit acc b) (n + 1) = lowBits acc n ++ [b] := by
  apply List.ext_getElem
  · simp
  · intro i h1 h2
    simp only [lowBits_length] at h1
    simp only [lowBits, List.getElem_map, List.getElem_range, pushBit_getLsbD, List.getElem_append,
      List.length_map, List.length_range, List.getElem_singleton]
    split
    · rw [dif_neg (by omega)]
    · rw [dif_pos (by omega), decide_eq_true (by omega), Bool.true_and]
      congr 1
      omega

/-- The padded partial byte (R78): its bits, then zeros. -/
theorem lowBits_pad (acc : Byte) {n : Nat} (hn : n ≤ 8) :
    lowBits (acc <<< (8 - n)) 8 = lowBits acc n ++ List.replicate (8 - n) false := by
  apply List.ext_getElem
  · simp; omega
  · intro i h1 h2
    simp only [lowBits_length] at h1
    simp only [lowBits, List.getElem_map, List.getElem_range, List.getElem_append,
      List.length_map, List.length_range, List.getElem_replicate, BitVec.getLsbD_shiftLeft]
    split
    · rw [decide_eq_true (by omega), decide_eq_false (by omega)]
      simp only [Bool.true_and, Bool.not_false]
      congr 1
      omega
    · rw [decide_eq_true (show 8 - 1 - i < 8 - n by omega)]
      simp

/-- Every byte the packer pushes is the number its bits spell (R77). -/
theorem pushBit_eq_ofNat {acc : Byte} (h : acc.toNat < 128) (b : Bool) :
    pushBit acc b = BitVec.ofNat 8 (2 * acc.toNat + b.toNat) := by
  apply BitVec.eq_of_toNat_eq
  rw [pushBit_toNat h, BitVec.toNat_ofNat, Nat.mod_eq_of_lt]
  cases b <;> simp <;> omega

end Sys2Proof.Laws
end

