-- ==== Sys2Proof/Laws/State.lean ====
section
/-! SUPPORT. What each named update of the state does to each field: one lemma per field per update. -/

namespace Sys2Proof.Laws

open Sys2Proof.Machine

/-! ### issue of a command -/

@[simp] theorem issue_arg0 (s : State) (op : Byte) : (s.issue op).arg0 = s.arg0 := rfl

@[simp] theorem issue_arg1 (s : State) (op : Byte) : (s.issue op).arg1 = s.arg1 := rfl

@[simp] theorem issue_arg2 (s : State) (op : Byte) : (s.issue op).arg2 = s.arg2 := rfl

@[simp] theorem issue_res0 (s : State) (op : Byte) : (s.issue op).res0 = s.res0 := rfl

@[simp] theorem issue_res1 (s : State) (op : Byte) : (s.issue op).res1 = s.res1 := rfl

@[simp] theorem issue_res2 (s : State) (op : Byte) : (s.issue op).res2 = s.res2 := rfl

@[simp] theorem issue_config (s : State) (op : Byte) : (s.issue op).config = s.config := rfl

@[simp] theorem issue_mode (s : State) (op : Byte) : (s.issue op).mode = s.mode := rfl

@[simp] theorem issue_closed (s : State) (op : Byte) : (s.issue op).closed = s.closed := rfl

@[simp] theorem issue_err (s : State) (op : Byte) : (s.issue op).err = s.err := rfl

@[simp] theorem issue_errcode (s : State) (op : Byte) : (s.issue op).errcode = s.errcode := rfl

@[simp] theorem issue_errop (s : State) (op : Byte) : (s.issue op).errop = s.errop := rfl

@[simp] theorem issue_errhost (s : State) (op : Byte) : (s.issue op).errhost = s.errhost := rfl

@[simp] theorem issue_busy (s : State) (op : Byte) : (s.issue op).busy = true := rfl

@[simp] theorem issue_holdin (s : State) (op : Byte) : (s.issue op).holdin = s.holdin := rfl

@[simp] theorem issue_holdout (s : State) (op : Byte) : (s.issue op).holdout = s.holdout := rfl

@[simp] theorem issue_a0 (s : State) (op : Byte) : (s.issue op).a0 = s.arg0 := rfl

@[simp] theorem issue_a1 (s : State) (op : Byte) : (s.issue op).a1 = s.arg1 := rfl

@[simp] theorem issue_a2 (s : State) (op : Byte) : (s.issue op).a2 = s.arg2 := rfl

@[simp] theorem issue_op (s : State) (op : Byte) : (s.issue op).op = op := rfl

@[simp] theorem issue_held (s : State) (op : Byte) : (s.issue op).held = s.held := rfl

@[simp] theorem issue_coder (s : State) (op : Byte) : (s.issue op).coder = s.coder := rfl

@[simp] theorem issue_bitio (s : State) (op : Byte) : (s.issue op).bitio = s.bitio := rfl

@[simp] theorem issue_inq (s : State) (op : Byte) : (s.issue op).inq = s.inq := rfl

@[simp] theorem issue_inend (s : State) (op : Byte) : (s.issue op).inend = s.inend := rfl

@[simp] theorem issue_outq (s : State) (op : Byte) : (s.issue op).outq = s.outq := rfl

@[simp] theorem issue_model (s : State) (op : Byte) : (s.issue op).model = s.model := rfl

@[simp] theorem issue_hostq (s : State) (op : Byte) : (s.issue op).hostq = s.hostq := rfl

@[simp] theorem issue_rdata (s : State) (op : Byte) : (s.issue op).rdata = s.rdata := rfl

@[simp] theorem issue_draws (s : State) (op : Byte) : (s.issue op).draws = s.draws := rfl

/-! ### completion of a command -/

@[simp] theorem complete_arg0 (s : State) : s.complete.arg0 = s.arg0 := rfl

@[simp] theorem complete_arg1 (s : State) : s.complete.arg1 = s.arg1 := rfl

@[simp] theorem complete_arg2 (s : State) : s.complete.arg2 = s.arg2 := rfl

@[simp] theorem complete_res0 (s : State) : s.complete.res0 = s.res0 := rfl

@[simp] theorem complete_res1 (s : State) : s.complete.res1 = s.res1 := rfl

@[simp] theorem complete_res2 (s : State) : s.complete.res2 = s.res2 := rfl

@[simp] theorem complete_config (s : State) : s.complete.config = s.config := rfl

@[simp] theorem complete_mode (s : State) : s.complete.mode = s.mode := rfl

@[simp] theorem complete_closed (s : State) : s.complete.closed = s.closed := rfl

@[simp] theorem complete_err (s : State) : s.complete.err = s.err := rfl

@[simp] theorem complete_errcode (s : State) : s.complete.errcode = s.errcode := rfl

@[simp] theorem complete_errop (s : State) : s.complete.errop = s.errop := rfl

@[simp] theorem complete_errhost (s : State) : s.complete.errhost = s.errhost := rfl

@[simp] theorem complete_busy (s : State) : s.complete.busy = false := rfl

@[simp] theorem complete_holdin (s : State) : s.complete.holdin = false := rfl

@[simp] theorem complete_holdout (s : State) : s.complete.holdout = false := rfl

@[simp] theorem complete_a0 (s : State) : s.complete.a0 = s.a0 := rfl

@[simp] theorem complete_a1 (s : State) : s.complete.a1 = s.a1 := rfl

@[simp] theorem complete_a2 (s : State) : s.complete.a2 = s.a2 := rfl

@[simp] theorem complete_op (s : State) : s.complete.op = s.op := rfl

@[simp] theorem complete_held (s : State) : s.complete.held = [] := rfl

@[simp] theorem complete_coder (s : State) : s.complete.coder = s.coder := rfl

@[simp] theorem complete_bitio (s : State) : s.complete.bitio = s.bitio := rfl

@[simp] theorem complete_inq (s : State) : s.complete.inq = s.inq := rfl

@[simp] theorem complete_inend (s : State) : s.complete.inend = s.inend := rfl

@[simp] theorem complete_outq (s : State) : s.complete.outq = s.outq := rfl

@[simp] theorem complete_model (s : State) : s.complete.model = s.model := rfl

@[simp] theorem complete_hostq (s : State) : s.complete.hostq = s.hostq := rfl

@[simp] theorem complete_rdata (s : State) : s.complete.rdata = s.rdata := rfl

@[simp] theorem complete_draws (s : State) : s.complete.draws = s.draws := rfl

/-! ### taking a fault -/

@[simp] theorem enterFault_arg0 (s : State) (code : FaultCode) (op : Byte) (host : Bool) : (s.enterFault code op host).arg0 = s.arg0 := rfl

@[simp] theorem enterFault_arg1 (s : State) (code : FaultCode) (op : Byte) (host : Bool) : (s.enterFault code op host).arg1 = s.arg1 := rfl

@[simp] theorem enterFault_arg2 (s : State) (code : FaultCode) (op : Byte) (host : Bool) : (s.enterFault code op host).arg2 = s.arg2 := rfl

@[simp] theorem enterFault_res0 (s : State) (code : FaultCode) (op : Byte) (host : Bool) : (s.enterFault code op host).res0 = s.res0 := rfl

@[simp] theorem enterFault_res1 (s : State) (code : FaultCode) (op : Byte) (host : Bool) : (s.enterFault code op host).res1 = s.res1 := rfl

@[simp] theorem enterFault_res2 (s : State) (code : FaultCode) (op : Byte) (host : Bool) : (s.enterFault code op host).res2 = s.res2 := rfl

@[simp] theorem enterFault_config (s : State) (code : FaultCode) (op : Byte) (host : Bool) : (s.enterFault code op host).config = s.config := rfl

@[simp] theorem enterFault_mode (s : State) (code : FaultCode) (op : Byte) (host : Bool) : (s.enterFault code op host).mode = s.mode := rfl

@[simp] theorem enterFault_closed (s : State) (code : FaultCode) (op : Byte) (host : Bool) : (s.enterFault code op host).closed = s.closed := rfl

@[simp] theorem enterFault_err (s : State) (code : FaultCode) (op : Byte) (host : Bool) : (s.enterFault code op host).err = true := rfl

@[simp] theorem enterFault_errcode (s : State) (code : FaultCode) (op : Byte) (host : Bool) : (s.enterFault code op host).errcode = if s.err then s.errcode else some code := rfl

@[simp] theorem enterFault_errop (s : State) (code : FaultCode) (op : Byte) (host : Bool) : (s.enterFault code op host).errop = if s.err then s.errop else op := rfl

@[simp] theorem enterFault_errhost (s : State) (code : FaultCode) (op : Byte) (host : Bool) : (s.enterFault code op host).errhost = if s.err then s.errhost else host := rfl

@[simp] theorem enterFault_busy (s : State) (code : FaultCode) (op : Byte) (host : Bool) : (s.enterFault code op host).busy = false := rfl

@[simp] theorem enterFault_holdin (s : State) (code : FaultCode) (op : Byte) (host : Bool) : (s.enterFault code op host).holdin = false := rfl

@[simp] theorem enterFault_holdout (s : State) (code : FaultCode) (op : Byte) (host : Bool) : (s.enterFault code op host).holdout = false := rfl

@[simp] theorem enterFault_a0 (s : State) (code : FaultCode) (op : Byte) (host : Bool) : (s.enterFault code op host).a0 = s.a0 := rfl

@[simp] theorem enterFault_a1 (s : State) (code : FaultCode) (op : Byte) (host : Bool) : (s.enterFault code op host).a1 = s.a1 := rfl

@[simp] theorem enterFault_a2 (s : State) (code : FaultCode) (op : Byte) (host : Bool) : (s.enterFault code op host).a2 = s.a2 := rfl

@[simp] theorem enterFault_op (s : State) (code : FaultCode) (op : Byte) (host : Bool) : (s.enterFault code op host).op = s.op := rfl

@[simp] theorem enterFault_held (s : State) (code : FaultCode) (op : Byte) (host : Bool) : (s.enterFault code op host).held = [] := rfl

@[simp] theorem enterFault_coder (s : State) (code : FaultCode) (op : Byte) (host : Bool) : (s.enterFault code op host).coder = s.coder := rfl

@[simp] theorem enterFault_bitio (s : State) (code : FaultCode) (op : Byte) (host : Bool) : (s.enterFault code op host).bitio = s.bitio := rfl

@[simp] theorem enterFault_inq (s : State) (code : FaultCode) (op : Byte) (host : Bool) : (s.enterFault code op host).inq = s.inq := rfl

@[simp] theorem enterFault_inend (s : State) (code : FaultCode) (op : Byte) (host : Bool) : (s.enterFault code op host).inend = s.inend := rfl

@[simp] theorem enterFault_outq (s : State) (code : FaultCode) (op : Byte) (host : Bool) : (s.enterFault code op host).outq = s.outq := rfl

@[simp] theorem enterFault_model (s : State) (code : FaultCode) (op : Byte) (host : Bool) : (s.enterFault code op host).model = s.model := rfl

@[simp] theorem enterFault_hostq (s : State) (code : FaultCode) (op : Byte) (host : Bool) : (s.enterFault code op host).hostq = s.hostq := rfl

@[simp] theorem enterFault_rdata (s : State) (code : FaultCode) (op : Byte) (host : Bool) : (s.enterFault code op host).rdata = s.rdata := rfl

@[simp] theorem enterFault_draws (s : State) (code : FaultCode) (op : Byte) (host : Bool) : (s.enterFault code op host).draws = s.draws := rfl

/-! ### the stream state replaced -/

@[simp] theorem withStream_arg0 (s : State) (f : Stream) : (s.withStream f).arg0 = s.arg0 := rfl

@[simp] theorem withStream_arg1 (s : State) (f : Stream) : (s.withStream f).arg1 = s.arg1 := rfl

@[simp] theorem withStream_arg2 (s : State) (f : Stream) : (s.withStream f).arg2 = s.arg2 := rfl

@[simp] theorem withStream_res0 (s : State) (f : Stream) : (s.withStream f).res0 = f.res0 := rfl

@[simp] theorem withStream_res1 (s : State) (f : Stream) : (s.withStream f).res1 = f.res1 := rfl

@[simp] theorem withStream_res2 (s : State) (f : Stream) : (s.withStream f).res2 = f.res2 := rfl

@[simp] theorem withStream_config (s : State) (f : Stream) : (s.withStream f).config = s.config := rfl

@[simp] theorem withStream_mode (s : State) (f : Stream) : (s.withStream f).mode = s.mode := rfl

@[simp] theorem withStream_closed (s : State) (f : Stream) : (s.withStream f).closed = f.closed := rfl

@[simp] theorem withStream_err (s : State) (f : Stream) : (s.withStream f).err = s.err := rfl

@[simp] theorem withStream_errcode (s : State) (f : Stream) : (s.withStream f).errcode = s.errcode := rfl

@[simp] theorem withStream_errop (s : State) (f : Stream) : (s.withStream f).errop = s.errop := rfl

@[simp] theorem withStream_errhost (s : State) (f : Stream) : (s.withStream f).errhost = s.errhost := rfl

@[simp] theorem withStream_busy (s : State) (f : Stream) : (s.withStream f).busy = s.busy := rfl

@[simp] theorem withStream_holdin (s : State) (f : Stream) : (s.withStream f).holdin = s.holdin := rfl

@[simp] theorem withStream_holdout (s : State) (f : Stream) : (s.withStream f).holdout = s.holdout := rfl

@[simp] theorem withStream_a0 (s : State) (f : Stream) : (s.withStream f).a0 = s.a0 := rfl

@[simp] theorem withStream_a1 (s : State) (f : Stream) : (s.withStream f).a1 = s.a1 := rfl

@[simp] theorem withStream_a2 (s : State) (f : Stream) : (s.withStream f).a2 = s.a2 := rfl

@[simp] theorem withStream_op (s : State) (f : Stream) : (s.withStream f).op = s.op := rfl

@[simp] theorem withStream_held (s : State) (f : Stream) : (s.withStream f).held = s.held := rfl

@[simp] theorem withStream_coder (s : State) (f : Stream) : (s.withStream f).coder = f.coder := rfl

@[simp] theorem withStream_bitio (s : State) (f : Stream) : (s.withStream f).bitio = f.bitio := rfl

@[simp] theorem withStream_inq (s : State) (f : Stream) : (s.withStream f).inq = f.inq := rfl

@[simp] theorem withStream_inend (s : State) (f : Stream) : (s.withStream f).inend = s.inend := rfl

@[simp] theorem withStream_outq (s : State) (f : Stream) : (s.withStream f).outq = f.outq := rfl

@[simp] theorem withStream_model (s : State) (f : Stream) : (s.withStream f).model = f.model := rfl

@[simp] theorem withStream_hostq (s : State) (f : Stream) : (s.withStream f).hostq = s.hostq := rfl

@[simp] theorem withStream_rdata (s : State) (f : Stream) : (s.withStream f).rdata = s.rdata := rfl

@[simp] theorem withStream_draws (s : State) (f : Stream) : (s.withStream f).draws = s.draws := rfl

/-! ### writing RES0 -/

@[simp] theorem setRes0_arg0 (s : State) (v : Word) : (s.setRes0 v).arg0 = s.arg0 := rfl

@[simp] theorem setRes0_arg1 (s : State) (v : Word) : (s.setRes0 v).arg1 = s.arg1 := rfl

@[simp] theorem setRes0_arg2 (s : State) (v : Word) : (s.setRes0 v).arg2 = s.arg2 := rfl

@[simp] theorem setRes0_res0 (s : State) (v : Word) : (s.setRes0 v).res0 = v := rfl

@[simp] theorem setRes0_res1 (s : State) (v : Word) : (s.setRes0 v).res1 = s.res1 := rfl

@[simp] theorem setRes0_res2 (s : State) (v : Word) : (s.setRes0 v).res2 = s.res2 := rfl

@[simp] theorem setRes0_config (s : State) (v : Word) : (s.setRes0 v).config = s.config := rfl

@[simp] theorem setRes0_mode (s : State) (v : Word) : (s.setRes0 v).mode = s.mode := rfl

@[simp] theorem setRes0_closed (s : State) (v : Word) : (s.setRes0 v).closed = s.closed := rfl

@[simp] theorem setRes0_err (s : State) (v : Word) : (s.setRes0 v).err = s.err := rfl

@[simp] theorem setRes0_errcode (s : State) (v : Word) : (s.setRes0 v).errcode = s.errcode := rfl

@[simp] theorem setRes0_errop (s : State) (v : Word) : (s.setRes0 v).errop = s.errop := rfl

@[simp] theorem setRes0_errhost (s : State) (v : Word) : (s.setRes0 v).errhost = s.errhost := rfl

@[simp] theorem setRes0_busy (s : State) (v : Word) : (s.setRes0 v).busy = s.busy := rfl

@[simp] theorem setRes0_holdin (s : State) (v : Word) : (s.setRes0 v).holdin = s.holdin := rfl

@[simp] theorem setRes0_holdout (s : State) (v : Word) : (s.setRes0 v).holdout = s.holdout := rfl

@[simp] theorem setRes0_a0 (s : State) (v : Word) : (s.setRes0 v).a0 = s.a0 := rfl

@[simp] theorem setRes0_a1 (s : State) (v : Word) : (s.setRes0 v).a1 = s.a1 := rfl

@[simp] theorem setRes0_a2 (s : State) (v : Word) : (s.setRes0 v).a2 = s.a2 := rfl

@[simp] theorem setRes0_op (s : State) (v : Word) : (s.setRes0 v).op = s.op := rfl

@[simp] theorem setRes0_held (s : State) (v : Word) : (s.setRes0 v).held = s.held := rfl

@[simp] theorem setRes0_coder (s : State) (v : Word) : (s.setRes0 v).coder = s.coder := rfl

@[simp] theorem setRes0_bitio (s : State) (v : Word) : (s.setRes0 v).bitio = s.bitio := rfl

@[simp] theorem setRes0_inq (s : State) (v : Word) : (s.setRes0 v).inq = s.inq := rfl

@[simp] theorem setRes0_inend (s : State) (v : Word) : (s.setRes0 v).inend = s.inend := rfl

@[simp] theorem setRes0_outq (s : State) (v : Word) : (s.setRes0 v).outq = s.outq := rfl

@[simp] theorem setRes0_model (s : State) (v : Word) : (s.setRes0 v).model = s.model := rfl

@[simp] theorem setRes0_hostq (s : State) (v : Word) : (s.setRes0 v).hostq = s.hostq := rfl

@[simp] theorem setRes0_rdata (s : State) (v : Word) : (s.setRes0 v).rdata = s.rdata := rfl

@[simp] theorem setRes0_draws (s : State) (v : Word) : (s.setRes0 v).draws = s.draws := rfl

/-! ### writing RES0 and RES1 -/

@[simp] theorem setRes01_arg0 (s : State) (v w : Word) : (s.setRes01 v w).arg0 = s.arg0 := rfl

@[simp] theorem setRes01_arg1 (s : State) (v w : Word) : (s.setRes01 v w).arg1 = s.arg1 := rfl

@[simp] theorem setRes01_arg2 (s : State) (v w : Word) : (s.setRes01 v w).arg2 = s.arg2 := rfl

@[simp] theorem setRes01_res0 (s : State) (v w : Word) : (s.setRes01 v w).res0 = v := rfl

@[simp] theorem setRes01_res1 (s : State) (v w : Word) : (s.setRes01 v w).res1 = w := rfl

@[simp] theorem setRes01_res2 (s : State) (v w : Word) : (s.setRes01 v w).res2 = s.res2 := rfl

@[simp] theorem setRes01_config (s : State) (v w : Word) : (s.setRes01 v w).config = s.config := rfl

@[simp] theorem setRes01_mode (s : State) (v w : Word) : (s.setRes01 v w).mode = s.mode := rfl

@[simp] theorem setRes01_closed (s : State) (v w : Word) : (s.setRes01 v w).closed = s.closed := rfl

@[simp] theorem setRes01_err (s : State) (v w : Word) : (s.setRes01 v w).err = s.err := rfl

@[simp] theorem setRes01_errcode (s : State) (v w : Word) : (s.setRes01 v w).errcode = s.errcode := rfl

@[simp] theorem setRes01_errop (s : State) (v w : Word) : (s.setRes01 v w).errop = s.errop := rfl

@[simp] theorem setRes01_errhost (s : State) (v w : Word) : (s.setRes01 v w).errhost = s.errhost := rfl

@[simp] theorem setRes01_busy (s : State) (v w : Word) : (s.setRes01 v w).busy = s.busy := rfl

@[simp] theorem setRes01_holdin (s : State) (v w : Word) : (s.setRes01 v w).holdin = s.holdin := rfl

@[simp] theorem setRes01_holdout (s : State) (v w : Word) : (s.setRes01 v w).holdout = s.holdout := rfl

@[simp] theorem setRes01_a0 (s : State) (v w : Word) : (s.setRes01 v w).a0 = s.a0 := rfl

@[simp] theorem setRes01_a1 (s : State) (v w : Word) : (s.setRes01 v w).a1 = s.a1 := rfl

@[simp] theorem setRes01_a2 (s : State) (v w : Word) : (s.setRes01 v w).a2 = s.a2 := rfl

@[simp] theorem setRes01_op (s : State) (v w : Word) : (s.setRes01 v w).op = s.op := rfl

@[simp] theorem setRes01_held (s : State) (v w : Word) : (s.setRes01 v w).held = s.held := rfl

@[simp] theorem setRes01_coder (s : State) (v w : Word) : (s.setRes01 v w).coder = s.coder := rfl

@[simp] theorem setRes01_bitio (s : State) (v w : Word) : (s.setRes01 v w).bitio = s.bitio := rfl

@[simp] theorem setRes01_inq (s : State) (v w : Word) : (s.setRes01 v w).inq = s.inq := rfl

@[simp] theorem setRes01_inend (s : State) (v w : Word) : (s.setRes01 v w).inend = s.inend := rfl

@[simp] theorem setRes01_outq (s : State) (v w : Word) : (s.setRes01 v w).outq = s.outq := rfl

@[simp] theorem setRes01_model (s : State) (v w : Word) : (s.setRes01 v w).model = s.model := rfl

@[simp] theorem setRes01_hostq (s : State) (v w : Word) : (s.setRes01 v w).hostq = s.hostq := rfl

@[simp] theorem setRes01_rdata (s : State) (v w : Word) : (s.setRes01 v w).rdata = s.rdata := rfl

@[simp] theorem setRes01_draws (s : State) (v w : Word) : (s.setRes01 v w).draws = s.draws := rfl

/-! ### writing an interval to the results -/

@[simp] theorem setResInterval_arg0 (s : State) (iv : Interval) : (s.setResInterval iv).arg0 = s.arg0 := rfl

@[simp] theorem setResInterval_arg1 (s : State) (iv : Interval) : (s.setResInterval iv).arg1 = s.arg1 := rfl

@[simp] theorem setResInterval_arg2 (s : State) (iv : Interval) : (s.setResInterval iv).arg2 = s.arg2 := rfl

@[simp] theorem setResInterval_res0 (s : State) (iv : Interval) : (s.setResInterval iv).res0 = natWord iv.low := rfl

@[simp] theorem setResInterval_res1 (s : State) (iv : Interval) : (s.setResInterval iv).res1 = natWord iv.high := rfl

@[simp] theorem setResInterval_res2 (s : State) (iv : Interval) : (s.setResInterval iv).res2 = natWord iv.total := rfl

@[simp] theorem setResInterval_config (s : State) (iv : Interval) : (s.setResInterval iv).config = s.config := rfl

@[simp] theorem setResInterval_mode (s : State) (iv : Interval) : (s.setResInterval iv).mode = s.mode := rfl

@[simp] theorem setResInterval_closed (s : State) (iv : Interval) : (s.setResInterval iv).closed = s.closed := rfl

@[simp] theorem setResInterval_err (s : State) (iv : Interval) : (s.setResInterval iv).err = s.err := rfl

@[simp] theorem setResInterval_errcode (s : State) (iv : Interval) : (s.setResInterval iv).errcode = s.errcode := rfl

@[simp] theorem setResInterval_errop (s : State) (iv : Interval) : (s.setResInterval iv).errop = s.errop := rfl

@[simp] theorem setResInterval_errhost (s : State) (iv : Interval) : (s.setResInterval iv).errhost = s.errhost := rfl

@[simp] theorem setResInterval_busy (s : State) (iv : Interval) : (s.setResInterval iv).busy = s.busy := rfl

@[simp] theorem setResInterval_holdin (s : State) (iv : Interval) : (s.setResInterval iv).holdin = s.holdin := rfl

@[simp] theorem setResInterval_holdout (s : State) (iv : Interval) : (s.setResInterval iv).holdout = s.holdout := rfl

@[simp] theorem setResInterval_a0 (s : State) (iv : Interval) : (s.setResInterval iv).a0 = s.a0 := rfl

@[simp] theorem setResInterval_a1 (s : State) (iv : Interval) : (s.setResInterval iv).a1 = s.a1 := rfl

@[simp] theorem setResInterval_a2 (s : State) (iv : Interval) : (s.setResInterval iv).a2 = s.a2 := rfl

@[simp] theorem setResInterval_op (s : State) (iv : Interval) : (s.setResInterval iv).op = s.op := rfl

@[simp] theorem setResInterval_held (s : State) (iv : Interval) : (s.setResInterval iv).held = s.held := rfl

@[simp] theorem setResInterval_coder (s : State) (iv : Interval) : (s.setResInterval iv).coder = s.coder := rfl

@[simp] theorem setResInterval_bitio (s : State) (iv : Interval) : (s.setResInterval iv).bitio = s.bitio := rfl

@[simp] theorem setResInterval_inq (s : State) (iv : Interval) : (s.setResInterval iv).inq = s.inq := rfl

@[simp] theorem setResInterval_inend (s : State) (iv : Interval) : (s.setResInterval iv).inend = s.inend := rfl

@[simp] theorem setResInterval_outq (s : State) (iv : Interval) : (s.setResInterval iv).outq = s.outq := rfl

@[simp] theorem setResInterval_model (s : State) (iv : Interval) : (s.setResInterval iv).model = s.model := rfl

@[simp] theorem setResInterval_hostq (s : State) (iv : Interval) : (s.setResInterval iv).hostq = s.hostq := rfl

@[simp] theorem setResInterval_rdata (s : State) (iv : Interval) : (s.setResInterval iv).rdata = s.rdata := rfl

@[simp] theorem setResInterval_draws (s : State) (iv : Interval) : (s.setResInterval iv).draws = s.draws := rfl

/-! ### a byte into the output FIFO -/

@[simp] theorem outPush_arg0 (s : State) (b : Byte) : (s.outPush b).arg0 = s.arg0 := rfl

@[simp] theorem outPush_arg1 (s : State) (b : Byte) : (s.outPush b).arg1 = s.arg1 := rfl

@[simp] theorem outPush_arg2 (s : State) (b : Byte) : (s.outPush b).arg2 = s.arg2 := rfl

@[simp] theorem outPush_res0 (s : State) (b : Byte) : (s.outPush b).res0 = s.res0 := rfl

@[simp] theorem outPush_res1 (s : State) (b : Byte) : (s.outPush b).res1 = s.res1 := rfl

@[simp] theorem outPush_res2 (s : State) (b : Byte) : (s.outPush b).res2 = s.res2 := rfl

@[simp] theorem outPush_config (s : State) (b : Byte) : (s.outPush b).config = s.config := rfl

@[simp] theorem outPush_mode (s : State) (b : Byte) : (s.outPush b).mode = s.mode := rfl

@[simp] theorem outPush_closed (s : State) (b : Byte) : (s.outPush b).closed = s.closed := rfl

@[simp] theorem outPush_err (s : State) (b : Byte) : (s.outPush b).err = s.err := rfl

@[simp] theorem outPush_errcode (s : State) (b : Byte) : (s.outPush b).errcode = s.errcode := rfl

@[simp] theorem outPush_errop (s : State) (b : Byte) : (s.outPush b).errop = s.errop := rfl

@[simp] theorem outPush_errhost (s : State) (b : Byte) : (s.outPush b).errhost = s.errhost := rfl

@[simp] theorem outPush_busy (s : State) (b : Byte) : (s.outPush b).busy = s.busy := rfl

@[simp] theorem outPush_holdin (s : State) (b : Byte) : (s.outPush b).holdin = s.holdin := rfl

@[simp] theorem outPush_holdout (s : State) (b : Byte) : (s.outPush b).holdout = s.holdout := rfl

@[simp] theorem outPush_a0 (s : State) (b : Byte) : (s.outPush b).a0 = s.a0 := rfl

@[simp] theorem outPush_a1 (s : State) (b : Byte) : (s.outPush b).a1 = s.a1 := rfl

@[simp] theorem outPush_a2 (s : State) (b : Byte) : (s.outPush b).a2 = s.a2 := rfl

@[simp] theorem outPush_op (s : State) (b : Byte) : (s.outPush b).op = s.op := rfl

@[simp] theorem outPush_held (s : State) (b : Byte) : (s.outPush b).held = s.held := rfl

@[simp] theorem outPush_coder (s : State) (b : Byte) : (s.outPush b).coder = s.coder := rfl

@[simp] theorem outPush_bitio (s : State) (b : Byte) : (s.outPush b).bitio = { s.bitio with oacc := 0, ocnt := 0 } := rfl

@[simp] theorem outPush_inq (s : State) (b : Byte) : (s.outPush b).inq = s.inq := rfl

@[simp] theorem outPush_inend (s : State) (b : Byte) : (s.outPush b).inend = s.inend := rfl

@[simp] theorem outPush_outq (s : State) (b : Byte) : (s.outPush b).outq = s.outq ++ [b] := rfl

@[simp] theorem outPush_model (s : State) (b : Byte) : (s.outPush b).model = s.model := rfl

@[simp] theorem outPush_hostq (s : State) (b : Byte) : (s.outPush b).hostq = s.hostq := rfl

@[simp] theorem outPush_rdata (s : State) (b : Byte) : (s.outPush b).rdata = s.rdata := rfl

@[simp] theorem outPush_draws (s : State) (b : Byte) : (s.outPush b).draws = s.draws := rfl

/-! ### StreamInit -/

@[simp] theorem streamInit_arg0 (s : State) : s.streamInit.arg0 = s.arg0 := rfl

@[simp] theorem streamInit_arg1 (s : State) : s.streamInit.arg1 = s.arg1 := rfl

@[simp] theorem streamInit_arg2 (s : State) : s.streamInit.arg2 = s.arg2 := rfl

@[simp] theorem streamInit_res0 (s : State) : s.streamInit.res0 = s.res0 := rfl

@[simp] theorem streamInit_res1 (s : State) : s.streamInit.res1 = s.res1 := rfl

@[simp] theorem streamInit_res2 (s : State) : s.streamInit.res2 = s.res2 := rfl

@[simp] theorem streamInit_config (s : State) : s.streamInit.config = s.config := rfl

@[simp] theorem streamInit_mode (s : State) : s.streamInit.mode = s.mode := rfl

@[simp] theorem streamInit_closed (s : State) : s.streamInit.closed = false := rfl

@[simp] theorem streamInit_err (s : State) : s.streamInit.err = s.err := rfl

@[simp] theorem streamInit_errcode (s : State) : s.streamInit.errcode = s.errcode := rfl

@[simp] theorem streamInit_errop (s : State) : s.streamInit.errop = s.errop := rfl

@[simp] theorem streamInit_errhost (s : State) : s.streamInit.errhost = s.errhost := rfl

@[simp] theorem streamInit_busy (s : State) : s.streamInit.busy = s.busy := rfl

@[simp] theorem streamInit_holdin (s : State) : s.streamInit.holdin = s.holdin := rfl

@[simp] theorem streamInit_holdout (s : State) : s.streamInit.holdout = s.holdout := rfl

@[simp] theorem streamInit_a0 (s : State) : s.streamInit.a0 = s.a0 := rfl

@[simp] theorem streamInit_a1 (s : State) : s.streamInit.a1 = s.a1 := rfl

@[simp] theorem streamInit_a2 (s : State) : s.streamInit.a2 = s.a2 := rfl

@[simp] theorem streamInit_op (s : State) : s.streamInit.op = s.op := rfl

@[simp] theorem streamInit_held (s : State) : s.streamInit.held = s.held := rfl

@[simp] theorem streamInit_coder (s : State) : s.streamInit.coder = { Coder.reset with low := 0, high := topValue, vbits := virtualBits } := rfl

@[simp] theorem streamInit_bitio (s : State) : s.streamInit.bitio = BitIO.reset := rfl

@[simp] theorem streamInit_inq (s : State) : s.streamInit.inq = s.inq := rfl

@[simp] theorem streamInit_inend (s : State) : s.streamInit.inend = s.inend := rfl

@[simp] theorem streamInit_outq (s : State) : s.streamInit.outq = s.outq := rfl

@[simp] theorem streamInit_model (s : State) : s.streamInit.model = Model.fresh s.config.toNat := rfl

@[simp] theorem streamInit_hostq (s : State) : s.streamInit.hostq = s.hostq := rfl

@[simp] theorem streamInit_rdata (s : State) : s.streamInit.rdata = s.rdata := rfl

@[simp] theorem streamInit_draws (s : State) : s.streamInit.draws = s.draws := rfl

/-! ### an exact host read -/

@[simp] theorem readExact_arg0 (s : State) (v : Word) : (s.readExact v).arg0 = s.arg0 := rfl

@[simp] theorem readExact_arg1 (s : State) (v : Word) : (s.readExact v).arg1 = s.arg1 := rfl

@[simp] theorem readExact_arg2 (s : State) (v : Word) : (s.readExact v).arg2 = s.arg2 := rfl

@[simp] theorem readExact_res0 (s : State) (v : Word) : (s.readExact v).res0 = s.res0 := rfl

@[simp] theorem readExact_res1 (s : State) (v : Word) : (s.readExact v).res1 = s.res1 := rfl

@[simp] theorem readExact_res2 (s : State) (v : Word) : (s.readExact v).res2 = s.res2 := rfl

@[simp] theorem readExact_config (s : State) (v : Word) : (s.readExact v).config = s.config := rfl

@[simp] theorem readExact_mode (s : State) (v : Word) : (s.readExact v).mode = s.mode := rfl

@[simp] theorem readExact_closed (s : State) (v : Word) : (s.readExact v).closed = s.closed := rfl

@[simp] theorem readExact_err (s : State) (v : Word) : (s.readExact v).err = s.err := rfl

@[simp] theorem readExact_errcode (s : State) (v : Word) : (s.readExact v).errcode = s.errcode := rfl

@[simp] theorem readExact_errop (s : State) (v : Word) : (s.readExact v).errop = s.errop := rfl

@[simp] theorem readExact_errhost (s : State) (v : Word) : (s.readExact v).errhost = s.errhost := rfl

@[simp] theorem readExact_busy (s : State) (v : Word) : (s.readExact v).busy = s.busy := rfl

@[simp] theorem readExact_holdin (s : State) (v : Word) : (s.readExact v).holdin = s.holdin := rfl

@[simp] theorem readExact_holdout (s : State) (v : Word) : (s.readExact v).holdout = s.holdout := rfl

@[simp] theorem readExact_a0 (s : State) (v : Word) : (s.readExact v).a0 = s.a0 := rfl

@[simp] theorem readExact_a1 (s : State) (v : Word) : (s.readExact v).a1 = s.a1 := rfl

@[simp] theorem readExact_a2 (s : State) (v : Word) : (s.readExact v).a2 = s.a2 := rfl

@[simp] theorem readExact_op (s : State) (v : Word) : (s.readExact v).op = s.op := rfl

@[simp] theorem readExact_held (s : State) (v : Word) : (s.readExact v).held = s.held := rfl

@[simp] theorem readExact_coder (s : State) (v : Word) : (s.readExact v).coder = s.coder := rfl

@[simp] theorem readExact_bitio (s : State) (v : Word) : (s.readExact v).bitio = s.bitio := rfl

@[simp] theorem readExact_inq (s : State) (v : Word) : (s.readExact v).inq = s.inq := rfl

@[simp] theorem readExact_inend (s : State) (v : Word) : (s.readExact v).inend = s.inend := rfl

@[simp] theorem readExact_outq (s : State) (v : Word) : (s.readExact v).outq = s.outq := rfl

@[simp] theorem readExact_model (s : State) (v : Word) : (s.readExact v).model = s.model := rfl

@[simp] theorem readExact_hostq (s : State) (v : Word) : (s.readExact v).hostq = s.hostq := rfl

@[simp] theorem readExact_rdata (s : State) (v : Word) : (s.readExact v).rdata = v := rfl

@[simp] theorem readExact_draws (s : State) (v : Word) : (s.readExact v).draws = s.draws := rfl

/-! ### an unspecified host read -/

@[simp] theorem readDrawn_arg0 (s : State) (v : Word → Word) : (s.readDrawn v).arg0 = s.arg0 := rfl

@[simp] theorem readDrawn_arg1 (s : State) (v : Word → Word) : (s.readDrawn v).arg1 = s.arg1 := rfl

@[simp] theorem readDrawn_arg2 (s : State) (v : Word → Word) : (s.readDrawn v).arg2 = s.arg2 := rfl

@[simp] theorem readDrawn_res0 (s : State) (v : Word → Word) : (s.readDrawn v).res0 = s.res0 := rfl

@[simp] theorem readDrawn_res1 (s : State) (v : Word → Word) : (s.readDrawn v).res1 = s.res1 := rfl

@[simp] theorem readDrawn_res2 (s : State) (v : Word → Word) : (s.readDrawn v).res2 = s.res2 := rfl

@[simp] theorem readDrawn_config (s : State) (v : Word → Word) : (s.readDrawn v).config = s.config := rfl

@[simp] theorem readDrawn_mode (s : State) (v : Word → Word) : (s.readDrawn v).mode = s.mode := rfl

@[simp] theorem readDrawn_closed (s : State) (v : Word → Word) : (s.readDrawn v).closed = s.closed := rfl

@[simp] theorem readDrawn_err (s : State) (v : Word → Word) : (s.readDrawn v).err = s.err := rfl

@[simp] theorem readDrawn_errcode (s : State) (v : Word → Word) : (s.readDrawn v).errcode = s.errcode := rfl

@[simp] theorem readDrawn_errop (s : State) (v : Word → Word) : (s.readDrawn v).errop = s.errop := rfl

@[simp] theorem readDrawn_errhost (s : State) (v : Word → Word) : (s.readDrawn v).errhost = s.errhost := rfl

@[simp] theorem readDrawn_busy (s : State) (v : Word → Word) : (s.readDrawn v).busy = s.busy := rfl

@[simp] theorem readDrawn_holdin (s : State) (v : Word → Word) : (s.readDrawn v).holdin = s.holdin := rfl

@[simp] theorem readDrawn_holdout (s : State) (v : Word → Word) : (s.readDrawn v).holdout = s.holdout := rfl

@[simp] theorem readDrawn_a0 (s : State) (v : Word → Word) : (s.readDrawn v).a0 = s.a0 := rfl

@[simp] theorem readDrawn_a1 (s : State) (v : Word → Word) : (s.readDrawn v).a1 = s.a1 := rfl

@[simp] theorem readDrawn_a2 (s : State) (v : Word → Word) : (s.readDrawn v).a2 = s.a2 := rfl

@[simp] theorem readDrawn_op (s : State) (v : Word → Word) : (s.readDrawn v).op = s.op := rfl

@[simp] theorem readDrawn_held (s : State) (v : Word → Word) : (s.readDrawn v).held = s.held := rfl

@[simp] theorem readDrawn_coder (s : State) (v : Word → Word) : (s.readDrawn v).coder = s.coder := rfl

@[simp] theorem readDrawn_bitio (s : State) (v : Word → Word) : (s.readDrawn v).bitio = s.bitio := rfl

@[simp] theorem readDrawn_inq (s : State) (v : Word → Word) : (s.readDrawn v).inq = s.inq := rfl

@[simp] theorem readDrawn_inend (s : State) (v : Word → Word) : (s.readDrawn v).inend = s.inend := rfl

@[simp] theorem readDrawn_outq (s : State) (v : Word → Word) : (s.readDrawn v).outq = s.outq := rfl

@[simp] theorem readDrawn_model (s : State) (v : Word → Word) : (s.readDrawn v).model = s.model := rfl

@[simp] theorem readDrawn_hostq (s : State) (v : Word → Word) : (s.readDrawn v).hostq = s.hostq := rfl

@[simp] theorem readDrawn_rdata (s : State) (v : Word → Word) : (s.readDrawn v).rdata = v (Config.draw s.draws) := rfl

@[simp] theorem readDrawn_draws (s : State) (v : Word → Word) : (s.readDrawn v).draws = s.draws + 1 := rfl

end Sys2Proof.Laws
end

