-- ==== Sys2Proof/Laws/Packer.lean ====
section
/-! SUPPORT. What PutBit, BitPlusFollow, PackerClose and EncRenorm do, said once each: that they complete with room
for their bits and what they leave, and what a hold leaves to do. -/

namespace Sys2Proof.Laws

open Sys2Proof.Machine

/-! ### Sequencing -/

@[simp] theorem andThen_done (s : State) (rest : List Task) (f : State → Run) :
    (Run.done s).andThen rest f = f s := rfl

@[simp] theorem andThen_held (s : State) (k : HoldKind) (ts rest : List Task) (f : State → Run) :
    (Run.held s k ts).andThen rest f = .held s k (ts ++ rest) := rfl

@[simp] theorem andThen_raised (s : State) (c : FaultCode) (rest : List Task) (f : State → Run) :
    (Run.raised s c).andThen rest f = .raised s c := rfl

@[simp] theorem retryAs_done (s : State) (rest : List Task) (f : State → Run) :
    (Run.done s).retryAs rest f = f s := rfl

@[simp] theorem retryAs_held (s : State) (k : HoldKind) (ts rest : List Task) (f : State → Run) :
    (Run.held s k ts).retryAs rest f = .held s k rest := rfl

@[simp] theorem guard_false (s : State) (c : FaultCode) (r : Run) : Run.guard s false c r = r := rfl

@[simp] theorem guard_true (s : State) (c : FaultCode) (r : Run) :
    Run.guard s true c r = .raised s c := rfl

@[simp] theorem ofExcept_ok {α : Type} (s : State) (a : α) (f : α → Run) :
    Run.ofExcept s (.ok a) f = f a := rfl

@[simp] theorem ofExcept_error {α : Type} (s : State) (c : FaultCode) (f : α → Run) :
    Run.ofExcept s (.error c : Except FaultCode α) f = .raised s c := rfl

/-! ### What the packer may change -/

/-- `t` is `s` after output bits: coder `c`, `bits` appended to the output stream, nothing else touched. -/
structure Emitted (s : State) (c : Coder) (bits : List Bool) (t : State) : Prop where
  eq : t = { s with coder := c, bitio := t.bitio, outq := t.outq }
  outBits : t.outBits = s.outBits ++ bits
  wf : t.bitio.wf
  ibyte : t.bitio.ibyte = s.bitio.ibyte
  icnt : t.bitio.icnt = s.bitio.icnt
  outq_len : t.outq.length = s.outq.length + (s.bitio.ocnt + bits.length) / 8
  ocnt_eq : t.bitio.ocnt = (s.bitio.ocnt + bits.length) % 8

theorem Emitted.coder {s t : State} {c : Coder} {bits : List Bool} (h : Emitted s c bits t) :
    t.coder = c := by rw [h.eq]

theorem Emitted.refl {s : State} (h : s.bitio.wf) : Emitted s s.coder [] s :=
  ⟨rfl, by simp, h, rfl, rfl, by have := h.1; simp; omega, by have := h.1; simp; omega⟩

theorem Emitted.trans {s t u : State} {c d : Coder} {x y : List Bool} (h : Emitted s c x t)
    (k : Emitted t d y u) : Emitted s d (x ++ y) u where
  eq := by rw [k.eq, h.eq]
  outBits := by rw [k.outBits, h.outBits, List.append_assoc]
  wf := k.wf
  ibyte := k.ibyte.trans h.ibyte
  icnt := k.icnt.trans h.icnt
  outq_len := by rw [k.outq_len, h.outq_len, h.ocnt_eq, List.length_append]; omega
  ocnt_eq := by rw [k.ocnt_eq, h.ocnt_eq, List.length_append]; omega

/-- A change of the coder before the bits. -/
theorem Emitted.of_coder {s t : State} {c d : Coder} {x : List Bool}
    (h : Emitted { s with coder := c } d x t) : Emitted s d x t :=
  ⟨h.eq, h.outBits, h.wf, h.ibyte, h.icnt, h.outq_len, h.ocnt_eq⟩

/-- A change of the coder after the bits. -/
theorem Emitted.with_coder {s t : State} {c : Coder} {x : List Bool} (h : Emitted s c x t)
    (d : Coder) : Emitted s d x { t with coder := d } where
  eq := by rw [h.eq]
  outBits := h.outBits
  wf := h.wf
  ibyte := h.ibyte
  icnt := h.icnt
  outq_len := h.outq_len
  ocnt_eq := h.ocnt_eq

/-- Room for bits is room for the first of them, and then for the rest. -/
theorem Emitted.room {s t : State} {c : Coder} {x : List Bool} {n : Nat} (h : Emitted s c x t)
    (r : s.roomFor (x.length + n)) : t.roomFor n := by
  unfold State.roomFor at *
  rw [h.outq_len, h.ocnt_eq]
  omega

theorem roomFor_mono {s : State} {m n : Nat} (h : s.roomFor n) (hm : m ≤ n) : s.roomFor m := by
  unfold State.roomFor at *
  omega

@[simp] theorem roomFor_coder (s : State) (c : Coder) (n : Nat) :
    State.roomFor { s with coder := c } n ↔ s.roomFor n := Iff.rfl

/-! ### PutBit -/

/-- The bit that `PutBit` adds when it does not hold. -/
def putDone (b : Bool) (s : State) : State :=
  if s.bitio.ocnt = 7 then s.outPush (pushBit s.bitio.oacc b)
  else { s with bitio := { s.bitio with oacc := pushBit s.bitio.oacc b, ocnt := s.bitio.ocnt + 1 } }

/-- PutBit holds exactly when the eighth bit of a byte meets a full FIFO, and then nothing has changed (R77). -/
theorem putBit_eq (b : Bool) (s : State) :
    putBit b s = if s.bitio.ocnt = 7 ∧ Config.outDepth ≤ s.outq.length then .held s .output [.putBit b]
      else .done (putDone b s) := by
  unfold putBit putDone State.outFull
  by_cases h : s.bitio.ocnt = 7 <;> by_cases k : Config.outDepth ≤ s.outq.length <;> simp [h, k]

theorem putDone_emitted {s : State} (b : Bool) (h : s.bitio.wf) :
    Emitted s s.coder [b] (putDone b s) := by
  obtain ⟨h1, h2, h3⟩ := h
  have hacc : s.bitio.oacc.toNat < 128 :=
    lt_of_lt_of_le h2 (Nat.pow_le_pow_right (by omega) h1)
  unfold putDone
  split
  · rename_i h7
    refine ⟨rfl, ?_, ⟨by simp, by simp, h3⟩, rfl, rfl, by simp [h7], by simp [h7]⟩
    have hl := lowBits_pushBit s.bitio.oacc b (n := 7) (by omega)
    simp [State.outBits, hl, h7]
  · refine ⟨rfl, ?_, ⟨by simp; omega, ?_, h3⟩, rfl, rfl, by simp; omega, by simp; omega⟩
    · simp [State.outBits, lowBits_pushBit _ _ h1]
    · simp only
      rw [pushBit_toNat hacc, pow_succ]
      cases b <;> simp <;> omega

theorem putBit_done {s : State} (b : Bool) (r : s.roomFor 1) : putBit b s = .done (putDone b s) := by
  rw [putBit_eq, if_neg]
  unfold State.roomFor at r
  omega

/-- A bit given to the packer fits when it completed. -/
theorem putBit_held_iff {s t : State} {b : Bool} {k : HoldKind} {ts : List Task} :
    putBit b s = .held t k ts ↔
      t = s ∧ k = .output ∧ ts = [.putBit b] ∧ s.bitio.ocnt = 7 ∧ Config.outDepth ≤ s.outq.length := by
  rw [putBit_eq]
  split
  · rename_i h
    simp only [Run.held.injEq]
    constructor
    · rintro ⟨rfl, rfl, rfl⟩; exact ⟨rfl, rfl, rfl, h⟩
    · rintro ⟨rfl, rfl, rfl, -⟩; exact ⟨rfl, rfl, rfl⟩
  · rename_i h
    constructor
    · intro hh; cases hh
    · rintro ⟨-, -, -, hh⟩; exact absurd hh h

/-! ### BitPlusFollow -/

theorem followBits_emits (b : Bool) : ∀ (n : Nat) (s : State), s.bitio.wf → s.coder.btf = n → s.roomFor n →
    ∃ t, followBits b n s = .done t ∧ Emitted s { s.coder with btf := 0 } (List.replicate n b) t
  | 0, s, h, hn, _ => by
    refine ⟨s, rfl, ?_⟩
    have : ({ s.coder with btf := 0 } : Coder) = s.coder := by rw [← hn]
    rw [this]
    exact Emitted.refl h
  | n + 1, s, h, hn, r => by
    have e := putDone_emitted b h
    obtain ⟨t, ht, k⟩ := followBits_emits b n { putDone b s with coder := { (putDone b s).coder with btf := n } }
      e.wf rfl (e.room (n := n) (by simpa [Nat.add_comm] using r))
    refine ⟨t, ?_, ?_⟩
    · simp only [followBits, putBit_done b (roomFor_mono r (by omega)), retryAs_done, ht]
    · have hk := k.of_coder
      simp only [e.coder] at hk
      exact e.trans hk

theorem bitPlusFollow_emits (b : Bool) {s : State} (h : s.bitio.wf) (r : s.roomFor (s.coder.btf + 1)) :
    ∃ t, bitPlusFollow b s = .done t ∧
      Emitted s { s.coder with btf := 0 } (b :: List.replicate s.coder.btf (!b)) t := by
  have e := putDone_emitted b h
  have hb : (putDone b s).coder.btf = s.coder.btf := by rw [e.coder]
  obtain ⟨t, ht, k⟩ := followBits_emits (!b) s.coder.btf (putDone b s) e.wf hb
    (e.room (n := s.coder.btf) (by simpa [Nat.add_comm] using r))
  refine ⟨t, ?_, ?_⟩
  · simp only [bitPlusFollow, putBit_done b (roomFor_mono r (by omega)), andThen_done, hb, ht]
  · rw [e.coder] at k
    exact e.trans k

/-! ### PackerClose -/

theorem packerClose_emits {s : State} (h : s.bitio.wf) (r : s.roomFor ((8 - s.bitio.ocnt) % 8)) :
    ∃ t, packerClose s = .done t ∧
      Emitted s s.coder (List.replicate ((8 - s.bitio.ocnt) % 8) false) t ∧ t.bitio.oacc = 0 ∧ t.bitio.ocnt = 0 := by
  obtain ⟨h1, h2, h3⟩ := h
  unfold packerClose
  by_cases h0 : 0 < s.bitio.ocnt
  · have hm : (8 - s.bitio.ocnt) % 8 = 8 - s.bitio.ocnt := by omega
    have hf : s.outFull = false := by
      unfold State.roomFor at r
      simp only [State.outFull, decide_eq_false_iff_not]
      omega
    rw [if_pos h0, hf]
    refine ⟨_, rfl, ⟨rfl, ?_, ⟨by simp, by simp, h3⟩, rfl, rfl, ?_, ?_⟩, rfl, rfl⟩
    · simp [State.outBits, hm, lowBits_pad _ (show s.bitio.ocnt ≤ 8 by omega)]
    · simp [hm]; omega
    · simp [hm]; omega
  · have hz : s.bitio.ocnt = 0 := by omega
    rw [if_neg h0]
    have ho : s.bitio.oacc = 0 := by
      apply BitVec.eq_of_toNat_eq
      rw [hz] at h2
      simpa using h2
    refine ⟨s, rfl, ?_, ho, hz⟩
    simpa [hz] using Emitted.refl ⟨h1, h2, h3⟩

/-! ### EncRenorm -/

theorem encTrace_btf_le : ∀ (n : Nat) (c : Coder), (c.encTrace n).1.btf ≤ c.btf + n
  | 0, c => by simp [Coder.encTrace]
  | n + 1, c => by
    unfold Coder.encTrace
    split
    · have := encTrace_btf_le n ({ c with btf := 0 }.shiftBounds 0)
      simp only [Coder.shiftBounds] at this ⊢
      omega
    · have := encTrace_btf_le n ({ c with btf := 0 }.shiftBounds half)
      simp only [Coder.shiftBounds] at this ⊢
      omega
    · have := encTrace_btf_le n ({ c with btf := c.btf + 1 }.shiftBounds firstQuarter)
      simp only [Coder.shiftBounds] at this ⊢
      omega
    · simp

/-- EncRenorm with room for its bits, and a counter that cannot overflow, makes the coder and the bits of its trace
(R87, R88). -/
theorem encRenorm_emits : ∀ (n : Nat) (s : State), s.bitio.wf → s.coder.btf + n ≤ maxBtf →
    s.roomFor (s.coder.encTrace n).2.length →
    ∃ t, encRenorm n s = .done t ∧ Emitted s (s.coder.encTrace n).1 (s.coder.encTrace n).2 t
  | 0, s, h, _, _ => ⟨s, rfl, Emitted.refl h⟩
  | n + 1, s, h, hb, r => by
    have step : ∀ (b : Bool) (off : Nat),
        s.coder.encTrace (n + 1) =
          ((({ s.coder with btf := 0 }.shiftBounds off).encTrace n).1,
            b :: List.replicate s.coder.btf (!b) ++ (({ s.coder with btf := 0 }.shiftBounds off).encTrace n).2) →
        (encRenorm (n + 1) s = (bitPlusFollow b s).andThen [.encShift off, .encRenorm n] fun s =>
          encRenorm n (encShift off s)) →
        ∃ t, encRenorm (n + 1) s = .done t ∧
          Emitted s (s.coder.encTrace (n + 1)).1 (s.coder.encTrace (n + 1)).2 t := by
      intro b off htr hrun
      rw [htr] at r ⊢
      simp only [List.length_append, List.length_cons, List.length_replicate] at r
      obtain ⟨t, ht, e⟩ := bitPlusFollow_emits b h (roomFor_mono r (by omega))
      obtain ⟨u, hu, k⟩ := encRenorm_emits n (encShift off t) e.wf
        (by simp only [encShift, e.coder, Coder.shiftBounds]; omega)
        (by
          simp only [encShift, e.coder]
          exact e.room (by simpa using r))
      refine ⟨u, by rw [hrun, ht, andThen_done, hu], ?_⟩
      simp only [encShift] at k
      have hk := k.of_coder
      simp only [e.coder] at hk
      exact e.trans hk
    cases hp : s.coder.pass with
    | e1 => exact step false 0 (by simp [Coder.encTrace, hp]) (by simp [encRenorm, hp])
    | e2 => exact step true half (by simp [Coder.encTrace, hp]) (by simp [encRenorm, hp])
    | e3 =>
      have hne : (s.coder.btf == maxBtf) = false := by
        simp only [beq_eq_false_iff_ne]; omega
      have htr : s.coder.encTrace (n + 1) =
          ({ s.coder with btf := s.coder.btf + 1 }.shiftBounds firstQuarter).encTrace n := by
        simp [Coder.encTrace, hp]
      have hrun : encRenorm (n + 1) s = encRenorm n
          { s with coder := { s.coder with btf := s.coder.btf + 1 }.shiftBounds firstQuarter } := by
        simp only [encRenorm, hp, hne, guard_false, encShift]
      rw [htr] at r ⊢
      rw [hrun]
      have hbtf : ({ s.coder with btf := s.coder.btf + 1 }.shiftBounds firstQuarter).btf = s.coder.btf + 1 := rfl
      generalize ({ s.coder with btf := s.coder.btf + 1 } : Coder).shiftBounds firstQuarter = c at *
      obtain ⟨u, hu, k⟩ := encRenorm_emits n { s with coder := c } h
        (hbtf.symm ▸ by omega) ((roomFor_coder s c _).2 r)
      exact ⟨u, hu, k.of_coder⟩
    | stop =>
      refine ⟨s, by simp [encRenorm, hp], ?_⟩
      simpa [Coder.encTrace, hp] using Emitted.refl h

/-! ### When the bit counter overflows -/

/-- An E3 pass raises CAPACITY with the counter at its maximum, else it counts one bit more and goes on (R88). -/
theorem encRenorm_e3 {s : State} (h : s.coder.pass = .e3) (n : Nat) :
    encRenorm (n + 1) s = Run.guard s (s.coder.btf == maxBtf) .capacity
      (encRenorm n (encShift firstQuarter { s with coder := { s.coder with btf := s.coder.btf + 1 } })) := by
  rw [encRenorm, h]

/-- The passes of equal bounds are the same (R88). -/
theorem iterated_pass_congr (off : Nat) : ∀ (j : Nat) {c d : Coder}, c.low = d.low → c.high = d.high →
    Coder.pass ((fun e : Coder => e.shiftBounds off)^[j] c) = Coder.pass ((fun e : Coder => e.shiftBounds off)^[j] d)
  | 0, c, d, hl, hh => by
    show c.pass = d.pass
    unfold Coder.pass
    rw [hl, hh]
  | j + 1, c, d, hl, hh =>
    iterated_pass_congr off j (c := c.shiftBounds off) (d := d.shiftBounds off) (by simp [Coder.shiftBounds, hl])
      (by simp [Coder.shiftBounds, hh])

theorem iterated_pass_shift (off btf j : Nat) (s : State) :
    Coder.pass ((fun e : Coder => e.shiftBounds off)^[j]
        (encShift off { s with coder := { s.coder with btf := btf } }).coder) =
      Coder.pass ((fun e : Coder => e.shiftBounds off)^[j + 1] s.coder) :=
  iterated_pass_congr off j rfl rfl

theorem guard_counter_full {s : State} {top : Nat} (h : s.coder.btf = top) (r : Run) :
    Run.guard s (s.coder.btf == top) .capacity r = .raised s .capacity := by
  rw [h, beq_self_eq_true, guard_true]

theorem guard_counter_room {s : State} {top : Nat} (h : s.coder.btf < top) (r : Run) :
    Run.guard s (s.coder.btf == top) .capacity r = r := by
  rw [beq_eq_false_iff_ne.2 (Nat.ne_of_lt h), guard_false]

/-- A renormalization whose first passes are E3 up to the one that meets the counter at its maximum raises CAPACITY
(R88). -/
theorem encRenorm_overflows : ∀ (k n : Nat) (s : State), k < n → s.coder.btf + k = maxBtf →
    (∀ j ≤ k, Coder.pass ((fun d : Coder => d.shiftBounds firstQuarter)^[j] s.coder) = .e3) →
    ∃ t, encRenorm n s = .raised t .capacity
  | _, 0, _, hn, _, _ => absurd hn (Nat.not_lt_zero _)
  | 0, n + 1, s, _, hb, hp => by
    rw [encRenorm_e3 (hp 0 (Nat.le_refl _))]
    exact ⟨s, guard_counter_full hb _⟩
  | k + 1, n + 1, s, hn, hb, hp => by
    rw [encRenorm_e3 (hp 0 (Nat.zero_le _)), guard_counter_room (by rw [← hb]; omega)]
    refine encRenorm_overflows k n _ (by omega) ?_ fun j hj => (iterated_pass_shift _ _ _ _).trans (hp (j + 1) (by omega))
    rw [← hb]
    show s.coder.btf + 1 + k = s.coder.btf + (k + 1)
    omega

end Sys2Proof.Laws
end

