-- ==== Sys2Proof/Laws/Unpacker.lean ====
section
/-! SUPPORT. What ReadCodeBit, its repetition and DecRenorm do, said once each: that they complete with their bits at
hand and what they leave, and where they hold. -/

namespace Sys2Proof.Laws

open Sys2Proof.Machine

/-- `t` is `s` after code bits have been read: coder `c`, `bits` still to read, nothing else touched. -/
structure Consumed (s : State) (c : Coder) (bits : List Bool) (t : State) : Prop where
  eq : t = { s with coder := c, bitio := t.bitio, inq := t.inq }
  inBits : t.inBits = bits
  oacc : t.bitio.oacc = s.bitio.oacc
  ocnt : t.bitio.ocnt = s.bitio.ocnt
  icnt : t.bitio.icnt ≤ max 8 s.bitio.icnt
  drop : ∃ k, t.inq = s.inq.drop k

theorem Consumed.coder {s t : State} {c : Coder} {bits : List Bool} (h : Consumed s c bits t) :
    t.coder = c := by rw [h.eq]

theorem Consumed.inend {s t : State} {c : Coder} {bits : List Bool} (h : Consumed s c bits t) :
    t.inend = s.inend := by rw [h.eq]

theorem Consumed.refl (s : State) : Consumed s s.coder s.inBits s :=
  ⟨rfl, rfl, rfl, rfl, Nat.le_max_right _ _, 0, rfl⟩

theorem Consumed.trans {s t u : State} {c d : Coder} {x y : List Bool} (h : Consumed s c x t)
    (k : Consumed t d y u) : Consumed s d y u where
  eq := by rw [k.eq, h.eq]
  inBits := k.inBits
  oacc := k.oacc.trans h.oacc
  ocnt := k.ocnt.trans h.ocnt
  icnt := by have := k.icnt; have := h.icnt; omega
  drop := by
    obtain ⟨m, hm⟩ := h.drop
    obtain ⟨n, hn⟩ := k.drop
    exact ⟨m + n, by rw [hn, hm, List.drop_drop]⟩

/-- A change of the coder before the reads. -/
theorem Consumed.of_coder {s t : State} {c d : Coder} {x : List Bool}
    (h : Consumed { s with coder := c } d x t) : Consumed s d x t :=
  ⟨h.eq, h.inBits, h.oacc, h.ocnt, h.icnt, h.drop⟩

@[simp] theorem inBits_coder (s : State) (c : Coder) : State.inBits { s with coder := c } = s.inBits := rfl

@[simp] theorem bitsReady_coder (s : State) (c : Coder) (n : Nat) :
    State.bitsReady { s with coder := c } n ↔ s.bitsReady n := Iff.rfl

theorem bitsReady_mono {s : State} {m n : Nat} (h : s.bitsReady n) (hm : m ≤ n) : s.bitsReady m :=
  h.imp id fun h => hm.trans h

/-- Bits at hand for one read and `n` more are bits at hand for the `n` after it. -/
theorem Consumed.ready {s t : State} {c d : Coder} {n : Nat}
    (h : Consumed s d (c.readBit s.inBits).2 t) (r : s.bitsReady (n + 1)) : t.bitsReady n := by
  rcases r with r | r
  · exact .inl (h.inend.trans r)
  · refine .inr ?_
    rw [h.inBits]
    cases hb : s.inBits with
    | nil => rw [hb] at r; simp at r
    | cons b rest => rw [hb] at r; simpa [Coder.readBit] using r

/-! ### ReadCodeBit -/

/-- There is no bit to read exactly when the current byte is used up and the FIFO is empty (R79). -/
theorem inBits_eq_nil {s : State} : s.inBits = [] ↔ s.bitio.icnt = 0 ∧ s.inq = [] := by
  simp only [State.inBits, List.append_eq_nil_iff, bytesBits_eq_nil]
  constructor
  · rintro ⟨h, k⟩
    refine ⟨?_, k⟩
    simpa using congrArg List.length h
  · rintro ⟨h, k⟩
    exact ⟨by rw [h]; rfl, k⟩

/-- With a bit at hand ReadCodeBit takes the first of them (R80, R81). -/
theorem readCodeBit_bit {s : State} {b : Bool} {rest : List Bool} (h : s.inBits = b :: rest) :
    ∃ t, readCodeBit s = .done t ∧ Consumed s (s.coder.shiftIn b) rest t ∧
      (t.inq = s.inq ∨ s.bitio.icnt = 0 ∧ t.inq = s.inq.drop 1) := by
  unfold readCodeBit getBit
  cases hc : s.bitio.icnt with
  | zero =>
    rw [if_pos rfl]
    cases hq : s.inq with
    | nil => exact absurd (inBits_eq_nil.2 ⟨hc, hq⟩) (by rw [h]; simp)
    | cons byte q =>
      simp only [State.inBits, hc, lowBits_zero, List.nil_append, hq, bytesBits_cons, lowBits_succ byte 7,
        List.cons_append, List.cons.injEq] at h
      obtain ⟨rfl, h2⟩ := h
      refine ⟨_, rfl, ⟨rfl, ?_, rfl, rfl, by simp, 1, by simp [hq]⟩, .inr ⟨rfl, rfl⟩⟩
      simpa [State.inBits] using h2
  | succ n =>
    rw [if_neg (by omega)]
    simp only [State.inBits, hc, lowBits_succ, List.cons_append, List.cons.injEq] at h
    obtain ⟨rfl, h2⟩ := h
    refine ⟨_, rfl, ⟨?_, ?_, rfl, rfl, by simp [hc], 0, rfl⟩, .inl rfl⟩
    · simp only [hc, Nat.add_sub_cancel]
    · simpa [State.inBits, hc] using h2

theorem shiftVirtual_eq (c : Coder) : c.shiftVirtual =
    { c with value := 2 * c.value, vbits := c.vbits - 1, eos := c.eos || c.vbits == 1 } := by
  obtain ⟨low, high, btf, value, vbits, eos⟩ := c
  unfold Coder.shiftVirtual
  rcases vbits with - | - | v <;> simp

/-- With none left and the input ended it shifts in a virtual zero (R81). -/
theorem readCodeBit_virtual {s : State} (h : s.inBits = []) (e : s.inend = true) :
    readCodeBit s = .done { s with coder := s.coder.shiftVirtual } := by
  obtain ⟨hc, hq⟩ := inBits_eq_nil.1 h
  simp [readCodeBit, getBit, hc, hq, e]

/-- Else it holds, with nothing changed (R80). -/
theorem readCodeBit_wait {s : State} (h : s.inBits = []) (e : s.inend = false) :
    readCodeBit s = .held s .input [.readBits 1] := by
  obtain ⟨hc, hq⟩ := inBits_eq_nil.1 h
  simp [readCodeBit, getBit, hc, hq, e]

/-- ReadCodeBit with its bit at hand. -/
theorem readCodeBit_reads {s : State} (r : s.bitsReady 1) :
    ∃ t, readCodeBit s = .done t ∧ Consumed s (s.coder.readBit s.inBits).1 (s.coder.readBit s.inBits).2 t := by
  cases h : s.inBits with
  | cons b rest =>
    obtain ⟨t, ht, k, -⟩ := readCodeBit_bit h
    exact ⟨t, ht, k⟩
  | nil =>
    have e : s.inend = true := by
      rcases r with r | r
      · exact r
      · rw [h] at r; simp at r
    refine ⟨_, readCodeBit_virtual h e, ?_⟩
    have k := Consumed.refl { s with coder := s.coder.shiftVirtual }
    rw [inBits_coder, h] at k
    exact k.of_coder

/-- ReadCodeBit ends or holds; it raises nothing. -/
theorem readCodeBit_cases (s : State) :
    (∃ t, readCodeBit s = .done t ∧ Consumed s (s.coder.readBit s.inBits).1 (s.coder.readBit s.inBits).2 t) ∨
    (readCodeBit s = .held s .input [.readBits 1] ∧ s.inBits = [] ∧ s.inend = false) := by
  by_cases r : s.bitsReady 1
  · exact .inl (readCodeBit_reads r)
  · have hl : s.inBits = [] := by
      cases h : s.inBits with
      | nil => rfl
      | cons b rest => exact absurd (.inr (by rw [h]; simp)) r
    have he : s.inend = false := by
      cases h : s.inend with
      | false => rfl
      | true => exact absurd (.inl h) r
    exact .inr ⟨readCodeBit_wait hl he, hl, he⟩

/-! ### Many bits -/

/-- `n` code bits read from a bit stream that ends in virtual zeros. -/
def readMany : Nat → Coder → List Bool → Coder × List Bool
  | 0, c, bits => (c, bits)
  | n + 1, c, bits => readMany n (c.readBit bits).1 (c.readBit bits).2

theorem readBits_reads : ∀ (n : Nat) (s : State), s.bitsReady n →
    ∃ t, readBits n s = .done t ∧ Consumed s (readMany n s.coder s.inBits).1 (readMany n s.coder s.inBits).2 t
  | 0, s, _ => ⟨s, rfl, Consumed.refl s⟩
  | n + 1, s, r => by
    obtain ⟨t, ht, h⟩ := readCodeBit_reads (bitsReady_mono r (by omega : 1 ≤ n + 1))
    obtain ⟨u, hu, k⟩ := readBits_reads n t (h.ready r)
    rw [h.coder, h.inBits] at k
    exact ⟨u, by rw [readBits, ht, andThen_done, hu], h.trans k⟩

/-- What is left to read after `n` bits. -/
theorem readMany_bits : ∀ (n : Nat) (c : Coder) (bits : List Bool), (readMany n c bits).2 = bits.drop n
  | 0, _, _ => rfl
  | n + 1, c, bits => by
    rw [readMany, readMany_bits]
    cases bits <;> simp [Coder.readBit]

/-! ### DecRenorm -/

/-- Which pass the bounds call for depends on the bounds alone. -/
theorem pass_congr {c d : Coder} (hl : c.low = d.low) (hh : c.high = d.high) : c.pass = d.pass := by
  simp only [Coder.pass, hl, hh]

theorem passCount_congr : ∀ (n : Nat) {c d : Coder}, c.low = d.low → c.high = d.high →
    c.passCount n = d.passCount n
  | 0, _, _, _, _ => rfl
  | n + 1, c, d, hl, hh => by
    have hp := pass_congr hl hh
    simp only [Coder.passCount, hp]
    rw [passCount_congr n (c := c.shiftBounds d.pass.offset) (d := d.shiftBounds d.pass.offset)
      (by simp [Coder.shiftBounds, hl]) (by simp [Coder.shiftBounds, hh])]

/-- A code bit leaves the bounds alone. -/
theorem readBit_bounds (c : Coder) (bits : List Bool) :
    (c.readBit bits).1.low = c.low ∧ (c.readBit bits).1.high = c.high ∧ (c.readBit bits).1.btf = c.btf := by
  cases bits with
  | nil => simp [Coder.readBit, shiftVirtual_eq]
  | cons b rest => simp [Coder.readBit, Coder.shiftIn]

/-- DecRenorm with a bit at hand for every pass (R89). -/
theorem decRenorm_reads : ∀ (n : Nat) (s : State), s.bitsReady (s.coder.passCount n) →
    ∃ t, decRenorm n s = .done t ∧
      Consumed s (s.coder.decTrace n s.inBits).1 (s.coder.decTrace n s.inBits).2 t
  | 0, s, _ => ⟨s, rfl, Consumed.refl s⟩
  | n + 1, s, r => by
    unfold decRenorm Coder.decTrace
    unfold Coder.passCount at r
    by_cases hp : s.coder.pass = .stop
    · simp only [hp, if_true]
      exact ⟨s, rfl, Consumed.refl s⟩
    · simp only [hp, if_false] at r ⊢
      generalize hc : s.coder.decShift s.coder.pass.offset = c
      obtain ⟨t, ht, h⟩ := readCodeBit_reads (s := { s with coder := c })
        ((bitsReady_coder s c 1).2 (bitsReady_mono r (by omega)))
      have hb := readBit_bounds c s.inBits
      have hn : (s.coder.shiftBounds s.coder.pass.offset).passCount n = t.coder.passCount n := by
        rw [h.coder]
        exact passCount_congr n (by rw [← hc] at hb ⊢; exact hb.1.symm) (by rw [← hc] at hb ⊢; exact hb.2.1.symm)
      obtain ⟨u, hu, k⟩ := decRenorm_reads n t
        (h.ready ((bitsReady_coder s c _).2 (hn ▸ r)))
      have h' := h.of_coder
      rw [h.coder, h.inBits] at k
      exact ⟨u, by rw [ht, andThen_done, hu], h'.trans k⟩

end Sys2Proof.Laws
end

