-- ==== Sys2Proof/Laws/Runs.lean ====
section
/-! SUPPORT. How a property of the state goes through the pieces of a command: the rule of sequencing, and the frame
of every piece (what none of them touches, and how they hold and fault). -/

namespace Sys2Proof.Laws

open Sys2Proof.Machine

/-- Every end of a piece is accounted for: the state it completes in, the state it holds in and what it has left,
the state in which it raises a fault, and which. -/
def Meets (r : Run) (D : State → Prop) (H : State → HoldKind → List Task → Prop)
    (F : State → FaultCode → Prop) : Prop :=
  match r with
  | .done t => D t
  | .held t k ts => H t k ts
  | .raised t c => F t c

variable {D E : State → Prop} {H I : State → HoldKind → List Task → Prop} {F G : State → FaultCode → Prop}

theorem Meets.mono {r : Run} (h : Meets r D H F) (hD : ∀ t, D t → E t) (hH : ∀ t k ts, H t k ts → I t k ts)
    (hF : ∀ t c, F t c → G t c) : Meets r E I G := by
  cases r with
  | done t => exact hD t h
  | held t k ts => exact hH t k ts h
  | raised t c => exact hF t c h

theorem Meets.andThen {r : Run} {rest : List Task} {f : State → Run}
    (h : Meets r E (fun t k ts => H t k (ts ++ rest)) F) (hf : ∀ t, E t → Meets (f t) D H F) :
    Meets (r.andThen rest f) D H F := by
  cases r with
  | done t => exact hf t h
  | held t k ts => exact h
  | raised t c => exact h

theorem Meets.retryAs {r : Run} {rest : List Task} {f : State → Run}
    (h : Meets r E (fun t k _ => H t k rest) F) (hf : ∀ t, E t → Meets (f t) D H F) :
    Meets (r.retryAs rest f) D H F := by
  cases r with
  | done t => exact hf t h
  | held t k ts => exact h
  | raised t c => exact h

theorem Meets.guard {s : State} {bad : Bool} {c : FaultCode} {r : Run} (hF : bad = true → F s c)
    (h : bad = false → Meets r D H F) : Meets (Run.guard s bad c r) D H F := by
  cases bad with
  | false => exact h rfl
  | true => exact hF rfl

theorem Meets.ofExcept {α : Type} {s : State} {r : Except FaultCode α} {f : α → Run}
    (hF : ∀ c, r = .error c → F s c) (h : ∀ a, r = .ok a → Meets (f a) D H F) :
    Meets (Run.ofExcept s r f) D H F := by
  cases r with
  | error c => exact hF c rfl
  | ok a => exact h a rfl

/-! ### The frame of every piece -/

/-- `t` is `s` but for the stream state: results, CLOSED, coder, packer and unpacker, FIFOs, model. -/
def StreamOnly (s t : State) : Prop :=
  t = { s with res0 := t.res0, res1 := t.res1, res2 := t.res2, closed := t.closed, coder := t.coder,
               bitio := t.bitio, inq := t.inq, outq := t.outq, model := t.model }

theorem StreamOnly.refl (s : State) : StreamOnly s s := rfl

theorem StreamOnly.trans {s t u : State} (h : StreamOnly s t) (k : StreamOnly t u) : StreamOnly s u := by
  unfold StreamOnly at *
  rw [k, h]

theorem streamOnly_coder (s : State) (c : Coder) : StreamOnly s { s with coder := c } := rfl

theorem encShift_streamOnly (off : Nat) (s : State) : StreamOnly s (encShift off s) := streamOnly_coder s _

/-- The pieces' common frame: stream state only, something left to do at a hold, and no HOST_IO. -/
def Framed (s : State) (r : Run) : Prop :=
  Meets r (StreamOnly s) (fun t _ ts => StreamOnly s t ∧ ts ≠ []) fun t c => StreamOnly s t ∧ c ≠ .hostIo

theorem Framed.of_streamOnly {s t : State} {r : Run} (h : StreamOnly s t) (k : Framed t r) : Framed s r :=
  Meets.mono k (fun _ ht => h.trans ht) (fun _ _ _ ht => ⟨h.trans ht.1, ht.2⟩) fun _ _ hc => ⟨h.trans hc.1, hc.2⟩

theorem Framed.andThen {s : State} {r : Run} {rest : List Task} {f : State → Run} (h : Framed s r)
    (hf : ∀ t, Framed t (f t)) : Framed s (r.andThen rest f) :=
  Meets.andThen (Meets.mono h (fun _ ht => ht) (fun _ _ _ ht => ⟨ht.1, by simp [ht.2]⟩) fun _ _ hc => hc)
    fun t ht => Framed.of_streamOnly ht (hf t)

theorem putBit_framed (b : Bool) (s : State) : Framed s (putBit b s) := by
  unfold putBit Framed
  split
  · split
    · exact ⟨rfl, by simp⟩
    · rfl
  · rfl

theorem packerClose_framed (s : State) : Framed s (packerClose s) := by
  unfold packerClose Framed
  split
  · split
    · exact ⟨rfl, by simp⟩
    · rfl
  · rfl

theorem followBits_framed (b : Bool) : ∀ (n : Nat) (s : State), Framed s (followBits b n s)
  | 0, _ => rfl
  | n + 1, s => by
    unfold followBits
    refine Meets.retryAs (E := StreamOnly s) ?_ fun t ht => ?_
    · exact Meets.mono (putBit_framed b s) (fun _ h => h) (fun _ _ _ h => ⟨h.1, by simp⟩) fun _ _ h => h
    · exact Framed.of_streamOnly (ht.trans (by rfl)) (followBits_framed b n _)

theorem bitPlusFollow_framed (b : Bool) (s : State) : Framed s (bitPlusFollow b s) :=
  (putBit_framed b s).andThen fun t => followBits_framed (!b) t.coder.btf t

theorem encRenorm_framed : ∀ (n : Nat) (s : State), Framed s (encRenorm n s)
  | 0, _ => rfl
  | n + 1, s => by
    unfold encRenorm
    split
    · exact (bitPlusFollow_framed _ s).andThen fun t =>
        Framed.of_streamOnly (encShift_streamOnly _ t) (encRenorm_framed n _)
    · exact (bitPlusFollow_framed _ s).andThen fun t =>
        Framed.of_streamOnly (encShift_streamOnly _ t) (encRenorm_framed n _)
    · exact Meets.guard (fun _ => ⟨rfl, by simp⟩) fun _ => Framed.of_streamOnly
        ((streamOnly_coder s _).trans (encShift_streamOnly _ _)) (encRenorm_framed n _)
    · rfl

theorem encodeInterval_framed (iv : Interval) (s : State) : Framed s (encodeInterval iv s) := by
  unfold encodeInterval
  generalize renormPasses = n
  exact Meets.guard (fun _ => ⟨rfl, by simp⟩) fun _ => Framed.of_streamOnly (by rfl) (encRenorm_framed n _)

theorem readCodeBit_framed (s : State) : Framed s (readCodeBit s) := by
  rcases readCodeBit_cases s with ⟨t, ht, h⟩ | ⟨h, -⟩
  · rw [ht]
    show StreamOnly s t
    unfold StreamOnly
    rw [h.eq]
  · rw [h]
    exact ⟨rfl, by simp⟩

theorem readBits_framed : ∀ (n : Nat) (s : State), Framed s (readBits n s)
  | 0, _ => rfl
  | n + 1, s => (readCodeBit_framed s).andThen (readBits_framed n)

theorem decRenorm_framed : ∀ (n : Nat) (s : State), Framed s (decRenorm n s)
  | 0, _ => rfl
  | n + 1, s => by
    unfold decRenorm
    split
    · rfl
    · exact Framed.of_streamOnly (by rfl) ((readCodeBit_framed _).andThen (decRenorm_framed n))

/-! ### Model operations raise no HOST_IO -/

theorem newChain_code : ∀ (rest : List Byte) (b : Byte) (nodes : Nat) (c : FaultCode),
    newChain b rest nodes = .error c → c = .capacity := by
  intro rest
  induction rest with
  | nil =>
    intro b nodes c h
    simp only [newChain, takeNode] at h
    split at h <;> simp_all [bind, Except.bind]
  | cons q qs ih =>
    intro b nodes c h
    simp only [newChain, takeNode] at h
    split at h
    · simp_all [bind, Except.bind]
    · simp only [bind, Except.bind] at h
      split at h
      · rename_i e he
        cases h
        exact ih q _ _ he
      · cases h

theorem nodeIncrement_code : ∀ (path : List Byte) (n : Node) (nodes : Nat) (c : FaultCode),
    nodeIncrement path n nodes = .error c → c = .capacity := by
  intro path
  induction path with
  | nil => intro n nodes c h; cases h
  | cons b rest ih =>
    intro n nodes c h
    simp only [nodeIncrement] at h
    split at h
    · simp only [Node.addChild, bind, Except.bind] at h
      split at h
      · rename_i e he
        cases h
        exact newChain_code _ _ _ _ he
      · cases h
    · split at h
      · simp only [bind, Except.bind] at h
        split at h
        · rename_i e he
          cases h
          exact ih _ _ _ he
        · cases h
      · cases h

theorem insertBuffer_code {m : Model} {c : FaultCode} (h : m.insertBuffer = .error c) : c = .capacity := by
  unfold Model.insertBuffer at h
  split at h
  · cases h
  · dsimp only at h
    split at h
    · rename_i e he
      cases h
      exact nodeIncrement_code _ _ _ _ he
    · cases h

theorem increment_code {m : Model} {b : Byte} {c : FaultCode} (h : m.increment b = .error c) :
    c = .capacity := by
  unfold Model.increment at h
  split at h
  · rename_i e he
    cases h
    exact insertBuffer_code he
  · cases h

theorem byteInterval_code {m : Model} {b : Byte} {c : FaultCode} (h : m.byteInterval b = .error c) :
    c = .protocol := by
  unfold Model.byteInterval at h
  split at h
  · cases h; rfl
  · split at h
    · split at h
      · cases h
      · cases h; rfl
    · cases h

/-- The model refuses a symbol with PROTOCOL, or runs out of nodes (R123, R112). -/
theorem codeSymbol_code {m : Model} {sym : Sym} {c : FaultCode} (h : m.codeSymbol sym = .error c) :
    c = .protocol ∨ c = .capacity := by
  cases sym with
  | escape =>
    simp only [Model.codeSymbol] at h
    split at h
    · cases h; exact .inl rfl
    · cases h
  | eof =>
    simp only [Model.codeSymbol] at h
    split at h
    · cases h; exact .inl rfl
    · cases h
  | byte b =>
    simp only [Model.codeSymbol] at h
    split at h
    · rename_i e he
      cases h
      exact .inl (byteInterval_code he)
    · split at h
      · rename_i e he
        cases h
        exact .inr (increment_code he)
      · cases h

theorem point_code {m : Model} {x : Int} {c : FaultCode} (h : m.point x = .error c) : c = .protocol := by
  unfold Model.point at h
  split at h
  · cases h; rfl
  · split at h <;> cases h

/-! ### The loops of the composite commands -/

/-- What one decoded symbol is (R140), said once: the point, the interval it implies, the narrowed coder. -/
theorem decodeSym_ok {s t : State} {sym : Sym} (h : decodeSym s = .ok (sym, t)) :
    ∃ iv m, s.model.point (s.coder.count s.model.total) = .ok sym ∧ s.model.codeSymbol sym = .ok (iv, m) ∧
      iv.ok = true ∧ s.coder.misses iv = false ∧ t = { s with model := m, coder := s.coder.narrow iv } := by
  simp only [decodeSym, bind, Except.bind] at h
  split at h
  · cases h
  · rename_i sym' hp
    split at h
    · cases h
    · rename_i r hc
      split at h
      · rename_i hok
        split at h
        · cases h
        · rename_i c hr
          simp only [Except.ok.injEq, Prod.mk.injEq] at h
          obtain ⟨rfl, rfl⟩ := h
          simp only [Coder.remove] at hr
          split at hr
          · cases hr
          · rename_i hm
            obtain rfl := Except.ok.inj hr
            exact ⟨r.1, r.2, hp, hc, hok, by simpa using hm, rfl⟩
      · cases h

theorem decodeSym_code {s : State} {c : FaultCode} (h : decodeSym s = .error c) : c ≠ .hostIo := by
  simp only [decodeSym, bind, Except.bind] at h
  split at h
  · rename_i e he
    cases h
    rw [point_code he]; simp
  · split at h
    · rename_i e he
      cases h
      rcases codeSymbol_code he with rfl | rfl <;> simp
    · split at h
      · split at h
        · rename_i e he
          cases h
          simp only [Coder.remove] at he
          split at he <;> cases he
          simp
        · cases h
      · cases h; simp

theorem encodeSym_framed (sym : Sym) (s : State) : Framed s (encodeSym sym s) :=
  Meets.ofExcept (fun c h => ⟨rfl, by rcases codeSymbol_code h with rfl | rfl <;> simp⟩)
    fun _ _ => Framed.of_streamOnly (by rfl) (encodeInterval_framed _ _)

theorem encFinal_framed (sym : Sym) (n : Nat) (s : State) : Framed s (encFinal sym n s) :=
  (encodeSym_framed sym s).andThen fun _ => rfl

theorem encLoop_framed : ∀ (more : Nat) (sym : Sym) (n : Nat) (s : State), Framed s (encLoop more sym n s)
  | 0, sym, n, s => encFinal_framed sym n s
  | more + 1, sym, n, s => by
    unfold encLoop
    split
    · exact (encodeSym_framed _ s).andThen (encLoop_framed more sym (n + 1))
    · exact encFinal_framed sym n s

theorem decNext_framed {again : State → Run} (h : ∀ t, Framed t (again t)) (sym : Sym) (n : Nat) (s : State) :
    Framed s (decNext again sym n s) := by
  unfold decNext
  split
  · exact h s
  · rfl

theorem decodeSym_streamOnly {s t : State} {sym : Sym} (h : decodeSym s = .ok (sym, t)) : StreamOnly s t := by
  obtain ⟨iv, m, -, -, -, -, rfl⟩ := decodeSym_ok h
  rfl

theorem decLoop_framed : ∀ (more n : Nat) (s : State), Framed s (decLoop more n s)
  | 0, n, _ => Meets.ofExcept (fun _ h => ⟨rfl, decodeSym_code h⟩) fun r hr =>
      Framed.of_streamOnly (decodeSym_streamOnly hr)
        ((decRenorm_framed _ _).andThen (decNext_framed (again := .done) (fun t => StreamOnly.refl t) r.1 n))
  | more + 1, n, _ => Meets.ofExcept (fun _ h => ⟨rfl, decodeSym_code h⟩) fun r hr =>
      Framed.of_streamOnly (decodeSym_streamOnly hr)
        ((decRenorm_framed _ _).andThen (decNext_framed (decLoop_framed more (n + 1)) r.1 n))

theorem decAgain_framed (more n : Nat) (s : State) : Framed s (decAgain more n s) := by
  cases more with
  | zero => rfl
  | succ more => exact decLoop_framed more (n + 1) s

theorem runTask_framed (t : Task) (s : State) : Framed s (runTask t s) := by
  cases t with
  | putBit b => exact putBit_framed b s
  | follow b => exact followBits_framed b _ s
  | encShift off => rfl
  | encRenorm n => exact encRenorm_framed n s
  | packerClose => exact packerClose_framed s
  | markClosed => rfl
  | encLoop more sym n => exact encLoop_framed more sym n s
  | encEnd n => rfl
  | readBits k => exact readBits_framed k s
  | decRenorm n => exact decRenorm_framed n s
  | decNext more sym n => exact decNext_framed (decAgain_framed more n) sym n s

/-- The rest of a held command touches stream state only, holds with something left, raises no HOST_IO (R151). -/
theorem runTasks_framed : ∀ (ts : List Task) (s : State), Framed s (runTasks ts s)
  | [], _ => rfl
  | t :: ts, s => (runTask_framed t s).andThen (runTasks_framed ts)

end Sys2Proof.Laws
end

