-- ==== Sys2Proof/Laws/Buffers.lean ====
section
/-! SUPPORT. Every piece of a command keeps the packer, the unpacker and the FIFOs in range (R33, R34). -/

namespace Sys2Proof.Laws

open Sys2Proof.Machine

/-- Packer, unpacker and FIFOs in range. -/
def Buffered (s : State) : Prop := s.bitio.wf ∧ s.fifosWf

/-- The piece keeps them so, completed or held. -/
def KeepsBuffers (r : Run) : Prop := Meets r Buffered (fun t _ _ => Buffered t) fun _ _ => True

theorem KeepsBuffers.andThen {r : Run} {rest : List Task} {f : State → Run} (h : KeepsBuffers r)
    (hf : ∀ t, Buffered t → KeepsBuffers (f t)) : KeepsBuffers (r.andThen rest f) :=
  Meets.andThen h hf

theorem buffered_coder {s : State} (c : Coder) (h : Buffered s) : Buffered { s with coder := c } := h

theorem encShift_buffered {s : State} (off : Nat) (h : Buffered s) : Buffered (encShift off s) :=
  buffered_coder _ h

theorem depth_pos : 1 ≤ Config.outDepth ∧ 1 ≤ Config.inDepth := by
  unfold Config.outDepth Config.inDepth
  omega

theorem outPush_buffered {s : State} (byte : Byte) (h : Buffered s) (hf : ¬ Config.outDepth ≤ s.outq.length) :
    Buffered (s.outPush byte) := by
  obtain ⟨⟨-, -, h3⟩, h4, -⟩ := h
  refine ⟨⟨by simp, by simp, h3⟩, h4, ?_⟩
  simp only [outPush_outq, List.length_append, List.length_singleton]
  omega

theorem putBit_buffers (b : Bool) {s : State} (h : Buffered s) : KeepsBuffers (putBit b s) := by
  rw [putBit_eq]
  split
  · exact h
  · rename_i hn
    refine ⟨(putDone_emitted b h.1).wf, ?_⟩
    unfold putDone
    split
    · exact (outPush_buffered _ h fun hf => hn ⟨by assumption, hf⟩).2
    · exact h.2

theorem followBits_buffers (b : Bool) : ∀ (n : Nat) {s : State}, Buffered s → KeepsBuffers (followBits b n s)
  | 0, _, h => h
  | n + 1, _, h => Meets.retryAs (putBit_buffers b h) fun _ ht => followBits_buffers b n ht

theorem bitPlusFollow_buffers (b : Bool) {s : State} (h : Buffered s) : KeepsBuffers (bitPlusFollow b s) :=
  (putBit_buffers b h).andThen fun t ht => followBits_buffers (!b) t.coder.btf ht

theorem encRenorm_buffers : ∀ (n : Nat) {s : State}, Buffered s → KeepsBuffers (encRenorm n s)
  | 0, _, h => h
  | n + 1, s, h => by
    unfold encRenorm
    split
    · exact (bitPlusFollow_buffers _ h).andThen fun _ ht => encRenorm_buffers n (encShift_buffered _ ht)
    · exact (bitPlusFollow_buffers _ h).andThen fun _ ht => encRenorm_buffers n (encShift_buffered _ ht)
    · exact Meets.guard (fun _ => trivial) fun _ => encRenorm_buffers n (encShift_buffered _ (buffered_coder _ h))
    · exact h

theorem encodeInterval_buffers (iv : Interval) {s : State} (h : Buffered s) :
    KeepsBuffers (encodeInterval iv s) := by
  unfold encodeInterval
  generalize renormPasses = n
  exact Meets.guard (fun _ => trivial) fun _ => encRenorm_buffers n h

theorem packerClose_buffers {s : State} (h : Buffered s) : KeepsBuffers (packerClose s) := by
  unfold packerClose
  split
  · split
    · exact h
    · rename_i hf
      exact outPush_buffered _ h (by simpa [State.outFull] using hf)
  · exact h

theorem readCodeBit_buffers {s : State} (h : Buffered s) : KeepsBuffers (readCodeBit s) := by
  rcases readCodeBit_cases s with ⟨t, ht, k⟩ | ⟨k, -⟩
  · rw [ht]
    obtain ⟨⟨h1, h2, h3⟩, h4, h5⟩ := h
    refine ⟨⟨k.ocnt ▸ h1, ?_, ?_⟩, ?_, ?_⟩
    · rw [k.oacc, k.ocnt]; exact h2
    · have := k.icnt; omega
    · obtain ⟨j, hj⟩ := k.drop
      rw [hj, List.length_drop]
      omega
    · rw [k.eq]; exact h5
  · rw [k]
    exact h

theorem readBits_buffers : ∀ (n : Nat) {s : State}, Buffered s → KeepsBuffers (readBits n s)
  | 0, _, h => h
  | n + 1, _, h => (readCodeBit_buffers h).andThen fun _ ht => readBits_buffers n ht

theorem decRenorm_buffers : ∀ (n : Nat) {s : State}, Buffered s → KeepsBuffers (decRenorm n s)
  | 0, _, h => h
  | n + 1, s, h => by
    unfold decRenorm
    split
    · exact h
    · exact (readCodeBit_buffers (s := { s with coder := s.coder.decShift s.coder.pass.offset }) h).andThen
        fun _ ht => decRenorm_buffers n ht

theorem encodeSym_buffers (sym : Sym) {s : State} (h : Buffered s) : KeepsBuffers (encodeSym sym s) :=
  Meets.ofExcept (fun _ _ => trivial) fun r _ => encodeInterval_buffers r.1 (s := { s with model := r.2 }) h

theorem encFinal_buffers (sym : Sym) (n : Nat) {s : State} (h : Buffered s) : KeepsBuffers (encFinal sym n s) :=
  (encodeSym_buffers sym h).andThen fun _ ht => ht

theorem encLoop_buffers : ∀ (more : Nat) (sym : Sym) (n : Nat) {s : State}, Buffered s →
    KeepsBuffers (encLoop more sym n s)
  | 0, sym, n, _, h => encFinal_buffers sym n h
  | more + 1, sym, n, s, h => by
    unfold encLoop
    split
    · exact (encodeSym_buffers _ h).andThen fun _ ht => encLoop_buffers more sym (n + 1) ht
    · exact encFinal_buffers sym n h

theorem decNext_buffers {again : State → Run} (ha : ∀ t, Buffered t → KeepsBuffers (again t)) (sym : Sym) (n : Nat)
    {s : State} (h : Buffered s) : KeepsBuffers (decNext again sym n s) := by
  unfold decNext
  split
  · exact ha s h
  · exact h

theorem decodeSym_buffers {s t : State} {sym : Sym} (h : Buffered s) (ht : decodeSym s = .ok (sym, t)) :
    Buffered t := by
  obtain ⟨iv, m, -, -, -, -, rfl⟩ := decodeSym_ok ht
  exact h

theorem decLoop_buffers : ∀ (more n : Nat) {s : State}, Buffered s → KeepsBuffers (decLoop more n s)
  | 0, n, _, h => by
    unfold decLoop
    generalize renormPasses = p
    exact Meets.ofExcept (fun _ _ => trivial) fun r hr =>
      (decRenorm_buffers p (decodeSym_buffers h hr)).andThen fun _ ht =>
        decNext_buffers (again := .done) (fun _ hu => hu) r.1 n ht
  | more + 1, n, _, h => by
    unfold decLoop
    generalize renormPasses = p
    exact Meets.ofExcept (fun _ _ => trivial) fun r hr =>
      (decRenorm_buffers p (decodeSym_buffers h hr)).andThen fun _ ht =>
        decNext_buffers (fun _ hu => decLoop_buffers more (n + 1) hu) r.1 n ht

theorem runTask_buffers (x : Task) {s : State} (h : Buffered s) : KeepsBuffers (runTask x s) := by
  cases x with
  | putBit b => exact putBit_buffers b h
  | follow b => exact followBits_buffers b _ h
  | encShift off => exact h
  | encRenorm n => exact encRenorm_buffers n h
  | packerClose => exact packerClose_buffers h
  | markClosed => exact h
  | encLoop more sym n => exact encLoop_buffers more sym n h
  | encEnd n => exact h
  | readBits k => exact readBits_buffers k h
  | decRenorm n => exact decRenorm_buffers n h
  | decNext more sym n =>
    refine decNext_buffers (fun t ht => ?_) sym n h
    cases more with
    | zero => exact ht
    | succ more => exact decLoop_buffers more (n + 1) ht

/-- The rest of a held command keeps the buffers in range. -/
theorem runTasks_buffers : ∀ (ts : List Task) {s : State}, Buffered s → KeepsBuffers (runTasks ts s)
  | [], _, h => h
  | t :: ts, _, h => (runTask_buffers t h).andThen fun _ hu => runTasks_buffers ts hu

theorem closeStream_buffers {s : State} (h : Buffered s) : KeepsBuffers (closeStream s) :=
  (bitPlusFollow_buffers _ (s := { s with coder := { s.coder with btf := s.coder.btf + 1 } }) h).andThen
    fun _ ht => (packerClose_buffers ht).andThen fun _ hu => hu

end Sys2Proof.Laws
end

