-- ==== Sys2Proof/Laws/Tries.lean ====
section
/-! SUPPORT. Tries as sequences of nodes: the two views are inverse, and well-formedness and size are said of the
sequence; what the trie's updates do to them (R36, R44, R111 to R114). -/

namespace Sys2Proof.Laws

open Sys2Proof.Machine

/-! ### Sibling lists as sequences -/

@[simp] theorem toList_ofList : ∀ ns : List Node, (Trie.ofList ns).toList = ns
  | [] => rfl
  | n :: ns => by rw [Trie.ofList, Trie.toList, toList_ofList ns]

@[simp] theorem ofList_toList : ∀ t : Trie, Trie.ofList t.toList = t
  | .nil => rfl
  | .cons _ _ _ _ next => by rw [Trie.toList, Trie.ofList, ofList_toList next]

@[simp] theorem kids_withKids (n : Node) (ks : List Node) : (n.withKids ks).kids = ks := toList_ofList ks

@[simp] theorem withKids_byte (n : Node) (ks : List Node) : (n.withKids ks).byte = n.byte := rfl

@[simp] theorem withKids_count (n : Node) (ks : List Node) : (n.withKids ks).count = n.count := rfl

@[simp] theorem withKids_outcomes (n : Node) (ks : List Node) : (n.withKids ks).outcomes = n.outcomes := rfl

theorem bytes_eq : ∀ t : Trie, t.bytes = t.toList.map Node.byte
  | .nil => rfl
  | .cons _ _ _ _ next => by rw [Trie.bytes, Trie.toList, List.map_cons, bytes_eq next]

theorem size_eq : ∀ t : Trie, t.size = (t.toList.map Node.size).sum
  | .nil => rfl
  | .cons _ _ _ _ next => by
    rw [Trie.size, Trie.toList, List.map_cons, List.sum_cons, ← size_eq next]
    rfl

theorem size_ofList (ns : List Node) : (Trie.ofList ns).size = (ns.map Node.size).sum := by
  rw [size_eq, toList_ofList]

/-- The size of everything below a node. -/
theorem kids_size (n : Node) : n.children.size = (n.kids.map Node.size).sum := size_eq _

/-- A node's place in a sibling list: its count, its outcomes and its children in range (R36). -/
def nodeWf (n : Node) : Prop :=
  1 ≤ n.count ∧ n.count ≤ maxIndividualCount ∧ outcomesWf n.outcomes n.children ∧ n.children.wf

/-- What a node's own updates keep: outcomes and children in range. -/
def bodyWf (n : Node) : Prop := outcomesWf n.outcomes n.children ∧ n.children.wf

theorem wf_iff : ∀ t : Trie, t.wf ↔ (∀ n ∈ t.toList, nodeWf n) ∧ (t.toList.map Node.byte).Nodup
  | .nil => by simp [Trie.wf, Trie.toList]
  | .cons b c o kids next => by
    simp only [Trie.wf, Trie.toList, List.forall_mem_cons, List.map_cons, List.nodup_cons, wf_iff next,
      bytes_eq next, nodeWf]
    tauto

theorem kids_eq_nil {n : Node} : n.kids = [] ↔ n.children = .nil := by
  unfold Node.kids
  cases n.children <;> simp [Trie.toList]

/-- Well-formedness of a node's body, said of its children as a sequence. -/
theorem bodyWf_iff {n : Node} : bodyWf n ↔
    (n.outcomes ≤ 256 + n.kids.length ∧ (n.kids ≠ [] → 1 ≤ n.outcomes)) ∧
      (∀ c ∈ n.kids, nodeWf c) ∧ (n.kids.map Node.byte).Nodup := by
  unfold bodyWf outcomesWf
  rw [wf_iff, bytes_eq, List.length_map, ne_eq, ne_eq, kids_eq_nil]
  rfl

/-- Distinct bytes are at most 256. -/
theorem nodup_bytes_length {bs : List Byte} (h : bs.Nodup) : bs.length ≤ 256 := by
  have hs : bs.map BitVec.toNat ⊆ List.range 256 := by
    intro x hx
    obtain ⟨b, -, rfl⟩ := List.mem_map.1 hx
    exact List.mem_range.2 b.isLt
  have := ((h.map fun _ _ => BitVec.eq_of_toNat_eq).subperm hs).length_le
  simpa using this

theorem kids_length {n : Node} (h : bodyWf n) : n.kids.length ≤ 256 := by
  have := nodup_bytes_length (bodyWf_iff.1 h).2.2
  simpa using this

/-- A node that is no child is not among the children. -/
theorem child_none {n : Node} {b : Byte} : n.child b = none ↔ b ∉ n.kids.map Node.byte := by
  simp [Node.child, List.find?_eq_none]

theorem child_some {n c : Node} {b : Byte} (h : n.child b = some c) : c ∈ n.kids ∧ c.byte = b := by
  refine ⟨List.mem_of_find?_eq_some h, ?_⟩
  simpa using List.find?_some h

theorem child_nodeWf {n c : Node} {b : Byte} (hw : bodyWf n) (h : n.child b = some c) : nodeWf c :=
  (bodyWf_iff.1 hw).2.1 c (child_some h).1

theorem nodeWf.body {n : Node} (h : nodeWf n) : bodyWf n := h.2.2

/-! ### New nodes -/

theorem new_bodyWf (b : Byte) : bodyWf (Node.new b) := by
  refine ⟨⟨by simp [Node.new], fun h => absurd rfl h⟩, trivial⟩

theorem takeNode_ok {nodes n : Nat} (h : takeNode nodes = .ok n) : n = nodes + 1 ∧ nodes ≠ Config.nodeCap := by
  unfold takeNode at h
  split at h
  · cases h
  · exact ⟨(Except.ok.inj h).symm, by assumption⟩

/-- A new chain (R112): a well-formed node of the first byte, every node of it counted, within the store. -/
theorem newChain_ok : ∀ (rest : List Byte) (b : Byte) (nodes : Nat) (n : Node) (nodes' : Nat),
    newChain b rest nodes = .ok (n, nodes') →
    nodeWf n ∧ n.byte = b ∧ n.count = 1 ∧ nodes' = nodes + n.size ∧ (nodes ≤ Config.nodeCap → nodes' ≤ Config.nodeCap)
  | [], b, nodes, n, nodes', h => by
    simp only [newChain, bind, Except.bind] at h
    split at h
    · cases h
    · rename_i k hk
      obtain ⟨rfl, hne⟩ := takeNode_ok hk
      simp only [Except.ok.injEq, Prod.mk.injEq] at h
      obtain ⟨rfl, rfl⟩ := h
      refine ⟨⟨by simp [Node.new], by simp [Node.new, maxIndividualCount], new_bodyWf b⟩, rfl, rfl, rfl, ?_⟩
      omega
  | q :: qs, b, nodes, n, nodes', h => by
    simp only [newChain, bind, Except.bind] at h
    split at h
    · cases h
    · rename_i k hk
      obtain ⟨rfl, hne⟩ := takeNode_ok hk
      split at h
      · cases h
      · rename_i r hr
        obtain ⟨h1, h2, -, h4, h5⟩ := newChain_ok qs q _ _ _ hr
        simp only [Except.ok.injEq, Prod.mk.injEq] at h
        obtain ⟨rfl, rfl⟩ := h
        refine ⟨⟨by simp [Node.new], by simp [Node.new, maxIndividualCount], bodyWf_iff.2 ?_⟩, rfl, rfl, ?_, ?_⟩
        · simp [Node.kids, h1]
        · rw [h4]
          show nodes + 1 + r.1.size = nodes + (1 + (Trie.ofList [r.1]).size)
          rw [size_ofList, List.map_cons, List.map_nil, List.sum_cons, List.sum_nil]
          omega
        · intro hle
          exact h5 (by omega)

/-! ### Rescale -/

theorem halved_nodeWf {c : Node} (h : bodyWf c) (h1 : minCount ≤ c.halved.count)
    (h2 : c.count ≤ maxIndividualCount + 1) : nodeWf c.halved := by
  refine ⟨?_, ?_, h⟩
  · unfold minCount at h1; omega
  · simp only [Node.halved, floorHalf, maxIndividualCount] at *; omega

theorem halved_size (c : Node) : c.halved.size = c.size := rfl

theorem sum_filter_add (ns : List Node) (p : Node → Bool) :
    ((ns.filter p).map Node.size).sum + ((ns.filter fun d => !p d).map Node.size).sum = (ns.map Node.size).sum := by
  induction ns with
  | nil => rfl
  | cons n ns ih =>
    cases hp : p n <;> simp [hp] <;> omega

/-- Rescale halves the counts, prunes the children below MIN_COUNT with all below them, and halves the outcomes
rounding up (R113). -/
theorem rescale_kids (n : Node) (nodes : Nat) :
    (n.rescale nodes).1.kids = (n.kids.map Node.halved).filter fun d => minCount ≤ d.count := by
  simp [Node.rescale, Node.kids, Node.withKids]

theorem rescale_size {n : Node} {nodes : Nat} (h : n.children.size ≤ nodes) :
    (n.rescale nodes).2 + n.children.size = nodes + (n.rescale nodes).1.children.size := by
  have hs := sum_filter_add (n.kids.map Node.halved) fun d => decide (minCount ≤ d.count)
  have hm : ((n.kids.map Node.halved).map Node.size).sum = (n.kids.map Node.size).sum := by
    rw [List.map_map]
    rfl
  rw [kids_size] at h ⊢
  rw [kids_size, rescale_kids]
  simp only [Node.rescale]
  rw [hm] at hs
  omega

theorem rescale_bodyWf {n : Node} {nodes : Nat} (ho : n.outcomes ≤ 256 + n.kids.length)
    (h1 : n.kids ≠ [] → 1 ≤ n.outcomes) (hk : ∀ c ∈ n.kids, bodyWf c ∧ c.count ≤ maxIndividualCount + 1)
    (hd : (n.kids.map Node.byte).Nodup) : bodyWf (n.rescale nodes).1 := by
  have hl : n.kids.length ≤ 256 := by simpa using nodup_bytes_length hd
  have hout : (n.rescale nodes).1.outcomes = ceilHalf n.outcomes := rfl
  refine bodyWf_iff.2 ⟨⟨?_, ?_⟩, ?_, ?_⟩
  · rw [hout]; unfold ceilHalf; omega
  · intro hne
    rw [rescale_kids] at hne
    rw [hout]
    have : n.kids ≠ [] := by rintro h; rw [h] at hne; simp at hne
    have := h1 this
    unfold ceilHalf; omega
  · rw [rescale_kids]
    intro c hc
    obtain ⟨hc1, hc2⟩ := List.mem_filter.1 hc
    obtain ⟨d, hd1, rfl⟩ := List.mem_map.1 hc1
    exact halved_nodeWf (hk d hd1).1 (by simpa using hc2) (hk d hd1).2
  · rw [rescale_kids]
    have hb : (n.kids.map Node.halved).map Node.byte = n.kids.map Node.byte := by
      rw [List.map_map]; rfl
    exact (hb ▸ hd).sublist ((List.filter_sublist).map _)

/-! ### Bump -/

/-- The children after a bump, before any rescale. -/
def bumped (n c : Node) : List Node :=
  { c with count := c.count + 1 } :: n.kids.eraseP fun d => d.byte == c.byte

/-- Bump is the move to the front with the count raised, and a rescale when the count passes the maximum (R111). -/
theorem bump_eq (n c : Node) (nodes : Nat) :
    n.bump c nodes = if maxIndividualCount < c.count + 1 then (n.withKids (bumped n c)).rescale nodes
      else (n.withKids (bumped n c), nodes) := rfl

/-- The children without the bumped one. -/
theorem kids_perm {n c : Node} {b : Byte} (h : n.child b = some c) :
    n.kids.Perm (c :: n.kids.eraseP fun d => d.byte == c.byte) := by
  have hb := (child_some h).2
  unfold Node.child at h
  rw [hb]
  generalize n.kids = ks at *
  induction ks with
  | nil => simp at h
  | cons k ks ih =>
    by_cases hk : k.byte = b
    · simp only [List.find?_cons, hk, beq_self_eq_true, Option.some.injEq] at h
      simp [h, hb]
    · have hk' : (k.byte == b) = false := by simpa using hk
      simp only [List.find?_cons, hk'] at h
      simp only [List.eraseP_cons, hk', cond_false]
      exact (ih h |>.cons k).trans (List.Perm.swap _ _ _)

theorem bumped_facts {n c : Node} {b : Byte} (hw : bodyWf n) (h : n.child b = some c) :
    (bumped n c).length = n.kids.length ∧ ((bumped n c).map Node.size).sum = (n.kids.map Node.size).sum ∧
    ((bumped n c).map Node.byte).Nodup ∧
    (∀ d ∈ bumped n c, bodyWf d ∧ d.count ≤ maxIndividualCount + 1) ∧
    (c.count + 1 ≤ maxIndividualCount → ∀ d ∈ bumped n c, nodeWf d) := by
  have hp := kids_perm h
  obtain ⟨-, hk, hd⟩ := bodyWf_iff.1 hw
  have hc := child_nodeWf hw h
  have hrest : ∀ d ∈ n.kids.eraseP (fun d => d.byte == c.byte), nodeWf d := fun d hd =>
    hk d (List.mem_of_mem_eraseP hd)
  refine ⟨?_, ?_, ?_, ?_, ?_⟩
  · rw [hp.length_eq]; rfl
  · rw [(hp.map Node.size).sum_eq]; rfl
  · exact (hp.map Node.byte).nodup_iff.1 hd
  · intro d hd
    rcases List.mem_cons.1 hd with rfl | hd
    · exact ⟨hc.body, by have := hc.2.1; show c.count + 1 ≤ _; omega⟩
    · exact ⟨(hrest d hd).body, by have := (hrest d hd).2.1; omega⟩
  · intro hle d hd
    rcases List.mem_cons.1 hd with rfl | hd
    · exact ⟨by show 1 ≤ c.count + 1; omega, hle, hc.body⟩
    · exact hrest d hd

/-- A bump keeps the node's byte and count and the account of nodes, and puts the bumped child first (R111, R113). -/
theorem bump_shape {n c : Node} {b : Byte} {nodes : Nat} (h : n.child b = some c) (hs : n.children.size ≤ nodes) :
    (n.bump c nodes).1.byte = n.byte ∧ (n.bump c nodes).1.count = n.count ∧
    (n.bump c nodes).2 + n.children.size = nodes + (n.bump c nodes).1.children.size ∧ (n.bump c nodes).2 ≤ nodes ∧
    ∃ c' others, (n.bump c nodes).1.kids = c' :: others ∧ c'.byte = b := by
  have hcb := (child_some h).2
  have hsz : (n.withKids (bumped n c)).children.size = n.children.size := by
    rw [kids_size, kids_size, kids_withKids, ((kids_perm h).map Node.size).sum_eq]
    rfl
  rw [bump_eq]
  split
  · rename_i hgt
    refine ⟨rfl, rfl, ?_, Nat.sub_le _ _, ?_⟩
    · have := rescale_size (n := n.withKids (bumped n c)) (nodes := nodes) (by omega)
      omega
    · rw [rescale_kids, kids_withKids]
      refine ⟨Node.halved { c with count := c.count + 1 },
        ((n.kids.eraseP fun d => d.byte == c.byte).map Node.halved).filter fun d => minCount ≤ d.count, ?_, hcb⟩
      rw [bumped, List.map_cons, List.filter_cons_of_pos]
      simp only [Node.halved, floorHalf, maxIndividualCount, minCount] at *
      refine decide_eq_true ?_
      omega
  · refine ⟨rfl, rfl, ?_, Nat.le_refl _, _, _, kids_withKids _ _, hcb⟩
    show nodes + n.children.size = nodes + (n.withKids (bumped n c)).children.size
    omega

/-- A bump keeps the node well formed. -/
theorem bump_bodyWf {n c : Node} {b : Byte} {nodes : Nat} (hw : bodyWf n) (h : n.child b = some c) :
    bodyWf (n.bump c nodes).1 := by
  obtain ⟨f1, -, f3, f4, f5⟩ := bumped_facts hw h
  obtain ⟨⟨ho, h1⟩, -, -⟩ := bodyWf_iff.1 hw
  have hne : n.kids ≠ [] := by
    intro he
    have := (child_some h).1
    rw [he] at this
    cases this
  rw [bump_eq]
  split
  · exact rescale_bodyWf (by simpa [f1] using ho) (fun _ => h1 hne) (by simpa using f4) (by simpa using f3)
  · refine bodyWf_iff.2 ?_
    simp only [kids_withKids, withKids_outcomes, f1]
    exact ⟨⟨ho, fun _ => h1 hne⟩, f5 (by omega), f3⟩

/-! ### Insertion of a path -/

/-- NodeIncrement (R111, R112) keeps the node well formed, its byte and count, and the account of nodes within the
store. -/
theorem nodeIncrement_ok : ∀ (path : List Byte) (n : Node) (nodes : Nat) (n' : Node) (nodes' : Nat),
    nodeIncrement path n nodes = .ok (n', nodes') → bodyWf n → n.children.size ≤ nodes → nodes ≤ Config.nodeCap →
    bodyWf n' ∧ n'.byte = n.byte ∧ n'.count = n.count ∧
      nodes' + n.children.size = nodes + n'.children.size ∧ nodes' ≤ Config.nodeCap
  | [], n, nodes, n', nodes', h, hw, hs, hc => by
    simp only [nodeIncrement, Except.ok.injEq, Prod.mk.injEq] at h
    obtain ⟨rfl, rfl⟩ := h
    exact ⟨hw, rfl, rfl, rfl, hc⟩
  | b :: rest, n, nodes, n', nodes', h, hw, hs, hc => by
    simp only [nodeIncrement] at h
    split at h
    · rename_i hnone
      simp only [Node.addChild, bind, Except.bind] at h
      split at h
      · cases h
      · rename_i r hr
        obtain ⟨k1, k2, -, k4, k5⟩ := newChain_ok _ _ _ _ _ hr
        simp only [Except.ok.injEq, Prod.mk.injEq] at h
        obtain ⟨rfl, rfl⟩ := h
        obtain ⟨⟨ho, -⟩, hk, hd⟩ := bodyWf_iff.1 hw
        refine ⟨bodyWf_iff.2 ⟨⟨?_, fun _ => by simp⟩, ?_, ?_⟩, rfl, rfl, ?_, k5 hc⟩
        · simp only [Node.kids, Node.withKids, toList_ofList, List.length_cons] at *
          omega
        · simpa [Node.kids, Node.withKids] using ⟨k1, hk⟩
        · simp only [Node.kids, Node.withKids, toList_ofList, List.map_cons, List.nodup_cons, k2]
          exact ⟨child_none.1 hnone, hd⟩
        · rw [k4, kids_size n, kids_size]
          simp only [Node.kids, Node.withKids, toList_ofList, List.map_cons, List.sum_cons]
          omega
    · rename_i c hsome
      have b1 := bump_bodyWf (nodes := nodes) hw hsome
      obtain ⟨b2, b3, b4, b5, c', others, hk, hcb⟩ := bump_shape hsome hs
      generalize n.bump c nodes = bp at *
      obtain ⟨m, mn⟩ := bp
      simp only at *
      rw [hk] at h
      simp only [bind, Except.bind] at h
      split at h
      · cases h
      · rename_i r hr
        simp only [Except.ok.injEq, Prod.mk.injEq] at h
        obtain ⟨rfl, rfl⟩ := h
        have hmw := bodyWf_iff.1 b1
        rw [hk] at hmw
        have hsize : m.children.size = c'.size + (others.map Node.size).sum := by
          rw [kids_size, hk]; rfl
        have hcw : nodeWf c' := hmw.2.1 c' (by simp)
        have hcs : c'.size = 1 + c'.children.size := rfl
        obtain ⟨i1, i2, i3, i4, i5⟩ := nodeIncrement_ok rest c' mn r.1 r.2 hr hcw.body (by omega) (by omega)
        refine ⟨bodyWf_iff.2 ⟨⟨?_, fun _ => ?_⟩, ?_, ?_⟩, b2, b3, ?_, i5⟩
        · simpa using hmw.1.1
        · exact hmw.1.2 (by simp)
        · simp only [kids_withKids, List.mem_cons, forall_eq_or_imp]
          exact ⟨⟨i3 ▸ hcw.1, i3 ▸ hcw.2.1, i1⟩, fun d hd => hmw.2.1 d (by simp [hd])⟩
        · simpa [i2] using hmw.2.2
        · rw [kids_size (m.withKids _), kids_withKids, List.map_cons, List.sum_cons]
          have : r.1.size = 1 + r.1.children.size := rfl
          omega

end Sys2Proof.Laws
end

