-- ==== Sys2Proof/Laws/Intervals.lean ====
section
/-! SUPPORT. The scans behind the intervals and points of a trie node and of the backoff table (R107 to R110, R115 to
R117): the parts of a total, and which symbol a count falls on. -/

namespace Sys2Proof.Laws

open Sys2Proof.Machine

/-! ### A trie node -/

/-- The total of the unexcluded children. -/
def openSum (excl : BitVec 256) (ks : List Node) : Nat := sumCounts (ks.filter fun c => !excluded excl c.byte)

@[simp] theorem openSum_nil (excl : BitVec 256) : openSum excl [] = 0 := rfl

theorem openSum_cons (excl : BitVec 256) (d : Node) (ks : List Node) :
    openSum excl (d :: ks) = (if excluded excl d.byte then 0 else d.count) + openSum excl ks := by
  cases h : excluded excl d.byte <;> simp [openSum, sumCounts, h]

theorem total_eq (n : Node) (excl : BitVec 256) : n.total excl = n.outcomes + openSum excl n.kids := rfl

theorem scanKids_cons (excl : BitVec 256) (b : Byte) (d : Node) (ks : List Node) (hd : d.byte ≠ b) :
    scanKids excl b (d :: ks) =
      ((if excluded excl d.byte then 0 else d.count) + (scanKids excl b ks).1, (scanKids excl b ks).2) := by
  have hd' : (d.byte == b) = false := by simpa using hd
  cases h : excluded excl d.byte <;> simp [scanKids, hd', h, Nat.add_comm]

theorem openSum_others {excl : BitVec 256} {b : Byte} {ks : List Node} (h : b ∉ ks.map Node.byte) :
    sumCounts (ks.filter fun c => !excluded excl c.byte && !(c.byte == b)) = openSum excl ks := by
  unfold openSum
  congr 1
  apply List.filter_congr
  intro c hc
  have : c.byte ≠ b := fun he => h (he ▸ List.mem_map_of_mem hc)
  simp [this]

/-- The counts before a child, its own and those after it are all of the unexcluded ones (R107, R108). -/
theorem scanKids_sum {excl : BitVec 256} {c : Node} : ∀ {ks : List Node}, c ∈ ks → (ks.map Node.byte).Nodup →
    excluded excl c.byte = false →
    (scanKids excl c.byte ks).1 + c.count + (scanKids excl c.byte ks).2 = openSum excl ks
  | [], hc, _, _ => by cases hc
  | d :: ks, hc, hd, hx => by
    simp only [List.map_cons, List.nodup_cons] at hd
    rcases List.mem_cons.1 hc with rfl | hc
    · rw [openSum_cons, hx]
      simp only [scanKids, beq_self_eq_true, if_true, openSum_others hd.1]
      simp
    · have hne : d.byte ≠ c.byte := fun he => hd.1 (he ▸ List.mem_map_of_mem hc)
      rw [scanKids_cons excl _ d ks hne, openSum_cons]
      have := scanKids_sum hc hd.2 hx
      omega

/-- The interval of an unexcluded child has the node's total (R107, R108). -/
theorem interval_total {n c : Node} {excl : BitVec 256} (hc : c ∈ n.kids) (hd : (n.kids.map Node.byte).Nodup)
    (hx : excluded excl c.byte = false) : (n.interval excl c).total = n.total excl := by
  have := scanKids_sum hc hd hx
  rw [total_eq]
  simp only [Node.interval]
  omega

/-- A count falls on a child exactly inside its interval. -/
theorem pointKids_byte {excl : BitVec 256} {c : Node} {x : Nat} : ∀ {ks : List Node} {acc : Nat}, c ∈ ks →
    (ks.map Node.byte).Nodup → excluded excl c.byte = false → acc ≤ x →
    (pointKids excl x acc ks = .byte c.byte ↔
      acc + (scanKids excl c.byte ks).1 ≤ x ∧ x < acc + (scanKids excl c.byte ks).1 + c.count)
  | [], _, hc, _, _, _ => by cases hc
  | d :: ks, acc, hc, hd, hx, ha => by
    simp only [List.map_cons, List.nodup_cons] at hd
    rcases List.mem_cons.1 hc with rfl | hc
    · simp only [pointKids, hx, Bool.false_eq_true, if_false, scanKids, beq_self_eq_true, if_true]
      have hno : ∀ (ks : List Node) (acc : Nat), c.byte ∉ ks.map Node.byte →
          pointKids excl x acc ks ≠ .byte c.byte := by
        intro ks
        induction ks with
        | nil => intro acc _; simp [pointKids]
        | cons e ks ih =>
          intro acc hm
          simp only [List.map_cons, List.mem_cons, not_or] at hm
          unfold pointKids
          split
          · exact ih acc hm.2
          · split
            · intro he
              exact hm.1 (Sym.byte.inj he).symm
            · exact ih _ hm.2
      split
      · simp; omega
      · constructor
        · intro h; exact absurd h (hno ks _ hd.1)
        · intro h; omega
    · have hne : d.byte ≠ c.byte := fun he => hd.1 (he ▸ List.mem_map_of_mem hc)
      rw [scanKids_cons excl _ d ks hne]
      unfold pointKids
      split
      · rename_i hdx
        rw [pointKids_byte hc hd.2 hx ha]
        simp
      · rename_i hdx
        split
        · constructor
          · intro h; exact absurd (Sym.byte.inj h) hne
          · intro h; omega
        · rw [pointKids_byte hc hd.2 hx (by omega)]
          omega

/-- A count falls on the outcomes region, ESCAPE, exactly past the unexcluded children. -/
theorem pointKids_escape {excl : BitVec 256} {x : Nat} : ∀ {ks : List Node} {acc : Nat}, acc ≤ x →
    (pointKids excl x acc ks = .escape ↔ acc + openSum excl ks ≤ x)
  | [], acc, ha => by simpa [pointKids] using ha
  | d :: ks, acc, ha => by
    rw [openSum_cons]
    cases hdx : excluded excl d.byte with
    | true =>
      simp only [pointKids, hdx, if_true, Nat.zero_add]
      exact pointKids_escape ha
    | false =>
      simp only [pointKids, hdx, Bool.false_eq_true, if_false]
      split
      · simp; omega
      · rw [pointKids_escape (by omega)]
        omega

/-- A point of a trie node is an unexcluded child's byte or ESCAPE, never EOF (R110). -/
theorem pointKids_open {excl : BitVec 256} {x : Nat} : ∀ {ks : List Node} {acc : Nat},
    pointKids excl x acc ks = .escape ∨
      ∃ c ∈ ks, excluded excl c.byte = false ∧ pointKids excl x acc ks = .byte c.byte
  | [], _ => .inl rfl
  | d :: ks, acc => by
    unfold pointKids
    split
    · rcases pointKids_open (excl := excl) (x := x) (ks := ks) (acc := acc) with h | ⟨c, hc, h⟩
      · exact .inl h
      · exact .inr ⟨c, List.mem_cons_of_mem _ hc, h⟩
    · rename_i hdx
      split
      · exact .inr ⟨d, List.mem_cons_self, by simpa using hdx, rfl⟩
      · rcases pointKids_open (excl := excl) (x := x) (ks := ks) (acc := acc + d.count) with h | ⟨c, hc, h⟩
        · exact .inl h
        · exact .inr ⟨c, List.mem_cons_of_mem _ hc, h⟩

/-- A well-formed node's total stays below MAX_TOTAL: at most 256 counts of 8192 and 512 outcomes (R107, R114). -/
theorem openSum_le {excl : BitVec 256} : ∀ {ks : List Node}, (∀ c ∈ ks, c.count ≤ maxIndividualCount) →
    openSum excl ks ≤ ks.length * maxIndividualCount
  | [], _ => by simp
  | d :: ks, h => by
    rw [openSum_cons, List.length_cons, Nat.succ_mul]
    have h1 := h d (by simp)
    have := openSum_le (excl := excl) fun c hc => h c (List.mem_cons_of_mem d hc)
    split <;> omega

theorem node_total_le {n : Node} (h : bodyWf n) (excl : BitVec 256) : n.total excl ≤ maxTotal := by
  obtain ⟨⟨ho, -⟩, hk, -⟩ := bodyWf_iff.1 h
  have hl := kids_length h
  have hs := openSum_le (excl := excl) fun c hc => (hk c hc).2.1
  have : n.kids.length * maxIndividualCount ≤ 256 * maxIndividualCount := Nat.mul_le_mul_right _ hl
  rw [total_eq]
  unfold maxTotal maxIndividualCount at *
  omega

/-! ### The backoff table -/

@[simp] theorem slotMass_length (excl : BitVec 256) : ∀ (k : Nat) (uni : List Nat), (slotMass excl k uni).length = uni.length
  | _, [] => rfl
  | k, c :: uni => by simp [slotMass, slotMass_length excl (k + 1) uni]

theorem slotMass_getElem (excl : BitVec 256) : ∀ (uni : List Nat) (k j : Nat) (h : j < (slotMass excl k uni).length),
    (slotMass excl k uni)[j] = if slotExcluded excl (k + j) then 0 else uni.getD j 0
  | [], _, j, h => by simp at h
  | c :: uni, k, 0, h => by simp [slotMass]
  | c :: uni, k, j + 1, h => by
    simp only [slotMass, List.getElem_cons_succ]
    rw [slotMass_getElem excl uni (k + 1) j]
    simp [Nat.add_assoc, Nat.add_comm 1 j]

/-- A list's sum in three parts. -/
theorem sum_split (l : List Nat) (j : Nat) (h : j < l.length) :
    (l.take j).sum + l[j] + (l.drop (j + 1)).sum = l.sum := by
  have h1 : l = l.take j ++ l[j] :: l.drop (j + 1) := by
    rw [List.cons_getElem_drop_succ, List.take_append_drop]
  conv_rhs => rw [h1]
  rw [List.sum_append, List.sum_cons, Nat.add_assoc]

/-- The interval of an open slot has the backoff total (R115, R116). -/
theorem uniInterval_total {m : Model} {slot : Nat} (hs : slot < m.uni.length)
    (hx : slotExcluded m.excl slot = false) : (m.uniInterval slot).total = m.uniTotal := by
  have hl : slot < m.uniMass.length := by simpa [Model.uniMass] using hs
  have h := sum_split m.uniMass slot hl
  have hm : m.uniMass[slot] = m.uni.getD slot 0 := by
    have := slotMass_getElem m.excl m.uni 0 slot hl
    rw [Nat.zero_add, hx] at this
    exact this
  rw [hm] at h
  simpa [Model.uniInterval, Model.uniTotal] using h

theorem slotSym_inj {i j : Nat} (hi : i ≤ 256) (hj : j ≤ 256) (h : slotSym i = slotSym j) : i = j := by
  unfold slotSym eofSlot at h
  split at h <;> split at h
  · omega
  · cases h
  · cases h
  · have h1 := congrArg BitVec.toNat (Sym.byte.inj h)
    simp only [BitVec.toNat_ofNat] at h1
    omega

/-- A count falls on an open slot exactly inside its interval. -/
theorem pointSlots_iff {excl : BitVec 256} {x : Nat} : ∀ (uni : List Nat) (k acc j : Nat), k + uni.length ≤ 257 →
    j < uni.length → slotExcluded excl (k + j) = false → acc ≤ x → x < acc + (slotMass excl k uni).sum →
    (pointSlots excl x acc k uni = slotSym (k + j) ↔
      acc + ((slotMass excl k uni).take j).sum ≤ x ∧
        x < acc + ((slotMass excl k uni).take j).sum + uni.getD j 0)
  | [], _, _, _, _, hj, _, _, _ => by simp at hj
  | c :: uni, k, acc, j, hk, hj, hx, ha, ht => by
    have hno : ∀ (uni : List Nat) (k' acc : Nat), k < k' → k' + uni.length ≤ 257 → acc ≤ x →
        x < acc + (slotMass excl k' uni).sum → pointSlots excl x acc k' uni ≠ slotSym k := by
      intro uni
      induction uni with
      | nil =>
        intro k' acc _ _ h0 h3
        simp only [slotMass, List.sum_nil] at h3
        omega
      | cons d uni ih =>
        intro k' acc h1 h2 h0 h3
        simp only [List.length_cons] at h2
        simp only [slotMass, List.sum_cons] at h3
        unfold pointSlots
        split
        · rename_i hd
          rw [hd] at h3
          exact ih (k' + 1) acc (by omega) (by omega) h0 (by simpa using h3)
        · rename_i hd
          rw [if_neg (by simpa using hd)] at h3
          split
          · intro he
            have := slotSym_inj (by omega) (by omega) he
            omega
          · exact ih (k' + 1) (acc + d) (by omega) (by omega) (by omega) (by omega)
    simp only [List.length_cons] at hk hj
    simp only [slotMass, List.sum_cons] at ht ⊢
    unfold pointSlots
    cases j with
    | zero =>
      rw [Nat.add_zero] at hx ⊢
      rw [hx] at ht ⊢
      simp only [Bool.false_eq_true, if_false, List.take_zero, List.sum_nil, List.getD_cons_zero] at ht ⊢
      split
      · simp; omega
      · constructor
        · intro h; exact absurd h (hno uni (k + 1) _ (by omega) (by omega) (by omega) (by omega))
        · intro h; omega
    | succ j =>
      have hkj : k + (j + 1) = k + 1 + j := by omega
      rw [hkj] at hx ⊢
      simp only [List.take_succ_cons, List.sum_cons, List.getD_cons_succ]
      split
      · rename_i hd
        rw [hd] at ht
        rw [pointSlots_iff uni (k + 1) acc j (by omega) (by omega) hx ha (by simpa using ht)]
        simp
      · rename_i hd
        rw [if_neg (by simpa using hd)] at ht
        split
        · constructor
          · intro h
            have := slotSym_inj (by omega) (by omega) h
            omega
          · intro h; omega
        · rw [pointSlots_iff uni (k + 1) (acc + c) j (by omega) (by omega) hx (by omega) (by omega)]
          omega

/-- A backoff point is EOF or an unexcluded byte (R117, R126). -/
theorem pointSlots_open {excl : BitVec 256} {x : Nat} : ∀ (uni : List Nat) (k acc : Nat), k + uni.length ≤ 257 →
    pointSlots excl x acc k uni = .eof ∨
      ∃ b, excluded excl b = false ∧ pointSlots excl x acc k uni = .byte b
  | [], _, _, _ => .inl rfl
  | c :: uni, k, acc, hk => by
    simp only [List.length_cons] at hk
    unfold pointSlots
    split
    · exact pointSlots_open uni (k + 1) acc (by omega)
    · rename_i hd
      split
      · unfold slotSym eofSlot
        split
        · exact .inl rfl
        · refine .inr ⟨BitVec.ofNat 8 k, ?_, rfl⟩
          have hm : k % 256 = k := Nat.mod_eq_of_lt (by omega)
          have hlt : k < 256 := by omega
          simp only [slotExcluded, hlt, decide_true, Bool.true_and, Bool.not_eq_true] at hd
          simpa [excluded, hm] using hd
      · exact pointSlots_open uni (k + 1) (acc + c) (by omega)

/-- The backoff total stays below MAX_TOTAL: 257 counts of at most 8192 (R115). -/
theorem slotMass_sum_le (excl : BitVec 256) : ∀ (uni : List Nat) (k : Nat), (∀ u ∈ uni, u ≤ maxIndividualCount) →
    (slotMass excl k uni).sum ≤ uni.length * maxIndividualCount
  | [], _, _ => by simp [slotMass]
  | c :: uni, k, h => by
    have h1 := h c (by simp)
    have := slotMass_sum_le excl uni (k + 1) fun u hu => h u (List.mem_cons_of_mem c hu)
    simp only [slotMass, List.sum_cons, List.length_cons, Nat.succ_mul]
    split <;> omega

theorem uniTotal_le {m : Model} (hl : m.uni.length = 257) (h : ∀ u ∈ m.uni, u ≤ maxIndividualCount) :
    m.uniTotal ≤ maxTotal := by
  have := slotMass_sum_le m.excl m.uni 0 h
  rw [hl] at this
  unfold Model.uniTotal Model.uniMass
  unfold maxTotal maxIndividualCount at *
  omega

/-- The update of a slot keeps the table's length and its counts in range (R116). -/
theorem bumpSlot_range {uni : List Nat} {slot : Nat} (h : ∀ u ∈ uni, 1 ≤ u ∧ u ≤ maxIndividualCount) :
    (bumpSlot uni slot).length = uni.length ∧ ∀ u ∈ bumpSlot uni slot, 1 ≤ u ∧ u ≤ maxIndividualCount := by
  have hget : uni.getD slot 0 ≤ maxIndividualCount := by
    rw [List.getD_eq_getElem?_getD]
    cases hg : uni[slot]? with
    | none => simp
    | some u => exact (h u (List.mem_of_getElem? hg)).2
  have hset : ∀ u ∈ uni.set slot (uni.getD slot 0 + 1), 1 ≤ u ∧ u ≤ uni.getD slot 0 + 1 ∨
      (1 ≤ u ∧ u ≤ maxIndividualCount) := by
    intro u hu
    rcases List.mem_or_eq_of_mem_set hu with hu | rfl
    · exact .inr (h u hu)
    · exact .inl ⟨by omega, Nat.le_refl _⟩
  unfold bumpSlot
  simp only
  split
  · refine ⟨by simp, ?_⟩
    intro u hu
    obtain ⟨v, hv, rfl⟩ := List.mem_map.1 hu
    have := hset v hv
    unfold ceilHalf
    unfold maxIndividualCount at *
    omega
  · refine ⟨by simp, ?_⟩
    intro u hu
    have := hset u hu
    omega

end Sys2Proof.Laws
end

