-- ==== Sys2Proof/Laws/Contexts.lean ====
section
/-! SUPPORT. Lookup and the two context-resolution algorithms: they end at a usable context, and depend on the buffer,
the trie and the exclusion set alone (R37, R38, R118, R119). -/

namespace Sys2Proof.Laws

open Sys2Proof.Machine

/-! ### Lookup -/

theorem rootOf_congr {m m' : Model} (hr : m'.root = m.root) (b : Byte) : m'.rootOf b = m.rootOf b := by
  unfold Model.rootOf
  rw [hr]

theorem lookup_congr {m m' : Model} (hb : m'.buf = m.buf) (hr : m'.root = m.root) (k : Nat) :
    m'.lookup k = m.lookup k := by
  unfold Model.lookup
  rw [hb]
  simp only [rootOf_congr hr]

@[simp] theorem lookup_zero (m : Model) : m.lookup 0 = none := by
  simp [Model.lookup]

/-- At length 0 there is no context node (R38). -/
theorem ctxNode_zero {m : Model} (h : m.ctxlen = 0) : m.ctxNode = none := by
  rw [Model.ctxNode, h, lookup_zero]

theorem descend_bodyWf : ∀ (path : List Byte) {n n' : Node}, bodyWf n → descend path n = some n' → bodyWf n'
  | [], n, n', hw, h => by
    obtain rfl := Option.some.inj h
    exact hw
  | b :: rest, n, n', hw, h => by
    unfold descend at h
    split at h
    · rename_i c hc
      exact descend_bodyWf rest (child_nodeWf hw hc).body h
    · cases h

/-- Every node that Lookup finds is well formed when the roots are. -/
theorem lookup_bodyWf {m : Model} (hr : ∀ b n, m.rootOf b = some n → n.rootWf b) {k : Nat} {n : Node}
    (h : m.lookup k = some n) : bodyWf n := by
  unfold Model.lookup at h
  split at h
  · split at h
    · cases h
    · split at h
      · rename_i r hroot
        exact descend_bodyWf _ (hr _ _ hroot).2.2 h
      · cases h
  · cases h

theorem childless_false {n : Node} {excl : BitVec 256} (h : n.childless excl = false) : n.kids ≠ [] := by
  rintro hk
  simp [Node.childless, hk] at h

theorem deterministic_kids {n : Node} (h : n.deterministic = true) : n.kids ≠ [] := by
  rintro hk
  simp [Node.deterministic, hk] at h

/-! ### ContextBinarySearch -/

/-- A length of at most `top` whose node exists and is not childless, or 0. -/
def usable (m : Model) (top k : Nat) : Prop :=
  k = 0 ∨ (k ≤ top ∧ ∃ n, m.lookup k = some n ∧ n.childless m.excl = false)

theorem searchLoop_usable (m : Model) (top : Nat) : ∀ (fuel lo hi k : Nat) (det : Bool), hi ≤ top →
    usable m top k → usable m top (searchLoop m fuel lo hi k det)
  | 0, _, _, _, _, _, h => h
  | fuel + 1, lo, hi, k, det, ht, h => by
    unfold searchLoop
    split
    · exact h
    · have hk : (hi + lo) / 2 ≤ hi := by omega
      have hdown : (if (hi + lo) / 2 < hi then (hi + lo) / 2 else hi - 1) ≤ top := by split <;> omega
      simp only
      split
      · exact searchLoop_usable m top fuel _ _ _ _ hdown h
      · rename_i n hn
        split
        · exact searchLoop_usable m top fuel _ _ _ _ hdown h
        · rename_i hc
          have hu : usable m top ((hi + lo) / 2) := .inr ⟨by omega, n, hn, by simpa using hc⟩
          split
          · exact searchLoop_usable m top fuel _ _ _ _ hdown hu
          · split
            · exact searchLoop_usable m top fuel _ _ _ _ ht h
            · exact searchLoop_usable m top fuel _ _ _ _ ht hu

theorem binarySearch_usable (m : Model) : usable m m.ctxlen m.binarySearch :=
  searchLoop_usable m m.ctxlen _ _ _ _ _ (Nat.le_refl _) (.inl rfl)

/-! ### ContextLongToShort -/

/-- A length whose node exists and has a child, or 0. -/
def peopled (m : Model) (k : Nat) : Prop := k = 0 ∨ ∃ n, m.lookup k = some n ∧ n.kids ≠ []

theorem walkDown_peopled (m : Model) : ∀ (k : Nat) (n : Node), m.lookup k = some n → n.kids ≠ [] →
    walkDown m k n ≤ k ∧ peopled m (walkDown m k n)
  | 0, _, _, _ => ⟨Nat.le_refl _, .inl rfl⟩
  | 1, n, hl, hk => ⟨Nat.le_refl _, .inr ⟨n, hl, hk⟩⟩
  | k + 2, n, hl, hk => by
    unfold walkDown
    split
    · split
      · rename_i b hb
        split
        · rename_i hd
          obtain ⟨h1, h2⟩ := walkDown_peopled m (k + 1) b hb (deterministic_kids hd)
          exact ⟨by omega, h2⟩
        · exact ⟨Nat.le_refl _, .inr ⟨n, hl, hk⟩⟩
      · exact ⟨Nat.le_refl _, .inr ⟨n, hl, hk⟩⟩
    · exact ⟨Nat.le_refl _, .inr ⟨n, hl, hk⟩⟩

theorem longToShort_peopled (m : Model) : ∀ k : Nat, longToShort m k ≤ k ∧ peopled m (longToShort m k)
  | 0 => ⟨Nat.le_refl _, .inl rfl⟩
  | k + 1 => by
    unfold longToShort
    split
    · obtain ⟨h1, h2⟩ := longToShort_peopled m k
      exact ⟨by omega, h2⟩
    · rename_i n hn
      split
      · obtain ⟨h1, h2⟩ := longToShort_peopled m k
        exact ⟨by omega, h2⟩
      · rename_i hc
        exact walkDown_peopled m (k + 1) n hn (childless_false (by simpa using hc))

/-! ### The model's own operations -/

/-- What an escape changes (R123): the context length and the exclusion set. -/
theorem escapeFrom_eq (m : Model) (n : Node) :
    m.escapeFrom n = { m with ctxlen := (m.escapeFrom n).ctxlen, excl := (m.escapeFrom n).excl } := rfl

theorem escapeFrom_peopled (m : Model) (n : Node) :
    (m.escapeFrom n).ctxlen ≤ m.ctxlen - 1 ∧ peopled (m.escapeFrom n) (m.escapeFrom n).ctxlen := by
  have h := longToShort_peopled
    { m with excl := n.kids.foldl (fun e (d : Node) => exclAdd e d.byte) m.excl, ctxlen := m.ctxlen - 1 }
    (m.ctxlen - 1)
  refine ⟨h.1, ?_⟩
  rcases h.2 with h0 | ⟨c, hc, hk⟩
  · exact .inl h0
  · exact .inr ⟨c, by rw [← hc]; exact lookup_congr rfl rfl _, hk⟩

theorem recontext_eq (m : Model) : m.recontext = { m with ctxlen := m.recontext.ctxlen, excl := 0 } := rfl

theorem recontext_peopled (m : Model) :
    m.recontext.ctxlen ≤ min m.order m.buf.length ∧ peopled m.recontext m.recontext.ctxlen := by
  have h := binarySearch_usable { m with ctxlen := min m.order m.buf.length }
  unfold usable at h
  rcases h with h0 | ⟨h1, n, hn, hc⟩
  · have : m.recontext.ctxlen = 0 := h0
    rw [this]
    exact ⟨Nat.zero_le _, .inl rfl⟩
  · refine ⟨h1, .inr ⟨n, ?_, childless_false hc⟩⟩
    rw [← hn]
    exact lookup_congr rfl rfl _

/-- What an insertion changes (R124): the root of the oldest byte and the node count. -/
theorem insertBuffer_ok {m m' : Model} (h : m.insertBuffer = .ok m') :
    m' = m ∨ ∃ f rest n' nodes', m.buf = f :: rest ∧
      nodeIncrement rest ((m.rootOf f).getD (Node.new f)) m.nodes = .ok (n', nodes') ∧
      m' = { m with root := m.root.set f.toNat (some n'), nodes := nodes' } := by
  unfold Model.insertBuffer at h
  split at h
  · exact .inl (Except.ok.inj h).symm
  · rename_i f rest hb
    dsimp only at h
    split at h
    · cases h
    · rename_i n' nodes' hn
      exact .inr ⟨f, rest, n', nodes', hb, hn, (Except.ok.inj h).symm⟩

theorem increment_ok {m m' : Model} {b : Byte} (h : m.increment b = .ok m') :
    ∃ u, (m.bufPush b).insertBuffer = .ok u ∧ m' = u.recontext := by
  unfold Model.increment at h
  split at h
  · cases h
  · rename_i u hu
    exact ⟨u, hu, (Except.ok.inj h).symm⟩

/-- BufPush changes the buffer alone, and keeps it within the order (R103). -/
theorem bufPush_buf {m : Model} (b : Byte) (h : m.buf.length ≤ m.order + 1) :
    (m.bufPush b).buf = (m.buf ++ [b]).drop (m.buf.length - m.order) ∧
      (m.bufPush b).buf.length ≤ m.order + 1 := by
  unfold Model.bufPush
  simp only [List.length_append, List.length_singleton]
  split
  · have : m.buf.length - m.order = 1 := by omega
    rw [this]
    refine ⟨rfl, ?_⟩
    simp
    omega
  · have : m.buf.length - m.order = 0 := by omega
    rw [this]
    refine ⟨rfl, ?_⟩
    simp
    omega

/-! ### Well-formedness -/

/-- The part of a model that the context leaves alone: everything of `Model.Wf` but the context. -/
structure BodyWf (m : Model) : Prop where
  order_le : m.order ≤ Config.maxOrder
  buf_le : m.buf.length ≤ m.order + 1
  root_len : m.root.length = 256
  roots : ∀ b n, m.rootOf b = some n → n.rootWf b
  uni_len : m.uni.length = 257
  uni_range : ∀ u ∈ m.uni, 1 ≤ u ∧ u ≤ maxIndividualCount
  nodes_eq : m.nodes = m.storedNodes
  nodes_le : m.nodes ≤ Config.nodeCap

theorem Wf.body {m : Model} (h : m.Wf) : BodyWf m :=
  ⟨h.order_le, h.buf_le, h.root_len, h.roots, h.uni_len, h.uni_range, h.nodes_eq, h.nodes_le⟩

theorem BodyWf.wf {m : Model} (h : BodyWf m) (hc : m.ctxlen ≤ m.order) (hp : peopled m m.ctxlen) : m.Wf where
  order_le := h.order_le
  buf_le := h.buf_le
  ctxlen_le := hc
  root_len := h.root_len
  roots := h.roots
  uni_len := h.uni_len
  uni_range := h.uni_range
  nodes_eq := h.nodes_eq
  nodes_le := h.nodes_le
  context := by
    intro h1
    rcases hp with h0 | hp
    · omega
    · exact hp

theorem bodyWf_context {m : Model} (h : BodyWf m) (k : Nat) (e : BitVec 256) :
    BodyWf { m with ctxlen := k, excl := e } :=
  ⟨h.order_le, h.buf_le, h.root_len, h.roots, h.uni_len, h.uni_range, h.nodes_eq, h.nodes_le⟩

theorem escapeFrom_wf {m : Model} (h : m.Wf) (n : Node) : (m.escapeFrom n).Wf := by
  obtain ⟨h1, h2⟩ := escapeFrom_peopled m n
  refine BodyWf.wf ?_ ?_ h2
  · rw [escapeFrom_eq]
    exact bodyWf_context (Wf.body h) _ _
  · have := h.ctxlen_le
    show (m.escapeFrom n).ctxlen ≤ m.order
    omega

/-- Exclusions do not touch what well-formedness says. -/
theorem exclude_wf {m : Model} (h : m.Wf) (e : BitVec 256) : Model.Wf { m with excl := e } :=
  BodyWf.wf (bodyWf_context (Wf.body h) m.ctxlen e) h.ctxlen_le (by
    by_cases h0 : m.ctxlen = 0
    · exact .inl h0
    · exact .inr (h.context (by omega)))

theorem uniBump_wf {m : Model} (h : m.Wf) (slot : Nat) (e : Bool) :
    Model.Wf { m.uniBump slot with eofdone := e } := by
  obtain ⟨h1, h2⟩ := bumpSlot_range (slot := slot) h.uni_range
  exact ⟨h.order_le, h.buf_le, h.ctxlen_le, h.root_len, h.roots, h1.trans h.uni_len, h2, h.nodes_eq, h.nodes_le,
    h.context⟩

theorem rootOf_set {m : Model} {root' : List (Option Node)} {f : Byte} {x : Option Node}
    (hl : m.root.length = 256) (hr : root' = m.root.set f.toNat x) (b : Byte) :
    root'.getD b.toNat none = if b = f then x else m.rootOf b := by
  subst hr
  have hf : f.toNat < m.root.length := by rw [hl]; exact f.isLt
  unfold Model.rootOf
  rw [List.getD_eq_getElem?_getD, List.getD_eq_getElem?_getD, List.getElem?_set]
  by_cases h : b = f
  · subst h
    simp [hf]
  · have hne : f.toNat ≠ b.toNat := fun he => h (BitVec.eq_of_toNat_eq he.symm)
    rw [if_neg hne, if_neg h]

theorem sum_set (l : List Nat) (i v : Nat) (h : i < l.length) : (l.set i v).sum + l[i] = l.sum + v := by
  have h1 := sum_split l i h
  have h2 := sum_split (l.set i v) i (by simpa using h)
  rw [List.take_set_of_le (Nat.le_refl _), List.drop_set_of_lt (by omega), List.getElem_set_self] at h2
  omega

theorem storedNodes_set {root : List (Option Node)} {i : Nat} (h : i < root.length) (x : Option Node) :
    ((root.set i x).map slotSize).sum + slotSize root[i] = (root.map slotSize).sum + slotSize x := by
  have := sum_set (root.map slotSize) i (slotSize x) (by simpa using h)
  simpa [List.map_set] using this

/-- An insertion keeps the trie well formed and its nodes counted, within the store (R36, R44, R112). -/
theorem insertBuffer_body {m m' : Model} (h : BodyWf m) (hi : m.insertBuffer = .ok m') :
    BodyWf m' ∧ m'.buf = m.buf ∧ m'.order = m.order := by
  rcases insertBuffer_ok hi with rfl | ⟨f, rest, n', nodes', hb, hn, rfl⟩
  · exact ⟨h, rfl, rfl⟩
  · have hf : f.toNat < m.root.length := by rw [h.root_len]; exact f.isLt
    have hslot : m.rootOf f = m.root[f.toNat] := by
      unfold Model.rootOf
      rw [List.getD_eq_getElem?_getD, List.getElem?_eq_getElem hf]
      rfl
    have hold : ∃ n, (m.rootOf f).getD (Node.new f) = n ∧ n.rootWf f ∧ n.children.size = slotSize m.root[f.toNat] := by
      rw [← hslot]
      cases hr : m.rootOf f with
      | none => exact ⟨_, rfl, ⟨rfl, rfl, new_bodyWf f⟩, rfl⟩
      | some n => exact ⟨n, rfl, h.roots f n hr, rfl⟩
    obtain ⟨n, hnn, hnw, hns⟩ := hold
    rw [hnn] at hn
    have hsum := storedNodes_set hf (some n')
    have hle : n.children.size ≤ m.nodes := by
      have := sum_split (m.root.map slotSize) f.toNat (by simpa using hf)
      rw [List.getElem_map] at this
      rw [h.nodes_eq, hns]
      unfold Model.storedNodes
      omega
    obtain ⟨k1, k2, k3, k4, k5⟩ := nodeIncrement_ok rest n m.nodes n' nodes' hn hnw.2.2 hle h.nodes_le
    refine ⟨⟨h.order_le, h.buf_le, by simp [h.root_len], ?_, h.uni_len, h.uni_range, ?_, k5⟩, rfl, rfl⟩
    · intro b r hr
      have hr' := rootOf_set (m := m) h.root_len (root' := m.root.set f.toNat (some n')) rfl b
      rw [Model.rootOf, hr'] at hr
      split at hr
      · rename_i hbf
        obtain rfl := Option.some.inj hr
        rw [hbf]
        exact ⟨k2.trans hnw.1, k3.trans hnw.2.1, k1⟩
      · exact h.roots b r hr
    · have hnew : slotSize (some n') = n'.children.size := rfl
      have hm := h.nodes_eq
      unfold Model.storedNodes at *
      simp only
      omega

theorem bufPush_body {m : Model} (h : BodyWf m) (b : Byte) : BodyWf (m.bufPush b) :=
  ⟨h.order_le, (bufPush_buf b h.buf_le).2, h.root_len, h.roots, h.uni_len, h.uni_range, h.nodes_eq, h.nodes_le⟩

/-- ModelIncrement keeps the model well formed (R124). -/
theorem increment_wf {m m' : Model} {b : Byte} (h : BodyWf m) (hi : m.increment b = .ok m') : m'.Wf := by
  obtain ⟨u, hu, rfl⟩ := increment_ok hi
  obtain ⟨hw, -, -⟩ := insertBuffer_body (bufPush_body h b) hu
  obtain ⟨h1, h2⟩ := recontext_peopled u
  refine BodyWf.wf ?_ ?_ h2
  · rw [recontext_eq]
    exact bodyWf_context hw _ _
  · show u.recontext.ctxlen ≤ u.order
    omega

/-- A fresh model is well formed (R136). -/
theorem fresh_wf {order : Nat} (h : order ≤ Config.maxOrder) : (Model.fresh order).Wf where
  order_le := h
  buf_le := Nat.zero_le _
  ctxlen_le := Nat.zero_le _
  root_len := List.length_replicate
  roots := by
    intro b n hn
    unfold Model.rootOf at hn
    rw [List.getD_eq_getElem?_getD] at hn
    cases hg : (Model.fresh order).root[b.toNat]? with
    | none => rw [hg] at hn; cases hn
    | some x =>
      obtain rfl := List.eq_of_mem_replicate (List.mem_of_getElem? hg)
      rw [hg] at hn
      cases hn
  uni_len := List.length_replicate
  uni_range := by
    intro u hu
    rw [List.eq_of_mem_replicate hu]
    unfold maxIndividualCount
    omega
  nodes_eq := by
    show 0 = ((List.replicate 256 none).map slotSize).sum
    rw [List.map_replicate, List.sum_replicate]
    rfl
  nodes_le := Nat.zero_le _
  context := fun h => absurd h (Nat.not_succ_le_zero 0)

/-! ### Coding a symbol -/

/-- What ModelInterval of a byte is (R123): the interval from the context node or the backoff table, then the update. -/
theorem codeByte_ok {m m' : Model} {b : Byte} {iv : Interval} (h : m.codeSymbol (.byte b) = .ok (iv, m')) :
    excluded m.excl b = false ∧
    ((∃ n c, m.ctxNode = some n ∧ n.child b = some c ∧ iv = n.interval m.excl c ∧ m.increment b = .ok m') ∨
      (m.ctxNode = none ∧ iv = m.uniInterval (slotOf b) ∧ (m.uniBump (slotOf b)).increment b = .ok m')) := by
  simp only [Model.codeSymbol] at h
  split at h
  · cases h
  · rename_i iv' u hu
    split at h
    · cases h
    · rename_i v hv
      simp only [Except.ok.injEq, Prod.mk.injEq] at h
      obtain ⟨rfl, rfl⟩ := h
      unfold Model.byteInterval at hu
      split at hu
      · cases hu
      · rename_i hx
        refine ⟨by simpa using hx, ?_⟩
        split at hu
        · rename_i n hn
          split at hu
          · rename_i c hc
            simp only [Except.ok.injEq, Prod.mk.injEq] at hu
            obtain ⟨rfl, rfl⟩ := hu
            exact .inl ⟨n, c, hn, hc, rfl, hv⟩
          · cases hu
        · rename_i hn
          simp only [Except.ok.injEq, Prod.mk.injEq] at hu
          obtain ⟨rfl, rfl⟩ := hu
          exact .inr ⟨hn, rfl, hv⟩

theorem codeEof_ok {m m' : Model} {iv : Interval} (h : m.codeSymbol .eof = .ok (iv, m')) :
    m.ctxNode = none ∧ iv = m.uniInterval eofSlot ∧ m' = { m.uniBump eofSlot with eofdone := true } := by
  simp only [Model.codeSymbol] at h
  split at h
  · cases h
  · rename_i hn
    simp only [Except.ok.injEq, Prod.mk.injEq] at h
    exact ⟨hn, h.1.symm, h.2.symm⟩

theorem codeEscape_ok {m m' : Model} {iv : Interval} (h : m.codeSymbol .escape = .ok (iv, m')) :
    ∃ n, m.ctxNode = some n ∧ iv = n.escInterval m.excl ∧ m' = m.escapeFrom n := by
  simp only [Model.codeSymbol] at h
  split at h
  · cases h
  · rename_i n hn
    simp only [Except.ok.injEq, Prod.mk.injEq] at h
    exact ⟨n, hn, h.1.symm, h.2.symm⟩

/-- A well-formed model's context node is well formed and has a child (R38). -/
theorem ctxNode_body {m : Model} {n : Node} (h : m.Wf) (hn : m.ctxNode = some n) : bodyWf n ∧ n.kids ≠ [] := by
  refine ⟨lookup_bodyWf h.roots hn, ?_⟩
  by_cases h0 : m.ctxlen = 0
  · rw [ctxNode_zero h0] at hn
    cases hn
  · obtain ⟨n', hn', hk⟩ := h.context (by omega)
    rw [hn] at hn'
    obtain rfl := Option.some.inj hn'
    exact hk

/-- With a context node the total is the node's (R120). -/
theorem total_some {m : Model} {n : Node} (hn : m.ctxNode = some n) : m.total = n.total m.excl := by
  unfold Model.total
  rw [hn]

/-- With none the total is the backoff table's (R120). -/
theorem total_none {m : Model} (hn : m.ctxNode = none) : m.total = m.uniTotal := by
  unfold Model.total
  rw [hn]

/-- What an addition to the exclusion set excludes (R101). -/
theorem excluded_exclAdd (e : BitVec 256) (d b : Byte) :
    excluded (exclAdd e d) b = true ↔ (excluded e b = true ∨ d = b) := by
  have h : d.toNat = b.toNat ↔ d = b := ⟨BitVec.eq_of_toNat_eq, fun h => h ▸ rfl⟩
  have hlt := b.isLt
  simp only [excluded, exclAdd, BitVec.getLsbD_or, BitVec.getLsbD_shiftLeft, Bool.or_eq_true, ← h]
  apply or_congr_right
  simp
  omega

/-- The slot of an unexcluded byte is open (R115). -/
theorem slot_open {excl : BitVec 256} {b : Byte} (h : excluded excl b = false) :
    slotExcluded excl (slotOf b) = false := by
  unfold slotExcluded slotOf
  unfold excluded at h
  rw [h, Bool.and_false]

/-- Coding a symbol keeps the model well formed. -/
theorem codeSymbol_wf {m m' : Model} {sym : Sym} {iv : Interval} (h : m.Wf) (hc : m.codeSymbol sym = .ok (iv, m')) :
    m'.Wf := by
  cases sym with
  | byte b =>
    rcases (codeByte_ok hc).2 with ⟨n, c, -, -, -, hi⟩ | ⟨-, -, hi⟩
    · exact increment_wf (Wf.body h) hi
    · exact increment_wf (Wf.body (uniBump_wf h (slotOf b) m.eofdone)) hi
  | eof =>
    obtain ⟨-, -, rfl⟩ := codeEof_ok hc
    exact uniBump_wf h _ _
  | escape =>
    obtain ⟨n, -, -, rfl⟩ := codeEscape_ok hc
    exact escapeFrom_wf h n

end Sys2Proof.Laws
end

