-- ==== Sys2Proof/Laws/ModelRuns.lean ====
section
/-! SUPPORT. Every piece of a command keeps the model well formed (R35, R36), and the pieces of the coder leave it
alone. -/

namespace Sys2Proof.Laws

open Sys2Proof.Machine

/-! ### The coder's pieces leave the model alone -/

/-- The piece leaves the model alone, completed or held. -/
def LeavesModel (m : Model) (r : Run) : Prop :=
  Meets r (fun t => t.model = m) (fun t _ _ => t.model = m) fun _ _ => True

theorem LeavesModel.andThen {m : Model} {r : Run} {rest : List Task} {f : State → Run} (h : LeavesModel m r)
    (hf : ∀ t, t.model = m → LeavesModel m (f t)) : LeavesModel m (r.andThen rest f) :=
  Meets.andThen h hf

theorem putBit_model (b : Bool) {m : Model} {s : State} (h : s.model = m) : LeavesModel m (putBit b s) := by
  rw [putBit_eq]
  split
  · exact h
  · unfold putDone
    split <;> exact h

theorem followBits_model (b : Bool) {m : Model} : ∀ (n : Nat) {s : State}, s.model = m →
    LeavesModel m (followBits b n s)
  | 0, _, h => h
  | n + 1, _, h => Meets.retryAs (putBit_model b h) fun t ht =>
      followBits_model b n (s := { t with coder := { t.coder with btf := n } }) ht

theorem bitPlusFollow_model (b : Bool) {m : Model} {s : State} (h : s.model = m) :
    LeavesModel m (bitPlusFollow b s) :=
  (putBit_model b h).andThen fun t ht => followBits_model (!b) t.coder.btf ht

theorem encShift_model (off : Nat) (s : State) : (encShift off s).model = s.model := rfl

theorem encRenorm_model {m : Model} : ∀ (n : Nat) {s : State}, s.model = m → LeavesModel m (encRenorm n s)
  | 0, _, h => h
  | n + 1, s, h => by
    unfold encRenorm
    split
    · exact (bitPlusFollow_model _ h).andThen fun t ht => encRenorm_model n ((encShift_model _ t).trans ht)
    · exact (bitPlusFollow_model _ h).andThen fun t ht => encRenorm_model n ((encShift_model _ t).trans ht)
    · exact Meets.guard (fun _ => trivial) fun _ => encRenorm_model n ((encShift_model _ _).trans h)
    · exact h

theorem encodeInterval_model (iv : Interval) {m : Model} {s : State} (h : s.model = m) :
    LeavesModel m (encodeInterval iv s) := by
  unfold encodeInterval
  generalize renormPasses = n
  exact Meets.guard (fun _ => trivial) fun _ => encRenorm_model n h

theorem packerClose_model {m : Model} {s : State} (h : s.model = m) : LeavesModel m (packerClose s) := by
  unfold packerClose
  split
  · split <;> exact h
  · exact h

theorem readCodeBit_model {m : Model} {s : State} (h : s.model = m) : LeavesModel m (readCodeBit s) := by
  rcases readCodeBit_cases s with ⟨t, ht, k⟩ | ⟨k, -⟩
  · rw [ht]
    show t.model = m
    rw [k.eq]
    exact h
  · rw [k]
    exact h

theorem readBits_model {m : Model} : ∀ (n : Nat) {s : State}, s.model = m → LeavesModel m (readBits n s)
  | 0, _, h => h
  | n + 1, _, h => (readCodeBit_model h).andThen fun _ ht => readBits_model n ht

theorem decRenorm_model {m : Model} : ∀ (n : Nat) {s : State}, s.model = m → LeavesModel m (decRenorm n s)
  | 0, _, h => h
  | n + 1, s, h => by
    unfold decRenorm
    split
    · exact h
    · exact (readCodeBit_model (s := { s with coder := s.coder.decShift s.coder.pass.offset }) h).andThen
        fun _ ht => decRenorm_model n ht

theorem closeStream_model {m : Model} {s : State} (h : s.model = m) : LeavesModel m (closeStream s) :=
  (bitPlusFollow_model _ (s := { s with coder := { s.coder with btf := s.coder.btf + 1 } }) h).andThen
    fun _ ht => (packerClose_model ht).andThen fun _ hu => hu

/-! ### The loops keep it well formed -/

/-- The piece keeps the model well formed, completed or held. -/
def KeepsModel (r : Run) : Prop :=
  Meets r (fun t => t.model.Wf) (fun t _ _ => t.model.Wf) fun _ _ => True

theorem KeepsModel.andThen {r : Run} {rest : List Task} {f : State → Run} (h : KeepsModel r)
    (hf : ∀ t : State, t.model.Wf → KeepsModel (f t)) : KeepsModel (r.andThen rest f) :=
  Meets.andThen h hf

theorem LeavesModel.keeps {m : Model} {r : Run} (h : LeavesModel m r) (hm : m.Wf) : KeepsModel r :=
  Meets.mono h (fun _ ht => by rw [ht]; exact hm) (fun _ _ _ ht => by rw [ht]; exact hm) fun _ _ h => h

theorem encodeSym_keeps (sym : Sym) {s : State} (h : s.model.Wf) : KeepsModel (encodeSym sym s) :=
  Meets.ofExcept (fun _ _ => trivial) fun r hr =>
    (encodeInterval_model r.1 (s := { s with model := r.2 }) rfl).keeps (codeSymbol_wf h hr)

theorem encFinal_keeps (sym : Sym) (n : Nat) {s : State} (h : s.model.Wf) : KeepsModel (encFinal sym n s) :=
  (encodeSym_keeps sym h).andThen fun _ ht => ht

theorem encLoop_keeps : ∀ (more : Nat) (sym : Sym) (n : Nat) {s : State}, s.model.Wf →
    KeepsModel (encLoop more sym n s)
  | 0, sym, n, _, h => encFinal_keeps sym n h
  | more + 1, sym, n, s, h => by
    unfold encLoop
    split
    · exact (encodeSym_keeps _ h).andThen fun _ ht => encLoop_keeps more sym (n + 1) ht
    · exact encFinal_keeps sym n h

theorem decNext_keeps {again : State → Run} (ha : ∀ t : State, t.model.Wf → KeepsModel (again t)) (sym : Sym) (n : Nat)
    {s : State} (h : s.model.Wf) : KeepsModel (decNext again sym n s) := by
  unfold decNext
  split
  · exact ha s h
  · exact h

theorem decodeSym_keeps {s t : State} {sym : Sym} (h : s.model.Wf) (ht : decodeSym s = .ok (sym, t)) :
    t.model.Wf := by
  obtain ⟨iv, m, -, hc, -, -, rfl⟩ := decodeSym_ok ht
  exact codeSymbol_wf h hc

theorem decLoop_keeps : ∀ (more n : Nat) {s : State}, s.model.Wf → KeepsModel (decLoop more n s)
  | 0, n, _, h => by
    unfold decLoop
    generalize renormPasses = p
    exact Meets.ofExcept (fun _ _ => trivial) fun r hr =>
      ((decRenorm_model p rfl).keeps (decodeSym_keeps h hr)).andThen fun _ ht =>
        decNext_keeps (again := .done) (fun _ hu => hu) r.1 n ht
  | more + 1, n, _, h => by
    unfold decLoop
    generalize renormPasses = p
    exact Meets.ofExcept (fun _ _ => trivial) fun r hr =>
      ((decRenorm_model p rfl).keeps (decodeSym_keeps h hr)).andThen fun _ ht =>
        decNext_keeps (fun _ hu => decLoop_keeps more (n + 1) hu) r.1 n ht

theorem decAgain_keeps (more n : Nat) {s : State} (h : s.model.Wf) : KeepsModel (decAgain more n s) := by
  cases more with
  | zero => exact h
  | succ more => exact decLoop_keeps more (n + 1) h

theorem runTask_keeps (x : Task) {s : State} (h : s.model.Wf) : KeepsModel (runTask x s) := by
  cases x with
  | putBit b => exact (putBit_model b rfl).keeps h
  | follow b => exact (followBits_model b _ rfl).keeps h
  | encShift off => exact h
  | encRenorm n => exact (encRenorm_model n rfl).keeps h
  | packerClose => exact (packerClose_model rfl).keeps h
  | markClosed => exact h
  | encLoop more sym n => exact encLoop_keeps more sym n h
  | encEnd n => exact h
  | readBits k => exact (readBits_model k rfl).keeps h
  | decRenorm n => exact (decRenorm_model n rfl).keeps h
  | decNext more sym n => exact decNext_keeps (fun _ ht => decAgain_keeps more n ht) sym n h

/-- The rest of a held command keeps the model well formed. -/
theorem runTasks_keeps : ∀ (ts : List Task) {s : State}, s.model.Wf → KeepsModel (runTasks ts s)
  | [], _, h => h
  | t :: ts, _, h => (runTask_keeps t h).andThen fun _ hu => runTasks_keeps ts hu

end Sys2Proof.Laws
end

