-- ==== Sys2Proof/Laws/CoderMath.lean ====
section
/-! SUPPORT. The arithmetic of the coder's bounds: Narrow, one renormalization pass, and where the passes end (R86, R88
to R91). -/

namespace Sys2Proof.Laws

open Sys2Proof.Machine

/-! ### Settled and ordered bounds -/

theorem settled_ordered {c : Coder} (h : c.settled) : c.ordered := by
  obtain ⟨h1, h2, h3, -⟩ := h
  exact ⟨by omega, h3⟩

/-- A settled coder's range exceeds every total (R90). -/
theorem settled_range {c : Coder} (h : c.settled) : firstQuarter + 2 ≤ c.range := by
  simp only [Coder.settled, Coder.range, half, firstQuarter, thirdQuarter, topValue] at *
  omega

theorem settled_congr {c d : Coder} (hl : d.low = c.low) (hh : d.high = c.high) (h : c.settled) : d.settled := by
  unfold Coder.settled at *
  rw [hl, hh]
  exact h

theorem ordered_congr {c d : Coder} (hl : d.low = c.low) (hh : d.high = c.high) (h : c.ordered) : d.ordered := by
  unfold Coder.ordered at *
  rw [hl, hh]
  exact h

theorem range_congr {c d : Coder} (hl : d.low = c.low) (hh : d.high = c.high) : d.range = c.range := by
  unfold Coder.range
  rw [hl, hh]

theorem ordered_range_pos {c : Coder} (h : c.ordered) : 1 ≤ c.range := by
  unfold Coder.ordered Coder.range at *
  omega

/-- The START value is settled (R40). -/
theorem reset_settled : Coder.reset.settled := by
  simp only [Coder.settled, Coder.reset, half, firstQuarter, thirdQuarter, topValue]
  omega

/-! ### Narrow -/

theorem ok_iff {iv : Interval} :
    iv.ok = true ↔ iv.low < iv.high ∧ iv.high ≤ iv.total ∧ iv.total ≤ maxTotal := by
  simp only [Interval.ok, intervalOk, decide_eq_true_eq]
  constructor
  · rintro ⟨-, h1, h2, h3⟩; exact ⟨by omega, by omega, by omega⟩
  · rintro ⟨h1, h2, h3⟩; exact ⟨by omega, by omega, by omega, by omega⟩

/-- Where the range is at least the total, an interval takes at least one value of it, and no more than the range
(R86). -/
theorem narrow_bounds {r l h t : Nat} (hl : l < h) (ht : h ≤ t) (hr : t ≤ r) :
    r * l / t + 1 ≤ r * h / t ∧ r * h / t ≤ r := by
  have ht0 : 0 < t := by omega
  constructor
  · rw [Nat.le_div_iff_mul_le ht0, Nat.add_mul, Nat.one_mul]
    have h1 := Nat.div_mul_le_self (r * l) t
    calc r * l / t * t + t ≤ r * l + r := by omega
      _ = r * (l + 1) := by ring
      _ ≤ r * h := Nat.mul_le_mul_left r hl
  · calc r * h / t ≤ r * t / t := Nat.div_le_div_right (Nat.mul_le_mul_left r ht)
      _ = r := Nat.mul_div_cancel r ht0

/-- Narrow stays inside the bounds and keeps them in order (R86). -/
theorem narrow_inside {c : Coder} {iv : Interval} (hc : c.ordered) (ho : iv.ok = true) (hr : iv.total ≤ c.range) :
    c.low ≤ c.narrowLow iv ∧ c.narrowLow iv ≤ c.narrowHigh iv ∧ c.narrowHigh iv ≤ c.high := by
  obtain ⟨h1, h2, -⟩ := ok_iff.1 ho
  obtain ⟨k1, k2⟩ := narrow_bounds h1 h2 hr
  simp only [Coder.narrowLow, Coder.narrowHigh]
  have hrange : c.range = c.high + 1 - c.low := rfl
  unfold Coder.ordered at hc
  generalize c.range * iv.low / iv.total = x at *
  generalize c.range * iv.high / iv.total = y at *
  omega

theorem narrow_ordered {c : Coder} {iv : Interval} (hc : c.settled) (ho : iv.ok = true) :
    (c.narrow iv).ordered := by
  have hr := settled_range hc
  obtain ⟨-, -, h3⟩ := ok_iff.1 ho
  have hm : maxTotal = firstQuarter := rfl
  obtain ⟨k1, k2, k3⟩ := narrow_inside (settled_ordered hc) ho (by omega)
  exact ⟨k2, k3.trans hc.2.2.1⟩

/-! ### One pass -/

/-- What a pass that is made says of the bounds (R88). -/
theorem pass_spec (c : Coder) :
    (c.pass = .e1 ∧ c.high < half) ∨ (c.pass = .e2 ∧ half ≤ c.high ∧ half ≤ c.low) ∨
    (c.pass = .e3 ∧ half ≤ c.high ∧ c.low < half ∧ firstQuarter ≤ c.low ∧ c.high < thirdQuarter) ∨
    (c.pass = .stop ∧ half ≤ c.high ∧ c.low < half ∧ (c.low < firstQuarter ∨ thirdQuarter ≤ c.high)) := by
  unfold Coder.pass
  split
  · exact .inl ⟨rfl, by assumption⟩
  · split
    · exact .inr (.inl ⟨rfl, by omega, by assumption⟩)
    · split
      · exact .inr (.inr (.inl ⟨rfl, by omega, by omega, by omega, by omega⟩))
      · exact .inr (.inr (.inr ⟨rfl, by omega, by omega, by omega⟩))

/-- No pass is left exactly when ordered bounds are settled (R90). -/
theorem stop_iff_settled {c : Coder} (h : c.ordered) : c.pass = .stop ↔ c.settled := by
  have hs := pass_spec c
  unfold Coder.settled
  unfold Coder.ordered at h
  have hh : half ≤ thirdQuarter := by decide
  constructor
  · intro hp
    rw [hp] at hs
    simp only [reduceCtorEq, false_and, true_and, false_or] at hs
    omega
  · rintro ⟨h1, h2, h3, h4⟩
    rcases hs with ⟨-, k⟩ | ⟨-, k, k'⟩ | ⟨-, k, k', k3, k4⟩ | ⟨hp, -⟩
    · omega
    · omega
    · omega
    · exact hp

/-- A pass keeps the bounds in order and doubles their range (R88, R90). -/
theorem shift_ordered {c : Coder} {off : Nat} (h : c.ordered)
    (hp : (off = 0 ∧ c.high < half) ∨ (off = half ∧ half ≤ c.low) ∨
      (off = firstQuarter ∧ firstQuarter ≤ c.low ∧ c.high < thirdQuarter)) :
    (c.shiftBounds off).ordered ∧ (c.shiftBounds off).range = 2 * c.range := by
  simp only [Coder.ordered, Coder.range, Coder.shiftBounds, half, firstQuarter, thirdQuarter, topValue] at *
  omega

/-- The pass that the bounds call for keeps them in order and doubles their range. -/
theorem pass_ordered {c : Coder} (h : c.ordered) (hp : c.pass ≠ .stop) :
    (c.shiftBounds c.pass.offset).ordered ∧ (c.shiftBounds c.pass.offset).range = 2 * c.range := by
  apply shift_ordered h
  rcases pass_spec c with ⟨k, k1⟩ | ⟨k, k1, k2⟩ | ⟨k, k1, k2, k3, k4⟩ | ⟨k, -⟩
  · exact .inl ⟨by rw [k]; rfl, k1⟩
  · exact .inr (.inl ⟨by rw [k]; rfl, k2⟩)
  · exact .inr (.inr ⟨by rw [k]; rfl, k3, k4⟩)
  · exact absurd k hp

/-- Bounds as wide as the code space are settled. -/
theorem full_settled {c : Coder} (h : c.ordered) (hr : 2 ^ codeValueBits ≤ c.range) : c.settled := by
  simp only [Coder.ordered, Coder.range, Coder.settled, codeValueBits, half, firstQuarter, thirdQuarter,
    topValue] at *
  omega

/-- Enough passes are left to settle the bounds: each doubles the range (R90). -/
def enoughPasses (n : Nat) (c : Coder) : Prop := c.ordered ∧ 2 ^ codeValueBits ≤ c.range * 2 ^ n

theorem enoughPasses_renorm {c : Coder} (h : c.ordered) : enoughPasses renormPasses c :=
  ⟨h, Nat.le_mul_of_pos_left _ (ordered_range_pos h)⟩

theorem enoughPasses_zero {c : Coder} (h : enoughPasses 0 c) : c.settled :=
  full_settled h.1 (by simpa using h.2)

theorem enoughPasses_congr {c d : Coder} {n : Nat} (hl : d.low = c.low) (hh : d.high = c.high)
    (h : enoughPasses n c) : enoughPasses n d :=
  ⟨ordered_congr hl hh h.1, by rw [range_congr hl hh]; exact h.2⟩

theorem enoughPasses_pass {c : Coder} {n : Nat} (h : enoughPasses (n + 1) c) (hp : c.pass ≠ .stop) :
    enoughPasses n (c.shiftBounds c.pass.offset) := by
  obtain ⟨k1, k2⟩ := pass_ordered h.1 hp
  refine ⟨k1, ?_⟩
  rw [k2]
  calc 2 ^ codeValueBits ≤ c.range * 2 ^ (n + 1) := h.2
    _ = 2 * c.range * 2 ^ n := by ring

/-! ### The traces -/

/-- An encoder's passes settle its bounds (R90). -/
theorem encTrace_settled : ∀ (n : Nat) (c : Coder), enoughPasses n c → (c.encTrace n).1.settled
  | 0, _, h => enoughPasses_zero h
  | n + 1, c, h => by
    unfold Coder.encTrace
    cases hp : c.pass with
    | stop => exact (stop_iff_settled h.1).1 hp
    | e1 =>
      have k := enoughPasses_pass h (by rw [hp]; simp)
      rw [hp] at k
      exact encTrace_settled n _ (enoughPasses_congr rfl rfl k)
    | e2 =>
      have k := enoughPasses_pass h (by rw [hp]; simp)
      rw [hp] at k
      exact encTrace_settled n _ (enoughPasses_congr rfl rfl k)
    | e3 =>
      have k := enoughPasses_pass h (by rw [hp]; simp)
      rw [hp] at k
      exact encTrace_settled n _ (enoughPasses_congr rfl rfl k)

/-- The value's place in the bounds after a pass and the next code bit (R89, R91). -/
theorem decPass_holds {c : Coder} (hv : c.holdsValue) (hp : c.pass ≠ .stop) (bits : List Bool) :
    ((c.decShift c.pass.offset).readBit bits).1.holdsValue := by
  have hval : ∃ b : Nat, b ≤ 1 ∧ ((c.decShift c.pass.offset).readBit bits).1.value = 2 * (c.value - c.pass.offset) + b := by
    cases bits with
    | nil => exact ⟨0, by omega, by simp [Coder.readBit, shiftVirtual_eq, Coder.decShift]⟩
    | cons b rest => exact ⟨b.toNat, Bool.toNat_le b, rfl⟩
  obtain ⟨b, hb, hval⟩ := hval
  obtain ⟨k1, k2, -⟩ := readBit_bounds (c.decShift c.pass.offset) bits
  unfold Coder.holdsValue at *
  rw [k1, k2, hval]
  have hoff : c.pass.offset ≤ c.low := by
    rcases pass_spec c with ⟨k, k1⟩ | ⟨k, k1, k2⟩ | ⟨k, k1, k2, k3, k4⟩ | ⟨k, -⟩
    · rw [k]; exact Nat.zero_le _
    · rw [k]; exact k2
    · rw [k]; exact k3
    · exact absurd k hp
  show 2 * (c.low - c.pass.offset) ≤ _ ∧ _ ≤ 2 * (c.high - c.pass.offset) + 1
  generalize c.pass.offset = off at *
  omega

/-- A decoder's passes settle its bounds, and the value stays inside them (R90, R91). -/
theorem decTrace_settled : ∀ (n : Nat) (c : Coder) (bits : List Bool), enoughPasses n c →
    (c.decTrace n bits).1.settled ∧ (c.holdsValue → (c.decTrace n bits).1.holdsValue)
  | 0, _, _, h => ⟨enoughPasses_zero h, fun hv => hv⟩
  | n + 1, c, bits, h => by
    unfold Coder.decTrace
    by_cases hp : c.pass = .stop
    · rw [if_pos hp]
      exact ⟨(stop_iff_settled h.1).1 hp, fun hv => hv⟩
    · rw [if_neg hp]
      have hb := readBit_bounds (c.decShift c.pass.offset) bits
      have k := decTrace_settled n ((c.decShift c.pass.offset).readBit bits).1
        ((c.decShift c.pass.offset).readBit bits).2
        (enoughPasses_congr hb.1 hb.2.1 (enoughPasses_pass h hp))
      exact ⟨k.1, fun hv => k.2 (decPass_holds hv hp bits)⟩

/-- The bounds go the same way in the encoder and in the decoder (R99). -/
theorem traces_agree : ∀ (n : Nat) (c d : Coder) (bits : List Bool), c.low = d.low → c.high = d.high →
    (c.encTrace n).1.low = (d.decTrace n bits).1.low ∧ (c.encTrace n).1.high = (d.decTrace n bits).1.high
  | 0, _, _, _, hl, hh => ⟨hl, hh⟩
  | n + 1, c, d, bits, hl, hh => by
    have hpc := pass_congr hl hh
    unfold Coder.encTrace Coder.decTrace
    have key : ∀ (off : Nat) (c' : Coder), c'.low = 2 * (c.low - off) → c'.high = 2 * (c.high - off) + 1 →
        (c'.encTrace n).1.low = (((d.decShift off).readBit bits).1.decTrace n ((d.decShift off).readBit bits).2).1.low ∧
        (c'.encTrace n).1.high =
          (((d.decShift off).readBit bits).1.decTrace n ((d.decShift off).readBit bits).2).1.high := by
      intro off c' h1 h2
      have hb := readBit_bounds (d.decShift off) bits
      refine traces_agree n _ _ _ ?_ ?_
      · rw [h1, hb.1, hl]; rfl
      · rw [h2, hb.2.1, hh]; rfl
    rw [hpc]
    cases d.pass with
    | stop => exact ⟨hl, hh⟩
    | e1 => exact key 0 _ rfl rfl
    | e2 => exact key half _ rfl rfl
    | e3 => exact key firstQuarter _ rfl rfl

end Sys2Proof.Laws
end

