-- ==== Sys2Proof/Laws/Settles.lean ====
section
/-! SUPPORT. Every command that completes leaves the coder settled, and every held one is on its way there, with the
coder's counters in range (R32, R90). -/

namespace Sys2Proof.Laws

open Sys2Proof.Machine

/-! ### The tasks of a held command -/

theorem tasksSettle_congr : ∀ (ts : List Task) {c d : Coder}, d.low = c.low → d.high = c.high →
    tasksSettle ts c → tasksSettle ts d
  | [], _, _, hl, hh, h => settled_congr hl hh h
  | x :: ts, c, d, hl, hh, h => by
    cases x with
    | encShift off =>
      refine ⟨ordered_congr hl hh h.1, by rw [hl, hh]; exact h.2.1, ?_⟩
      exact tasksSettle_congr ts (by simp [Coder.shiftBounds, hl]) (by simp [Coder.shiftBounds, hh]) h.2.2
    | encRenorm n => exact ⟨ordered_congr hl hh h.1, by rw [range_congr hl hh]; exact h.2.1, h.2.2⟩
    | decRenorm n => exact ⟨ordered_congr hl hh h.1, by rw [range_congr hl hh]; exact h.2.1, h.2.2⟩
    | encLoop _ _ _ => exact ⟨settled_congr hl hh h.1, h.2⟩
    | decNext _ _ _ => exact ⟨settled_congr hl hh h.1, h.2⟩
    | putBit _ => exact tasksSettle_congr ts hl hh h
    | follow _ => exact tasksSettle_congr ts hl hh h
    | packerClose => exact tasksSettle_congr ts hl hh h
    | markClosed => exact tasksSettle_congr ts hl hh h
    | encEnd _ => exact tasksSettle_congr ts hl hh h
    | readBits _ => exact tasksSettle_congr ts hl hh h

/-- Tasks that settle the coder, then tasks that settle any settled coder. -/
theorem tasksSettle_append {us : List Task} (hu : ∀ c : Coder, c.settled → tasksSettle us c) :
    ∀ (ts : List Task) {c : Coder}, tasksSettle ts c → tasksSettle (ts ++ us) c
  | [], c, h => hu c h
  | x :: ts, c, h => by
    cases x with
    | encShift off => exact ⟨h.1, h.2.1, tasksSettle_append hu ts h.2.2⟩
    | encRenorm n => exact ⟨h.1, h.2.1, fun c' hc => tasksSettle_append hu ts (h.2.2 c' hc)⟩
    | decRenorm n => exact ⟨h.1, h.2.1, fun c' hc => tasksSettle_append hu ts (h.2.2 c' hc)⟩
    | encLoop _ _ _ => exact ⟨h.1, fun c' hc => tasksSettle_append hu ts (h.2 c' hc)⟩
    | decNext _ _ _ => exact ⟨h.1, fun c' hc => tasksSettle_append hu ts (h.2 c' hc)⟩
    | putBit _ => exact tasksSettle_append hu ts h
    | follow _ => exact tasksSettle_append hu ts h
    | packerClose => exact tasksSettle_append hu ts h
    | markClosed => exact tasksSettle_append hu ts h
    | encEnd _ => exact tasksSettle_append hu ts h
    | readBits _ => exact tasksSettle_append hu ts h

/-! ### Pieces that leave the bounds alone -/

/-- `t` has the bounds of `c`, and counters in range. -/
def SameBounds (c : Coder) (t : State) : Prop :=
  t.coder.low = c.low ∧ t.coder.high = c.high ∧ t.coder.countersWf

/-- The piece leaves the bounds alone, and so do the tasks it leaves at a hold. -/
def KeepsBounds (c : Coder) (r : Run) : Prop :=
  Meets r (SameBounds c)
    (fun t _ ts => SameBounds c t ∧ ∀ us, tasksSettle us t.coder → tasksSettle (ts ++ us) t.coder) fun _ _ => True

theorem KeepsBounds.andThen {c : Coder} {r : Run} {rest : List Task} {f : State → Run} (h : KeepsBounds c r)
    (hr : ∀ us d, tasksSettle us d → tasksSettle (rest ++ us) d)
    (hf : ∀ t, SameBounds c t → KeepsBounds c (f t)) : KeepsBounds c (r.andThen rest f) := by
  refine Meets.andThen ?_ hf
  exact Meets.mono h (fun _ h => h)
    (fun t _ ts ht => ⟨ht.1, fun us hu => by rw [List.append_assoc]; exact ht.2 _ (hr us _ hu)⟩) fun _ _ h => h

theorem putBit_bounds (b : Bool) {c : Coder} {s : State} (h : SameBounds c s) : KeepsBounds c (putBit b s) := by
  rw [putBit_eq]
  split
  · exact ⟨h, fun _ hu => hu⟩
  · unfold putDone
    split <;> exact h

theorem followBits_bounds (b : Bool) {c : Coder} : ∀ (n : Nat) {s : State}, SameBounds c s → n ≤ maxBtf →
    KeepsBounds c (followBits b n s)
  | 0, _, h, _ => h
  | n + 1, _, h, hn => by
    unfold followBits
    refine Meets.retryAs (E := SameBounds c) ?_ fun t ht =>
      followBits_bounds b n (s := { t with coder := { t.coder with btf := n } })
        ⟨ht.1, ht.2.1, by show n ≤ maxBtf; omega, ht.2.2.2⟩ (by omega)
    exact Meets.mono (putBit_bounds b h) (fun _ h => h) (fun _ _ _ ht => ⟨ht.1, fun _ hu => hu⟩) fun _ _ h => h

theorem bitPlusFollow_bounds (b : Bool) {c : Coder} {s : State} (h : SameBounds c s) :
    KeepsBounds c (bitPlusFollow b s) :=
  (putBit_bounds b h).andThen (fun _ _ hu => hu) fun t ht => followBits_bounds (!b) t.coder.btf ht ht.2.2.1

theorem packerClose_bounds {c : Coder} {s : State} (h : SameBounds c s) : KeepsBounds c (packerClose s) := by
  unfold packerClose
  split
  · split
    · exact ⟨h, fun _ hu => hu⟩
    · exact h
  · exact h

theorem readBit_counters {c : Coder} (bits : List Bool) (h : c.countersWf) : (c.readBit bits).1.countersWf := by
  cases bits with
  | nil =>
    simp only [Coder.readBit, shiftVirtual_eq]
    exact ⟨h.1, (Nat.sub_le _ _).trans h.2⟩
  | cons b rest => exact h

theorem readCodeBit_bounds {c : Coder} {s : State} (h : SameBounds c s) : KeepsBounds c (readCodeBit s) := by
  rcases readCodeBit_cases s with ⟨t, ht, k⟩ | ⟨k, -⟩
  · rw [ht]
    obtain ⟨k1, k2, -⟩ := readBit_bounds s.coder s.inBits
    show SameBounds c t
    unfold SameBounds
    rw [k.coder, k1, k2]
    exact ⟨h.1, h.2.1, readBit_counters _ h.2.2⟩
  · rw [k]
    exact ⟨h, fun _ hu => hu⟩

theorem readBits_bounds {c : Coder} : ∀ (n : Nat) {s : State}, SameBounds c s → KeepsBounds c (readBits n s)
  | 0, _, h => h
  | n + 1, _, h => (readCodeBit_bounds h).andThen (fun _ _ hu => hu) fun _ ht => readBits_bounds n ht

/-! ### Pieces that settle the coder -/

/-- A settled coder with its counters in range. -/
def Settled (s : State) : Prop := s.coder.settled ∧ s.coder.countersWf

/-- The piece ends with a settled coder, or holds on the way there. -/
def Settles (r : Run) : Prop :=
  Meets r Settled (fun t _ ts => tasksSettle ts t.coder ∧ t.coder.countersWf) fun _ _ => True

theorem Settles.andThen {r : Run} {rest : List Task} {f : State → Run} (h : Settles r)
    (hr : ∀ c : Coder, c.settled → tasksSettle rest c) (hf : ∀ t, Settled t → Settles (f t)) :
    Settles (r.andThen rest f) := by
  refine Meets.andThen ?_ hf
  exact Meets.mono h (fun _ h => h) (fun _ _ ts ht => ⟨tasksSettle_append hr ts ht.1, ht.2⟩) fun _ _ h => h

/-- A piece that leaves the bounds alone, then one that settles them. -/
theorem KeepsBounds.settles {c : Coder} {r : Run} {rest : List Task} {f : State → Run} (h : KeepsBounds c r)
    (hr : tasksSettle rest c) (hf : ∀ t, SameBounds c t → Settles (f t)) : Settles (r.andThen rest f) := by
  refine Meets.andThen ?_ hf
  exact Meets.mono h (fun _ h => h)
    (fun _ _ ts ht => ⟨ht.2 _ (tasksSettle_congr rest ht.1.1 ht.1.2.1 hr), ht.1.2.2⟩) fun _ _ h => h

theorem SameBounds.self {s : State} (h : s.coder.countersWf) : SameBounds s.coder s := ⟨rfl, rfl, h⟩

theorem SameBounds.settled {c : Coder} {s : State} (h : SameBounds c s) (hc : c.settled) : Settled s :=
  ⟨settled_congr h.1 h.2.1 hc, h.2.2⟩

/-- A piece that leaves settled bounds alone settles them. -/
theorem KeepsBounds.settled {c : Coder} {r : Run} (h : KeepsBounds c r) (hc : c.settled) : Settles r :=
  Meets.mono h (fun _ ht => ht.settled hc)
    (fun t _ ts ht => ⟨by
      have := ht.2 [] (settled_congr ht.1.1 ht.1.2.1 hc)
      rwa [List.append_nil] at this, ht.1.2.2⟩) fun _ _ h => h

theorem encRenorm_settles : ∀ (n : Nat) {s : State}, enoughPasses n s.coder → s.coder.countersWf →
    Settles (encRenorm n s)
  | 0, _, h, hc => ⟨enoughPasses_zero h, hc⟩
  | n + 1, s, h, hc => by
    have step : ∀ (b : Bool) (off : Nat), s.coder.pass.offset = off →
        ((off = 0 ∧ s.coder.high < half) ∨ (off = half ∧ half ≤ s.coder.low)) → s.coder.pass ≠ .stop →
        Settles ((bitPlusFollow b s).andThen [.encShift off, .encRenorm n] fun s => encRenorm n (encShift off s)) := by
      intro b off ho hp hs
      have k := enoughPasses_pass h hs
      rw [ho] at k
      refine (bitPlusFollow_bounds b (SameBounds.self hc)).settles ⟨h.1, hp, k.1, k.2, fun _ h => h⟩ fun t ht => ?_
      refine encRenorm_settles n (s := encShift off t) (enoughPasses_congr ?_ ?_ k) ht.2.2
      · simp [encShift, Coder.shiftBounds, ht.1]
      · simp [encShift, Coder.shiftBounds, ht.2.1]
    unfold encRenorm
    rcases pass_spec s.coder with ⟨hp, k⟩ | ⟨hp, k, k'⟩ | ⟨hp, -⟩ | ⟨hp, -⟩ <;> simp only [hp]
    · exact step false 0 (by rw [hp]; rfl) (.inl ⟨rfl, k⟩) (by rw [hp]; simp)
    · exact step true half (by rw [hp]; rfl) (.inr ⟨rfl, k'⟩) (by rw [hp]; simp)
    · refine Meets.guard (fun _ => trivial) fun hg => ?_
      have k := enoughPasses_pass h (by rw [hp]; simp)
      rw [hp] at k
      have hne : s.coder.btf ≠ maxBtf := by simpa using hg
      have hle := hc.1
      have hd : ∀ off, enoughPasses n (s.coder.shiftBounds off) → Settles (encRenorm n
          (encShift off { s with coder := { s.coder with btf := s.coder.btf + 1 } })) := fun off k =>
        encRenorm_settles n (enoughPasses_congr (by simp [encShift, Coder.shiftBounds])
          (by simp [encShift, Coder.shiftBounds]) k)
          ⟨by simp only [encShift, Coder.shiftBounds]; omega, hc.2⟩
      exact hd _ k
    · exact ⟨(stop_iff_settled h.1).1 hp, hc⟩

theorem decRenorm_settles : ∀ (n : Nat) {s : State}, enoughPasses n s.coder → s.coder.countersWf →
    Settles (decRenorm n s)
  | 0, _, h, hc => ⟨enoughPasses_zero h, hc⟩
  | n + 1, s, h, hc => by
    unfold decRenorm
    split
    · rename_i hp
      exact ⟨(stop_iff_settled h.1).1 hp, hc⟩
    · rename_i hp
      have k := enoughPasses_pass h hp
      generalize s.coder.pass.offset = off at k ⊢
      refine (readCodeBit_bounds (SameBounds.self (s := { s with coder := s.coder.decShift off }) hc)).settles
        (by exact ⟨k.1, k.2, fun _ h => h⟩) fun t ht => ?_
      exact decRenorm_settles n (enoughPasses_congr (c := s.coder.decShift off) ht.1 ht.2.1 k) ht.2.2

theorem encodeInterval_settles (iv : Interval) {s : State} (h : Settled s) : Settles (encodeInterval iv s) :=
  Meets.guard (fun _ => trivial) fun hg =>
    encRenorm_settles renormPasses (s := { s with coder := s.coder.narrow iv })
      (enoughPasses_renorm (narrow_ordered h.1 (by simpa using hg))) h.2

theorem encodeSym_settles (sym : Sym) {s : State} (h : Settled s) : Settles (encodeSym sym s) :=
  Meets.ofExcept (fun _ _ => trivial) fun r _ => encodeInterval_settles r.1 (s := { s with model := r.2 }) h

theorem encFinal_settles (sym : Sym) (n : Nat) {s : State} (h : Settled s) : Settles (encFinal sym n s) :=
  (encodeSym_settles sym h).andThen (fun _ hc => hc) fun _ ht => ht

theorem encLoop_settles : ∀ (more : Nat) (sym : Sym) (n : Nat) {s : State}, Settled s →
    Settles (encLoop more sym n s)
  | 0, sym, n, _, h => encFinal_settles sym n h
  | more + 1, sym, n, s, h => by
    unfold encLoop
    split
    · exact (encodeSym_settles _ h).andThen (fun _ hc => ⟨hc, fun _ hd => hd⟩) fun _ ht =>
        encLoop_settles more sym (n + 1) ht
    · exact encFinal_settles sym n h

theorem decNext_settles {again : State → Run} (ha : ∀ t, Settled t → Settles (again t)) (sym : Sym) (n : Nat)
    {s : State} (h : Settled s) : Settles (decNext again sym n s) := by
  unfold decNext
  split
  · exact ha s h
  · exact h

theorem decodeSym_settles {s t : State} {sym : Sym} (h : Settled s) (ht : decodeSym s = .ok (sym, t)) :
    t.coder.ordered ∧ t.coder.countersWf := by
  obtain ⟨iv, m, -, -, ho, -, rfl⟩ := decodeSym_ok ht
  exact ⟨narrow_ordered h.1 ho, h.2⟩

theorem decLoop_settles : ∀ (more n : Nat) {s : State}, Settled s → Settles (decLoop more n s)
  | 0, n, _, h => by
    refine Meets.ofExcept (fun _ _ => trivial) fun r hr => ?_
    obtain ⟨k1, k2⟩ := decodeSym_settles h hr
    exact (decRenorm_settles renormPasses (enoughPasses_renorm k1) k2).andThen (fun _ hc => ⟨hc, fun _ hd => hd⟩)
      fun _ ht => decNext_settles (again := .done) (fun _ hu => hu) r.1 n ht
  | more + 1, n, _, h => by
    refine Meets.ofExcept (fun _ _ => trivial) fun r hr => ?_
    obtain ⟨k1, k2⟩ := decodeSym_settles h hr
    exact (decRenorm_settles renormPasses (enoughPasses_renorm k1) k2).andThen (fun _ hc => ⟨hc, fun _ hd => hd⟩)
      fun _ ht => decNext_settles (fun _ hu => decLoop_settles more (n + 1) hu) r.1 n ht

theorem decAgain_settles (more n : Nat) {s : State} (h : Settled s) : Settles (decAgain more n s) := by
  cases more with
  | zero => exact h
  | succ more => exact decLoop_settles more (n + 1) h

/-- The rest of a held command settles the coder when its tasks say so. -/
theorem runTasks_settles : ∀ (ts : List Task) {s : State}, tasksSettle ts s.coder → s.coder.countersWf →
    Settles (runTasks ts s)
  | [], _, h, hc => ⟨h, hc⟩
  | x :: ts, s, h, hc => by
    have ih : ∀ t, SameBounds s.coder t → tasksSettle ts s.coder → Settles (runTasks ts t) := fun t ht hts =>
      runTasks_settles ts (tasksSettle_congr ts ht.1 ht.2.1 hts) ht.2.2
    have keep : ∀ {r : Run}, KeepsBounds s.coder r → tasksSettle ts s.coder →
        Settles (r.andThen ts (runTasks ts)) := fun hr hts => hr.settles hts fun t ht => ih t ht hts
    have settle : ∀ {r : Run}, Settles r → (∀ c : Coder, c.settled → tasksSettle ts c) →
        Settles (r.andThen ts (runTasks ts)) := fun hr hts =>
      hr.andThen hts fun t ht => runTasks_settles ts (hts _ ht.1) ht.2
    have self := SameBounds.self hc
    unfold runTasks
    cases x with
    | putBit b => exact keep (putBit_bounds b self) h
    | follow b => exact keep (followBits_bounds b _ self hc.1) h
    | encShift off => exact runTasks_settles ts (s := encShift off s) h.2.2 hc
    | encRenorm n => exact settle (encRenorm_settles n ⟨h.1, h.2.1⟩ hc) h.2.2
    | packerClose => exact keep (packerClose_bounds self) h
    | markClosed => exact runTasks_settles ts (s := { s with closed := true }) h hc
    | encLoop more sym n => exact settle (encLoop_settles more sym n ⟨h.1, hc⟩) h.2
    | encEnd n => exact runTasks_settles ts (s := s.setRes0 (natWord n)) h hc
    | readBits k => exact keep (readBits_bounds k self) h
    | decRenorm n => exact settle (decRenorm_settles n ⟨h.1, h.2.1⟩ hc) h.2.2
    | decNext more sym n =>
      exact settle (decNext_settles (fun _ ht => decAgain_settles more n ht) sym n ⟨h.1, hc⟩) h.2

theorem decPrime_settles {s : State} (hb : s.coder.btf ≤ maxBtf) : Settles (decPrime s) := by
  unfold decPrime
  generalize hc : ({ s.coder with low := 0, high := topValue, value := 0, vbits := virtualBits, eos := false } : Coder) = c
  have hw : c.countersWf := by rw [← hc]; exact ⟨hb, Nat.le_refl _⟩
  have hs : c.settled := by
    rw [← hc]
    exact settled_congr rfl rfl reset_settled
  exact (readBits_bounds codeValueBits (s := { s with coder := c }) (SameBounds.self hw)).settled hs

theorem closeStream_settles {s : State} (h : Settled s) (hb : s.coder.btf ≠ maxBtf) : Settles (closeStream s) := by
  have hb' := h.2.1
  have hw : SameBounds s.coder { s with coder := { s.coder with btf := s.coder.btf + 1 } } :=
    ⟨rfl, rfl, by show s.coder.btf + 1 ≤ maxBtf; omega, h.2.2⟩
  refine (bitPlusFollow_bounds _ hw).settles h.1 fun t ht => ?_
  exact (packerClose_bounds ht).settles h.1 fun u hu => hu.settled h.1

end Sys2Proof.Laws
end

