-- ==== Sys2Proof/Laws/Steps.lean ====
section
/-! SUPPORT. What one step can be, said once: the body of every command, the host's actions one by one, and the three
things a step does (R150 to R152). -/

namespace Sys2Proof.Laws

open Sys2Proof.Machine

/-! ### Commands -/

/-- The body of a command between its issue and its end. SOFT_RESET has none: it is accepted in every state. -/
def bodyOf : Instr → State → Run
  | .nop, s => .done s
  | .softReset, s => .done s
  | .encStart, s => startChecks s (.done { s.streamInit with mode := .enc })
  | .encInterval, s => Run.guard s s.encBarred .protocol
      (Run.ofExcept s s.operandInterval fun iv => encodeInterval iv s)
  | .encClose, s => Run.guard s s.encBarred .protocol
      (Run.guard s (s.coder.btf == maxBtf) .capacity (closeStream s))
  | .encSymbol, s => Run.guard s (s.encBarred || s.model.eofdone) .protocol
      (match byteOrEofOperand s.a0 with
       | none => .raised s .protocol
       | some sym => encLoop s.model.ctxlen sym 0 s)
  | .decStart, s => startChecks s (decPrime { s.streamInit with mode := .dec })
  | .decCount, s => Run.guard s s.decBarred .protocol
      (Run.ofExcept s s.operandTotal fun t => .done (s.setRes0 (natWord (s.coder.count t))))
  | .decRemove, s => Run.guard s s.decBarred .protocol
      (Run.ofExcept s s.operandInterval fun iv => Run.ofExcept s (s.coder.remove iv) fun c =>
        decRenorm renormPasses { s with coder := c })
  | .decSymbol, s => Run.guard s (s.decBarred || s.model.eofdone) .protocol
      (decLoop s.model.ctxlen 0 s)
  | .ppmTotal, s => Run.guard s s.queryBarred .protocol (.done (s.setRes0 (natWord s.model.total)))
  | .ppmPoint, s => Run.guard s s.queryBarred .protocol
      (Run.ofExcept s (s.model.point (s32 s.a0)) fun sym => .done (s.setRes0 (symWord sym)))
  | .ppmInterval, s => Run.guard s s.updateBarred .protocol
      (match symOperand s.a0 with
       | none => .raised s .protocol
       | some sym => Run.ofExcept s (s.model.codeSymbol sym) fun r =>
           .done ({ s with model := r.2 }.setResInterval r.1))
  | .ppmEscaped, s => Run.guard s s.queryBarred .protocol
      (match byteOrEofOperand s.a0 with
       | none => .raised s .protocol
       | some sym => .done (s.setRes0 (boolWord (s.model.escaped sym))))
  | .ppmExclude, s => Run.guard s s.updateBarred .protocol
      (match byteOperand s.a0 with
       | none => .raised s .protocol
       | some b => .done { s with model := s.model.exclude b })
  | .ppmIncrement, s => Run.guard s s.updateBarred .protocol
      (match byteOperand s.a0 with
       | none => .raised s .protocol
       | some b => Run.ofExcept s (s.model.increment b) fun m => .done { s with model := m })

/-- Every command but SOFT_RESET issues, runs its body, and ends, holds or faults (R150). -/
theorem exec_eq (i : Instr) (h : i ≠ .softReset) (s : State) :
    exec i s = .next (bodyOf i (s.issue (opcode i))).finish := by
  cases i <;> first | rfl | exact absurd rfl h

theorem exec_softReset (s : State) : exec .softReset s = .next s.softReset := rfl

/-- A command gives a next state from every state. -/
theorem exec_next (i : Instr) (s : State) : ∃ t, exec i s = .next t := by
  cases i <;> exact ⟨_, rfl⟩

/-- `t` is `s` but for the stream state and the mode, which a START sets. -/
def StreamAndMode (s t : State) : Prop :=
  t = { s with res0 := t.res0, res1 := t.res1, res2 := t.res2, closed := t.closed, coder := t.coder,
               bitio := t.bitio, inq := t.inq, outq := t.outq, model := t.model, mode := t.mode }

theorem StreamOnly.andMode {s t : State} (h : StreamOnly s t) : StreamAndMode s t := by
  unfold StreamAndMode
  rw [h]

/-- The frame of a command's body. -/
def BodyFramed (s : State) (r : Run) : Prop :=
  Meets r (StreamAndMode s) (fun t _ ts => StreamAndMode s t ∧ ts ≠ []) fun t c =>
    StreamAndMode s t ∧ c ≠ .hostIo

theorem Framed.body {s : State} {r : Run} (h : Framed s r) : BodyFramed s r :=
  Meets.mono h (fun _ ht => ht.andMode) (fun _ _ _ ht => ⟨ht.1.andMode, ht.2⟩) fun _ _ h => ⟨h.1.andMode, h.2⟩

theorem operandInterval_code {s : State} {c : FaultCode} (h : s.operandInterval = .error c) : c = .interval := by
  unfold State.operandInterval at h
  split at h
  · cases h
  · exact (Except.error.inj h).symm

theorem operandTotal_code {s : State} {c : FaultCode} (h : s.operandTotal = .error c) : c = .interval := by
  unfold State.operandTotal at h
  split at h
  · cases h
  · exact (Except.error.inj h).symm

theorem remove_code {c : Coder} {iv : Interval} {e : FaultCode} (h : c.remove iv = .error e) : e = .desync := by
  unfold Coder.remove at h
  split at h
  · exact (Except.error.inj h).symm
  · cases h

theorem closeStream_framed (s : State) : Framed s (closeStream s) :=
  Framed.of_streamOnly (streamOnly_coder s _) ((bitPlusFollow_framed _ _).andThen fun t =>
    (packerClose_framed t).andThen fun _ => rfl)

theorem decPrime_framed (s : State) : Framed s (decPrime s) :=
  Framed.of_streamOnly (streamOnly_coder s _) (readBits_framed codeValueBits _)

theorem startState_frame (s : State) (m : Mode) : StreamAndMode s { s.streamInit with mode := m } := rfl

theorem body_framed (i : Instr) (s : State) : BodyFramed s (bodyOf i s) := by
  have raised : ∀ c : FaultCode, c ≠ .hostIo → BodyFramed s (.raised s c) := fun _ hc => ⟨rfl, hc⟩
  cases i with
  | nop => rfl
  | softReset => rfl
  | encStart => exact Meets.guard (fun _ => ⟨rfl, by simp⟩) fun _ => Meets.guard (fun _ => ⟨rfl, by simp⟩) fun _ => rfl
  | encInterval =>
    exact Meets.guard (fun _ => ⟨rfl, by simp⟩) fun _ => Meets.ofExcept (fun c h => ⟨rfl, by rw [operandInterval_code h]; simp⟩)
      fun iv _ => (encodeInterval_framed iv s).body
  | encClose =>
    exact Meets.guard (fun _ => ⟨rfl, by simp⟩) fun _ => Meets.guard (fun _ => ⟨rfl, by simp⟩) fun _ =>
      (closeStream_framed s).body
  | encSymbol =>
    refine Meets.guard (fun _ => ⟨rfl, by simp⟩) fun _ => ?_
    split
    · exact raised _ (by simp)
    · exact (encLoop_framed _ _ _ s).body
  | decStart =>
    refine Meets.guard (fun _ => ⟨rfl, by simp⟩) fun _ => Meets.guard (fun _ => ⟨rfl, by simp⟩) fun _ => ?_
    have k := decPrime_framed { s.streamInit with mode := .dec }
    have step : ∀ t, StreamOnly { s.streamInit with mode := .dec } t → StreamAndMode s t := by
      intro t ht
      have h1 := startState_frame s .dec
      unfold StreamOnly StreamAndMode at *
      rw [ht, h1]
    exact Meets.mono k step (fun t _ ts ht => ⟨step t ht.1, ht.2⟩) fun t _ h => ⟨step t h.1, h.2⟩
  | decCount =>
    exact Meets.guard (fun _ => ⟨rfl, by simp⟩) fun _ => Meets.ofExcept (fun c h => ⟨rfl, by rw [operandTotal_code h]; simp⟩)
      fun t _ => rfl
  | decRemove =>
    exact Meets.guard (fun _ => ⟨rfl, by simp⟩) fun _ => Meets.ofExcept (fun c h => ⟨rfl, by rw [operandInterval_code h]; simp⟩)
      fun iv _ => Meets.ofExcept (fun c h => ⟨rfl, by rw [remove_code h]; simp⟩) fun c _ =>
        (Framed.of_streamOnly (streamOnly_coder s c) (decRenorm_framed renormPasses _)).body
  | decSymbol => exact Meets.guard (fun _ => ⟨rfl, by simp⟩) fun _ => (decLoop_framed _ _ s).body
  | ppmTotal => exact Meets.guard (fun _ => ⟨rfl, by simp⟩) fun _ => rfl
  | ppmPoint =>
    exact Meets.guard (fun _ => ⟨rfl, by simp⟩) fun _ => Meets.ofExcept (fun c h => ⟨rfl, by rw [point_code h]; simp⟩)
      fun sym _ => rfl
  | ppmInterval =>
    refine Meets.guard (fun _ => ⟨rfl, by simp⟩) fun _ => ?_
    split
    · exact raised _ (by simp)
    · exact Meets.ofExcept (fun c h => ⟨rfl, by rcases codeSymbol_code h with rfl | rfl <;> simp⟩) fun r _ => rfl
  | ppmEscaped =>
    refine Meets.guard (fun _ => ⟨rfl, by simp⟩) fun _ => ?_
    split
    · exact raised _ (by simp)
    · rfl
  | ppmExclude =>
    refine Meets.guard (fun _ => ⟨rfl, by simp⟩) fun _ => ?_
    split
    · exact raised _ (by simp)
    · rfl
  | ppmIncrement =>
    refine Meets.guard (fun _ => ⟨rfl, by simp⟩) fun _ => ?_
    split
    · exact raised _ (by simp)
    · exact Meets.ofExcept (fun c h => ⟨rfl, by rw [increment_code h]; simp⟩) fun m _ => rfl

/-! ### Host reads -/

/-- A host read changes what the host has read, the draws, and at most takes the head of the output FIFO (R17, R26). -/
theorem readAt_cases (s : State) (o : Nat) :
    ∃ v d, s.readAt o = { s with rdata := v, draws := d } ∨
      (s.err = false ∧ s.outq ≠ [] ∧ s.readAt o = { s with rdata := v, draws := d, outq := s.outq.tail }) := by
  have drawn : ∀ f, ∃ v d, s.readDrawn f = { s with rdata := v, draws := d } := fun f => ⟨_, _, rfl⟩
  have exact' : ∀ w, ∃ v d, s.readExact w = { s with rdata := v, draws := d } := fun w => ⟨w, s.draws, rfl⟩
  have left : ∀ {t : State}, (∃ v d, t = { s with rdata := v, draws := d }) →
      ∃ v d, t = { s with rdata := v, draws := d } ∨
        (s.err = false ∧ s.outq ≠ [] ∧ t = { s with rdata := v, draws := d, outq := s.outq.tail }) :=
    fun ⟨v, d, h⟩ => ⟨v, d, .inl h⟩
  have view : ∀ n, ∃ v d, s.readView n = { s with rdata := v, draws := d } := by
    intro n
    unfold State.readView
    split
    · exact drawn _
    · split
      · exact exact' _
      · exact drawn _
  have status : ∃ v d, s.readStatus = { s with rdata := v, draws := d } := by
    unfold State.readStatus
    split
    · exact drawn _
    · exact exact' _
  have level : ∃ v d, s.readFifoLevel = { s with rdata := v, draws := d } := by
    unfold State.readFifoLevel
    split
    · exact drawn _
    · split
      · exact exact' _
      · exact drawn _
  unfold State.readAt
  split
  · rename_i r hr
    cases r with
    | outData =>
      by_cases he : s.err = true
      · have hr : readReg s .outData = s.readDrawn fun d => d &&& 0x1FF := by
          simp only [readReg, State.readOutData, he, if_true]
        rw [hr]
        exact left (drawn _)
      · rw [Bool.not_eq_true] at he
        by_cases hq : s.outq = []
        · have hr : readReg s .outData = s.readExact 0 := by
            simp [readReg, State.readOutData, he, hq]
          rw [hr]
          exact left (exact' _)
        · refine ⟨0x100 ||| (s.outq.head hq).setWidth 32, s.draws, .inr ⟨he, hq, ?_⟩⟩
          obtain ⟨b, rest, hb⟩ := List.exists_cons_of_ne_nil hq
          simp [readReg, State.readOutData, he, hb]
    | status => exact left status
    | fifoLevel => exact left level
    | cmd => exact left (exact' _)
    | arg0 => exact left (exact' _)
    | arg1 => exact left (exact' _)
    | arg2 => exact left (exact' _)
    | errcode => exact left (exact' _)
    | config => exact left (exact' _)
    | inData => exact left (exact' _)
    | inCtrl => exact left (exact' _)
    | res0 => exact left (view _)
    | res1 => exact left (view _)
    | res2 => exact left (view _)
    | obsLow => exact left (view _)
    | obsHigh => exact left (view _)
    | obsBtf => exact left (view _)
    | obsValue => exact left (view _)
    | obsVbits => exact left (view _)
    | obsCtxlen => exact left (view _)
    | obsBuflen => exact left (view _)
    | obsNodes => exact left (view _)
    | obsBits => exact left (view _)
    | obsOrder => exact left (view _)
    | obsExcl j => exact left (view _)
  · exact left (exact' _)

/-! ### Host writes -/

/-- What a CMD write can be (R150, R61, R67): SOFT_RESET at any time, another command or an illegal word when the
block is ready, HOST_IO while a command is held, nothing after a fault. -/
theorem writeCmd_cases (s : State) (w : Word) :
    s.writeCmd w = exec .softReset s ∨ (s.err = true ∧ s.writeCmd w = .next s) ∨
    (s.err = false ∧ s.busy = true ∧ s.writeCmd w = .next s.hostFault) ∨
    (s.err = false ∧ s.busy = false ∧
      ((∃ i, decode w = .ok i ∧ s.writeCmd w = exec i s) ∨ s.writeCmd w = .next (s.illegalCommand (opField w)))) := by
  unfold State.writeCmd
  split
  · split
    · exact .inl rfl
    · exact .inr (.inl ⟨by assumption, rfl⟩)
  · rename_i he
    rw [Bool.not_eq_true] at he
    split
    · split
      · exact .inl rfl
      · exact .inr (.inr (.inl ⟨he, by assumption, rfl⟩))
    · rename_i hb
      rw [Bool.not_eq_true] at hb
      refine .inr (.inr (.inr ⟨he, hb, ?_⟩))
      unfold State.issueWord
      split
      · exact .inl ⟨_, by assumption, rfl⟩
      · exact .inr rfl

/-- A host write that is not a CMD write (R17, R18, R23 to R25, R155). -/
inductive PlainWrite (s : State) (w : Word) : State → Prop
  | ignored : PlainWrite s w s
  | arg0 : PlainWrite s w { s with arg0 := w }
  | arg1 : PlainWrite s w { s with arg1 := w }
  | arg2 : PlainWrite s w { s with arg2 := w }
  | config : PlainWrite s w { s with config := w.extractLsb' 0 16 }
  | pushed : s.err = false → s.inq.length ≠ Config.inDepth → s.inend = false →
      PlainWrite s w { s with inq := s.inq ++ [w.extractLsb' 0 8] }
  | refused : s.err = false → PlainWrite s w s.hostFault
  | ended : s.err = false → PlainWrite s w { s with inend := s.inend || w.getLsbD 0 }

theorem writeAt_cases (s : State) (o : Nat) (w : Word) :
    s.writeAt o w = s.writeCmd w ∨ ∃ t, s.writeAt o w = .next t ∧ PlainWrite s w t := by
  unfold State.writeAt
  split
  · rename_i r hr
    cases r with
    | cmd => exact .inl rfl
    | arg0 => exact .inr ⟨_, rfl, .arg0⟩
    | arg1 => exact .inr ⟨_, rfl, .arg1⟩
    | arg2 => exact .inr ⟨_, rfl, .arg2⟩
    | config => exact .inr ⟨_, rfl, .config⟩
    | inData =>
      refine .inr ⟨_, rfl, ?_⟩
      unfold State.writeInData
      split
      · exact .ignored
      · rename_i he
        rw [Bool.not_eq_true] at he
        split
        · exact .refused he
        · rename_i hc
          rw [not_or] at hc
          exact .pushed he (fun h => hc.1 h.symm) (by simpa using hc.2)
    | inCtrl =>
      refine .inr ⟨_, rfl, ?_⟩
      unfold State.writeInCtrl
      split
      · exact .ignored
      · rename_i he
        exact .ended (by simpa using he)
    | _ => exact .inr ⟨_, rfl, .ignored⟩
  · exact .inr ⟨_, rfl, .ignored⟩

/-! ### Steps -/

/-- What a step that gives a next state did: a host action on the state without it on the list, the held command's
next stretch, or nothing. -/
theorem step_cases {s t : State} (h : step s = .next t) :
    (∃ e rest, s.hostq = e :: rest ∧ (s.canResume = true → e.early = true) ∧
      State.hostAct { s with hostq := rest } e.act = .next t) ∨
    (s.canResume = true ∧ t = s.resume) ∨ (s.canResume = false ∧ s.busy = false ∧ t = s) := by
  unfold step State.advance at h
  have rest' : s.hostTurn = none →
      (if s.canResume then Host.Outcome.next s.resume else if s.busy then .fault Fault.stuckHold else .next s) =
        (.next t : Host.Outcome State Fault Refusal) →
      (s.canResume = true ∧ t = s.resume) ∨ (s.canResume = false ∧ s.busy = false ∧ t = s) := by
    intro _ h
    split at h
    · rename_i hr
      exact .inl ⟨hr, (Host.Outcome.next.inj h).symm⟩
    · rename_i hr
      split at h
      · cases h
      · rename_i hb
        exact .inr ⟨by simpa using hr, by simpa using hb, (Host.Outcome.next.inj h).symm⟩
  split at h
  · rename_i act rest ht
    unfold State.hostTurn at ht
    split at ht
    · cases ht
    · rename_i e rest' hq
      split at ht
      · cases ht
      · rename_i hc
        simp only [Option.some.injEq, Prod.mk.injEq] at ht
        obtain ⟨rfl, rfl⟩ := ht
        exact .inl ⟨e, _, hq, by simpa using hc, h⟩
  · rename_i ht
    exact .inr (rest' ht h)

/-- A host action that gives a next state: a reset, a read or a write. -/
theorem hostAct_cases {s t : State} {a : HostAct} (h : s.hostAct a = .next t) :
    t = s.hardReset ∨ (∃ o, t = s.readAt o) ∨ ∃ o w, s.writeAt o w = .next t := by
  cases a with
  | hardReset => exact .inl (Host.Outcome.next.inj h).symm
  | read o n =>
    simp only [State.hostAct] at h
    split at h
    · cases h
    · split at h
      · cases h
      · exact .inr (.inl ⟨o, (Host.Outcome.next.inj h).symm⟩)
  | write o n w =>
    simp only [State.hostAct] at h
    split at h
    · cases h
    · split at h
      · cases h
      · exact .inr (.inr ⟨o, w, h⟩)

end Sys2Proof.Laws
end

