-- ==== Sys2Proof/Laws/Bodies.lean ====
section
/-! SUPPORT. What the body of every command keeps: buffers in range (R33, R34), a settled coder (R90), a well-formed
model (R35). -/

namespace Sys2Proof.Laws

open Sys2Proof.Machine

theorem bitio_reset_wf : BitIO.reset.wf := ⟨Nat.zero_le _, by decide, Nat.zero_le _⟩

theorem streamInit_buffered {s : State} (h : Buffered s) (m : Mode) :
    Buffered { s.streamInit with mode := m } := ⟨bitio_reset_wf, h.2⟩

theorem streamInit_settled (s : State) (m : Mode) : Settled { s.streamInit with mode := m } :=
  ⟨settled_congr rfl rfl reset_settled, Nat.zero_le _, Nat.le_refl _⟩

theorem streamInit_wf {s : State} (m : Mode) (h : s.config.toNat ≤ Config.maxOrder) :
    State.model { s.streamInit with mode := m } |>.Wf := fresh_wf h

/-- Every command's body keeps the buffers in range. -/
theorem body_buffers (i : Instr) {s : State} (h : Buffered s) : KeepsBuffers (bodyOf i s) := by
  cases i with
  | nop => exact h
  | softReset => exact h
  | encStart => exact Meets.guard (fun _ => trivial) fun _ => Meets.guard (fun _ => trivial) fun _ => streamInit_buffered h .enc
  | encInterval =>
    exact Meets.guard (fun _ => trivial) fun _ => Meets.ofExcept (fun _ _ => trivial) fun iv _ => encodeInterval_buffers iv h
  | encClose =>
    exact Meets.guard (fun _ => trivial) fun _ => Meets.guard (fun _ => trivial) fun _ => closeStream_buffers h
  | encSymbol =>
    refine Meets.guard (fun _ => trivial) fun _ => ?_
    split
    · trivial
    · exact encLoop_buffers _ _ _ h
  | decStart =>
    exact Meets.guard (fun _ => trivial) fun _ => Meets.guard (fun _ => trivial) fun _ => 
      readBits_buffers codeValueBits (streamInit_buffered h .dec)
  | decCount =>
    exact Meets.guard (fun _ => trivial) fun _ => Meets.ofExcept (fun _ _ => trivial) fun _ _ => h
  | decRemove =>
    exact Meets.guard (fun _ => trivial) fun _ => Meets.ofExcept (fun _ _ => trivial) fun iv _ =>
      Meets.ofExcept (fun _ _ => trivial) fun c _ => 
        decRenorm_buffers renormPasses (buffered_coder c h)
  | decSymbol => exact Meets.guard (fun _ => trivial) fun _ => decLoop_buffers _ _ h
  | ppmTotal => exact Meets.guard (fun _ => trivial) fun _ => h
  | ppmPoint =>
    exact Meets.guard (fun _ => trivial) fun _ => Meets.ofExcept (fun _ _ => trivial) fun _ _ => h
  | ppmInterval =>
    refine Meets.guard (fun _ => trivial) fun _ => ?_
    split
    · trivial
    · exact Meets.ofExcept (fun _ _ => trivial) fun _ _ => h
  | ppmEscaped =>
    refine Meets.guard (fun _ => trivial) fun _ => ?_
    split
    · trivial
    · exact h
  | ppmExclude =>
    refine Meets.guard (fun _ => trivial) fun _ => ?_
    split
    · trivial
    · exact h
  | ppmIncrement =>
    refine Meets.guard (fun _ => trivial) fun _ => ?_
    split
    · trivial
    · exact Meets.ofExcept (fun _ _ => trivial) fun _ _ => h

theorem remove_ok {c d : Coder} {iv : Interval} (h : c.remove iv = .ok d) : c.misses iv = false ∧ d = c.narrow iv := by
  unfold Coder.remove at h
  split at h
  · cases h
  · exact ⟨by rename_i hm; simpa using hm, (Except.ok.inj h).symm⟩

theorem operandInterval_ok {s : State} {iv : Interval} (h : s.operandInterval = .ok iv) : iv.ok = true := by
  unfold State.operandInterval at h
  split at h
  · rename_i ho
    obtain rfl := Except.ok.inj h
    simp only [intervalOk, decide_eq_true_eq] at ho
    exact ok_iff.2 ⟨by simp only; omega, by simp only; omega, by simp only; omega⟩
  · cases h

/-- Every command's body settles a settled coder, or holds on the way there. -/
theorem body_settles (i : Instr) {s : State} (h : Settled s) : Settles (bodyOf i s) := by
  cases i with
  | nop => exact h
  | softReset => exact h
  | encStart => exact Meets.guard (fun _ => trivial) fun _ => Meets.guard (fun _ => trivial) fun _ => streamInit_settled s .enc
  | encInterval =>
    exact Meets.guard (fun _ => trivial) fun _ => Meets.ofExcept (fun _ _ => trivial) fun iv _ => encodeInterval_settles iv h
  | encClose =>
    exact Meets.guard (fun _ => trivial) fun _ => Meets.guard (fun _ => trivial) fun hb => 
      closeStream_settles h (by simpa using hb)
  | encSymbol =>
    refine Meets.guard (fun _ => trivial) fun _ => ?_
    split
    · trivial
    · exact encLoop_settles _ _ _ h
  | decStart =>
    exact Meets.guard (fun _ => trivial) fun _ => Meets.guard (fun _ => trivial) fun _ => 
      decPrime_settles (streamInit_settled s .dec).2.1
  | decCount =>
    exact Meets.guard (fun _ => trivial) fun _ => Meets.ofExcept (fun _ _ => trivial) fun _ _ => h
  | decRemove =>
    exact Meets.guard (fun _ => trivial) fun _ => Meets.ofExcept (fun _ _ => trivial) fun iv hi =>
      Meets.ofExcept (fun _ _ => trivial) fun c hc => by
        obtain ⟨-, rfl⟩ := remove_ok hc
        exact decRenorm_settles renormPasses (enoughPasses_renorm (narrow_ordered h.1 (operandInterval_ok hi))) h.2
  | decSymbol => exact Meets.guard (fun _ => trivial) fun _ => decLoop_settles _ _ h
  | ppmTotal => exact Meets.guard (fun _ => trivial) fun _ => h
  | ppmPoint =>
    exact Meets.guard (fun _ => trivial) fun _ => Meets.ofExcept (fun _ _ => trivial) fun _ _ => h
  | ppmInterval =>
    refine Meets.guard (fun _ => trivial) fun _ => ?_
    split
    · trivial
    · exact Meets.ofExcept (fun _ _ => trivial) fun _ _ => h
  | ppmEscaped =>
    refine Meets.guard (fun _ => trivial) fun _ => ?_
    split
    · trivial
    · exact h
  | ppmExclude =>
    refine Meets.guard (fun _ => trivial) fun _ => ?_
    split
    · trivial
    · exact h
  | ppmIncrement =>
    refine Meets.guard (fun _ => trivial) fun _ => ?_
    split
    · trivial
    · exact Meets.ofExcept (fun _ _ => trivial) fun _ _ => h

/-- Every command's body keeps the model well formed. -/
theorem body_keeps (i : Instr) {s : State} (h : s.model.Wf) : KeepsModel (bodyOf i s) := by
  cases i with
  | nop => exact h
  | softReset => exact h
  | encStart => exact Meets.guard (fun _ => trivial) fun _ => Meets.guard (fun _ => trivial) fun ho => 
      streamInit_wf .enc (by simpa using ho)
  | encInterval =>
    exact Meets.guard (fun _ => trivial) fun _ => Meets.ofExcept (fun _ _ => trivial) fun iv _ => (encodeInterval_model iv rfl).keeps h
  | encClose =>
    exact Meets.guard (fun _ => trivial) fun _ => Meets.guard (fun _ => trivial) fun _ => (closeStream_model rfl).keeps h
  | encSymbol =>
    refine Meets.guard (fun _ => trivial) fun _ => ?_
    split
    · trivial
    · exact encLoop_keeps _ _ _ h
  | decStart =>
    exact Meets.guard (fun _ => trivial) fun _ => Meets.guard (fun _ => trivial) fun ho => 
      (readBits_model codeValueBits rfl).keeps (streamInit_wf .dec (by simpa using ho))
  | decCount =>
    exact Meets.guard (fun _ => trivial) fun _ => Meets.ofExcept (fun _ _ => trivial) fun _ _ => h
  | decRemove =>
    exact Meets.guard (fun _ => trivial) fun _ => Meets.ofExcept (fun _ _ => trivial) fun _ _ =>
      Meets.ofExcept (fun _ _ => trivial) fun _ _ => 
        (decRenorm_model renormPasses rfl).keeps h
  | decSymbol => exact Meets.guard (fun _ => trivial) fun _ => decLoop_keeps _ _ h
  | ppmTotal => exact Meets.guard (fun _ => trivial) fun _ => h
  | ppmPoint =>
    exact Meets.guard (fun _ => trivial) fun _ => Meets.ofExcept (fun _ _ => trivial) fun _ _ => h
  | ppmInterval =>
    refine Meets.guard (fun _ => trivial) fun _ => ?_
    split
    · trivial
    · exact Meets.ofExcept (fun _ _ => trivial) fun r hr => codeSymbol_wf h hr
  | ppmEscaped =>
    refine Meets.guard (fun _ => trivial) fun _ => ?_
    split
    · trivial
    · exact h
  | ppmExclude =>
    refine Meets.guard (fun _ => trivial) fun _ => ?_
    split
    · trivial
    · exact exclude_wf h _
  | ppmIncrement =>
    refine Meets.guard (fun _ => trivial) fun _ => ?_
    split
    · trivial
    · exact Meets.ofExcept (fun _ _ => trivial) fun m hm => increment_wf (Wf.body h) hm

end Sys2Proof.Laws
end

