-- ==== Sys2Proof/Laws/Held.lean ====
section
/-! SUPPORT. The bits an encoder piece emits with its holds counted in: what has gone out and what its remaining tasks
will still emit make up what it emits when nothing holds it (R77, R151). -/

namespace Sys2Proof.Laws

open Sys2Proof.Machine

/-- The tasks of the encoder's loops. -/
def isEncTask : Task → Bool
  | .putBit _ | .follow _ | .encShift _ | .encRenorm _ => true
  | _ => false

/-- What an encoder task makes of a coder, and its bits. -/
def taskBits : Task → Coder → Coder × List Bool
  | .putBit b, c => (c, [b])
  | .follow b, c => ({ c with btf := 0 }, List.replicate c.btf b)
  | .encShift off, c => (c.shiftBounds off, [])
  | .encRenorm n, c => c.encTrace n
  | _, c => (c, [])

/-- What a list of encoder tasks makes of a coder, and its bits. -/
def tasksBits : List Task → Coder → Coder × List Bool
  | [], c => (c, [])
  | t :: ts, c => ((tasksBits ts (taskBits t c).1).1, (taskBits t c).2 ++ (tasksBits ts (taskBits t c).1).2)

theorem tasksBits_append (ts us : List Task) (c : Coder) :
    tasksBits (ts ++ us) c =
      ((tasksBits us (tasksBits ts c).1).1, (tasksBits ts c).2 ++ (tasksBits us (tasksBits ts c).1).2) := by
  induction ts generalizing c with
  | nil => simp [tasksBits]
  | cons t ts ih => simp [tasksBits, ih]

/-- The piece makes coder `c` and the bits of `p`: all of them when it completes, and at a hold the first of them, the
rest being what its tasks will make. The only fault is the bit counter's overflow (R88). -/
def EmitsAs (s : State) (p : Coder × List Bool) (r : Run) : Prop :=
  Meets r (fun t => Emitted s p.1 p.2 t)
    (fun t k ts => k = .output ∧ (∀ x ∈ ts, isEncTask x = true) ∧ ∃ c bits, Emitted s c bits t ∧
      p = ((tasksBits ts c).1, bits ++ (tasksBits ts c).2))
    fun _ c => c = .capacity

/-- A change of the coder before the piece. -/
theorem EmitsAs.of_coder {s : State} {c : Coder} {p : Coder × List Bool} {r : Run}
    (h : EmitsAs { s with coder := c } p r) : EmitsAs s p r :=
  Meets.mono h (fun _ hu => hu.of_coder)
    (by rintro u k ts ⟨rfl, hts, c, bits, e', hp⟩; exact ⟨rfl, hts, c, bits, e'.of_coder, hp⟩) fun _ _ h => h

theorem EmitsAs.andThen {s : State} {p : Coder × List Bool} {r : Run} {rest : List Task} {f : State → Run}
    (h : EmitsAs s p r) (he : ∀ x ∈ rest, isEncTask x = true)
    (hf : ∀ t, Emitted s p.1 p.2 t → EmitsAs t (tasksBits rest p.1) (f t)) :
    EmitsAs s ((tasksBits rest p.1).1, p.2 ++ (tasksBits rest p.1).2) (r.andThen rest f) := by
  refine Meets.andThen (E := Emitted s p.1 p.2) ?_ fun t ht => ?_
  · refine Meets.mono h (fun _ h => h) ?_ fun _ _ h => h
    rintro t k ts ⟨rfl, ht, c, bits, e, hp⟩
    refine ⟨rfl, ?_, c, bits, e, ?_⟩
    · intro x hx
      rcases List.mem_append.1 hx with hx | hx
      · exact ht x hx
      · exact he x hx
    · rw [tasksBits_append, hp]
      simp
  · refine Meets.mono (hf t ht) (fun u hu => ht.trans hu) ?_ fun _ _ h => h
    rintro u k ts ⟨rfl, hts, c, bits, e, hp⟩
    exact ⟨rfl, hts, c, p.2 ++ bits, ht.trans e, by rw [hp]; simp⟩

theorem putBit_emitsAs {s : State} (b : Bool) (h : s.bitio.wf) : EmitsAs s (s.coder, [b]) (putBit b s) := by
  rw [putBit_eq]
  split
  · exact ⟨rfl, by simp [isEncTask], s.coder, [], Emitted.refl h, rfl⟩
  · exact putDone_emitted b h

theorem followBits_emitsAs (b : Bool) : ∀ (n : Nat) (s : State), s.bitio.wf → s.coder.btf = n →
    EmitsAs s ({ s.coder with btf := 0 }, List.replicate n b) (followBits b n s)
  | 0, s, h, hn => by
    have : ({ s.coder with btf := 0 } : Coder) = s.coder := by rw [← hn]
    rw [this]
    exact Emitted.refl h
  | n + 1, s, h, hn => by
    unfold followBits
    rw [putBit_eq]
    split
    · exact ⟨rfl, by simp [isEncTask], s.coder, [], Emitted.refl h, by simp [tasksBits, taskBits, hn]⟩
    · have e := putDone_emitted b h
      have k := followBits_emitsAs b n
        { putDone b s with coder := { (putDone b s).coder with btf := n } } e.wf rfl
      have hc : ({ ({ (putDone b s).coder with btf := n } : Coder) with btf := 0 } : Coder) =
          { s.coder with btf := 0 } := by rw [e.coder]
      rw [hc] at k
      rw [retryAs_done]
      refine Meets.mono k (fun u hu => ?_) ?_ fun _ _ h => h
      · exact e.trans hu.of_coder
      · rintro u k ts ⟨rfl, hts, c, bits, e', hp⟩
        rw [Prod.ext_iff] at hp
        refine ⟨rfl, hts, c, [b] ++ bits, e.trans e'.of_coder, Prod.ext hp.1 ?_⟩
        simpa [List.replicate_succ] using hp.2

theorem bitPlusFollow_emitsAs (b : Bool) {s : State} (h : s.bitio.wf) :
    EmitsAs s ({ s.coder with btf := 0 }, b :: List.replicate s.coder.btf (!b)) (bitPlusFollow b s) := by
  have k := (putBit_emitsAs b h).andThen (rest := [.follow (!b)])
    (f := fun s => followBits (!b) s.coder.btf s) (by simp [isEncTask]) (by
      intro t e
      have k := followBits_emitsAs (!b) t.coder.btf t e.wf rfl
      rw [e.coder] at k
      simpa [tasksBits, taskBits, e.coder] using k)
  simpa [tasksBits, taskBits, bitPlusFollow] using k

theorem encRenorm_emitsAs : ∀ (n : Nat) (s : State), s.bitio.wf →
    EmitsAs s (s.coder.encTrace n) (encRenorm n s)
  | 0, s, h => Emitted.refl h
  | n + 1, s, h => by
    have step : ∀ (b : Bool) (off : Nat),
        EmitsAs s ((({ s.coder with btf := 0 }.shiftBounds off).encTrace n).1,
            b :: List.replicate s.coder.btf (!b) ++ (({ s.coder with btf := 0 }.shiftBounds off).encTrace n).2)
          ((bitPlusFollow b s).andThen [.encShift off, .encRenorm n] fun s => encRenorm n (encShift off s)) := by
      intro b off
      have k := (bitPlusFollow_emitsAs b h).andThen (rest := [.encShift off, .encRenorm n])
        (f := fun s => encRenorm n (encShift off s)) (by simp [isEncTask]) (by
          intro t e
          have k := encRenorm_emitsAs n (encShift off t) e.wf
          have hp : tasksBits [.encShift off, .encRenorm n] { s.coder with btf := 0 } =
              (encShift off t).coder.encTrace n := by
            simp [tasksBits, taskBits, encShift, e.coder]
          rw [hp]
          exact k.of_coder)
      simpa [tasksBits, taskBits] using k
    unfold encRenorm Coder.encTrace
    cases hp : s.coder.pass with
    | e1 => exact step false 0
    | e2 => exact step true half
    | e3 =>
      refine Meets.guard (fun _ => rfl) fun _ => ?_
      exact (encRenorm_emitsAs n
        { s with coder := { s.coder with btf := s.coder.btf + 1 }.shiftBounds firstQuarter } h).of_coder
    | stop => exact Emitted.refl h

theorem runTask_emitsAs {x : Task} (hx : isEncTask x = true) {s : State} (h : s.bitio.wf) :
    EmitsAs s (taskBits x s.coder) (runTask x s) := by
  cases x with
  | putBit b => exact putBit_emitsAs b h
  | follow b => exact followBits_emitsAs b s.coder.btf s h rfl
  | encShift off =>
    have k := Emitted.refl (s := encShift off s) h
    exact k.of_coder
  | encRenorm n => exact encRenorm_emitsAs n s h
  | _ => simp [isEncTask] at hx

/-- The rest of a held encoder loop makes what was left to make, however often it holds again (R151). -/
theorem runTasks_emitsAs : ∀ (ts : List Task), (∀ x ∈ ts, isEncTask x = true) → ∀ s : State, s.bitio.wf →
    EmitsAs s (tasksBits ts s.coder) (runTasks ts s)
  | [], _, s, h => Emitted.refl h
  | t :: ts, hts, s, h => by
    refine (runTask_emitsAs (hts t (by simp)) h).andThen (fun x hx => hts x (by simp [hx])) fun u e => ?_
    rw [← e.coder]
    exact runTasks_emitsAs ts (fun x hx => hts x (by simp [hx])) u e.wf

/-- A renormalization that completes has made the coder and the bits of its trace. -/
theorem encRenorm_done {n : Nat} {s t : State} (h : s.bitio.wf) (ht : encRenorm n s = .done t) :
    Emitted s (s.coder.encTrace n).1 (s.coder.encTrace n).2 t := by
  have k := encRenorm_emitsAs n s h
  rw [ht] at k
  exact k

end Sys2Proof.Laws
end

