-- ==== Sys2Proof/Laws/Insertions.lean ====
section
/-! SUPPORT. What the insertion of a path does, case by case, and when the store can hold it (R111 to R113, R124). -/

namespace Sys2Proof.Laws

open Sys2Proof.Machine

/-! ### New chains -/

/-- A new chain, when the store can hold it, and CAPACITY when it cannot (R112). -/
theorem newChain_eq : ∀ (rest : List Byte) (b : Byte) (nodes : Nat), nodes ≤ Config.nodeCap →
    newChain b rest nodes =
      if nodes + (rest.length + 1) ≤ Config.nodeCap then .ok (Node.chain b rest, nodes + (rest.length + 1))
      else .error .capacity
  | [], b, nodes, h => by
    by_cases hn : nodes = Config.nodeCap
    · simp [newChain, takeNode, hn, bind, Except.bind]
    · have : nodes + 1 ≤ Config.nodeCap := by omega
      simp [newChain, takeNode, hn, bind, Except.bind, this, Node.new, Node.chain]
  | q :: qs, b, nodes, h => by
    by_cases hn : nodes = Config.nodeCap
    · simp [newChain, takeNode, hn, bind, Except.bind]
    · have ih := newChain_eq qs q (nodes + 1) (by omega)
      have e : nodes + 1 + (qs.length + 1) = nodes + ((q :: qs).length + 1) := by rw [List.length_cons]; omega
      rw [e] at ih
      by_cases hf : nodes + ((q :: qs).length + 1) ≤ Config.nodeCap
      · rw [if_pos hf] at ih ⊢
        simp only [newChain, takeNode, hn, if_false, bind, Except.bind, ih]
        rfl
      · rw [if_neg hf] at ih ⊢
        simp only [newChain, takeNode, hn, if_false, bind, Except.bind, ih]

/-! ### One insertion -/

theorem nodeIncrement_new {n : Node} {b : Byte} (h : n.child b = none) (rest : List Byte) {nodes : Nat}
    (hc : nodes ≤ Config.nodeCap) :
    nodeIncrement (b :: rest) n nodes =
      if nodes + (rest.length + 1) ≤ Config.nodeCap then
        .ok ({ n.withKids (Node.chain b rest :: n.kids) with outcomes := n.outcomes + 1 }, nodes + (rest.length + 1))
      else .error .capacity := by
  by_cases hf : nodes + (rest.length + 1) ≤ Config.nodeCap
  · simp only [nodeIncrement, h, Node.addChild, bind, Except.bind, newChain_eq rest b nodes hc, if_pos hf]
  · simp only [nodeIncrement, h, Node.addChild, bind, Except.bind, newChain_eq rest b nodes hc, if_neg hf]

/-- A bumped child, and the insertion of the rest of the path below it (R111). -/
theorem nodeIncrement_bumped {n c : Node} {b : Byte} (h : n.child b = some c) (rest : List Byte) {nodes : Nat}
    {n' c' : Node} {nodes' : Nat} {others : List Node} (hb : n.bump c nodes = (n', nodes'))
    (hk : n'.kids = c' :: others) :
    nodeIncrement (b :: rest) n nodes =
      (nodeIncrement rest c' nodes').map fun r => (n'.withKids (r.1 :: others), r.2) := by
  simp only [nodeIncrement, h, hb, hk, bind, Except.bind]
  cases nodeIncrement rest c' nodes' <;> rfl

/-- A child below the maximum goes to the front with its count up by 1 (R111). -/
theorem nodeIncrement_bump {n c : Node} {b : Byte} (h : n.child b = some c) (hc : c.count < maxIndividualCount)
    (rest : List Byte) (nodes : Nat) :
    nodeIncrement (b :: rest) n nodes =
      (nodeIncrement rest { c with count := c.count + 1 } nodes).map fun r =>
        (n.withKids (r.1 :: n.kids.eraseP fun d => d.byte == b), r.2) := by
  obtain ⟨-, hb⟩ := child_some h
  have hbump : n.bump c nodes = (n.withKids (bumped n c), nodes) := by
    rw [bump_eq, if_neg (Nat.not_lt.2 hc)]
  rw [nodeIncrement_bumped h rest hbump (kids_withKids _ _), hb]
  rfl

/-- A child at the maximum rescales its parent (R113): it goes on with half its count. -/
theorem nodeIncrement_rescale {n c : Node} {b : Byte} (h : n.child b = some c) (hc : c.count = maxIndividualCount)
    (rest : List Byte) (nodes : Nat) :
    nodeIncrement (b :: rest) n nodes =
      (nodeIncrement rest { c with count := 4096 }
          (nodes - (((n.kids.eraseP fun d => d.byte == b).filter fun d => d.count < 256).map Node.size).sum)).map
        fun r => ({ n.withKids (r.1 :: ((n.kids.eraseP fun d => d.byte == b).filter fun d => 256 ≤ d.count).map
            fun d => { d with count := d.count / 2 }) with outcomes := (n.outcomes + 1) / 2 }, r.2) := by
  obtain ⟨-, hb⟩ := child_some h
  have halve : ∀ d : Node, decide (minCount ≤ d.halved.count) = decide (256 ≤ d.count) := by
    intro d
    show decide (128 ≤ d.count / 2) = decide (256 ≤ d.count)
    rw [decide_eq_decide]
    omega
  have hkeep : ∀ ks : List Node, (ks.map Node.halved).filter (fun d => decide (minCount ≤ d.count)) =
      (ks.filter fun d => 256 ≤ d.count).map fun d => { d with count := d.count / 2 } := by
    intro ks
    induction ks with
    | nil => rfl
    | cons k ks ih =>
      rw [List.map_cons, List.filter_cons, List.filter_cons, halve, ih]
      split <;> rfl
  have hdrop : ∀ ks : List Node, (((ks.map Node.halved).filter fun d => !decide (minCount ≤ d.count)).map Node.size) =
      (ks.filter fun d => d.count < 256).map Node.size := by
    intro ks
    induction ks with
    | nil => rfl
    | cons k ks ih =>
      have e : (!decide (256 ≤ k.count)) = decide (k.count < 256) := by
        rw [← decide_not, decide_eq_decide]
        omega
      rw [List.map_cons, List.filter_cons, List.filter_cons, halve, e]
      split <;> simp [ih, halved_size]
  have hk : bumped n c = { c with count := 8193 } :: n.kids.eraseP fun d => d.byte == b := by
    simp [bumped, hc, hb, maxIndividualCount]
  obtain ⟨n', nodes', e, ek, eo, en, ew⟩ : ∃ n' nodes', n.bump c nodes = (n', nodes') ∧
      n'.kids = { c with count := 4096 } :: ((n.kids.eraseP fun d => d.byte == b).filter fun d => 256 ≤ d.count).map
        (fun d => { d with count := d.count / 2 }) ∧ n'.outcomes = (n.outcomes + 1) / 2 ∧
      nodes' = nodes - (((n.kids.eraseP fun d => d.byte == b).filter fun d => d.count < 256).map Node.size).sum ∧
      ∀ ks, n'.withKids ks = { n.withKids ks with outcomes := (n.outcomes + 1) / 2 } := by
    have hbump : n.bump c nodes = (n.withKids (bumped n c)).rescale nodes := by
      rw [bump_eq, if_pos (by rw [hc]; exact Nat.lt_succ_self _)]
    rw [hbump]
    refine ⟨((n.withKids (bumped n c)).rescale nodes).1, ((n.withKids (bumped n c)).rescale nodes).2, rfl, ?_, rfl, ?_,
      fun _ => rfl⟩
    · rw [rescale_kids, kids_withKids, hk, hkeep]
      simp
    · show nodes - _ = _
      simp only [kids_withKids, hk]
      rw [hdrop]
      simp
  rw [nodeIncrement_bumped h rest e ek, en]
  simp only [ew]

/-! ### When the store can hold it -/

@[simp] theorem missing_count (path : List Byte) (c : Node) (k : Nat) :
    Node.missing path { c with count := k } = c.missing path := by
  cases path <;> rfl

@[simp] theorem noRescale_count (path : List Byte) (c : Node) (k : Nat) :
    Node.noRescale path { c with count := k } ↔ c.noRescale path := by
  cases path <;> rfl

/-- A path whose missing nodes the store can hold is inserted. -/
theorem nodeIncrement_fits : ∀ (path : List Byte) (n : Node) (nodes : Nat),
    nodes + n.missing path ≤ Config.nodeCap → ∃ r, nodeIncrement path n nodes = .ok r
  | [], n, nodes, _ => ⟨_, rfl⟩
  | b :: rest, n, nodes, h => by
    cases hc : n.child b with
    | none =>
      simp only [Node.missing, hc] at h
      rw [nodeIncrement_new hc rest (by omega), if_pos h]
      exact ⟨_, rfl⟩
    | some c =>
      simp only [Node.missing, hc] at h
      obtain ⟨c', others, hk, hm⟩ :
          ∃ c' others, (n.bump c nodes).1.kids = c' :: others ∧ c'.missing rest = c.missing rest := by
        rw [bump_eq]
        split
        · rename_i hmax
          rw [rescale_kids, kids_withKids]
          refine ⟨{ c with count := (c.count + 1) / 2 },
            ((n.kids.eraseP fun d => d.byte == c.byte).map Node.halved).filter fun d => minCount ≤ d.count, ?_,
            missing_count _ _ _⟩
          simp only [bumped, List.map_cons, List.filter_cons]
          rw [if_pos]
          · rfl
          · unfold maxIndividualCount at hmax
            show decide (128 ≤ (c.count + 1) / 2) = true
            rw [decide_eq_true_eq]
            omega
        · exact ⟨{ c with count := c.count + 1 }, _, kids_withKids _ _, missing_count _ _ _⟩
      have hle : (n.bump c nodes).2 ≤ nodes := by
        rw [bump_eq]
        split
        · exact Nat.sub_le _ _
        · exact Nat.le_refl _
      obtain ⟨r, hr⟩ := nodeIncrement_fits rest c' (n.bump c nodes).2 (by omega)
      rw [nodeIncrement_bumped (n' := (n.bump c nodes).1) (nodes' := (n.bump c nodes).2) hc rest rfl hk, hr]
      exact ⟨_, rfl⟩

/-- A path with more missing nodes than the store can hold raises CAPACITY when no rescale frees any. -/
theorem nodeIncrement_full : ∀ (path : List Byte) (n : Node) (nodes : Nat), nodes ≤ Config.nodeCap →
    Config.nodeCap < nodes + n.missing path → n.noRescale path → nodeIncrement path n nodes = .error .capacity
  | [], n, nodes, hn, h, _ => by simp only [Node.missing] at h; omega
  | b :: rest, n, nodes, hn, h, hs => by
    cases hc : n.child b with
    | none =>
      simp only [Node.missing, hc] at h
      rw [nodeIncrement_new hc rest hn, if_neg (by omega)]
    | some c =>
      simp only [Node.missing, hc] at h
      simp only [Node.noRescale, hc] at hs
      rw [nodeIncrement_bump hc hs.1, nodeIncrement_full rest _ nodes hn (by simpa using h) (by simpa using hs.2)]
      rfl

/-! ### ModelIncrement -/

/-- There is always an oldest byte to insert below (R103). -/
theorem bufPush_cons (m : Model) (b : Byte) : ∃ f rest, (m.bufPush b).buf = f :: rest := by
  cases h : (m.bufPush b).buf with
  | cons f rest => exact ⟨f, rest, rfl⟩
  | nil =>
    have h := congrArg List.length h
    dsimp only [Model.bufPush] at h
    split at h
    all_goals simp only [List.length_drop, List.length_append, List.length_singleton, List.length_nil] at *
    all_goals omega

/-- ModelIncrement is the insertion of its path, then the search (R124). -/
theorem increment_eq (m : Model) (b : Byte) :
    ∃ f rest, (m.bufPush b).buf = f :: rest ∧
      m.incrementPath b = (rest, (m.rootOf f).getD (Node.new f)) ∧
      m.increment b = (nodeIncrement rest ((m.rootOf f).getD (Node.new f)) m.nodes).map fun r =>
        Model.recontext { m.bufPush b with root := m.root.set f.toNat (some r.1), nodes := r.2 } := by
  obtain ⟨f, rest, hbuf⟩ := bufPush_cons m b
  refine ⟨f, rest, hbuf, by rw [Model.incrementPath, hbuf], ?_⟩
  unfold Model.increment Model.insertBuffer
  simp only [hbuf]
  have e : nodeIncrement rest (((m.bufPush b).rootOf f).getD (Node.new f)) (m.bufPush b).nodes =
      nodeIncrement rest ((m.rootOf f).getD (Node.new f)) m.nodes := rfl
  rw [e]
  cases nodeIncrement rest ((m.rootOf f).getD (Node.new f)) m.nodes <;> rfl

/-- ModelIncrement completes when the store has the nodes it needs. -/
theorem increment_fits {m : Model} {b : Byte} (h : m.nodes + m.missing b ≤ Config.nodeCap) :
    ∃ m', m.increment b = .ok m' := by
  obtain ⟨f, rest, -, hp, he⟩ := increment_eq m b
  rw [Model.missing, hp] at h
  obtain ⟨r, hr⟩ := nodeIncrement_fits _ _ _ h
  rw [he, hr]
  exact ⟨_, rfl⟩

/-- ModelIncrement raises CAPACITY when the store has not the nodes it needs and no rescale frees any (R112). -/
theorem increment_full {m : Model} {b : Byte} (hn : m.nodes ≤ Config.nodeCap)
    (h : Config.nodeCap < m.nodes + m.missing b) (hs : m.noRescale b) : m.increment b = .error .capacity := by
  obtain ⟨f, rest, -, hp, he⟩ := increment_eq m b
  rw [Model.missing, hp] at h
  rw [Model.noRescale, hp] at hs
  rw [he, nodeIncrement_full _ _ _ hn h hs]
  rfl

/-- The update of the backoff table does not enter into an insertion. -/
theorem incrementPath_congr {m m' : Model} (hb : m'.buf = m.buf) (hr : m'.root = m.root) (ho : m'.order = m.order)
    (b : Byte) : m'.incrementPath b = m.incrementPath b := by
  unfold Model.incrementPath Model.bufPush
  rw [hb, ho]
  simp only [rootOf_congr hr]

theorem missing_congr {m m' : Model} (hb : m'.buf = m.buf) (hr : m'.root = m.root) (ho : m'.order = m.order)
    (b : Byte) : m'.missing b = m.missing b := by
  unfold Model.missing
  rw [incrementPath_congr hb hr ho]

end Sys2Proof.Laws
end

