-- ==== Sys2Proof/Laws/Operands.lean ====
section
/-! SUPPORT. Operands and results: reading back a written number or symbol (R62, R64). -/

namespace Sys2Proof.Laws

open Sys2Proof.Machine

@[simp] theorem natWord_toNat (n : Nat) : (natWord n).toNat = n % 2 ^ 32 := by simp [natWord]

theorem s32_natWord {n : Nat} (h : n < 2 ^ 31) : s32 (natWord n) = n := by
  simp only [s32, natWord, BitVec.toInt_eq_toNat_cond, BitVec.toNat_ofNat]
  split <;> omega

theorem s32_range (w : Word) : -2147483648 ≤ s32 w ∧ s32 w < 2147483648 := by
  have h := w.isLt
  simp only [s32, BitVec.toInt_eq_toNat_cond]
  split <;> omega

theorem s32_inj {v w : Word} (h : s32 v = s32 w) : v = w := BitVec.eq_of_toInt_eq h

theorem s32_byte (b : Byte) : s32 (symWord (.byte b)) = b.toNat := by
  have h := b.isLt
  simp only [symWord, s32, BitVec.toInt_eq_toNat_cond, BitVec.toNat_setWidth]
  split <;> omega

theorem s32_eof : s32 (symWord .eof) = -1 := by decide

theorem s32_escape : s32 (symWord .escape) = -2 := by decide

/-- Every symbol is read back from its result form. -/
@[simp] theorem symOperand_symWord (sym : Sym) : symOperand (symWord sym) = some sym := by
  cases sym with
  | byte b =>
    have h := b.isLt
    have hb : BitVec.ofInt 8 (b.toNat : Int) = b := by
      apply BitVec.eq_of_toNat_eq
      simp
    simp only [symOperand, symOfInt, s32_byte, hb]
    rw [if_pos (by omega)]
  | eof => decide
  | escape => decide

/-- A register holds a symbol exactly when it holds the symbol's one result form: no operand is reduced (R62, R64). -/
theorem symOperand_eq_some {w : Word} {sym : Sym} : symOperand w = some sym ↔ w = symWord sym := by
  constructor
  · intro h
    apply s32_inj
    simp only [symOperand, symOfInt] at h
    split at h
    · rename_i hv
      obtain rfl := Option.some.inj h
      rw [s32_byte]
      have : (s32 w).toNat < 256 := by omega
      simp only [BitVec.toNat_ofInt]
      omega
    · split at h
      · obtain rfl := Option.some.inj h
        rw [s32_eof]; assumption
      · split at h
        · obtain rfl := Option.some.inj h
          rw [s32_escape]; assumption
        · cases h
  · rintro rfl
    exact symOperand_symWord sym

theorem symOperand_eq_none {w : Word} : symOperand w = none ↔ ∀ sym, w ≠ symWord sym := by
  constructor
  · rintro h sym rfl
    simp at h
  · intro h
    cases hs : symOperand w with
    | none => rfl
    | some sym => exact absurd (symOperand_eq_some.1 hs) (h sym)

@[simp] theorem byteOperand_byte (b : Byte) : byteOperand (symWord (.byte b)) = some b := by
  simp [byteOperand]

theorem byteOperand_eq_none {w : Word} : byteOperand w = none ↔ ∀ b, w ≠ symWord (.byte b) := by
  unfold byteOperand
  constructor
  · rintro h b rfl
    simp at h
  · intro h
    split
    · rename_i b hb
      exact absurd (symOperand_eq_some.1 hb) (h b)
    · rfl

/-- The operand of ENC_SYMBOL and PPM_ESCAPED: any symbol but ESCAPE (R131, R139). -/
theorem byteOrEofOperand_symWord {sym : Sym} (h : sym ≠ .escape) :
    byteOrEofOperand (symWord sym) = some sym := by
  cases sym <;> simp_all [byteOrEofOperand]

theorem byteOrEofOperand_eq_none {w : Word} :
    byteOrEofOperand w = none ↔ ∀ sym, sym ≠ .escape → w ≠ symWord sym := by
  unfold byteOrEofOperand
  constructor
  · rintro h sym hs rfl
    cases sym <;> simp_all
  · intro h
    split
    · rename_i b hb
      exact absurd (symOperand_eq_some.1 hb) (h _ (by simp))
    · rename_i hb
      exact absurd (symOperand_eq_some.1 hb) (h _ (by simp))
    · rfl

theorem byteOrEofOperand_ne_escape {w : Word} {sym : Sym} (h : byteOrEofOperand w = some sym) :
    sym ≠ .escape := by
  unfold byteOrEofOperand at h
  split at h <;> first | (obtain rfl := Option.some.inj h; simp) | cases h

end Sys2Proof.Laws
end

