-- ==== Sys2Proof/Laws/PerInstr.lean ====
section
/-! SUPPORT. One statement about the encoding of a command, and its lemma for each of the sixteen (R60, R66). -/

namespace Sys2Proof.Laws.DecodeEncode

open Sys2Proof

/-- The word of a well-formed command decodes to it, and has the fields of format `CMD32` (R60): MBZ zero, and the
opcode of R66 in bits [7:0]. -/
def Statement (i : Instr) : Prop :=
  i.wf = true ∧ decode (encode i) = .ok i ∧ mbzClear (encode i) = true ∧ opField (encode i) = opcode i

theorem nop : Statement .nop := by unfold Statement; decide

theorem softReset : Statement .softReset := by unfold Statement; decide

theorem encStart : Statement .encStart := by unfold Statement; decide

theorem encInterval : Statement .encInterval := by unfold Statement; decide

theorem encClose : Statement .encClose := by unfold Statement; decide

theorem encSymbol : Statement .encSymbol := by unfold Statement; decide

theorem decStart : Statement .decStart := by unfold Statement; decide

theorem decCount : Statement .decCount := by unfold Statement; decide

theorem decRemove : Statement .decRemove := by unfold Statement; decide

theorem decSymbol : Statement .decSymbol := by unfold Statement; decide

theorem ppmTotal : Statement .ppmTotal := by unfold Statement; decide

theorem ppmPoint : Statement .ppmPoint := by unfold Statement; decide

theorem ppmInterval : Statement .ppmInterval := by unfold Statement; decide

theorem ppmEscaped : Statement .ppmEscaped := by unfold Statement; decide

theorem ppmExclude : Statement .ppmExclude := by unfold Statement; decide

theorem ppmIncrement : Statement .ppmIncrement := by unfold Statement; decide

end Sys2Proof.Laws.DecodeEncode
end

