-- ==== Sys2Proof/Laws/Plans.lean ====
section
/-! SUPPORT. What the tasks of a command make of the stream when nothing holds them, and that holds change nothing of
it: the bits that have gone out with those still to go, and the bits that have been read with those still to be pushed
(R77, R80, R151, P7). -/

namespace Sys2Proof.Laws

open Sys2Proof.Machine

/-! ### The stream as a task sees it -/

/-- What tasks act on: the output stream from the first bit ever taken, the input stream to the last bit ever pushed. -/
structure View where
  model : Model
  coder : Coder
  res0 : Word
  res1 : Word
  closed : Bool
  out : List Bool
  inp : List Bool

/-- The view of a state when the host has taken the bits `x` and will still push the bits `y`. -/
def viewOf (x y : List Bool) (s : State) : View :=
  ⟨s.model, s.coder, s.res0, s.res1, s.closed, x ++ s.outBits, s.inBits ++ y⟩

@[simp] theorem viewOf_coder (x y : List Bool) (s : State) : (viewOf x y s).coder = s.coder := rfl

@[simp] theorem viewOf_model (x y : List Bool) (s : State) : (viewOf x y s).model = s.model := rfl

def View.emit (v : View) (bits : List Bool) : View := { v with out := v.out ++ bits }

/-- `EncRenorm` with at most `n` passes; none when the bit counter overflows (R88). -/
def View.encRenorm : Nat → View → Option View
  | 0, v => some v
  | n + 1, v =>
    match v.coder.pass with
    | .e1 =>
      View.encRenorm n { v.emit (false :: List.replicate v.coder.btf true) with
        coder := { v.coder with btf := 0 }.shiftBounds 0 }
    | .e2 =>
      View.encRenorm n { v.emit (true :: List.replicate v.coder.btf false) with
        coder := { v.coder with btf := 0 }.shiftBounds half }
    | .e3 =>
      if v.coder.btf == maxBtf then none
      else View.encRenorm n { v with coder := { v.coder with btf := v.coder.btf + 1 }.shiftBounds firstQuarter }
    | .stop => some v

/-- One coded interval (R92). -/
def View.encodeInterval (iv : Interval) (v : View) : Option View :=
  if iv.ok then View.encRenorm renormPasses { v with coder := v.coder.narrow iv } else none

/-- One coded symbol (R139). -/
def View.encodeSym (sym : Sym) (v : View) : Option View :=
  match v.model.codeSymbol sym with
  | .error _ => none
  | .ok r => View.encodeInterval r.1 { v with model := r.2 }

/-- The loop of ENC_SYMBOL (R139). -/
def View.encLoop : Nat → Sym → Nat → View → Option View
  | 0, sym, n, v => (v.encodeSym sym).map fun v => { v with res0 := natWord n }
  | more + 1, sym, n, v =>
    if v.model.escaped sym then (v.encodeSym .escape).bind (View.encLoop more sym (n + 1))
    else (v.encodeSym sym).map fun v => { v with res0 := natWord n }

/-- `n` code bits (R81). -/
def View.readBits (n : Nat) (v : View) : View :=
  { v with coder := (readMany n v.coder v.inp).1, inp := (readMany n v.coder v.inp).2 }

/-- `DecRenorm` with at most `n` passes (R89). -/
def View.decRenorm (n : Nat) (v : View) : View :=
  { v with coder := (v.coder.decTrace n v.inp).1, inp := (v.coder.decTrace n v.inp).2 }

/-- The end of a pass of DEC_SYMBOL's loop (R140). -/
def View.decNext (again : View → Option View) (sym : Sym) (n : Nat) (v : View) : Option View :=
  if sym = .escape then again v else some { v with res0 := symWord sym, res1 := natWord n }

/-- One decoded symbol up to its renormalization (R140). -/
def decoded (m : Model) (c : Coder) : Except FaultCode (Sym × Model × Coder) := do
  let sym ← m.point (c.count m.total)
  let (iv, m) ← m.codeSymbol sym
  if iv.ok then
    let c ← c.remove iv
    .ok (sym, m, c)
  else .error .interval

/-- One decoded symbol and its renormalization (R140). -/
def View.decodeSym (v : View) : Option (Sym × View) :=
  match decoded v.model v.coder with
  | .error _ => none
  | .ok (sym, m, c) => some (sym, View.decRenorm renormPasses { v with model := m, coder := c })

/-- The loop of DEC_SYMBOL (R140). -/
def View.decLoop : Nat → Nat → View → Option View
  | 0, n, v => v.decodeSym.bind fun r => r.2.decNext some r.1 n
  | more + 1, n, v => v.decodeSym.bind fun r => r.2.decNext (View.decLoop more (n + 1)) r.1 n

def View.decAgain : Nat → Nat → View → Option View
  | 0, _, v => some v
  | more + 1, n, v => View.decLoop more (n + 1) v

/-- What one task makes of the stream. -/
def View.task : Task → View → Option View
  | .putBit b, v => some (v.emit [b])
  | .follow b, v => some { v.emit (List.replicate v.coder.btf b) with coder := { v.coder with btf := 0 } }
  | .encShift off, v => some { v with coder := v.coder.shiftBounds off }
  | .encRenorm n, v => v.encRenorm n
  | .packerClose, v => some (v.emit (List.replicate ((8 - v.out.length % 8) % 8) false))
  | .markClosed, v => some { v with closed := true }
  | .encLoop more sym n, v => v.encLoop more sym n
  | .encEnd n, v => some { v with res0 := natWord n }
  | .readBits n, v => some (v.readBits n)
  | .decRenorm n, v => some (v.decRenorm n)
  | .decNext more sym n, v => v.decNext (View.decAgain more n) sym n

/-- What a list of tasks makes of the stream; none when they end in a fault. -/
def View.tasks : List Task → View → Option View
  | [], v => some v
  | t :: ts, v => (v.task t).bind (View.tasks ts)

theorem tasks_append (ts us : List Task) (v : View) : v.tasks (ts ++ us) = (v.tasks ts).bind (View.tasks us) := by
  induction ts generalizing v with
  | nil => rfl
  | cons t ts ih =>
    simp only [List.cons_append, View.tasks]
    cases v.task t with
    | none => rfl
    | some w => exact ih w

@[simp] theorem tasks_one (t : Task) (v : View) : v.tasks [t] = v.task t := by
  simp [View.tasks]

/-! ### Runs that follow it -/

/-- The mode in which a command leaves this task. -/
def taskMode : Task → Mode
  | .readBits _ | .decRenorm _ | .decNext _ _ _ => .dec
  | .putBit _ | .follow _ | .encShift _ | .encRenorm _ | .packerClose | .markClosed | .encLoop _ _ _ | .encEnd _ => .enc

/-- What a piece of an encoder or decoder command leaves alone; the packer stays in range. -/
structure Apart (md : Mode) (s t : State) : Prop where
  eq : t = { s with res0 := t.res0, res1 := t.res1, closed := t.closed, coder := t.coder, bitio := t.bitio,
                    inq := t.inq, outq := t.outq, model := t.model }
  wf : md = .enc → t.bitio.wf
  enc : md = .enc → t.inq = s.inq ∧ t.bitio.ibyte = s.bitio.ibyte ∧ t.bitio.icnt = s.bitio.icnt
  dec : md = .dec → t.outq = s.outq ∧ t.bitio.oacc = s.bitio.oacc ∧ t.bitio.ocnt = s.bitio.ocnt

theorem Apart.trans {md : Mode} {s t u : State} (h : Apart md s t) (k : Apart md t u) : Apart md s u where
  eq := by rw [k.eq, h.eq]
  wf := k.wf
  enc hm := ⟨(k.enc hm).1.trans (h.enc hm).1, (k.enc hm).2.1.trans (h.enc hm).2.1, (k.enc hm).2.2.trans (h.enc hm).2.2⟩
  dec hm := ⟨(k.dec hm).1.trans (h.dec hm).1, (k.dec hm).2.1.trans (h.dec hm).2.1, (k.dec hm).2.2.trans (h.dec hm).2.2⟩

/-- What every piece starts from: the packer in range in an encoder command, whole bytes taken, nothing left to push
after the end of the input. -/
structure Fit (md : Mode) (x y : List Bool) (s : State) : Prop where
  wf : md = .enc → s.bitio.wf
  bytes : x.length % 8 = 0
  ended : s.inend = true → y = []

theorem Apart.refl {md : Mode} {x y : List Bool} {s : State} (h : Fit md x y s) : Apart md s s :=
  ⟨rfl, h.wf, fun _ => ⟨rfl, rfl, rfl⟩, fun _ => ⟨rfl, rfl, rfl⟩⟩

theorem Apart.fit {md : Mode} {x y : List Bool} {s t : State} (h : Apart md s t) (k : Fit md x y s) : Fit md x y t :=
  ⟨h.wf, k.bytes, by rw [h.eq]; exact k.ended⟩

/-- The run comes to `o`: completed it has the view `o`, held its tasks come to `o`, and it faults when `o` is none. -/
def ComesTo (md : Mode) (x y : List Bool) (s : State) (o : Option View) (r : Run) : Prop :=
  Meets r (fun t => Apart md s t ∧ o = some (viewOf x y t))
    (fun t _ ts => Apart md s t ∧ (∀ z ∈ ts, taskMode z = md) ∧ (viewOf x y t).tasks ts = o) fun _ _ => o = none

variable {md : Mode} {x y : List Bool} {s t : State} {o : Option View}

theorem ComesTo.of_apart {r : Run} (h : Apart md s t) (k : ComesTo md x y t o r) : ComesTo md x y s o r :=
  Meets.mono k (fun _ hu => ⟨h.trans hu.1, hu.2⟩) (fun _ _ _ hu => ⟨h.trans hu.1, hu.2⟩) fun _ _ h => h

theorem ComesTo.done (h : Fit md x y s) : ComesTo md x y s (some (viewOf x y s)) (.done s) := ⟨Apart.refl h, rfl⟩

/-- Two pieces in sequence. -/
theorem ComesTo.andThen {r : Run} {rest : List Task} {f : State → Run} (h : ComesTo md x y s o r)
    (hr : ∀ z ∈ rest, taskMode z = md)
    (hf : ∀ t, Apart md s t → o = some (viewOf x y t) → ComesTo md x y t ((viewOf x y t).tasks rest) (f t)) :
    ComesTo md x y s (o.bind (View.tasks rest)) (r.andThen rest f) := by
  cases r with
  | done t =>
    obtain ⟨ha, rfl⟩ := h
    exact (hf t ha rfl).of_apart ha
  | held t k ts =>
    obtain ⟨ha, hts, rfl⟩ := h
    refine ⟨ha, fun z hz => ?_, tasks_append _ _ _⟩
    rcases List.mem_append.1 hz with hz | hz
    · exact hts z hz
    · exact hr z hz
  | raised t c =>
    obtain rfl := h
    exact rfl

/-! ### Encoder pieces -/

theorem Emitted.apart {c : Coder} {bits : List Bool} (h : Emitted s c bits t) : Apart .enc s t :=
  ⟨by conv_lhs => rw [h.eq]
      conv_rhs => rw [h.eq],
    fun _ => h.wf, fun _ => ⟨by rw [h.eq], h.ibyte, h.icnt⟩, fun hm => by cases hm⟩

theorem Emitted.view {c : Coder} {bits : List Bool} (h : Emitted s c bits t) :
    viewOf x y t = { (viewOf x y s).emit bits with coder := c } := by
  have hi : t.inBits = s.inBits := by
    unfold State.inBits
    rw [h.ibyte, h.icnt]
    rw [h.eq]
  unfold viewOf View.emit
  rw [hi, h.outBits, h.coder]
  rw [h.eq]
  simp only [List.append_assoc]

theorem putBit_comes (b : Bool) (h : Fit .enc x y s) :
    ComesTo .enc x y s (some ((viewOf x y s).emit [b])) (putBit b s) := by
  rw [putBit_eq]
  split
  · exact ⟨Apart.refl h, by simp [taskMode], tasks_one _ _⟩
  · have e := putDone_emitted b (h.wf rfl)
    exact ⟨e.apart, by rw [e.view]; rfl⟩

theorem followBits_comes (b : Bool) : ∀ (n : Nat) (s : State), Fit .enc x y s → s.coder.btf = n →
    ComesTo .enc x y s (View.task (.follow b) (viewOf x y s)) (followBits b n s)
  | 0, s, h, hn => by
    have hc : ({ s.coder with btf := 0 } : Coder) = s.coder := by rw [← hn]
    refine ⟨Apart.refl h, ?_⟩
    simp [View.task, viewOf, View.emit, hn, hc]
  | n + 1, s, h, hn => by
    unfold followBits
    rw [putBit_eq]
    split
    · exact ⟨Apart.refl h, by simp [taskMode], tasks_one _ _⟩
    · have e := (putDone_emitted b (h.wf rfl)).with_coder { (putDone b s).coder with btf := n }
      rw [retryAs_done]
      have k := (followBits_comes b n _ (e.apart.fit h) rfl).of_apart e.apart
      rw [e.view] at k
      simpa [View.task, View.emit, viewOf, hn, List.replicate_succ, (putDone_emitted b (h.wf rfl)).coder] using k

theorem bitPlusFollow_comes (b : Bool) (h : Fit .enc x y s) :
    ComesTo .enc x y s (some { (viewOf x y s).emit (b :: List.replicate s.coder.btf (!b)) with
      coder := { s.coder with btf := 0 } }) (bitPlusFollow b s) := by
  have k := (putBit_comes b h).andThen (rest := [.follow (!b)]) (f := fun s => followBits (!b) s.coder.btf s)
    (by simp [taskMode]) fun t ha _ => by
      rw [tasks_one]
      exact followBits_comes (!b) _ t (ha.fit h) rfl
  simpa [View.tasks, View.task, View.emit, viewOf, bitPlusFollow] using k

theorem coder_apart (c : Coder) (h : Fit md x y s) : Apart md s { s with coder := c } :=
  ⟨rfl, h.wf, fun _ => ⟨rfl, rfl, rfl⟩, fun _ => ⟨rfl, rfl, rfl⟩⟩

theorem encRenorm_comes : ∀ (n : Nat) (s : State), Fit .enc x y s →
    ComesTo .enc x y s ((viewOf x y s).encRenorm n) (encRenorm n s)
  | 0, _, h => .done h
  | n + 1, s, h => by
    have afterCoder : ∀ (u : State) (c : Coder), Fit .enc x y u →
        ComesTo .enc x y u (View.encRenorm n { viewOf x y u with coder := c }) (encRenorm n { u with coder := c }) :=
      fun u c hu => (encRenorm_comes n { u with coder := c } ((coder_apart c hu).fit hu)).of_apart (coder_apart c hu)
    have step : ∀ (b : Bool) (off : Nat), ComesTo .enc x y s
        (View.encRenorm n { (viewOf x y s).emit (b :: List.replicate s.coder.btf (!b)) with
          coder := { s.coder with btf := 0 }.shiftBounds off })
        ((bitPlusFollow b s).andThen [.encShift off, .encRenorm n] fun s => encRenorm n (encShift off s)) := by
      intro b off
      have k := (bitPlusFollow_comes b h).andThen (rest := [.encShift off, .encRenorm n])
        (f := fun s => encRenorm n (encShift off s)) (by simp [taskMode]) fun t ha _ => by
          have k := afterCoder t (t.coder.shiftBounds off) (ha.fit h)
          simpa [View.tasks, View.task, encShift] using k
      simpa [View.tasks, View.task] using k
    unfold encRenorm View.encRenorm
    rw [viewOf_coder]
    cases hp : s.coder.pass with
    | e1 => exact step false 0
    | e2 => exact step true half
    | e3 =>
      generalize firstQuarter = off
      cases s.coder.btf == maxBtf with
      | true => exact rfl
      | false => exact afterCoder s _ h
    | stop => exact .done h

/-- PackerClose pads to a whole byte and pushes it, or holds while the FIFO is full (R78). -/
theorem packerClose_cases {s : State} (h : s.bitio.wf) :
    (∃ t, packerClose s = .done t ∧ Emitted s s.coder (List.replicate ((8 - s.bitio.ocnt) % 8) false) t) ∨
      packerClose s = .held s .output [.packerClose] := by
  unfold packerClose
  by_cases h0 : 0 < s.bitio.ocnt
  · rw [if_pos h0]
    cases hf : s.outFull with
    | true => exact .inr rfl
    | false =>
      have hq : ¬ Config.outDepth ≤ s.outq.length := by simpa [State.outFull] using hf
      have h7 := h.1
      obtain ⟨t, ht, e, -⟩ := packerClose_emits h (by unfold State.roomFor; omega)
      rw [packerClose, if_pos h0, hf] at ht
      exact .inl ⟨t, ht, e⟩
  · rw [if_neg h0]
    have h8 : (8 - s.bitio.ocnt) % 8 = 0 := by omega
    rw [h8]
    exact .inl ⟨s, rfl, Emitted.refl h⟩

theorem packerClose_comes (h : Fit .enc x y s) :
    ComesTo .enc x y s (View.task .packerClose (viewOf x y s)) (packerClose s) := by
  have hl : (8 - (viewOf x y s).out.length % 8) % 8 = (8 - s.bitio.ocnt) % 8 := by
    have hx := h.bytes
    have h7 := (h.wf rfl).1
    show (8 - (x ++ s.outBits).length % 8) % 8 = _
    simp only [State.outBits, List.length_append, bytesBits_length, lowBits_length]
    omega
  rcases packerClose_cases (h.wf rfl) with ⟨t, ht, e⟩ | hr
  · rw [ht]
    refine ⟨e.apart, ?_⟩
    rw [e.view, View.task, hl]
    rfl
  · rw [hr]
    exact ⟨Apart.refl h, by simp [taskMode], tasks_one _ _⟩

theorem encodeInterval_comes (iv : Interval) (h : Fit .enc x y s) :
    ComesTo .enc x y s ((viewOf x y s).encodeInterval iv) (encodeInterval iv s) := by
  unfold encodeInterval View.encodeInterval
  rw [viewOf_coder]
  generalize renormPasses = n
  generalize s.coder.narrow iv = c
  cases iv.ok with
  | false =>
    simp only [Bool.not_false, guard_true]
    exact rfl
  | true =>
    simp only [Bool.not_true, guard_false, if_true]
    exact (encRenorm_comes n _ ((coder_apart c h).fit h)).of_apart (coder_apart c h)

theorem model_apart (m : Model) (h : Fit md x y s) : Apart md s { s with model := m } :=
  ⟨rfl, h.wf, fun _ => ⟨rfl, rfl, rfl⟩, fun _ => ⟨rfl, rfl, rfl⟩⟩

theorem encodeSym_comes (sym : Sym) (h : Fit .enc x y s) :
    ComesTo .enc x y s ((viewOf x y s).encodeSym sym) (encodeSym sym s) := by
  unfold encodeSym View.encodeSym
  have hm : (viewOf x y s).model = s.model := rfl
  rw [hm]
  cases s.model.codeSymbol sym with
  | error c => rfl
  | ok r =>
    have e := model_apart r.2 h
    exact (encodeInterval_comes r.1 (e.fit h)).of_apart e

theorem encFinal_comes (sym : Sym) (n : Nat) (h : Fit .enc x y s) :
    ComesTo .enc x y s (((viewOf x y s).encodeSym sym).map fun v => { v with res0 := natWord n })
      (encFinal sym n s) := by
  have k := (encodeSym_comes sym h).andThen (rest := [.encEnd n]) (f := fun s => .done (s.setRes0 (natWord n)))
    (by simp [taskMode]) fun t ha _ => by
      have e : Apart .enc t (t.setRes0 (natWord n)) := ⟨rfl, ha.wf, fun _ => ⟨rfl, rfl, rfl⟩, fun _ => ⟨rfl, rfl, rfl⟩⟩
      rw [tasks_one]
      exact (ComesTo.done (e.fit (ha.fit h))).of_apart e
  cases ho : (viewOf x y s).encodeSym sym <;> rw [ho] at k <;> simpa [View.tasks, View.task, encFinal] using k

theorem encLoop_comes : ∀ (more : Nat) (sym : Sym) (n : Nat) (s : State), Fit .enc x y s →
    ComesTo .enc x y s ((viewOf x y s).encLoop more sym n) (encLoop more sym n s)
  | 0, sym, n, _, h => encFinal_comes sym n h
  | more + 1, sym, n, s, h => by
    unfold encLoop View.encLoop
    have hm : (viewOf x y s).model = s.model := rfl
    rw [hm]
    split
    · have k := (encodeSym_comes .escape h).andThen (rest := [.encLoop more sym (n + 1)])
        (f := encLoop more sym (n + 1)) (by simp [taskMode]) fun t ha _ => by
          rw [tasks_one]
          exact encLoop_comes more sym (n + 1) t (ha.fit h)
      cases ho : (viewOf x y s).encodeSym .escape <;> rw [ho] at k <;> simpa [View.tasks, View.task] using k
    · exact encFinal_comes sym n h

/-! ### Decoder pieces -/

theorem Consumed.apart {c : Coder} {bits : List Bool} (h : Consumed s c bits t) : Apart .dec s t :=
  ⟨by conv_lhs => rw [h.eq]
      conv_rhs => rw [h.eq],
    fun hm => (by cases hm), fun hm => (by cases hm), fun _ => ⟨by rw [h.eq], h.oacc, h.ocnt⟩⟩

theorem Consumed.view {c : Coder} {bits : List Bool} (h : Consumed s c bits t) :
    viewOf x y t = { viewOf x y s with coder := c, inp := bits ++ y } := by
  have ho : t.outBits = s.outBits := by
    unfold State.outBits
    rw [h.oacc, h.ocnt]
    rw [h.eq]
  unfold viewOf
  rw [ho, h.inBits, h.coder]
  rw [h.eq]

theorem readCodeBit_comes (h : Fit .dec x y s) :
    ComesTo .dec x y s (some ((viewOf x y s).readBits 1)) (readCodeBit s) := by
  rcases readCodeBit_cases s with ⟨t, ht, k⟩ | ⟨k, -⟩
  · have hb : s.coder.readBit (s.inBits ++ y) = ((s.coder.readBit s.inBits).1, (s.coder.readBit s.inBits).2 ++ y) := by
      cases hi : s.inBits with
      | cons b rest => rfl
      | nil =>
        cases he : s.inend with
        | true =>
          rw [h.ended he]
          rfl
        | false =>
          rw [readCodeBit_wait hi he] at ht
          cases ht
    rw [ht]
    refine ⟨k.apart, ?_⟩
    rw [k.view]
    show some { viewOf x y s with coder := (s.coder.readBit (s.inBits ++ y)).1
                                  inp := (s.coder.readBit (s.inBits ++ y)).2 } = _
    rw [hb]
  · rw [k]
    exact ⟨Apart.refl h, by simp [taskMode], tasks_one _ _⟩

theorem readBits_comes : ∀ (n : Nat) (s : State), Fit .dec x y s →
    ComesTo .dec x y s (some ((viewOf x y s).readBits n)) (readBits n s)
  | 0, _, h => .done h
  | n + 1, s, h =>
    (readCodeBit_comes h).andThen (rest := [.readBits n]) (f := readBits n) (by simp [taskMode]) fun t ha _ => by
      rw [tasks_one]
      exact readBits_comes n t (ha.fit h)

theorem decRenorm_comes : ∀ (n : Nat) (s : State), Fit .dec x y s →
    ComesTo .dec x y s (some ((viewOf x y s).decRenorm n)) (decRenorm n s)
  | 0, _, h => .done h
  | n + 1, s, h => by
    unfold decRenorm
    by_cases hp : s.coder.pass = .stop
    · have hv : (viewOf x y s).decRenorm (n + 1) = viewOf x y s := by
        simp only [View.decRenorm, viewOf_coder, Coder.decTrace, hp, if_true]
        rfl
      rw [if_pos hp, hv]
      exact .done h
    · have hv : (viewOf x y s).decRenorm (n + 1) =
          ({ viewOf x y s with coder := s.coder.decShift s.coder.pass.offset }.readBits 1).decRenorm n := by
        simp [View.decRenorm, Coder.decTrace, hp, View.readBits, readMany]
      rw [if_neg hp, hv]
      generalize s.coder.decShift s.coder.pass.offset = c
      have e := coder_apart c h
      exact ((readCodeBit_comes (e.fit h)).andThen (rest := [.decRenorm n]) (f := decRenorm n) (by simp [taskMode])
        fun t ha _ => by
          rw [tasks_one]
          exact decRenorm_comes n t (ha.fit (e.fit h))).of_apart e

theorem decodeSym_eq (s : State) :
    decodeSym s = (decoded s.model s.coder).map fun r => (r.1, { s with model := r.2.1, coder := r.2.2 }) := by
  unfold decodeSym decoded
  simp only [bind, Except.bind]
  split
  · rfl
  · split
    · rfl
    · split
      · split <;> rfl
      · rfl

theorem decNext_comes {again : State → Run} {again' : View → Option View} (sym : Sym) (n : Nat)
    (ha : ∀ t, Fit .dec x y t → ComesTo .dec x y t (again' (viewOf x y t)) (again t)) (h : Fit .dec x y s) :
    ComesTo .dec x y s ((viewOf x y s).decNext again' sym n) (decNext again sym n s) := by
  unfold decNext View.decNext
  split
  · exact ha s h
  · have e : Apart .dec s (s.setRes01 (symWord sym) (natWord n)) :=
      ⟨rfl, h.wf, fun _ => ⟨rfl, rfl, rfl⟩, fun _ => ⟨rfl, rfl, rfl⟩⟩
    exact (ComesTo.done (e.fit h)).of_apart e

/-- One pass of DEC_SYMBOL's loop, with what follows it. -/
theorem decodeSym_comes {again : Sym → State → Run} {again' : Sym → View → Option View} {rest : Sym → List Task}
    (hr : ∀ sym, ∀ z ∈ rest sym, taskMode z = .dec) (ht : ∀ sym v, View.tasks (rest sym) v = again' sym v)
    (ha : ∀ sym t, Fit .dec x y t → ComesTo .dec x y t (again' sym (viewOf x y t)) (again sym t))
    (h : Fit .dec x y s) :
    ComesTo .dec x y s ((viewOf x y s).decodeSym.bind fun r => again' r.1 r.2)
      (Run.ofExcept s (decodeSym s) fun r => (decRenorm renormPasses r.2).andThen (rest r.1) (again r.1)) := by
  generalize hp : renormPasses = p
  rw [decodeSym_eq]
  unfold View.decodeSym
  rw [viewOf_model, viewOf_coder, hp]
  cases decoded s.model s.coder with
  | error c => rfl
  | ok r =>
    have e : Apart .dec s { s with model := r.2.1, coder := r.2.2 } :=
      ⟨rfl, h.wf, fun _ => ⟨rfl, rfl, rfl⟩, fun _ => ⟨rfl, rfl, rfl⟩⟩
    have k := ((decRenorm_comes p _ (e.fit h)).andThen (rest := rest r.1) (f := again r.1) (hr r.1)
      fun t hat _ => by
        rw [ht]
        exact ha r.1 t (hat.fit (e.fit h))).of_apart e
    rw [Option.bind_some, ht] at k
    exact k

theorem decLoop_comes : ∀ (more n : Nat) (s : State), Fit .dec x y s →
    ComesTo .dec x y s ((viewOf x y s).decLoop more n) (decLoop more n s)
  | 0, n, s, h =>
    decodeSym_comes (again := fun sym => decNext .done sym n) (again' := fun sym v => v.decNext some sym n)
      (rest := fun sym => [.decNext 0 sym n]) (by simp [taskMode]) (fun sym v => tasks_one _ _)
      (fun sym t ht => decNext_comes sym n (fun _ hu => .done hu) ht) h
  | more + 1, n, s, h =>
    decodeSym_comes (again := fun sym => decNext (decLoop more (n + 1)) sym n)
      (again' := fun sym v => v.decNext (View.decLoop more (n + 1)) sym n)
      (rest := fun sym => [.decNext (more + 1) sym n]) (by simp [taskMode]) (fun sym v => tasks_one _ _)
      (fun sym t ht => decNext_comes sym n (fun u hu => decLoop_comes more (n + 1) u hu) ht) h

theorem decAgain_comes (more n : Nat) (h : Fit .dec x y s) :
    ComesTo .dec x y s ((viewOf x y s).decAgain more n) (decAgain more n s) := by
  cases more with
  | zero => exact .done h
  | succ more => exact decLoop_comes more (n + 1) s h

/-! ### Held commands -/

theorem runTask_comes (z : Task) (h : Fit (taskMode z) x y s) :
    ComesTo (taskMode z) x y s ((viewOf x y s).task z) (runTask z s) := by
  have plain : ∀ {md : Mode} {t : State}, Fit md x y s → Apart md s t →
      ComesTo md x y s (some (viewOf x y t)) (.done t) :=
    fun h e => (ComesTo.done (e.fit h)).of_apart e
  cases z with
  | putBit b => exact putBit_comes b h
  | follow b => exact followBits_comes b _ s h rfl
  | encShift off => exact plain h (coder_apart (s.coder.shiftBounds off) h)
  | encRenorm n => exact encRenorm_comes n s h
  | packerClose => exact packerClose_comes h
  | markClosed => exact plain h ⟨rfl, h.wf, fun _ => ⟨rfl, rfl, rfl⟩, fun _ => ⟨rfl, rfl, rfl⟩⟩
  | encLoop more sym n => exact encLoop_comes more sym n s h
  | encEnd n => exact plain h ⟨rfl, h.wf, fun _ => ⟨rfl, rfl, rfl⟩, fun _ => ⟨rfl, rfl, rfl⟩⟩
  | readBits n => exact readBits_comes n s h
  | decRenorm n => exact decRenorm_comes n s h
  | decNext more sym n => exact decNext_comes sym n (fun _ hu => decAgain_comes more n hu) h

/-- The rest of a held command comes to what its tasks make of the stream, however often it holds again (R151). -/
theorem runTasks_comes : ∀ (ts : List Task), (∀ z ∈ ts, taskMode z = md) → ∀ s : State, Fit md x y s →
    ComesTo md x y s ((viewOf x y s).tasks ts) (runTasks ts s)
  | [], _, _, h => .done h
  | z :: ts, hts, s, h => by
    have hz := hts z (by simp)
    have k := runTask_comes z (hz ▸ h)
    rw [hz] at k
    exact k.andThen (fun w hw => hts w (by simp [hw]))
      fun t ha _ => runTasks_comes ts (fun w hw => hts w (by simp [hw])) t (ha.fit h)

/-- What neither a piece of a command nor a host that serves it changes. -/
def keptPart (s : State) : Mode × Bool × Option FaultCode × Byte × Bool × Word × Word × Word × Byte × Word :=
  (s.mode, s.err, s.errcode, s.errop, s.errhost, s.a0, s.a1, s.a2, s.op, s.res2)

theorem Apart.kept (h : Apart md s t) : keptPart t = keptPart s := by
  rw [h.eq]
  rfl

/-- The command that was in execution has ended in `t`, the host having taken and pushed these bytes since `s`. -/
structure Ended (md : Mode) (s : State) (taken pushed : List Byte) (t : State) : Prop where
  idle : t.busy = false ∧ t.holdin = false ∧ t.holdout = false ∧ t.held = []
  kept : keptPart t = keptPart s
  enc : md = .enc → t.inq = s.inq ++ pushed ∧ t.bitio.ibyte = s.bitio.ibyte ∧ t.bitio.icnt = s.bitio.icnt ∧ t.bitio.wf
  dec : md = .dec → s.outq = taken ++ t.outq ∧ t.bitio.oacc = s.bitio.oacc ∧ t.bitio.ocnt = s.bitio.ocnt

theorem Ended.eq {taken pushed : List Byte} (h : Ended md s taken pushed t) :
    t = { s.hostSideOf t with
          busy := false, holdin := false, holdout := false, held := [], res0 := t.res0, res1 := t.res1,
          closed := t.closed, coder := t.coder, bitio := t.bitio, inq := t.inq, outq := t.outq, model := t.model } := by
  have hi := h.idle
  have hk := h.kept
  clear h
  cases t
  cases s
  simp only [keptPart, Prod.mk.injEq] at hi hk
  obtain ⟨rfl, rfl, rfl, rfl⟩ := hi
  obtain ⟨rfl, rfl, rfl, rfl, rfl, rfl, rfl, rfl, rfl, rfl⟩ := hk
  rfl

theorem finish_inend {r : Run} (h : Framed s r) : r.finish.inend = s.inend := by
  cases r with
  | done t =>
    have h : StreamOnly s t := h
    show t.inend = _
    rw [h]
  | held t k ts =>
    show t.inend = _
    rw [h.1]
  | raised t c =>
    show t.inend = _
    rw [h.1]

/-- After the input has been ended the host pushes nothing more. -/
theorem served_pushed {u t : State} {taken pushed : List Byte} (h : Served u taken pushed t) :
    u.inend = true → pushed = [] := by
  induction h with
  | ended _ => exact fun _ => rfl
  | @hold s s' t _ _ _ _ _ hs _ _ ih =>
    intro he
    obtain ⟨h1, rfl⟩ := hs.inend he
    have hr : s'.resume.inend = s'.inend :=
      finish_inend (s := { s' with holdin := false, holdout := false, held := [] }) (runTasks_framed s'.held _)
    rw [ih (hr.trans h1)]
    rfl

/-- A command that comes to `o` and is served to its end has come to `o`, unless a fault has ended it. -/
theorem served_comes {u t : State} {taken pushed : List Byte} (h : Served u taken pushed t) :
    ∀ {md : Mode} {x : List Bool} {s : State} {o : Option View} {r : Run}, u = r.finish → Fit md x (bytesBits pushed) s →
      ComesTo md x (bytesBits pushed) s o r →
      o = none ∨ (o = some (viewOf (x ++ bytesBits taken) [] t) ∧ Ended md s taken pushed t) := by
  induction h with
  | @ended u hb =>
    rintro md x s o r rfl hf hc
    cases r with
    | held t k ts => cases hb
    | raised t c => exact .inl hc
    | done t =>
      obtain ⟨ha, rfl⟩ := hc
      refine .inr ⟨?_, ⟨rfl, rfl, rfl, rfl⟩, ha.kept, fun hm => ?_, fun hm => ?_⟩
      · rw [bytesBits_nil, List.append_nil]
        rfl
      · obtain ⟨h1, h2, h3⟩ := ha.enc hm
        exact ⟨by rw [List.append_nil]; exact h1, h2, h3, ha.wf hm⟩
      · obtain ⟨h1, h2, h3⟩ := ha.dec hm
        exact ⟨h1.symm, h2, h3⟩
  | @hold u u' t taken pushed taken' pushed' hb hs hr hn ih =>
    rintro md x s o r rfl hf hc
    cases r with
    | done v => cases hb
    | raised v c => cases hb
    | held v k ts =>
      obtain ⟨ha, hts, rfl⟩ := hc
      have hu := hs.eq
      have hq : v.outq = taken ++ u'.outq := hs.taken
      have hbit : u'.bitio = v.bitio := by rw [hu]; rfl
      have hin : u'.inq = v.inq ++ pushed := by rw [hu]; rfl
      have hheld : u'.held = ts := by rw [hu]; rfl
      have hkept : keptPart u' = keptPart s := by rw [← ha.kept, hu]; rfl
      have hview : viewOf (x ++ bytesBits taken) (bytesBits pushed')
          { u' with holdin := false, holdout := false, held := [] } = viewOf x (bytesBits (pushed ++ pushed')) v := by
        have h1 : u'.model = v.model ∧ u'.coder = v.coder ∧ u'.res0 = v.res0 ∧ u'.res1 = v.res1 ∧
            u'.closed = v.closed := by rw [hu]; exact ⟨rfl, rfl, rfl, rfl, rfl⟩
        obtain ⟨h1, h2, h3, h4, h5⟩ := h1
        simp [viewOf, State.outBits, State.inBits, h1, h2, h3, h4, h5, hbit, hin, hq]
      have hfit : Fit md (x ++ bytesBits taken) (bytesBits pushed')
          { u' with holdin := false, holdout := false, held := [] } :=
        ⟨fun hm => hbit ▸ ha.wf hm, by simp [hf.bytes], fun he => by
          rw [served_pushed hn ((finish_inend (s := { u' with holdin := false, holdout := false, held := [] })
            (runTasks_framed u'.held _)).trans he)]
          rfl⟩
      have k := runTasks_comes ts hts _ hfit
      rw [hview, ← hheld] at k
      rcases ih rfl hfit k with k | ⟨k, e⟩
      · exact .inl (hheld ▸ k)
      · refine .inr ⟨?_, e.idle, e.kept.trans hkept, fun hm => ?_, fun hm => ?_⟩
        · rw [← hheld, k]
          simp
        · obtain ⟨h1, h2, h3⟩ := ha.enc hm
          obtain ⟨k1, k2, k3, k4⟩ := e.enc hm
          exact ⟨by rw [k1, hin, h1, List.append_assoc], k2.trans (hbit ▸ h2), k3.trans (hbit ▸ h3), k4⟩
        · obtain ⟨h1, h2, h3⟩ := ha.dec hm
          obtain ⟨k1, k2, k3⟩ := e.dec hm
          exact ⟨by rw [← h1, hq, show u'.outq = taken' ++ t.outq from k1, List.append_assoc], k2.trans (hbit ▸ h2),
            k3.trans (hbit ▸ h3)⟩

end Sys2Proof.Laws
end

