-- ==== Sys2Proof/Laws/Searches.lean ====
section
/-! SUPPORT. The bounded loop of the context search is the unbounded one of R118. -/

namespace Sys2Proof.Laws

open Sys2Proof.Machine

theorem searchDown_lt {lo hi : Nat} (h : lo ≤ hi) (h1 : 1 ≤ lo) : searchDown lo hi < hi := by
  unfold searchDown
  split <;> omega

theorem searchUp_gt (lo hi : Nat) : lo < searchUp lo hi := by
  unfold searchUp
  split <;> omega

/-- One pass of the loop (R118). -/
theorem searchLoop_succ (m : Model) (fuel lo hi found : Nat) (det : Bool) :
    searchLoop m (fuel + 1) lo hi found det =
      if hi < lo then found
      else
        match m.lookup ((hi + lo) / 2) with
        | none => searchLoop m fuel lo (searchDown lo hi) found det
        | some n =>
          if n.childless m.excl then searchLoop m fuel lo (searchDown lo hi) found det
          else if n.deterministic then searchLoop m fuel lo (searchDown lo hi) ((hi + lo) / 2) true
          else if det then searchLoop m fuel (searchUp lo hi) hi found det
          else searchLoop m fuel (searchUp lo hi) hi ((hi + lo) / 2) det := rfl

/-- With a pass for every length between the bounds the loop ends as R118 says. -/
theorem searchLoop_ends (m : Model) : ∀ (fuel lo hi found : Nat) (det : Bool), 1 ≤ lo → hi + 1 - lo ≤ fuel →
    SearchEnds m lo hi found det (searchLoop m fuel lo hi found det)
  | 0, lo, hi, found, det, _, hf => .stop (by omega)
  | fuel + 1, lo, hi, found, det, h1, hf => by
    rw [searchLoop_succ]
    by_cases hlt : hi < lo
    · rw [if_pos hlt]
      exact .stop hlt
    · rw [if_neg hlt]
      have hle : lo ≤ hi := by omega
      have hd := searchDown_lt hle h1
      have hu := searchUp_gt lo hi
      cases hl : m.lookup ((hi + lo) / 2) with
      | none =>
        exact .unusable hle (by rw [hl]; simp) (searchLoop_ends m fuel _ _ _ _ h1 (by omega))
      | some n =>
        dsimp only
        cases hc : n.childless m.excl with
        | true =>
          rw [if_pos rfl]
          refine .unusable hle (fun n' hn => ?_) (searchLoop_ends m fuel _ _ _ _ h1 (by omega))
          rw [hl] at hn
          obtain rfl := Option.some.inj hn
          exact hc
        | false =>
          rw [if_neg (by simp)]
          cases ht : n.deterministic with
          | true =>
            rw [if_pos rfl]
            exact .deterministic hle hl hc ht (searchLoop_ends m fuel _ _ _ _ h1 (by omega))
          | false =>
            rw [if_neg (by simp)]
            cases det with
            | true =>
              rw [if_pos rfl]
              exact .keep hle hl hc ht (searchLoop_ends m fuel _ _ _ _ (by omega) (by omega))
            | false =>
              rw [if_neg (by simp)]
              exact .longer hle hl hc ht (searchLoop_ends m fuel _ _ _ _ (by omega) (by omega))

/-- Where R118's loop ends is where the loop with enough passes ends. -/
theorem SearchEnds.searchLoop {m : Model} {lo hi found result : Nat} {det : Bool}
    (h : SearchEnds m lo hi found det result) : 1 ≤ lo → ∀ fuel, hi + 1 - lo ≤ fuel →
      Machine.searchLoop m fuel lo hi found det = result := by
  induction h with
  | stop hlt =>
    intro _ fuel _
    cases fuel with
    | zero => rfl
    | succ fuel => rw [searchLoop_succ, if_pos hlt]
  | unusable hle hn _ ih =>
    intro h1 fuel hf
    obtain ⟨fuel, rfl⟩ : ∃ k, fuel = k + 1 := ⟨fuel - 1, by omega⟩
    have hd := searchDown_lt hle h1
    have ih := ih h1 fuel (by omega)
    rw [searchLoop_succ, if_neg (by omega)]
    split
    · exact ih
    · rename_i n hl
      rw [hn n hl, if_pos rfl, ih]
  | deterministic hle hl hc ht _ ih =>
    intro h1 fuel hf
    obtain ⟨fuel, rfl⟩ : ∃ k, fuel = k + 1 := ⟨fuel - 1, by omega⟩
    have hd := searchDown_lt hle h1
    rw [searchLoop_succ, if_neg (by omega), hl]
    simp only [hc, ht, if_true, Bool.false_eq_true, if_false]
    exact ih h1 fuel (by omega)
  | longer hle hl hc ht _ ih =>
    intro h1 fuel hf
    obtain ⟨fuel, rfl⟩ : ∃ k, fuel = k + 1 := ⟨fuel - 1, by omega⟩
    rename_i lo hi _ _ _ _
    have hu := searchUp_gt lo hi
    rw [searchLoop_succ, if_neg (by omega), hl]
    simp only [hc, ht, Bool.false_eq_true, if_false]
    exact ih (by omega) fuel (by omega)
  | keep hle hl hc ht _ ih =>
    intro h1 fuel hf
    obtain ⟨fuel, rfl⟩ : ∃ k, fuel = k + 1 := ⟨fuel - 1, by omega⟩
    rename_i lo hi _ _ _ _
    have hu := searchUp_gt lo hi
    rw [searchLoop_succ, if_neg (by omega), hl]
    simp only [hc, ht, Bool.false_eq_true, if_false, if_true]
    exact ih (by omega) fuel (by omega)

end Sys2Proof.Laws
end

