-- ==== Sys2Proof/Laws/Values.lean ====
section
/-! SUPPORT. A decoder command keeps `S.value` in the interval from hold to hold (R91), and what it keeps of the model
and how it can fault with it. -/

namespace Sys2Proof.Laws

open Sys2Proof.Machine

/-! ### What a held decoder command has left -/

/-- A pass of the decoder's loops: `DecRenorm`, or the loop of DEC_SYMBOL going on. -/
def isDecPass (x : Task) : Prop := (∃ n, x = .decRenorm n) ∨ ∃ more sym n, x = .decNext more sym n

theorem valueInInterval_nil {c : Coder} : valueInInterval [] c ↔ c.holdsValue := by
  constructor
  · rintro ⟨due, rest, h, -, -, -, hv⟩
    exact hv (by simp)
  · intro h
    refine ⟨[], [], rfl, by simp, by simpa using h.1, ?_, fun _ => h⟩
    have := h.2
    simp only [List.sum_nil, pow_zero, Nat.one_mul]
    omega

/-- Passes alone are left exactly when the value lies in the interval. -/
theorem valueInInterval_passes {ts : List Task} (ht : ∀ x ∈ ts, isDecPass x) {c : Coder} (h : c.holdsValue) :
    valueInInterval ts c := by
  refine ⟨[], ts, rfl, ht, by simpa using h.1, ?_, fun _ => h⟩
  have := h.2
  simp only [List.sum_nil, pow_zero, Nat.one_mul]
  omega

/-- More passes after what is left. -/
theorem valueInInterval_append {ts us : List Task} (hu : ∀ x ∈ us, isDecPass x) {c : Coder} (h : valueInInterval ts c) :
    valueInInterval (ts ++ us) c := by
  obtain ⟨due, rest, rfl, h1, h2, h3, h4⟩ := h
  refine ⟨due, rest ++ us, by rw [List.append_assoc], fun x hx => ?_, h2, h3,
    fun hd => h4 fun n hn => hd n (List.mem_append_left _ hn)⟩
  rcases List.mem_append.1 hx with hx | hx
  · exact h1 x hx
  · exact hu x hx

/-! ### Code bits that are due -/

/-- With `k` code bits to come the value will lie in the interval, whatever they are. -/
def Due (k : Nat) (c : Coder) : Prop := c.low ≤ 2 ^ k * c.value ∧ 2 ^ k * (c.value + 1) ≤ c.high + 1

theorem Due.zero {c : Coder} (h : Due 0 c) : c.holdsValue := by
  obtain ⟨h1, h2⟩ := h
  simp only [pow_zero, Nat.one_mul] at h1 h2
  exact ⟨h1, by omega⟩

theorem Due.le_high {k : Nat} {c : Coder} (h : Due k c) : c.value ≤ c.high := by
  have h1 := h.2
  have h2 : c.value + 1 ≤ 2 ^ k * (c.value + 1) := Nat.le_mul_of_pos_left _ (Nat.two_pow_pos k)
  omega

theorem readBit_value (c : Coder) (bits : List Bool) :
    ∃ b ≤ 1, (c.readBit bits).1.value = 2 * c.value + b := by
  cases bits with
  | nil => exact ⟨0, by omega, by simp [Coder.readBit, shiftVirtual_eq]⟩
  | cons b rest => exact ⟨b.toNat, Bool.toNat_le b, rfl⟩

theorem Due.readBit {k : Nat} {c : Coder} (h : Due (k + 1) c) (bits : List Bool) : Due k (c.readBit bits).1 := by
  obtain ⟨b, hb, hv⟩ := readBit_value c bits
  obtain ⟨k1, k2, -⟩ := readBit_bounds c bits
  obtain ⟨h1, h2⟩ := h
  unfold Due
  rw [k1, k2, hv]
  rw [pow_succ] at h1 h2
  constructor
  · calc c.low ≤ 2 ^ k * 2 * c.value := h1
      _ = 2 ^ k * (2 * c.value) := by ring
      _ ≤ 2 ^ k * (2 * c.value + b) := Nat.mul_le_mul_left _ (by omega)
  · calc 2 ^ k * (2 * c.value + b + 1) ≤ 2 ^ k * (2 * c.value + 2) := Nat.mul_le_mul_left _ (by omega)
      _ = 2 ^ k * 2 * (c.value + 1) := by ring
      _ ≤ c.high + 1 := h2

/-- `t` has the bounds and the model of `s`, and `k` code bits due. -/
structure StillDue (k : Nat) (s t : State) : Prop where
  low : t.coder.low = s.coder.low
  high : t.coder.high = s.coder.high
  model : t.model = s.model
  due : Due k t.coder
  above : s.coder.low ≤ s.coder.value → t.coder.low ≤ t.coder.value

theorem StillDue.trans {j k : Nat} {s t u : State} (h : StillDue j s t) (i : StillDue k t u) : StillDue k s u :=
  ⟨i.low.trans h.low, i.high.trans h.high, i.model.trans h.model, i.due, fun hv => i.above (h.above hv)⟩

theorem StillDue.refl {k : Nat} {s : State} (h : Due k s.coder) : StillDue k s s := ⟨rfl, rfl, rfl, h, id⟩

/-- The piece reads code bits and has `k` more due at its end. -/
def Reads (k : Nat) (s : State) (r : Run) : Prop :=
  Meets r (StillDue k s) (fun t _ ts => ∃ due : List Nat, ts = due.map Task.readBits ∧ StillDue (due.sum + k) s t)
    fun _ _ => False

theorem readCodeBit_reads_due {k : Nat} {s : State} (h : Due (k + 1) s.coder) : Reads k s (readCodeBit s) := by
  rcases readCodeBit_cases s with ⟨t, ht, e⟩ | ⟨he, -⟩
  · rw [ht]
    have k1 := readBit_bounds s.coder s.inBits
    refine ⟨e.coder ▸ k1.1, e.coder ▸ k1.2.1, by rw [e.eq], e.coder ▸ h.readBit s.inBits, fun hv => ?_⟩
    obtain ⟨b, hb, hval⟩ := readBit_value s.coder s.inBits
    rw [e.coder, k1.1, hval]
    omega
  · rw [he]
    exact ⟨[1], rfl, StillDue.refl (by simpa [Nat.add_comm] using h)⟩

theorem readBits_reads_due : ∀ (n k : Nat) {s : State}, Due (n + k) s.coder → Reads k s (readBits n s)
  | 0, k, s, h => StillDue.refl (by simpa using h)
  | n + 1, k, s, h => by
    have e : n + 1 + k = n + k + 1 := by omega
    rw [e] at h
    refine Meets.andThen (E := StillDue (n + k) s) ?_ fun t ht => ?_
    · refine Meets.mono (readCodeBit_reads_due h) (fun _ ht => ht) ?_ fun _ _ hf => hf
      rintro t _ ts ⟨due, rfl, ht⟩
      refine ⟨due ++ [n], by simp, ?_⟩
      rw [List.sum_append, List.sum_singleton, Nat.add_assoc]
      exact ht
    · refine Meets.mono (readBits_reads_due n k ht.due) (fun _ hu => ht.trans hu) ?_ fun _ _ hf => hf
      rintro u _ ts ⟨due, rfl, hu⟩
      exact ⟨due, rfl, ht.trans hu⟩

/-! ### Passes -/

variable {P : Model → Prop} {Q : FaultCode → Prop}

/-- A settled coder with its value in the interval, and the model as it should be. -/
def Sound (P : Model → Prop) (s : State) : Prop := s.coder.settled ∧ s.coder.holdsValue ∧ P s.model

/-- The piece ends soundly, or holds on the way there, or raises one of these faults. -/
def Decodes (P : Model → Prop) (Q : FaultCode → Prop) (r : Run) : Prop :=
  Meets r (Sound P) (fun t _ ts => tasksSettle ts t.coder ∧ valueInInterval ts t.coder ∧ P t.model) fun _ c => Q c

theorem Decodes.andThen {r : Run} {rest : List Task} {f : State → Run} (h : Decodes P Q r)
    (hr : ∀ x ∈ rest, isDecPass x) (hs : ∀ c : Coder, c.settled → tasksSettle rest c)
    (hf : ∀ t, Sound P t → Decodes P Q (f t)) : Decodes P Q (r.andThen rest f) := by
  refine Meets.andThen ?_ hf
  exact Meets.mono h (fun _ ht => ht)
    (fun _ _ ts ht => ⟨tasksSettle_append hs ts ht.1, valueInInterval_append hr ht.2.1, ht.2.2⟩) fun _ _ hc => hc

theorem decShift_due {c : Coder} (hv : c.holdsValue) (hp : c.pass ≠ .stop) : Due 1 (c.decShift c.pass.offset) := by
  have hoff : c.pass.offset ≤ c.low := by
    rcases pass_spec c with ⟨k, k1⟩ | ⟨k, k1, k2⟩ | ⟨k, k1, k2, k3, k4⟩ | ⟨k, -⟩
    · rw [k]; exact Nat.zero_le _
    · rw [k]; exact k2
    · rw [k]; exact k3
    · exact absurd k hp
  obtain ⟨h1, h2⟩ := hv
  generalize c.pass.offset = off at *
  show 2 * (c.low - off) ≤ 2 ^ 1 * (c.value - off) ∧ 2 ^ 1 * (c.value - off + 1) ≤ 2 * (c.high - off) + 1 + 1
  omega

theorem decRenorm_decodes : ∀ (n : Nat) {s : State}, enoughPasses n s.coder → s.coder.holdsValue → P s.model →
    Decodes P Q (decRenorm n s)
  | 0, _, h, hv, hm => ⟨enoughPasses_zero h, hv, hm⟩
  | n + 1, s, h, hv, hm => by
    unfold decRenorm
    by_cases hp : s.coder.pass = .stop
    · rw [if_pos hp]
      exact ⟨(stop_iff_settled h.1).1 hp, hv, hm⟩
    · rw [if_neg hp]
      have hd := decShift_due hv hp
      have k := enoughPasses_congr (d := s.coder.decShift s.coder.pass.offset) rfl rfl (enoughPasses_pass h hp)
      generalize s.coder.decShift s.coder.pass.offset = c at hd k
      refine Meets.andThen (E := StillDue 0 { s with coder := c }) ?_ fun t ht => ?_
      · refine Meets.mono (readCodeBit_reads_due (s := { s with coder := c }) hd) (fun _ ht => ht) ?_
          fun _ _ hf => hf.elim
        rintro t _ ts ⟨due, rfl, ht⟩
        refine ⟨?_, ⟨due, [.decRenorm n], rfl, by simp, ht.due.1, ht.due.2, fun hd => absurd (by simp) (hd n)⟩, ?_⟩
        · have hk := enoughPasses_congr ht.low ht.high k
          clear ht
          induction due with
          | nil => exact ⟨hk.1, hk.2, fun _ h => h⟩
          | cons d due ih => exact ih
        · rw [ht.model]
          exact hm
      · exact decRenorm_decodes n (enoughPasses_congr ht.low ht.high k) ht.due.zero (by rw [ht.model]; exact hm)

/-- Decoding one symbol of a sound state keeps the model as it should be, and raises one of these faults only. -/
def DecodesSym (P : Model → Prop) (Q : FaultCode → Prop) : Prop :=
  ∀ s, Sound P s → (∀ c, decodeSym s = .error c → Q c) ∧ ∀ sym t, decodeSym s = .ok (sym, t) → P t.model

/-- A decoded symbol and its renormalization, with what follows: the value need not lie in the interval before it, as
DESYNC is raised when it does not lie in the narrowed one. -/
theorem decodeSym_decodes {s : State} (hset : s.coder.settled) (he : ∀ c, decodeSym s = .error c → Q c)
    (hok : ∀ sym t, decodeSym s = .ok (sym, t) → P t.model) {rest : Sym → List Task} {f : Sym → State → Run}
    (hr : ∀ sym, ∀ x ∈ rest sym, isDecPass x)
    (hs : ∀ sym, ∀ c : Coder, c.settled → tasksSettle (rest sym) c) (hf : ∀ sym t, Sound P t → Decodes P Q (f sym t)) :
    Decodes P Q (Run.ofExcept s (decodeSym s) fun r =>
      (decRenorm renormPasses r.2).andThen (rest r.1) (f r.1)) := by
  refine Meets.ofExcept he fun r hd => ?_
  have hm := hok r.1 r.2 hd
  obtain ⟨iv, m, -, -, ho, hmiss, hr2⟩ := decodeSym_ok (sym := r.1) (t := r.2) hd
  have hord : enoughPasses renormPasses r.2.coder := by
    rw [hr2]
    exact enoughPasses_renorm (narrow_ordered hset ho)
  have hval : r.2.coder.holdsValue := by
    rw [hr2]
    simp only [Coder.misses, decide_eq_false_iff_not, not_or, Nat.not_lt] at hmiss
    exact hmiss
  exact (decRenorm_decodes renormPasses hord hval hm).andThen (hr r.1) (hs r.1) (hf r.1)

theorem decNext_decodes {again : State → Run} (ha : ∀ t, Sound P t → Decodes P Q (again t)) (sym : Sym) (n : Nat)
    {s : State} (h : Sound P s) : Decodes P Q (decNext again sym n s) := by
  unfold decNext
  split
  · exact ha s h
  · exact h

theorem decLoop_decodes (hq : DecodesSym P Q) : ∀ (more n : Nat) {s : State}, Sound P s → Decodes P Q (decLoop more n s)
  | 0, n, s, h =>
    decodeSym_decodes h.1 (hq s h).1 (hq s h).2 (rest := fun sym => [.decNext 0 sym n]) (by simp [isDecPass])
      (fun _ _ hc => ⟨hc, fun _ h => h⟩) fun sym _ ht => decNext_decodes (again := .done) (fun _ hu => hu) sym n ht
  | more + 1, n, s, h =>
    decodeSym_decodes h.1 (hq s h).1 (hq s h).2 (rest := fun sym => [.decNext (more + 1) sym n]) (by simp [isDecPass])
      (fun _ _ hc => ⟨hc, fun _ h => h⟩)
      fun sym _ ht => decNext_decodes (fun _ hu => decLoop_decodes hq more (n + 1) hu) sym n ht

theorem decAgain_decodes (hq : DecodesSym P Q) (more n : Nat) {s : State} (h : Sound P s) :
    Decodes P Q (decAgain more n s) := by
  cases more with
  | zero => exact h
  | succ more => exact decLoop_decodes hq more (n + 1) h

/-! ### Held commands -/

theorem runPasses_decodes (hq : DecodesSym P Q) : ∀ (ts : List Task) {s : State}, (∀ x ∈ ts, isDecPass x) →
    tasksSettle ts s.coder → s.coder.holdsValue → P s.model → Decodes P Q (runTasks ts s)
  | [], _, _, hs, hv, hm => ⟨hs, hv, hm⟩
  | x :: ts, s, hts, hs, hv, hm => by
    have hrest : ∀ x ∈ ts, isDecPass x := fun z hz => hts z (by simp [hz])
    have next : ∀ {r : Run}, (∀ c : Coder, c.settled → tasksSettle ts c) → Decodes P Q r →
        Decodes P Q (r.andThen ts (runTasks ts)) := fun hset hr =>
      hr.andThen hrest hset fun t ht => runPasses_decodes hq ts hrest (hset _ ht.1) ht.2.1 ht.2.2
    unfold runTasks
    rcases hts x (by simp) with ⟨n, rfl⟩ | ⟨more, sym, n, rfl⟩
    · exact next hs.2.2 (decRenorm_decodes n ⟨hs.1, hs.2.1⟩ hv hm)
    · exact next hs.2 (decNext_decodes (fun _ ht => decAgain_decodes hq more n ht) sym n ⟨hs.1, hv, hm⟩)

theorem tasksSettle_reads (due : List Nat) (ts : List Task) (c : Coder) :
    tasksSettle (due.map Task.readBits ++ ts) c ↔ tasksSettle ts c := by
  induction due with
  | nil => rfl
  | cons d due ih => exact ih

theorem runReads_decodes (hq : DecodesSym P Q) : ∀ (due : List Nat) (rest : List Task) {s : State},
    (∀ x ∈ rest, isDecPass x) → tasksSettle rest s.coder → Due due.sum s.coder →
    ((∀ n, .decRenorm n ∉ rest) → s.coder.low ≤ s.coder.value) → P s.model →
    Decodes P Q (runTasks (due.map Task.readBits ++ rest) s)
  | [], rest, s, hr, hs, hd, _, hm => runPasses_decodes hq rest hr hs hd.zero hm
  | d :: due, rest, s, hr, hs, hd, hl, hm => by
    rw [List.sum_cons] at hd
    refine Meets.andThen (E := StillDue due.sum s) ?_ fun t ht => ?_
    · refine Meets.mono (readBits_reads_due d due.sum hd) (fun _ ht => ht) ?_ fun _ _ hf => hf.elim
      rintro t _ ts ⟨due', rfl, ht⟩
      have e : due'.map Task.readBits ++ (due.map Task.readBits ++ rest) = (due' ++ due).map Task.readBits ++ rest := by
        simp
      show tasksSettle (due'.map Task.readBits ++ (due.map Task.readBits ++ rest)) _ ∧ _
      rw [e, tasksSettle_reads]
      refine ⟨tasksSettle_congr rest ht.low ht.high hs, ⟨due' ++ due, rest, e, hr, ?_, ?_, fun hn => ?_⟩,
        by rw [ht.model]; exact hm⟩
      · rw [List.sum_append]; exact ht.due.1
      · rw [List.sum_append]; exact ht.due.2
      · exact ⟨ht.above (hl fun n h => hn n (List.mem_append_right _ (List.mem_append_right _ h))), ht.due.le_high⟩
    · exact runReads_decodes hq due rest hr (tasksSettle_congr rest ht.low ht.high hs) ht.due
        (fun hn => ht.above (hl hn)) (by rw [ht.model]; exact hm)

/-- The rest of a held decoder command decodes on. -/
theorem runTasks_decodes (hq : DecodesSym P Q) {ts : List Task} {s : State} (hs : tasksSettle ts s.coder)
    (hv : valueInInterval ts s.coder) (hm : P s.model) : Decodes P Q (runTasks ts s) := by
  obtain ⟨due, rest, rfl, h1, h2, h3, h4⟩ := hv
  refine runReads_decodes hq due rest h1 ((tasksSettle_reads _ _ _).1 hs) ⟨h2, h3⟩ (fun hn => ?_) hm
  refine (h4 fun n h => ?_).1
  rcases List.mem_append.1 h with h | h
  · simp at h
  · exact hn n h

/-- The priming decodes from anywhere (R95). -/
theorem decPrime_decodes {s : State} (hm : P s.model) : Decodes P Q (decPrime s) := by
  unfold decPrime
  generalize hc :
    ({ s.coder with low := 0, high := topValue, value := 0, vbits := virtualBits, eos := false } : Coder) = c
  have hset : c.settled := by
    rw [← hc]
    exact settled_congr rfl rfl reset_settled
  have hd : Due (codeValueBits + 0) c := by
    rw [← hc]
    exact ⟨Nat.zero_le _, show 2 ^ 27 * (0 + 1) ≤ 134217727 + 1 by norm_num⟩
  have hl : c.low ≤ c.value := by
    rw [← hc]
  refine Meets.mono (readBits_reads_due codeValueBits 0 (s := { s with coder := c }) hd) (fun t ht => ?_) ?_
    fun _ _ hf => hf.elim
  · exact ⟨settled_congr ht.low ht.high hset, ht.due.zero, by rw [ht.model]; exact hm⟩
  · rintro t _ ts ⟨due, rfl, ht⟩
    have hs := settled_congr ht.low ht.high hset
    refine ⟨by simpa using (tasksSettle_reads due [] t.coder).2 hs, ⟨due, [], by simp, by simp, ht.due.1, ht.due.2,
      fun _ => ⟨ht.above hl, ht.due.le_high⟩⟩, by rw [ht.model]; exact hm⟩

end Sys2Proof.Laws
end

