-- ==== Sys2Proof/Laws/Served.lean ====
section
/-! SUPPORT. Commands that hold and are served to their end: what their loops make of the stream when no fault ends
them, and that a served command ends as its body says (R139, R140, R151). -/

namespace Sys2Proof.Laws

open Sys2Proof.Machine

variable {md : Mode} {x y : List Bool} {s t : State} {o : Option View}

/-! ### What the encoder's loops make of the stream -/

theorem shiftBounds_btf (c : Coder) (off : Nat) : (c.shiftBounds off).btf = c.btf := rfl

/-- An E3 pass below the counter's maximum goes on with one more bit outstanding (R88). -/
theorem view_encRenorm_e3 {v : View} (hp : v.coder.pass = .e3) (hb : v.coder.btf ≠ maxBtf) (n : Nat) :
    ∃ c : Coder, c.btf = v.coder.btf + 1 ∧ v.encRenorm (n + 1) = View.encRenorm n { v with coder := c } ∧
      v.coder.encTrace (n + 1) = c.encTrace n := by
  refine ⟨{ v.coder with btf := v.coder.btf + 1 }.shiftBounds firstQuarter, shiftBounds_btf _ _, ?_, ?_⟩
  · rw [View.encRenorm, hp]
    exact if_neg (by rw [beq_iff_eq]; exact hb)
  · rw [Coder.encTrace, hp]

/-- With no overflow a renormalization makes the coder and the bits of its trace (R88). -/
theorem view_encRenorm : ∀ (n : Nat) (v : View), v.coder.btf + n ≤ maxBtf →
    v.encRenorm n = some { v.emit (v.coder.encTrace n).2 with coder := (v.coder.encTrace n).1 }
  | 0, v, _ => by simp [View.encRenorm, Coder.encTrace, View.emit]
  | n + 1, v, h => by
    cases hp : v.coder.pass with
    | e1 =>
      rw [View.encRenorm, Coder.encTrace, hp]
      simp only
      rw [view_encRenorm n _ (by rw [shiftBounds_btf]; show 0 + n ≤ _; omega)]
      simp [View.emit]
    | e2 =>
      rw [View.encRenorm, Coder.encTrace, hp]
      simp only
      rw [view_encRenorm n _ (by rw [shiftBounds_btf]; show 0 + n ≤ _; omega)]
      simp [View.emit]
    | e3 =>
      obtain ⟨c, hc, h1, h2⟩ := view_encRenorm_e3 hp (by omega) n
      rw [h1, h2]
      exact view_encRenorm n { v with coder := c } (by show c.btf + n ≤ _; omega)
    | stop =>
      rw [View.encRenorm, Coder.encTrace, hp]
      simp [View.emit]

/-- ENC_INTERVAL's narrowing and renormalization with no overflow (R92). -/
theorem view_encodeInterval {iv : Interval} {v : View} (ho : iv.ok = true) (hb : v.coder.btf + renormPasses ≤ maxBtf) :
    v.encodeInterval iv = some { v.emit ((v.coder.narrow iv).encTrace renormPasses).2 with
      coder := ((v.coder.narrow iv).encTrace renormPasses).1 } := by
  unfold View.encodeInterval
  rw [if_pos ho]
  generalize renormPasses = n at *
  exact view_encRenorm n { v with coder := v.coder.narrow iv } hb

/-- One coded symbol with no overflow (R139). -/
theorem view_encodeSym {sym : Sym} {iv : Interval} {m : Model} {v : View} (hc : v.model.codeSymbol sym = .ok (iv, m))
    (ho : iv.ok = true) (hb : v.coder.btf + renormPasses ≤ maxBtf) :
    v.encodeSym sym = some { v.emit ((v.coder.narrow iv).encTrace renormPasses).2 with
      model := m, coder := ((v.coder.narrow iv).encTrace renormPasses).1 } := by
  unfold View.encodeSym
  rw [hc]
  exact view_encodeInterval (v := { v with model := m }) ho hb

/-- The loop of ENC_SYMBOL codes the intervals of its plan (R139). -/
theorem view_encLoop : ∀ (more : Nat) (n : Nat) (v : View) (sym : Sym) (ivs : List Interval) (m : Model),
    v.model.encPlan more sym = .ok (ivs, m) → (∀ iv ∈ ivs, iv.ok = true) →
    v.coder.btf + renormPasses * ivs.length ≤ maxBtf →
    v.encLoop more sym n = some { v.emit (Coder.encAll ivs v.coder).2 with
      model := m, coder := (Coder.encAll ivs v.coder).1, res0 := natWord (n + (ivs.length - 1)) } ∧ ivs ≠ [] := by
  have last : ∀ (n : Nat) (v : View) (sym : Sym) (r : Interval × Model), v.model.codeSymbol sym = .ok r →
      r.1.ok = true → v.coder.btf + renormPasses * [r.1].length ≤ maxBtf →
      ((v.encodeSym sym).map fun v => ({ v with res0 := natWord n } : View)) =
        some { v.emit (Coder.encAll [r.1] v.coder).2 with
          model := r.2, coder := (Coder.encAll [r.1] v.coder).1, res0 := natWord (n + ([r.1].length - 1)) } := by
    intro n v sym r hc ho hb
    rw [view_encodeSym hc ho (by simpa using hb)]
    simp [Coder.encAll, View.emit]
  intro more
  induction more with
  | zero =>
    intro n v sym ivs m hp ho hb
    simp only [Model.encPlan, bind, Except.bind] at hp
    split at hp
    · cases hp
    · rename_i r hc
      cases hp
      exact ⟨last n v sym r hc (ho _ (by simp)) hb, by simp⟩
  | succ more ih =>
    intro n v sym ivs m hp ho hb
    simp only [Model.encPlan, bind, Except.bind] at hp
    unfold View.encLoop
    split at hp
    · rename_i he
      rw [if_pos he]
      split at hp
      · cases hp
      · rename_i r hc
        split at hp
        · cases hp
        · rename_i q hq
          cases hp
          rw [List.length_cons, Nat.mul_add] at hb
          have hbtf := encTrace_btf_le renormPasses (v.coder.narrow r.1)
          have hbtf2 : (v.coder.narrow r.1).btf = v.coder.btf := rfl
          rw [view_encodeSym hc (ho _ (by simp)) (by omega), Option.bind_some]
          obtain ⟨k, hne⟩ := ih (n + 1) { v.emit ((v.coder.narrow r.1).encTrace renormPasses).2 with
            model := r.2, coder := ((v.coder.narrow r.1).encTrace renormPasses).1 } sym q.1 q.2 hq
            (fun iv hi => ho iv (by simp [hi])) (by
              show ((v.coder.narrow r.1).encTrace renormPasses).1.btf + _ ≤ _
              omega)
          refine ⟨?_, by simp⟩
          rw [k]
          have hlen : n + 1 + (q.1.length - 1) = n + ((r.1 :: q.1).length - 1) := by
            have := List.length_pos_iff.2 hne
            simp
            omega
          rw [hlen]
          simp [Coder.encAll, View.emit]
    · rename_i he
      rw [if_neg he]
      split at hp
      · cases hp
      · rename_i r hc
        cases hp
        exact ⟨last n v sym r hc (ho _ (by simp)) hb, by simp⟩

/-- The body of ENC_CLOSE (R93). -/
theorem closeStream_comes (h : Fit .enc x y s) :
    ComesTo .enc x y s
      (View.tasks [.packerClose, .markClosed]
        { (viewOf x y s).emit (s.coder.closeBit :: List.replicate (s.coder.btf + 1) (!s.coder.closeBit)) with
          coder := { s.coder with btf := 0 } }) (closeStream s) := by
  have e := coder_apart { s.coder with btf := s.coder.btf + 1 } h
  refine ((bitPlusFollow_comes s.coder.closeBit (e.fit h)).andThen (rest := [.packerClose, .markClosed])
    (f := fun s => (packerClose s).andThen [.markClosed] fun s => .done { s with closed := true }) (by simp [taskMode])
    fun t ha _ => ?_).of_apart e
  refine (packerClose_comes (ha.fit (e.fit h))).andThen (by simp [taskMode]) fun u hu _ => ?_
  rw [tasks_one]
  have e' : Apart .enc u { u with closed := true } :=
    ⟨rfl, hu.wf, fun _ => ⟨rfl, rfl, rfl⟩, fun _ => ⟨rfl, rfl, rfl⟩⟩
  exact (ComesTo.done (e'.fit (hu.fit (ha.fit (e.fit h))))).of_apart e'

/-! ### What the decoder's loops make of the stream -/

/-- Bits shifted in after a number (R95). -/
theorem foldl_bits (bits : List Bool) (v : Nat) :
    bits.foldl (fun v b => 2 * v + b.toNat) v = 2 ^ bits.length * v + bitsValue bits := by
  unfold bitsValue
  induction bits generalizing v with
  | nil => simp
  | cons b rest ih =>
    rw [List.foldl_cons, List.foldl_cons, ih, ih (2 * 0 + b.toNat), List.length_cons]
    ring

/-- `n` code bits shifted into the value, zeros standing for the missing ones (R81, R95). -/
theorem readMany_value : ∀ (n : Nat) (c : Coder) (bits : List Bool), n ≤ c.vbits →
    (readMany n c bits).1 = { c with
      value := ((bits ++ List.replicate n false).take n).foldl (fun v b => 2 * v + b.toNat) c.value,
      vbits := c.vbits - (n - bits.length),
      eos := c.eos || (decide (1 ≤ c.vbits) && decide (n - bits.length = c.vbits)) }
  | 0, c, bits, _ => by
    have : (decide (1 ≤ c.vbits) && decide (0 = c.vbits)) = false := by
      rw [Bool.and_eq_false_iff]; simp; omega
    simp [readMany, this]
  | n + 1, c, bits, h => by
    rw [readMany]
    cases bits with
    | nil =>
      simp only [Coder.readBit, shiftVirtual_eq]
      rw [readMany_value n _ _ (by simp; omega)]
      simp only [List.nil_append, List.length_nil, Nat.sub_zero, List.replicate_succ, List.take_succ_cons,
        List.foldl_cons, Bool.toNat_false, Nat.add_zero]
      congr 1
      · omega
      · rw [Bool.eq_iff_iff]
        cases c.eos
        · simp only [Bool.false_or, Bool.or_eq_true, Bool.and_eq_true, decide_eq_true_eq, beq_iff_eq]
          omega
        · simp
    | cons b rest =>
      simp only [Coder.readBit, Coder.shiftIn]
      rw [readMany_value n _ _ (by show n ≤ c.vbits; omega)]
      simp only [List.cons_append, List.take_succ_cons, List.foldl_cons, List.length_cons, Nat.add_sub_add_right]
      congr 1
      have : (rest ++ List.replicate n false).take n = (rest ++ List.replicate (n + 1) false).take n := by
        rw [List.replicate_succ', ← List.append_assoc]
        exact (List.take_append_of_le_length (by rw [List.length_append, List.length_replicate]; omega)).symm
      rw [this]

/-- One pass of DEC_SYMBOL's loop as its plan has it (R140). -/
theorem decPass_decodeSym {v : View} {d : Decoded} (h : decPass v.model v.coder v.inp = .ok d) :
    v.decodeSym = some (d.sym, { v with model := d.model, coder := d.coder, inp := d.bits }) ∧ d.escapes = 0 ∧
      ∃ iv, v.model.codeSymbol d.sym = .ok (iv, d.model) := by
  simp only [decPass, bind, Except.bind] at h
  split at h
  · cases h
  · rename_i sym hp
    split at h
    · cases h
    · rename_i r hc
      split at h
      · rename_i ho
        split at h
        · cases h
        · rename_i c hr
          cases h
          refine ⟨?_, rfl, r.1, hc⟩
          have hd : decoded v.model v.coder = .ok (sym, r.2, c) := by
            simp [decoded, bind, Except.bind, hp, hc, ho, hr]
          rw [View.decodeSym, hd]
          rfl
      · cases h

/-- Coding an escape lowers `S.ctxlen` (R119, R123). -/
theorem codeEscape_shorter {m m' : Model} {iv : Interval} (h : m.codeSymbol .escape = .ok (iv, m')) :
    m'.ctxlen < m.ctxlen := by
  obtain ⟨n, hn, -, rfl⟩ := codeEscape_ok h
  have h0 : m.ctxlen ≠ 0 := fun h0 => by rw [ctxNode_zero h0] at hn; cases hn
  have := (escapeFrom_peopled m n).1
  omega

/-- The loop of DEC_SYMBOL comes to its plan (R140). -/
theorem view_decLoop : ∀ (more n : Nat) (v : View) (d : Decoded), v.model.ctxlen ≤ more →
    decPlan more v.model v.coder v.inp = .ok d →
    v.decLoop more n = some { v with
      model := d.model, coder := d.coder, inp := d.bits, res0 := symWord d.sym, res1 := natWord (n + d.escapes) }
  | 0, n, v, d, hm, h => by
    obtain ⟨h1, h2, iv, h3⟩ := decPass_decodeSym h
    have hne : d.sym ≠ .escape := fun he => by
      rw [he] at h3
      have := codeEscape_shorter h3
      omega
    rw [View.decLoop, h1, Option.bind_some, View.decNext, if_neg hne, h2]
    rfl
  | more + 1, n, v, d, hm, h => by
    simp only [decPlan, bind, Except.bind] at h
    split at h
    · cases h
    · rename_i d1 hd
      obtain ⟨h1, h2, iv, h3⟩ := decPass_decodeSym hd
      rw [View.decLoop, h1, Option.bind_some, View.decNext]
      split at h
      · rename_i he
        rw [he] at h3
        have := codeEscape_shorter h3
        split at h
        · cases h
        · rename_i e hp
          cases h
          rw [if_pos he, view_decLoop more (n + 1) { v with model := d1.model, coder := d1.coder, inp := d1.bits } e
            (by show d1.model.ctxlen ≤ _; omega) hp]
          have : n + 1 + e.escapes = n + (e.escapes + 1) := by omega
          rw [this]
      · rename_i he
        cases h
        rw [if_neg he, h2]
        rfl

/-! ### Served commands -/

/-- A valid interval in the ARG registers is the operand (R62, R85). -/
theorem operandInterval_of {s : State} {iv : Interval} (h : s.argsHold iv) (ho : iv.ok = true) (op : Byte) :
    (s.issue op).operandInterval = .ok iv := by
  obtain ⟨h0, h1, h2⟩ := h
  obtain ⟨o1, o2, o3⟩ := ok_iff.1 ho
  unfold State.operandInterval
  simp only [issue_a0, issue_a1, issue_a2, h0, h1, h2]
  unfold maxTotal at o3
  rw [s32_natWord (by omega), s32_natWord (by omega), s32_natWord (by omega)]
  have : intervalOk iv.low iv.high iv.total = true := ho
  rw [this]
  simp

/-- A command that does not fault and is served to its end ends with the view that its body comes to. -/
theorem exec_served {i : Instr} (hi : i ≠ .softReset) {u : State} {taken pushed : List Byte}
    (hx : exec i s = .next u) (hs : Served u taken pushed t) {r : Run} (hb : bodyOf i (s.issue (opcode i)) = r)
    {md : Mode} {s0 : State} (hw : md = .enc → s0.bitio.wf) {o : View} (hf : Framed s0 r)
    (hc : Fit md [] (bytesBits pushed) s0 → ComesTo md [] (bytesBits pushed) s0 (some o) r) :
    o = viewOf (bytesBits taken) [] t ∧ Ended md s0 taken pushed t := by
  rw [exec_eq i hi, hb] at hx
  obtain rfl := Host.Outcome.next.inj hx
  have hfit : Fit md [] (bytesBits pushed) s0 := ⟨hw, rfl, fun he => by
    rw [served_pushed hs ((finish_inend hf).trans he)]; rfl⟩
  rcases served_comes hs rfl hfit (hc hfit) with k | ⟨k, e⟩
  · cases k
  · exact ⟨Option.some.inj k, e⟩

/-- A sound decoder command that is served to its end has ended soundly, or in one of the faults it may raise. -/
theorem served_decodes {P : Model → Prop} {Q : FaultCode → Prop} (hq : DecodesSym P Q) {u t : State}
    {taken pushed : List Byte} (h : Served u taken pushed t) : ∀ {s : State} {r : Run}, u = r.finish → Framed s r →
      Decodes P Q r →
      (t.err = false → Sound P t) ∧ (s.err = false → t.err = true → ∃ c, t.errcode = some c ∧ Q c) := by
  induction h with
  | ended hb =>
    rintro s r rfl hf hd
    cases r with
    | held t k ts => cases hb
    | done t =>
      have hf : StreamOnly s t := hf
      refine ⟨fun _ => hd, fun he ht => ?_⟩
      rw [show (Run.done t).finish.err = t.err from rfl, hf, show State.err _ = s.err from rfl, he] at ht
      cases ht
    | raised t c =>
      refine ⟨fun h => (by cases h), fun he _ => ⟨c, ?_, hd⟩⟩
      have ht : t.err = false := by rw [hf.1]; exact he
      simp [Run.finish, State.commandFault, State.enterFault, State.withStream, ht]
  | @hold u u' t taken pushed taken' pushed' hb hs hr hn ih =>
    rintro s r rfl hf hd
    cases r with
    | done v => cases hb
    | raised v c => cases hb
    | held v k ts =>
      have h1 : u'.coder = v.coder ∧ u'.model = v.model ∧ u'.held = ts ∧ u'.err = v.err := by
        rw [hs.eq]
        exact ⟨rfl, rfl, rfl, rfl⟩
      obtain ⟨h1, h2, rfl, h4⟩ := h1
      obtain ⟨d1, d2, d3⟩ := hd
      rw [← h1] at d1 d2
      rw [← h2] at d3
      have hu := ih rfl (runTasks_framed u'.held { u' with holdin := false, holdout := false, held := [] })
        (runTasks_decodes hq (s := { u' with holdin := false, holdout := false, held := [] }) d1 d2 d3)
      exact ⟨hu.1, fun he => hu.2 (h4.trans (by rw [hf.1]; exact he))⟩

end Sys2Proof.Laws
end

