-- ==== Sys2Proof/Machine/HostProgram.lean ====
section
/-! DEFINITION. The notation of host programs (30_encoding.md section 6): basic lines (R73), the pseudo-instructions
(R74, R75), a host that runs a program beside the block by making its accesses one after another, and the encoding of
the run's writes (R76). The block sees only the accesses. -/

namespace Sys2Proof.Machine

/-- A `<value>` of R73: a word, or the word a name is bound to. -/
inductive HostVal where
  | word (w : Word)
  | name (n : String)
  deriving DecidableEq, Repr

/-- A bit field of a register, shifted down to bit 0 (R73). -/
structure HostField where
  reg : Reg
  lo : Nat
  width : Nat
  deriving DecidableEq, Repr

/-- A primitive line of R73, with `DRAIN` (R75) as the loop it stands for. -/
inductive HostLine where
  | wr (r : Reg) (v : HostVal)
  | rd (r : Reg) (bind : Option String)
  | rdField (f : HostField) (bind : String)
  | poll (f : HostField) (v : HostVal)
  | drain (bind : String)
  | label (l : String)
  | jump (l : String)
  | bz (n l : String)
  | bnz (n l : String)
  | stop
  deriving DecidableEq, Repr

/-- The fields of STATUS and ERRCODE by their names (R21, R22). -/
def fieldNamed : Reg → String → Option HostField
  | .status, "MODE" => some ⟨.status, 0, 2⟩
  | .status, "BUSY" => some ⟨.status, 2, 1⟩
  | .status, "ERR" => some ⟨.status, 3, 1⟩
  | .status, "EOS" => some ⟨.status, 4, 1⟩
  | .status, "CLOSED" => some ⟨.status, 5, 1⟩
  | .status, "EOFDONE" => some ⟨.status, 6, 1⟩
  | .status, "INEND" => some ⟨.status, 7, 1⟩
  | .status, "HOLD_IN" => some ⟨.status, 8, 1⟩
  | .status, "HOLD_OUT" => some ⟨.status, 9, 1⟩
  | .status, "CTX" => some ⟨.status, 10, 1⟩
  | .errcode, "CODE" => some ⟨.errcode, 0, 4⟩
  | .errcode, "OP" => some ⟨.errcode, 8, 8⟩
  | .errcode, "HOSTSRC" => some ⟨.errcode, 16, 1⟩
  | _, _ => none

/-- STATUS.BUSY (R21). -/
def busyField : HostField := ⟨.status, 2, 1⟩

/-- A decimal number, a negative one as its two's-complement word (R73). -/
def intVal (n : Int) : HostVal := .word (BitVec.ofInt 32 n)

/-- The symbol constant `EOF` (R73). -/
def eofVal : HostVal := .word 0xFFFFFFFF

/-- The symbol constant `ESC` (R73). -/
def escVal : HostVal := .word 0xFFFFFFFE

/-- `WR <reg>, <value>` of a word. -/
def wrLine (r : Reg) (w : Word) : HostLine := .wr r (.word w)

/-- The CMD write of a command (R74). -/
def cmdLine (i : Instr) : HostLine := wrLine .cmd (encode i)

/-- The write of an operand register, none for an operand that is omitted: the register keeps its value (R74). -/
def argLine (r : Reg) : Option HostVal → List HostLine
  | some v => [.wr r v]
  | none => []

/-- A command mnemonic with its operands, as the writes it expands to (R74): ARG0, ARG1, ARG2 in order, only those
the command reads, then CMD. -/
def expandCmd (i : Instr) (x y z : Option HostVal) : List HostLine :=
  match i with
  | .nop | .softReset | .encStart | .encClose | .decStart | .decSymbol | .ppmTotal => [cmdLine i]
  | .encInterval | .decRemove => argLine .arg0 x ++ argLine .arg1 y ++ argLine .arg2 z ++ [cmdLine i]
  | .decCount => argLine .arg2 z ++ [cmdLine i]
  | .encSymbol | .ppmPoint | .ppmInterval | .ppmEscaped | .ppmExclude | .ppmIncrement =>
    argLine .arg0 x ++ [cmdLine i]

/-- `SETORDER n` (R75). -/
def setOrder (n : HostVal) : List HostLine := [.wr .config n]

/-- `PUSH b` (R75). -/
def pushByte (b : HostVal) : List HostLine := [.wr .inData b]

/-- `PUSHS 0xHH…` (R75): one `PUSH` per byte, left to right. -/
def pushBytes (bs : List Byte) : List HostLine := bs.flatMap fun b => pushByte (.word (b.setWidth 32))

/-- `INEND` (R75). -/
def inEnd : List HostLine := [wrLine .inCtrl 1]

/-- `POP -> x` (R75). -/
def popByte (x : String) : List HostLine := [.rd .outData (some x)]

/-- `WAIT` (R75). -/
def waitReady : List HostLine := [.poll busyField (.word 0)]

/-- `RES -> r0, r1, r2` (R75). -/
def readResults (x y z : String) : List HostLine :=
  [.rd .res0 (some x), .rd .res1 (some y), .rd .res2 (some z)]

/-! ### A host that runs a program -/

/-- What a host does with the value its last read returned. -/
inductive HostWait where
  | nothing
  | bind (n : String)
  | bindField (f : HostField) (n : String)
  | poll (f : HostField) (v : HostVal)
  | drain (n : String) (got : List Word)
  deriving DecidableEq, Repr

/-- A host in the middle of a program: the line it is at, its bound names (latest first) and what it waits for. -/
structure HostRun where
  pc : Nat
  env : List (String × List Word)
  wait : HostWait
  ended : Bool
  deriving DecidableEq, Repr

/-- A host before the first line of its program. -/
def HostRun.start : HostRun := { pc := 0, env := [], wait := .nothing, ended := false }

/-- The words a name is bound to. -/
def HostRun.words (h : HostRun) (n : String) : List Word :=
  match h.env.find? fun e => e.1 == n with
  | some e => e.2
  | none => []

/-- The value of a `<value>`. R73 does not say what a name stands for that no read has bound, or that DRAIN has bound
to a sequence: here it is 0 for the first, and the sequence's first byte, or 0, for the second (DESIGN CHOICE, log
entries 2 and 25). -/
def HostRun.value (h : HostRun) : HostVal → Word
  | .word w => w
  | .name n => (h.words n).headD 0

/-- The value of a field of a word. -/
def HostField.of (f : HostField) (w : Word) : Word := (w >>> f.lo) &&& natWord (2 ^ f.width - 1)

/-- The line after a label; the end of the program when there is no such label. -/
def lineOf (prog : List HostLine) (l : String) : Nat := prog.findIdx (fun x => x == .label l)

/-- The host takes in the value of its last read. A poll that has not succeeded and a drain that has not ended go
back to the line before. -/
def HostRun.takeIn (h : HostRun) (v : Word) : HostRun :=
  match h.wait with
  | .nothing => h
  | .bind n => { h with env := (n, [v]) :: h.env, wait := .nothing }
  | .bindField f n => { h with env := (n, [f.of v]) :: h.env, wait := .nothing }
  | .poll f x =>
    if f.of v = h.value x then { h with wait := .nothing } else { h with wait := .nothing, pc := h.pc - 1 }
  | .drain n got =>
    if v.getLsbD 8 then { h with wait := .drain n (got ++ [v &&& 0xFF]), pc := h.pc - 1 }
    else { h with env := (n, got) :: h.env, wait := .nothing }

/-- The host at its next line: the line's access, if it makes one, and the host after it. R73 lets a POLL make "zero or
more reads"; this host always makes the first one, since it knows no field without reading it (DESIGN CHOICE, log
entry 25). -/
def HostRun.next (prog : List HostLine) (h : HostRun) : HostRun × Option HostAct :=
  let h' := { h with pc := h.pc + 1 }
  match prog[h.pc]? with
  | none => ({ h with ended := true }, none)
  | some .stop => ({ h with ended := true }, none)
  | some (.wr r v) => (h', some (.write (offsetOf r) 4 (h.value v)))
  | some (.rd r none) => (h', some (.read (offsetOf r) 4))
  | some (.rd r (some n)) => ({ h' with wait := .bind n }, some (.read (offsetOf r) 4))
  | some (.rdField f n) => ({ h' with wait := .bindField f n }, some (.read (offsetOf f.reg) 4))
  | some (.poll f v) => ({ h' with wait := .poll f v }, some (.read (offsetOf f.reg) 4))
  | some (.drain n) =>
    match h.wait with
    | .drain _ _ => (h', some (.read (offsetOf .outData) 4))
    | _ => ({ h' with wait := .drain n [] }, some (.read (offsetOf .outData) 4))
  | some (.label _) => (h', none)
  | some (.jump l) => ({ h with pc := lineOf prog l }, none)
  | some (.bz n l) => (if h.value (.name n) = 0 then { h with pc := lineOf prog l } else h', none)
  | some (.bnz n l) => (if h.value (.name n) = 0 then h' else { h with pc := lineOf prog l }, none)

/-! ### The host and the block together -/

/-- A host in the middle of a program, the block, and the writes the host has made, as R76 lists them. -/
structure HostSys where
  host : HostRun
  block : State
  writes : List (Nat × Word)
  deriving DecidableEq, Repr

/-- A program about to run on a block. -/
def HostSys.start (s : State) : HostSys := { host := HostRun.start, block := s, writes := [] }

/-- The (offset, word) pair of a write (R76). -/
def HostAct.writePair : HostAct → List (Nat × Word)
  | .write offset _ w => [(offset, w)]
  | .read _ _ => []
  | .hardReset => []

/-- The block's step, the host staying where it is. -/
def HostSys.blockStep (x : HostSys) : Host.Outcome HostSys Fault Refusal :=
  match step x.block with
  | .next t => .next { x with block := t }
  | .fault f => .fault f
  | .refused r => .refused r

/-- It is the host's turn: its last access has been made, its program has not ended, and no held command goes on
before its next access, unless the host is `early` (R151; log entry 3). -/
def HostSys.hostMoves (early : Bool) (x : HostSys) : Bool :=
  x.block.hostq.isEmpty && !x.host.ended && (early || !x.block.canResume)

/-- One step of the two agents. In its turn the host takes in what its last read returned and moves to its next line:
an access is made at once, and a label or a branch is the host's own, at which the block does nothing (R73). -/
def HostSys.advance (prog : List HostLine) (early : Bool) (x : HostSys) : Host.Outcome HostSys Fault Refusal :=
  if x.hostMoves early then
    match (x.host.takeIn x.block.rdata).next prog with
    | (h, none) => .next { x with host := h }
    | (h, some act) =>
      HostSys.blockStep { host := h, block := { x.block with hostq := [⟨act, early⟩] },
                          writes := x.writes ++ HostAct.writePair act }
  else x.blockStep

/-- A run of a program: one step for each entry of the schedule, which says where the host is early. It stays where it
is once a step stops. -/
def HostSys.run (prog : List HostLine) : List Bool → HostSys → HostSys
  | [], x => x
  | early :: rest, x =>
    match x.advance prog early with
    | .next y => HostSys.run prog rest y
    | _ => x

/-- The encoding of a host program: the (offset, word) pairs of the writes its run makes, in order, with the values of
its names and once for every time a line is reached (R76). -/
def encodeWrites (prog : List HostLine) (schedule : List Bool) (s : State) : List (Nat × Word) :=
  (HostSys.run prog schedule (HostSys.start s)).writes

end Sys2Proof.Machine
end

