-- ==== Sys2Proof/Tests/Slice0.lean ====
section
/-! SUPPORT. Tests: ill-formed inputs that the checks refuse, the words of every command written out from R60 and R66,
one-step results from 95_test_vectors.md, and for every obligation with hypotheses a state that meets them. -/

namespace Sys2Proof.Tests

open Sys2Proof.Machine
open Sys2Proof.Laws

/-! ### Well-formedness -/

/-- R48: an access that is not 32 bits wide. -/
theorem test_wf_refuses_a_narrow_access : (HostAct.read 0x10 2).wf = false := by decide

/-- R48: a misaligned access. -/
theorem test_wf_refuses_a_misaligned_access : (HostAct.write 0x06 4 0).wf = false := by decide

/-- R17: an offset beyond the window. -/
theorem test_wf_refuses_an_offset_beyond_the_window : (HostAct.read 0x100 4).wf = false := by decide

/-- R17: the last slot is inside. -/
theorem test_wf_admits_the_last_slot : (HostAct.read 0xFC 4).wf = true := by decide

/-- R60: a word whose MBZ field is not zero. -/
theorem test_mbz_refuses_high_bits : mbzClear 0x00000110 = false ∧ mbzClear 0x80000000 = false := by decide

/-! ### Decoding, each word written out from R60 (MBZ [31:8] zero, opcode [7:0]) and R66 -/

theorem test_decode_control : decode 0b00000000000000000000000000000000#32 = .ok .nop ∧
    decode 0b00000000000000000000000000000001#32 = .ok .softReset := by decide

theorem test_decode_encoder : decode 0b00000000000000000000000000010000#32 = .ok .encStart ∧
    decode 0b00000000000000000000000000010001#32 = .ok .encInterval ∧
    decode 0b00000000000000000000000000010010#32 = .ok .encClose ∧
    decode 0b00000000000000000000000000010011#32 = .ok .encSymbol := by decide

theorem test_decode_decoder : decode 0b00000000000000000000000000100000#32 = .ok .decStart ∧
    decode 0b00000000000000000000000000100001#32 = .ok .decCount ∧
    decode 0b00000000000000000000000000100010#32 = .ok .decRemove ∧
    decode 0b00000000000000000000000000100011#32 = .ok .decSymbol := by decide

theorem test_decode_model : decode 0b00000000000000000000000000110000#32 = .ok .ppmTotal ∧
    decode 0b00000000000000000000000000110001#32 = .ok .ppmPoint ∧
    decode 0b00000000000000000000000000110010#32 = .ok .ppmInterval ∧
    decode 0b00000000000000000000000000110011#32 = .ok .ppmEscaped ∧
    decode 0b00000000000000000000000000110100#32 = .ok .ppmExclude ∧
    decode 0b00000000000000000000000000110101#32 = .ok .ppmIncrement := by decide

/-- R67, R68; V-FLT-2, V-FLT-3. -/
theorem test_decode_refuses : decode 0x00000140 = .error .mbzNonzero ∧ decode 0x00000002 = .error .unknownOpcode ∧
    decode 0x00000014 = .error .unknownOpcode ∧ decode 0x00000036 = .error .unknownOpcode := by decide

theorem test_table_word : decodeTableWord 32 0x23 = some .decSymbol ∧ decodeTableWord 32 0x123 = none := by decide

/-! ### States -/

/-- The state an outcome goes on in passes the check. -/
def goesTo (o : Host.Outcome State Fault Refusal) (p : State → Bool) : Bool :=
  match o with
  | .next t => p t
  | _ => false

/-- A value that an operation gives passes the check. -/
def yields {α : Type} (r : Except FaultCode α) (p : α → Bool) : Bool :=
  match r with
  | .ok a => p a
  | .error _ => false

theorem goesTo_elim {o : Host.Outcome State Fault Refusal} {p : State → Bool} (h : goesTo o p = true) :
    ∃ t, o = .next t ∧ p t = true := by
  cases o with
  | next t => exact ⟨t, rfl, h⟩
  | fault f => cases h
  | refused r => cases h

theorem yields_elim {α : Type} {r : Except FaultCode α} {p : α → Bool} (h : yields r p = true) :
    ∃ a, r = .ok a ∧ p a = true := by
  cases r with
  | ok a => exact ⟨a, rfl, h⟩
  | error c => cases h

/-- The check that the state is ready. -/
def isReady (s : State) : Bool := !s.busy && !s.err

theorem isReady_elim {s : State} (h : isReady s = true) : s.ready := by
  unfold isReady at h
  unfold State.ready
  revert h
  cases s.busy <;> cases s.err <;> decide

/-- The START state of an encoder, the ARG registers at `x`, `y`, `z`. -/
def encAt (x y z : Word) : State := { State.reset with mode := .enc, arg0 := x, arg1 := y, arg2 := z }

/-- A decoder with START bounds and value 0 at the end of its input, the ARG registers at `x`, `y`, `z`. -/
def decAt (x y z : Word) : State :=
  { State.reset with mode := .dec, inend := true, arg0 := x, arg1 := y, arg2 := z }

/-- An order-1 model in context "A", whose one child is "B". -/
def treeModel : Model :=
  { Model.fresh 1 with
    buf := [0x41], ctxlen := 1, nodes := 1
    root := (Model.fresh 1).root.set 0x41 (some ⟨0x41, 1, 1, .cons 0x42 1 0 .nil .nil⟩) }

/-! ### One step each, from 95_test_vectors.md -/

/-- R134: NOP leaves STATUS and the model as they are. -/
theorem test_nop : goesTo (exec .nop (encAt 1 2 3)) (fun t => t.status == 1 && t.a1 == 2 && !t.busy) = true := by
  decide

/-- V-RST-2. -/
theorem test_soft_reset : goesTo (exec .softReset
    { encAt 0x41 0 0 with config := 2, outq := [1, 2, 3], err := true, errcode := some .protocol }) (fun t =>
      t.config == 2 && t.arg0 == 0x41 && t.fifoLevel 0 == 0 && t.status == 0 && t.errWord == 0) = true := by decide

/-- V-RST-1 and S1's START. -/
theorem test_enc_start : goesTo (exec .encStart State.reset) (fun t =>
    t.status == 1 && t.coder.high == 0x07FFFFFF && t.coder.vbits == 27) = true := by decide

/-- V-FLT-5: ENC_START in ENC is PROTOCOL, ERRCODE 0x00001003. -/
theorem test_enc_start_protocol : goesTo (exec .encStart (encAt 0 0 0)) (fun t => t.errWord == 0x00001003) = true := by
  decide

/-- V-ENC-1. -/
theorem test_enc_interval : goesTo (exec .encInterval (encAt 65 66 257)) (fun t =>
    t.coder.low == 50135680 && t.coder.high == 116983423 && t.coder.btf == 0 &&
      t.outBits == [false, true, false, false, false, false, false]) = true := by decide

/-- V-ENC-4: an E3 pass is taken only after E1 and E2 fail. -/
theorem test_enc_interval_follow : goesTo (exec .encInterval (encAt 1 2 3)) (fun t =>
    t.coder.low == 22369620 && t.coder.high == 111848105 && t.coder.btf == 1 && t.outBits == []) = true := by decide

/-- V-ENC-11: ENC_CLOSE alone gives the stream 40. -/
theorem test_enc_close : goesTo (exec .encClose (encAt 0 0 0)) (fun t =>
    t.outq == [0x40] && t.closed && t.bitio.ocnt == 0) = true := by decide

/-- V-ENC-17: a second ENC_CLOSE is PROTOCOL, ERRCODE 0x00001203. -/
theorem test_enc_close_twice : goesTo (exec .encClose { encAt 0 0 0 with closed := true }) (fun t =>
    t.errWord == 0x00001203) = true := by decide

/-- Section 5 of 95_test_vectors.md, row 1: 'a' at ORDER 2 emits 0110000. -/
theorem test_enc_symbol : goesTo (exec .encSymbol { encAt 0x61 0 0 with model := Model.fresh 2 }) (fun t =>
    t.coder.low == 41779712 && t.coder.high == 108627455 && t.res0 == 0 && t.model.buf == [0x61] &&
      t.outBits == [false, true, true, false, false, false, false]) = true := by decide +kernel

/-- R139: EOF in a context codes an escape first, so RES0 = 1 (section 5, row 5). -/
theorem test_enc_symbol_escape : goesTo (exec .encSymbol { encAt 0xFFFFFFFF 0 0 with model := treeModel }) (fun t =>
    t.res0 == 1 && t.model.eofdone && t.model.ctxlen == 0 && excluded t.model.excl 0x42) = true := by decide +kernel

/-- V-DEC-8: with no input at all priming reads 27 virtual bits. -/
theorem test_dec_start : goesTo (exec .decStart { State.reset with inend := true }) (fun t =>
    t.coder.vbits == 0 && t.status == 0x00000092) = true := by decide

/-- P5: three bytes of stream and no end of input hold the priming at its 25th bit. -/
theorem test_dec_start_holds : goesTo (exec .decStart { State.reset with inq := [0x41, 0xBD, 0x80] }) (fun t =>
    t.status == 0x00000106 && t.inq == []) = true := by decide

/-- V-DEC-2. -/
theorem test_dec_count : goesTo (exec .decCount
    { decAt 0 0 257 with coder := { Coder.reset with value := 34466816, vbits := 24 } }) (fun t => t.res0 == 65) =
    true := by decide

/-- V-DEC-3: 7 virtual bits bring the value to 116785152 and S.vbits to 17. -/
theorem test_dec_remove : goesTo (exec .decRemove
    { decAt 65 66 257 with coder := { Coder.reset with value := 34466816, vbits := 24 } }) (fun t =>
      t.coder.low == 50135680 && t.coder.high == 116983423 && t.coder.value == 116785152 && t.coder.vbits == 17) =
    true := by decide

/-- V-DEC-6: ERRCODE 0x00002204. -/
theorem test_dec_remove_desync : goesTo (exec .decRemove
    { decAt 0 1 257 with coder := { Coder.reset with value := 34466816, vbits := 24 } }) (fun t =>
      t.errWord == 0x00002204) = true := by decide

/-- S1: the first DEC_SYMBOL on the stream ff40 returns EOF with no escape. -/
theorem test_dec_symbol : goesTo (exec .decSymbol
    { decAt 0 0 0 with coder := { Coder.reset with value := 133824512, vbits := 16 } }) (fun t =>
      t.res0 == 0xFFFFFFFF && t.res1 == 0 && t.model.eofdone) = true := by decide +kernel

/-- V-PPM-1, and R107 in a context: outcomes 1 and count 1. -/
theorem test_ppm_total : goesTo (exec .ppmTotal (encAt 0 0 0)) (fun t => t.res0 == 257) = true ∧
    goesTo (exec .ppmTotal { encAt 0 0 0 with model := treeModel }) (fun t => t.res0 == 2) = true := by decide +kernel

/-- V-PPM-2. -/
theorem test_ppm_point : goesTo (exec .ppmPoint (encAt 65 0 0)) (fun t => t.res0 == 65) = true ∧
    goesTo (exec .ppmPoint (encAt 256 0 0)) (fun t => t.res0 == 0xFFFFFFFF) = true ∧
    goesTo (exec .ppmPoint (encAt 257 0 0)) (fun t => t.errcode == some .protocol) = true := by decide +kernel

/-- V-PPM-3. -/
theorem test_ppm_interval : goesTo (exec .ppmInterval { encAt 97 0 0 with model := Model.fresh 2 }) (fun t =>
    t.res0 == 97 && t.res1 == 98 && t.res2 == 257 && t.model.buf == [97] && t.model.uni.getD 97 0 == 2) = true := by
  decide +kernel

/-- V-PPM-20: ERRCODE of a bad symbol operand is PROTOCOL. -/
theorem test_ppm_escaped : goesTo (exec .ppmEscaped { encAt 0x42 0 0 with model := treeModel }) (fun t =>
    t.res0 == 0) = true ∧
    goesTo (exec .ppmEscaped { encAt 0x43 0 0 with model := treeModel }) (fun t => t.res0 == 1) = true ∧
    goesTo (exec .ppmEscaped (encAt 0xFFFFFFFE 0 0)) (fun t => t.errcode == some .protocol) = true := by decide +kernel

/-- V-PPM-12, V-PPM-13. -/
theorem test_ppm_exclude : goesTo (exec .ppmExclude (encAt 97 0 0)) (fun t =>
    t.model.exclView 3 == 2 && t.model.total == 256) = true ∧
    goesTo (exec .ppmExclude (encAt 0x80 0 0)) (fun t => t.model.exclView 4 == 1) = true := by decide +kernel

/-- V-PPM-11: 'b' after 'a' at ORDER 1. -/
theorem test_ppm_increment : goesTo (exec .ppmIncrement
    { encAt 0x62 0 0 with model := { Model.fresh 1 with
        buf := [0x61], root := (Model.fresh 1).root.set 0x61 (some (Node.new 0x61)) } }) (fun t =>
      t.model.buf == [0x61, 0x62] && t.model.ctxlen == 0 && t.model.nodes == 1 &&
        (t.model.rootOf 0x62).isNone) = true := by decide +kernel

/-- V-FLT-2: ERRCODE 0x00004001. -/
theorem test_illegal_word : goesTo (State.hostAct State.reset (.write 0 4 0x00000140)) (fun t =>
    t.errWord == 0x00004001) = true := by decide

/-- V-FLT-8: any command but SOFT_RESET during a hold is HOST_IO, STATUS 0x0000000A, ERRCODE 0x00010007. -/
theorem test_host_io : goesTo (State.hostAct { decAt 0 0 0 with
    inend := false, busy := true, holdin := true, held := [.readBits 1] } (.write 0 4 0)) (fun t =>
      t.errWord == 0x00010007 && t.statusFaulted 0 == 0x0000000A) = true := by decide

/-- The word of a command placed for the next step is the command the step runs. -/
theorem test_fetch : goesTo (step (State.reset.withFetchWord 32 0x10)) (fun t => t.mode == .enc) = true := by decide

/-- R74, R76: a command line makes the writes of its operands and of its word (P1). -/
theorem test_expand : encodeWrites (expandCmd .encInterval (some (.word 65)) (some (.word 66)) (some (.word 257)))
    (List.replicate 4 false) State.reset = [(0x04, 65), (0x08, 66), (0x0C, 257), (0x00, 0x11)] := by decide +kernel

/-- R73, R76: the encoding has a bound name's value, and a line's writes once for every time it is reached. -/
theorem test_names : encodeWrites (setOrder (.word 1) ++ [.label "l", .rd .config (some "n"), .wr .arg0 (.name "n"),
      .wr .config (.word 0), .bnz "n" "l"]) (List.replicate 11 false) State.reset =
    [(0x24, 1), (0x04, 1), (0x24, 0), (0x04, 0), (0x24, 0)] := by decide +kernel

/-! ### Witnesses: for each obligation, states and operands that meet its hypotheses, clause by clause -/

theorem room_for_fifteen {s : State} {n : Nat} (hq : s.outq = []) (hc : s.bitio.ocnt = 0) (hn : n ≤ 15) :
    s.roomFor n := by
  unfold State.roomFor Config.outDepth
  rw [hq, hc, List.length_nil]
  omega

theorem treeModel_wf : treeModel.Wf where
  order_le := by unfold Config.maxOrder; show 1 ≤ _; omega
  buf_le := by decide
  ctxlen_le := by decide
  root_len := by rw [treeModel, List.length_set]; exact List.length_replicate
  roots := by
    intro b n hn
    have h := rootOf_set (m := Model.fresh 1) List.length_replicate (f := 0x41)
      (x := some ⟨0x41, 1, 1, .cons 0x42 1 0 .nil .nil⟩) rfl b
    have hr : treeModel.rootOf b = treeModel.root.getD b.toNat none := rfl
    rw [hr] at hn
    rw [show treeModel.root = (Model.fresh 1).root.set (0x41 : Byte).toNat
      (some ⟨0x41, 1, 1, .cons 0x42 1 0 .nil .nil⟩) from rfl, h] at hn
    split at hn
    · rename_i hb
      obtain rfl := Option.some.inj hn
      refine ⟨hb.symm, rfl, ⟨by decide, fun _ => by decide⟩, ?_⟩
      exact ⟨by decide, by decide, ⟨by decide, fun h => absurd rfl h⟩, by simp [Trie.bytes], trivial, trivial⟩
    · exact absurd hn (by
        intro hn
        have := (fresh_wf (order := 1) (by unfold Config.maxOrder; omega)).roots b n hn
        unfold Model.rootOf at hn
        rw [List.getD_eq_getElem?_getD] at hn
        cases hg : (Model.fresh 1).root[b.toNat]? with
        | none => rw [hg] at hn; cases hn
        | some x =>
          obtain rfl := List.eq_of_mem_replicate (List.mem_of_getElem? hg)
          rw [hg] at hn
          cases hn)
  uni_len := List.length_replicate
  uni_range := by
    intro u hu
    rw [List.eq_of_mem_replicate hu]
    exact ⟨by decide, by decide⟩
  nodes_eq := by decide +kernel
  nodes_le := by unfold Config.nodeCap; show 1 ≤ _; omega
  context := fun _ => ⟨⟨0x41, 1, 1, .cons 0x42 1 0 .nil .nil⟩, by decide +kernel, by decide⟩

theorem freshModel_wf : (Model.fresh 0).Wf := fresh_wf (Nat.zero_le _)

theorem witness_EncStart : ∃ s : State, s.mode = .idle ∧ s.config.toNat = 16 ∧ s.config.toNat ≤ Config.maxOrder :=
  ⟨{ State.reset with config := 16 }, rfl, rfl, Nat.le_add_left 16 _⟩

theorem witness_DecStart :
    (∃ s : State, s.mode = .idle ∧ s.config.toNat ≤ Config.maxOrder ∧ s.inend = true ∧ s.inq = []) ∧
    ∃ s : State, s.mode = .idle ∧ s.config.toNat ≤ Config.maxOrder ∧ s.inend = false ∧
      27 ≤ (bytesBits s.inq).length :=
  ⟨⟨{ State.reset with inend := true }, rfl, Nat.zero_le _, rfl, rfl⟩,
    ⟨{ State.reset with inq := [1, 2, 3, 4] }, rfl, Nat.zero_le _, rfl, by decide⟩⟩

theorem witness_StartsCheck :
    (∃ s : State, s.err = false ∧ s.mode ≠ .idle) ∧ ∃ s : State, s.err = false ∧ s.mode = .idle :=
  ⟨⟨encAt 0 0 0, rfl, by decide⟩, ⟨State.reset, rfl, rfl⟩⟩

theorem witness_EncInterval : ∃ (s : State) (iv : Interval), s.mode = .enc ∧ s.closed = false ∧ s.argsHold iv ∧
    iv.ok = true ∧ s.bitio.wf ∧ s.coder.btf + renormPasses ≤ maxBtf ∧
    s.roomFor ((s.coder.narrow iv).encTrace renormPasses).2.length :=
  ⟨encAt 65 66 257, ⟨65, 66, 257⟩, rfl, rfl, ⟨rfl, rfl, rfl⟩, by decide, bitio_reset_wf, by decide,
    room_for_fifteen rfl rfl (by decide)⟩

theorem witness_EncClose : ∃ s : State, s.mode = .enc ∧ s.closed = false ∧ s.bitio.wf ∧ s.coder.btf < maxBtf ∧
    s.roomFor ((!decide (s.coder.low < firstQuarter)) ::
        List.replicate (s.coder.btf + 1) (decide (s.coder.low < firstQuarter))).length :=
  ⟨encAt 0 0 0, rfl, rfl, bitio_reset_wf, by decide, room_for_fifteen rfl rfl (by decide)⟩

/-- The bits of ENC_CLOSE from START and their padding make one byte, which every FIFO holds. -/
theorem witness_EncClose_room : (encAt 0 0 0).roomFor 8 := room_for_fifteen rfl rfl (by decide)

theorem witness_EncSymbolCodes : ∃ (s : State) (sym : Sym) (ivs : List Interval) (m : Model),
    s.mode = .enc ∧ s.closed = false ∧ s.model.eofdone = false ∧ sym ≠ .escape ∧ s.arg0 = symWord sym ∧
    s.model.encPlan s.model.ctxlen sym = .ok (ivs, m) ∧ (∀ iv ∈ ivs, iv.ok = true) ∧ s.bitio.wf ∧
    s.coder.btf + renormPasses * ivs.length ≤ maxBtf ∧ s.roomFor (Coder.encAll ivs s.coder).2.length ∧
    ivs.length = 2 := by
  have h : yields (treeModel.encPlan treeModel.ctxlen .eof) (fun p => p.1.all Interval.ok &&
      p.1.length == 2 && decide ((Coder.encAll p.1 Coder.reset).2.length ≤ 15)) = true := by decide +kernel
  obtain ⟨p, hp, hc⟩ := yields_elim h
  simp only [Bool.and_eq_true, List.all_eq_true, beq_iff_eq, decide_eq_true_eq] at hc
  refine ⟨{ encAt 0xFFFFFFFF 0 0 with model := treeModel }, .eof, p.1, p.2, rfl, rfl, rfl, by simp, rfl, hp,
    hc.1.1, bitio_reset_wf, ?_, room_for_fifteen rfl rfl hc.2, hc.1.2⟩
  rw [hc.1.2]
  decide

theorem witness_EncSymbolCompletes :
    (∃ (m : Model) (sym : Sym), m.Wf ∧ sym = .eof ∧ m.escaped sym = true) ∧
    ∃ (m : Model) (b : Byte), m.Wf ∧ excluded m.excl b = false ∧ m.nodes + m.missing b ≤ Config.nodeCap := by
  refine ⟨⟨treeModel, .eof, treeModel_wf, rfl, by decide +kernel⟩, treeModel, 0x42, treeModel_wf, by decide, ?_⟩
  rw [show treeModel.missing 0x42 = 0 by decide +kernel]
  exact treeModel_wf.nodes_le

theorem witness_EncSymbolPrimitive :
    (∃ (s t : State) (sym : Sym), sym ≠ .escape ∧ s.arg0 = symWord sym ∧ exec .encSymbol s = .next t ∧ t.ready ∧
      s.model.escaped sym = false) ∧
    ∃ (s t : State) (sym : Sym), sym ≠ .escape ∧ s.arg0 = symWord sym ∧ exec .encSymbol s = .next t ∧ t.ready ∧
      s.model.escaped sym = true := by
  have h1 : goesTo (exec .encSymbol (encAt 0x61 0 0)) isReady = true := by decide +kernel
  have h2 : goesTo (exec .encSymbol { encAt 0xFFFFFFFF 0 0 with model := treeModel }) isReady = true := by
    decide +kernel
  obtain ⟨t, ht, hr⟩ := goesTo_elim h1
  obtain ⟨u, hu, hv⟩ := goesTo_elim h2
  exact ⟨⟨_, t, .byte 0x61, by simp, rfl, ht, isReady_elim hr, by decide +kernel⟩,
    ⟨_, u, .eof, by simp, rfl, hu, isReady_elim hv, by decide +kernel⟩⟩

theorem witness_DecCount :
    (∃ (s : State) (t : Nat), s.mode = .dec ∧ s.coder.eos = false ∧ 1 ≤ t ∧ t ≤ maxTotal ∧ s.arg2 = natWord t ∧
      s.coder.holdsValue ∧ t = 1) ∧
    ∃ (s : State) (t : Nat), s.mode = .dec ∧ s.coder.eos = false ∧ 1 ≤ t ∧ t ≤ maxTotal ∧ s.arg2 = natWord t ∧
      s.coder.holdsValue ∧ t = maxTotal :=
  ⟨⟨decAt 0 0 1, 1, rfl, rfl, by decide, by decide, rfl, ⟨by decide, by decide⟩, rfl⟩,
    ⟨decAt 0 0 33554432, maxTotal, rfl, rfl, by decide, by decide, by decide, ⟨by decide, by decide⟩, rfl⟩⟩

theorem witness_CountInInterval : ∃ (c : Coder) (iv : Interval), c.settled ∧ c.holdsValue ∧ iv.ok = true :=
  ⟨Coder.reset, ⟨0, 1, 2⟩, reset_settled, ⟨by decide, by decide⟩, by decide⟩

theorem witness_DecRemove : ∃ (s : State) (iv : Interval), s.mode = .dec ∧ s.coder.eos = false ∧ s.argsHold iv ∧
    iv.ok = true ∧ s.coder.misses iv = false ∧ s.bitsReady ((s.coder.narrow iv).passCount renormPasses) :=
  ⟨decAt 0 1 2, ⟨0, 1, 2⟩, rfl, rfl, ⟨rfl, rfl, rfl⟩, by decide, by decide, .inl rfl⟩

/-- The same with real bits: one pass, one byte pushed, the input not ended. -/
theorem witness_DecRemove_bits : ∃ (s : State) (iv : Interval), s.mode = .dec ∧ s.coder.eos = false ∧ s.argsHold iv ∧
    iv.ok = true ∧ s.coder.misses iv = false ∧ s.inend = false ∧
    s.bitsReady ((s.coder.narrow iv).passCount renormPasses) :=
  ⟨{ decAt 0 1 2 with inend := false, inq := [0x80] }, ⟨0, 1, 2⟩, rfl, rfl, ⟨rfl, rfl, rfl⟩, by decide, by decide,
    rfl, .inr (by decide)⟩

theorem witness_DecRemoveMiss :
    (∃ (s : State) (iv : Interval), s.err = false ∧ s.mode = .dec ∧ s.coder.eos = false ∧ s.argsHold iv ∧
      iv.ok = true ∧ s.coder.value < s.coder.narrowLow iv) ∧
    ∃ (s : State) (iv : Interval), s.err = false ∧ s.mode = .dec ∧ s.coder.eos = false ∧ s.argsHold iv ∧
      iv.ok = true ∧ s.coder.narrowHigh iv < s.coder.value :=
  ⟨⟨decAt 1 2 2, ⟨1, 2, 2⟩, rfl, rfl, rfl, ⟨rfl, rfl, rfl⟩, by decide, by decide⟩,
    ⟨{ decAt 0 1 2 with coder := { Coder.reset with value := 134217727 } }, ⟨0, 1, 2⟩, rfl, rfl, rfl,
      ⟨rfl, rfl, rfl⟩, by decide, by decide⟩⟩

theorem witness_DecSymbolFollows : ∃ (s : State) (d : Decoded), s.mode = .dec ∧ s.coder.eos = false ∧
    s.model.eofdone = false ∧ decPlan s.model.ctxlen s.model s.coder s.inBits = .ok d ∧ s.bitsReady d.reads ∧
    d.escapes = 1 := by
  have h : yields (decPlan 1 treeModel { Coder.reset with value := 134217727 } []) (fun d => d.escapes == 1) = true := by
    decide +kernel
  obtain ⟨d, hd, he⟩ := yields_elim h
  exact ⟨{ decAt 0 0 0 with model := treeModel, coder := { Coder.reset with value := 134217727 } }, d, rfl, rfl, rfl,
    hd, .inl rfl, by simpa using he⟩

theorem witness_DecSymbolCompletes : ∃ (m : Model) (c : Coder), m.Wf ∧ c.settled ∧ c.holdsValue ∧
    ∀ b, m.nodes + m.missing b ≤ Config.nodeCap :=
  ⟨Model.fresh 0, Coder.reset, freshModel_wf, reset_settled, ⟨by decide, by decide⟩, fun _ => Nat.zero_le _⟩

/-- The command runs into the end of the bytes pushed so far, and to its end once the host has ended the input. -/
def endsWithInput (o : Host.Outcome State Fault Refusal) : Bool :=
  goesTo o fun u => u.busy && State.canResume { u with inend := true } && isReady (State.resume { u with inend := true })

/-- Such a command holds, and is served. -/
theorem endsWithInput_elim {o : Host.Outcome State Fault Refusal} (h : endsWithInput o = true) :
    ∃ u t, o = .next u ∧ u.busy = true ∧ Served u [] [] t ∧ t.ready := by
  obtain ⟨u, hu, h⟩ := goesTo_elim h
  simp only [Bool.and_eq_true] at h
  have hr := isReady_elim h.2
  refine ⟨u, _, hu, h.1.1, Served.hold (s' := { u with inend := true }) (taken := []) (pushed := []) h.1.1
    ⟨?_, rfl, fun _ => ⟨rfl, rfl⟩⟩ h.1.2 (.ended hr.1), hr⟩
  rw [List.append_nil]

theorem witness_DecSymbolFaults : ∃ s u t : State, s.err = false ∧ s.mode = .dec ∧ s.coder.eos = false ∧
    s.model.eofdone = false ∧ s.model.Wf ∧ s.coder.settled ∧ s.coder.holdsValue ∧ exec .decSymbol s = .next u ∧
    u.busy = true ∧ Served u [] [] t := by
  obtain ⟨u, t, hu, hb, hs, -⟩ := endsWithInput_elim
    (o := exec .decSymbol { decAt 0 0 0 with inend := false }) (by decide +kernel)
  exact ⟨_, u, t, rfl, rfl, rfl, rfl, freshModel_wf, reset_settled, ⟨by decide, by decide⟩, hu, hb, hs⟩

theorem witness_DecoderKeeps :
    (∃ s u t : State, exec .decStart s = .next u ∧ u.busy = true ∧ Served u [] [] t ∧ t.ready) ∧
    (∃ s u t : State, s.coder.settled ∧ exec .decRemove s = .next u ∧ u.busy = true ∧ Served u [] [] t ∧ t.ready) ∧
    ∃ s u t : State, s.coder.settled ∧ exec .decSymbol s = .next u ∧ u.busy = true ∧ Served u [] [] t ∧ t.ready := by
  obtain ⟨u, t, h⟩ := endsWithInput_elim (o := exec .decStart State.reset) (by decide +kernel)
  obtain ⟨v, w, k⟩ := endsWithInput_elim (o := exec .decRemove { decAt 0 1 2 with inend := false }) (by decide +kernel)
  obtain ⟨x, y, l⟩ := endsWithInput_elim (o := exec .decSymbol { decAt 0 0 0 with inend := false }) (by decide +kernel)
  exact ⟨⟨_, u, t, h⟩, ⟨_, v, w, reset_settled, k⟩, ⟨_, x, y, reset_settled, l⟩⟩

theorem witness_LockStep : ∃ s d t u : State, s.coder.low = d.coder.low ∧ s.coder.high = d.coder.high ∧
    s.arg0 = d.arg0 ∧ s.arg1 = d.arg1 ∧ s.arg2 = d.arg2 ∧
    exec .encInterval s = .next t ∧ t.ready ∧ exec .decRemove d = .next u ∧ u.ready := by
  have h1 : goesTo (exec .encInterval (encAt 0 1 2)) isReady = true := by decide +kernel
  have h2 : goesTo (exec .decRemove (decAt 0 1 2)) isReady = true := by decide +kernel
  obtain ⟨t, ht, hr⟩ := goesTo_elim h1
  obtain ⟨u, hu, hv⟩ := goesTo_elim h2
  exact ⟨encAt 0 1 2, decAt 0 1 2, t, u, rfl, rfl, rfl, rfl, rfl, ht, isReady_elim hr, hu, isReady_elim hv⟩

theorem witness_Renorm :
    (∃ s t : State, s.coder.ordered ∧ encRenorm renormPasses s = .done t ∧ s.coder.low = 0 ∧ s.coder.high = 1048575) ∧
    ∃ s t : State, s.coder.ordered ∧ decRenorm renormPasses s = .done t ∧ s.coder.low = s.coder.high := by
  have h1 : (encRenorm renormPasses { encAt 0 0 0 with coder := { Coder.reset with high := 1048575 } } matches .done _) =
      true := by decide +kernel
  have h2 : (decRenorm renormPasses { decAt 0 0 0 with coder := { Coder.reset with high := 0 } } matches .done _) =
      true := by decide +kernel
  constructor
  · generalize hr : encRenorm renormPasses { encAt 0 0 0 with coder := { Coder.reset with high := 1048575 } } = r at h1
    cases r with
    | done t => exact ⟨_, t, ⟨by decide, by decide⟩, hr, rfl, rfl⟩
    | _ => cases h1
  · generalize hr : decRenorm renormPasses { decAt 0 0 0 with coder := { Coder.reset with high := 0 } } = r at h2
    cases r with
    | done t => exact ⟨_, t, ⟨by decide, by decide⟩, hr, rfl⟩
    | _ => cases h2

/-- An encoder whose packer holds 7 bits and whose output FIFO is full. -/
def fullState : State :=
  { encAt 0 0 0 with
    outq := List.replicate Config.outDepth 0, bitio := { BitIO.reset with ocnt := 7 }
    coder := { Coder.reset with high := 67108863 } }

theorem fullState_full : Config.outDepth ≤ fullState.outq.length := by
  show _ ≤ (List.replicate Config.outDepth _).length
  rw [List.length_replicate]

theorem fullState_wf : fullState.bitio.wf := ⟨by decide, by decide, by decide⟩

theorem witness_PutBit :
    (∃ s : State, s.bitio.wf ∧ s.bitio.ocnt = 7 ∧ Config.outDepth ≤ s.outq.length) ∧
    (∃ s : State, s.bitio.wf ∧ ¬(s.bitio.ocnt = 7 ∧ Config.outDepth ≤ s.outq.length) ∧ s.bitio.ocnt = 7) ∧
    ∃ s : State, s.bitio.wf ∧ ¬(s.bitio.ocnt = 7 ∧ Config.outDepth ≤ s.outq.length) ∧ s.bitio.ocnt ≠ 7 :=
  ⟨⟨fullState, fullState_wf, rfl, fullState_full⟩,
    ⟨{ fullState with outq := [] }, fullState_wf, fun h => absurd h.2 (Nat.not_succ_le_zero _), rfl⟩,
    ⟨State.reset, bitio_reset_wf, fun h => absurd h.1 (by decide), by decide⟩⟩

theorem witness_PackerClose :
    (∃ s : State, s.bitio.wf ∧ s.bitio.ocnt = 0) ∧
    (∃ s : State, s.bitio.wf ∧ 0 < s.bitio.ocnt ∧ Config.outDepth ≤ s.outq.length) ∧
    ∃ s : State, s.bitio.wf ∧ 0 < s.bitio.ocnt ∧ s.outq.length < Config.outDepth :=
  ⟨⟨State.reset, bitio_reset_wf, rfl⟩, ⟨fullState, fullState_wf, by decide, fullState_full⟩,
    ⟨{ fullState with outq := [] }, fullState_wf, by decide, Nat.succ_pos _⟩⟩

theorem witness_ReadCodeBit :
    (∃ (s : State) (b : Bool) (rest : List Bool), s.inBits = b :: rest) ∧
    (∃ s : State, s.inBits = [] ∧ s.inend = true) ∧ ∃ s : State, s.inBits = [] ∧ s.inend = false :=
  ⟨⟨{ State.reset with inq := [0x80] }, true, List.replicate 7 false, by decide⟩,
    ⟨decAt 0 0 0, by decide, rfl⟩, ⟨State.reset, by decide, rfl⟩⟩

/-- The node of `treeModel`'s context. -/
def treeNode : Node := ⟨0x41, 1, 1, .cons 0x42 1 0 .nil .nil⟩

theorem treeNode_wf : treeNode.children.wf :=
  ⟨by decide, by decide, ⟨by decide, fun h => absurd rfl h⟩, by simp [Trie.bytes], trivial, trivial⟩

theorem witness_NodePoint : ∃ (n c : Node) (excl : BitVec 256) (b : Byte) (x : Nat), n.children.wf ∧
    x < n.total excl ∧ n.child b = some c ∧ excluded excl b = false :=
  ⟨treeNode, ⟨0x42, 1, 0, .nil⟩, 0, 0x42, 1, treeNode_wf, by decide, by decide, by decide⟩

theorem witness_UniPoint :
    (∃ (m : Model) (slot x : Nat), m.uni.length = 257 ∧ slot ≤ 256 ∧ slotExcluded m.excl slot = false ∧
      x < m.uniTotal ∧ slot = 0 ∧ x = 0) ∧
    ∃ (m : Model) (slot x : Nat), m.uni.length = 257 ∧ slot ≤ 256 ∧ slotExcluded m.excl slot = false ∧
      x < m.uniTotal ∧ slot = 256 ∧ x = 256 :=
  ⟨⟨Model.fresh 0, 0, 0, List.length_replicate, by decide, by decide, by decide +kernel, rfl, rfl⟩,
    ⟨Model.fresh 0, 256, 256, List.length_replicate, by decide, by decide, by decide +kernel, rfl, rfl⟩⟩

theorem witness_UniUpdate :
    (∃ (m : Model) (slot : Nat), m.uni.length = 257 ∧ slot ≤ 256 ∧ (∀ u ∈ m.uni, 1 ≤ u ∧ u ≤ maxIndividualCount) ∧
      m.uni.getD slot 0 < maxIndividualCount) ∧
    ∃ (m : Model) (slot : Nat), m.uni.length = 257 ∧ slot ≤ 256 ∧ (∀ u ∈ m.uni, 1 ≤ u ∧ u ≤ maxIndividualCount) ∧
      m.uni.getD slot 0 = maxIndividualCount := by
  refine ⟨⟨{ Model.fresh 0 with uni := List.replicate 257 8191 }, 256, List.length_replicate, by decide, ?_,
    by decide +kernel⟩, ⟨{ Model.fresh 0 with uni := List.replicate 257 8192 }, 256, List.length_replicate, by decide,
    ?_, by decide +kernel⟩⟩ <;>
  · intro u hu
    rw [List.eq_of_mem_replicate hu]
    decide

theorem witness_ModelIntervals :
    (∃ (m m' : Model) (b : Byte) (iv : Interval), m.Wf ∧ m.codeSymbol (.byte b) = .ok (iv, m')) ∧
    (∃ (m m' : Model) (iv : Interval), m.Wf ∧ m.codeSymbol .eof = .ok (iv, m')) ∧
    ∃ (m m' : Model) (iv : Interval), m.Wf ∧ m.codeSymbol .escape = .ok (iv, m') := by
  have h1 : yields ((Model.fresh 0).codeSymbol (.byte 0x41)) (fun _ => true) = true := by decide +kernel
  have h2 : yields ((Model.fresh 0).codeSymbol .eof) (fun _ => true) = true := by decide +kernel
  have h3 : yields (treeModel.codeSymbol .escape) (fun _ => true) = true := by decide +kernel
  obtain ⟨p, hp, -⟩ := yields_elim h1
  obtain ⟨q, hq, -⟩ := yields_elim h2
  obtain ⟨r, hr, -⟩ := yields_elim h3
  exact ⟨⟨_, p.2, 0x41, p.1, freshModel_wf, hp⟩, ⟨_, q.2, q.1, freshModel_wf, hq⟩, ⟨_, r.2, r.1, treeModel_wf, hr⟩⟩

theorem witness_DecoderRecovers : ∃ (m m' : Model) (c : Coder) (sym : Sym) (iv : Interval), m.Wf ∧ c.settled ∧
    c.holdsValue ∧ m.codeSymbol sym = .ok (iv, m') ∧ c.misses iv = false := by
  have h : yields (treeModel.codeSymbol .escape) (fun r =>
      !Coder.misses { Coder.reset with value := 134217727 } r.1) = true := by decide +kernel
  obtain ⟨r, hr, hm⟩ := yields_elim h
  exact ⟨treeModel, r.2, { Coder.reset with value := 134217727 }, .escape, r.1, treeModel_wf, reset_settled,
    ⟨by decide, by decide⟩, hr, by simpa using hm⟩

theorem witness_Excluded :
    (∃ (m : Model) (x : Int) (b : Byte), m.uni.length = 257 ∧ m.point x = .ok (.byte b)) ∧
    (∃ (m : Model) (b : Byte), m.uni.length = 257 ∧ excluded m.excl b = true) ∧
    ∃ (m m' : Model) (iv : Interval) (n : Node), m.uni.length = 257 ∧ m.codeSymbol .escape = .ok (iv, m') ∧
      m.ctxNode = some n := by
  have h3 : yields (treeModel.codeSymbol .escape) (fun _ => true) = true := by decide +kernel
  obtain ⟨r, hr, -⟩ := yields_elim h3
  exact ⟨⟨treeModel, 0, 0x42, List.length_replicate, by decide +kernel⟩,
    ⟨{ Model.fresh 0 with excl := 1 }, 0, List.length_replicate, by decide⟩,
    ⟨treeModel, r.2, r.1, treeNode, List.length_replicate, hr, by decide +kernel⟩⟩

theorem witness_Escape : ∃ (m m' : Model) (iv : Interval), m.codeSymbol .escape = .ok (iv, m') := by
  obtain ⟨-, -, m, m', iv, -, h⟩ := witness_ModelIntervals
  exact ⟨m, m', iv, h⟩

/-- The same with a context left after the escape: "A" has the children "A" and "B", and "AA" the child "C". -/
theorem witness_Escape_context : ∃ (m m' : Model) (iv : Interval), m.codeSymbol .escape = .ok (iv, m') ∧
    1 ≤ m'.ctxlen := by
  have h : yields (Model.codeSymbol { Model.fresh 2 with
      buf := [0x41, 0x41], ctxlen := 2, nodes := 3
      root := (Model.fresh 2).root.set 0x41 (some ⟨0x41, 1, 1, .cons 0x41 1 1 (.cons 0x43 1 0 .nil .nil)
        (.cons 0x42 1 0 .nil .nil)⟩) } .escape) (fun r => decide (1 ≤ r.2.ctxlen)) = true := by decide +kernel
  obtain ⟨r, hr, hc⟩ := yields_elim h
  exact ⟨_, r.2, r.1, hr, by simpa using hc⟩

/-- The one length of `treeModel`'s search is deterministic; with a second child it is not. -/
theorem witness_Search : ∀ det : Bool, ∃ m : Model, 1 ≤ m.ctxlen ∧ ∀ k, 1 ≤ k → k ≤ m.ctxlen →
    ∃ n, m.lookup k = some n ∧ n.childless m.excl = false ∧ n.deterministic = det
  | true => ⟨treeModel, by decide, fun k h1 h2 =>
      ⟨⟨0x41, 1, 1, .cons 0x42 1 0 .nil .nil⟩, by obtain rfl := Nat.le_antisymm h2 h1; decide +kernel, by decide,
        by decide⟩⟩
  | false => ⟨{ treeModel with
        root := (Model.fresh 1).root.set 0x41 (some ⟨0x41, 1, 2, .cons 0x43 1 0 .nil (.cons 0x42 1 0 .nil .nil)⟩) },
      by decide, fun k h1 h2 => ⟨⟨0x41, 1, 2, .cons 0x43 1 0 .nil (.cons 0x42 1 0 .nil .nil)⟩, by
        obtain rfl := Nat.le_antisymm h2 h1
        decide +kernel, by decide, by decide⟩⟩

theorem witness_Increment : ∃ (m m' : Model) (b : Byte), m.buf.length ≤ m.order + 1 ∧
    m.nodes + m.missing b ≤ Config.nodeCap ∧ m.increment b = .ok m' ∧ m.order = 0 ∧ m.root.length = 256 := by
  have h : yields ((Model.fresh 0).increment 0x41) (fun _ => true) = true := by decide +kernel
  obtain ⟨r, hr, -⟩ := yields_elim h
  exact ⟨_, r, 0x41, by decide, Nat.zero_le _, hr, rfl, List.length_replicate⟩

/-- Also a rescale with one child to prune and one to keep, and at the boundary of the store. -/
theorem witness_NodeIncrement :
    (∃ (n : Node) (b : Byte) (nodes : Nat), n.child b = none ∧ nodes ≤ Config.nodeCap ∧ nodes = Config.nodeCap) ∧
    (∃ (n : Node) (b : Byte) (nodes : Nat), n.child b = none ∧ nodes ≤ Config.nodeCap ∧ nodes + 1 ≤ Config.nodeCap) ∧
    (∃ (n : Node) (b : Byte) (c : Node), n.child b = some c ∧ c.count < maxIndividualCount) ∧
    (∃ (n : Node) (b : Byte) (c : Node), n.child b = some c ∧ c.count = maxIndividualCount ∧
      n.kids.map Node.count = [8192, 255, 256]) ∧
    ∃ (n : Node) (b : Byte) (rest : List Byte) (nodes : Nat) (n' : Node) (nodes' : Nat),
      nodes + n.missing (b :: rest) ≤ Config.nodeCap ∧
      nodeIncrement (b :: rest) n nodes = .ok (n', nodes') ∧ n.children.size ≤ nodes := by
  have h : yields (nodeIncrement [0x42] treeNode 1) (fun _ => true) = true := by decide +kernel
  obtain ⟨r, hr, -⟩ := yields_elim h
  refine ⟨⟨Node.new 0, 0, Config.nodeCap, rfl, Nat.le_refl _, rfl⟩, ⟨Node.new 0, 0, 0, rfl, Nat.zero_le _,
    Nat.succ_le_succ (Nat.zero_le _)⟩, ⟨treeNode, 0x42, _, rfl, by decide⟩,
    ⟨⟨0x41, 1, 3, .cons 1 8192 0 .nil (.cons 2 255 0 .nil (.cons 3 256 0 .nil .nil))⟩, 1, _, rfl, by decide,
      by decide⟩, treeNode, 0x42, [], 1, r.1, r.2, ?_, hr, by decide⟩
  rw [show treeNode.missing [0x42] = 0 by decide]
  exact treeModel_wf.nodes_le

theorem witness_Queries :
    (∃ (s : State) (c : Nat), s.mode ≠ .idle ∧ s.arg0 = natWord c ∧ c < 2 ^ 31 ∧ c < s.model.total ∧
      s.model.ctxNode = none ∧ c = 256) ∧
    (∃ (s : State) (c : Nat) (n : Node), s.mode ≠ .idle ∧ s.arg0 = natWord c ∧ c < 2 ^ 31 ∧ c < s.model.total ∧
      s.model.ctxNode = some n) ∧
    ∃ (s : State) (sym : Sym), s.mode ≠ .idle ∧ sym ≠ .escape ∧ s.arg0 = symWord sym :=
  ⟨⟨encAt 256 0 0, 256, by decide, rfl, by decide, by decide +kernel, by decide +kernel, rfl⟩,
    ⟨{ encAt 1 0 0 with model := treeModel }, 1, treeNode, by decide, rfl, by decide, by decide +kernel,
      by decide +kernel⟩,
    ⟨encAt 0xFFFFFFFF 0 0, .eof, by decide, by decide, rfl⟩⟩

theorem witness_PpmInterval : ∃ (s : State) (sym : Sym) (iv : Interval) (m : Model), s.mode ≠ .idle ∧
    s.model.eofdone = false ∧ s.arg0 = symWord sym ∧ s.model.codeSymbol sym = .ok (iv, m) := by
  have h : yields ((Model.fresh 0).codeSymbol .eof) (fun _ => true) = true := by decide +kernel
  obtain ⟨q, hq, -⟩ := yields_elim h
  exact ⟨encAt 0xFFFFFFFF 0 0, .eof, q.1, q.2, by decide, rfl, rfl, hq⟩

theorem witness_PpmInterval_accepts :
    (∃ (m m' : Model) (n c : Node) (b : Byte), m.ctxNode = some n ∧ m.offers b ∧
      m.nodes + m.missing b ≤ Config.nodeCap ∧ n.child b = some c ∧ m.increment b = .ok m') ∧
    ∃ (m m' : Model) (b : Byte), m.ctxNode = none ∧ m.offers b ∧ m.nodes + m.missing b ≤ Config.nodeCap ∧
      (m.uniBump b.toNat).increment b = .ok m' := by
  have hc : treeModel.ctxNode = some treeNode := by decide +kernel
  have hn : (Model.fresh 0).ctxNode = none := by decide +kernel
  have hf : treeModel.nodes + treeModel.missing 0x42 ≤ Config.nodeCap := by
    rw [show treeModel.missing 0x42 = 0 by decide +kernel]
    exact treeModel_wf.nodes_le
  obtain ⟨m', h⟩ := increment_fits hf
  obtain ⟨m'', h'⟩ := increment_fits (m := (Model.fresh 0).uniBump 0x41) (b := 0x41) (Nat.zero_le _)
  refine ⟨⟨treeModel, m', treeNode, _, 0x42, hc, ⟨by decide, ?_⟩, hf, rfl, h⟩,
    Model.fresh 0, m'', 0x41, hn, ⟨by decide, ?_⟩, Nat.zero_le _, h'⟩
  · intro n h
    rw [hc] at h
    obtain rfl := Option.some.inj h
    decide
  · intro n h
    rw [hn] at h
    cases h

theorem witness_ExcludeIncrement : ∃ (s : State) (b : Byte) (m : Model), s.mode ≠ .idle ∧
    s.model.eofdone = false ∧ s.arg0 = symWord (.byte b) ∧ s.model.increment b = .ok m ∧
    s.model.nodes + s.model.missing b ≤ Config.nodeCap := by
  have h : yields ((Model.fresh 0).increment 0x41) (fun _ => true) = true := by decide +kernel
  obtain ⟨r, hr, -⟩ := yields_elim h
  exact ⟨encAt 0x41 0 0, 0x41, r, by decide, rfl, rfl, hr, Nat.zero_le _⟩

theorem witness_ModelCommands : ∀ i ∈ [Instr.ppmTotal, .ppmPoint, .ppmInterval, .ppmEscaped, .ppmExclude,
    .ppmIncrement], ∃ s t : State, exec i s = .next t ∧ t.ready := by
  have h : ∀ i ∈ [Instr.ppmTotal, .ppmPoint, .ppmInterval, .ppmEscaped, .ppmExclude, .ppmIncrement],
      goesTo (exec i (encAt 0x41 0 0)) isReady = true := by decide +kernel
  intro i hi
  obtain ⟨t, ht, hr⟩ := goesTo_elim (h i hi)
  exact ⟨_, t, ht, isReady_elim hr⟩

theorem witness_RawCommands : ∀ i ∈ [Instr.encInterval, .encClose, .decCount, .decRemove],
    ∃ s t : State, exec i s = .next t ∧ t.err = false := by
  have h1 : ∀ i ∈ [Instr.encInterval, .encClose], goesTo (exec i (encAt 0 1 2)) isReady = true := by decide +kernel
  have h2 : ∀ i ∈ [Instr.decCount, .decRemove], goesTo (exec i (decAt 0 1 2)) isReady = true := by decide +kernel
  intro i hi
  have h : ∃ s : State, goesTo (exec i s) isReady = true := by
    by_cases he : i ∈ [Instr.encInterval, .encClose]
    · exact ⟨_, h1 i he⟩
    · exact ⟨_, h2 i (by revert hi he; cases i <;> decide)⟩
  obtain ⟨s, h⟩ := h
  obtain ⟨t, ht, hr⟩ := goesTo_elim h
  exact ⟨_, t, ht, (isReady_elim hr).2⟩

theorem witness_Misplaced :
    (∃ s : State, s.err = false ∧ s.mode ≠ .enc ∧ s.mode ≠ .dec ∧ s.mode = .idle) ∧
    (∃ s : State, s.err = false ∧ s.mode = .enc ∧ s.closed = true) ∧
    (∃ s : State, s.err = false ∧ s.mode = .dec ∧ s.coder.eos = true) ∧
    ∃ s : State, s.err = false ∧ s.mode = .enc ∧ s.model.eofdone = true :=
  ⟨⟨State.reset, rfl, by decide, by decide, rfl⟩, ⟨{ encAt 0 0 0 with closed := true }, rfl, rfl, rfl⟩,
    ⟨{ decAt 0 0 0 with coder := { Coder.reset with eos := true } }, rfl, rfl, rfl⟩,
    ⟨{ encAt 0 0 0 with model := { Model.fresh 0 with eofdone := true } }, rfl, rfl, rfl⟩⟩

/-- 256 and −3 are the values beside the symbols; (5, 5, 8) has l = h; a total beside 1..2^25 is 0 or 2^25 + 1. -/
theorem witness_BadOperands :
    (∃ s : State, s.err = false ∧ s.mode = .enc ∧ s.closed = false ∧ s.model.eofdone = false ∧
      s.arg0 = 256 ∧ ∀ sym, s.arg0 ≠ symWord sym) ∧
    (∃ s : State, s.err = false ∧ s.mode ≠ .idle ∧ s.model.eofdone = false ∧
      s.arg0 = 0xFFFFFFFD ∧ ∀ sym, s.arg0 ≠ symWord sym) ∧
    (∃ s : State, s.err = false ∧ s.mode = .enc ∧ s.closed = false ∧ ¬(0 ≤ s.arg0.toInt ∧
      s.arg0.toInt < s.arg1.toInt ∧ s.arg1.toInt ≤ s.arg2.toInt ∧ s.arg2.toInt ≤ 2 ^ 25)) ∧
    (∃ s : State, s.err = false ∧ s.mode = .dec ∧ s.coder.eos = false ∧ ¬(0 ≤ s.arg0.toInt ∧
      s.arg0.toInt < s.arg1.toInt ∧ s.arg1.toInt ≤ s.arg2.toInt ∧ s.arg2.toInt ≤ 2 ^ 25) ∧
      ¬(1 ≤ s.arg2.toInt ∧ s.arg2.toInt ≤ 2 ^ 25)) :=
  ⟨⟨encAt 256 0 0, rfl, rfl, rfl, rfl, rfl, symOperand_eq_none.1 (by decide)⟩,
    ⟨encAt 0xFFFFFFFD 0 0, rfl, by decide, rfl, rfl, symOperand_eq_none.1 (by decide)⟩,
    ⟨encAt 5 5 8, rfl, rfl, rfl, by decide⟩, ⟨decAt 0 1 33554433, rfl, rfl, rfl, by decide, by decide⟩⟩

theorem witness_ModelRefusals :
    (∃ s : State, s.err = false ∧ s.mode ≠ .idle ∧ s.arg0.toInt < 0) ∧
    (∃ s : State, s.err = false ∧ s.mode ≠ .idle ∧ (s.model.total : Int) ≤ s.arg0.toInt) ∧
    (∃ s : State, s.err = false ∧ s.mode ≠ .idle ∧ s.model.eofdone = false ∧ s.model.ctxNode = none ∧
      s.arg0 = symWord .escape) ∧
    (∃ (s : State) (n : Node), s.err = false ∧ s.mode ≠ .idle ∧ s.model.eofdone = false ∧
      s.model.ctxNode = some n ∧ s.arg0 = symWord .eof) ∧
    (∃ (s : State) (b : Byte), s.err = false ∧ s.mode = .enc ∧ s.closed = false ∧ s.model.eofdone = false ∧
      s.arg0 = symWord (.byte b) ∧ excluded s.model.excl b = true ∧ s.model.escaped (.byte b) = false) ∧
    ∃ (s : State) (n : Node) (b : Byte), s.err = false ∧ s.mode ≠ .idle ∧ s.model.eofdone = false ∧
      s.model.ctxNode = some n ∧ s.arg0 = symWord (.byte b) ∧ n.child b = none :=
  ⟨⟨encAt 0xFFFFFFFF 0 0, rfl, by decide, by decide⟩, ⟨encAt 257 0 0, rfl, by decide, by decide +kernel⟩,
    ⟨encAt 0xFFFFFFFE 0 0, rfl, by decide, rfl, by decide +kernel, rfl⟩,
    ⟨{ encAt 0xFFFFFFFF 0 0 with model := treeModel }, treeNode, rfl, by decide, rfl, by decide +kernel, rfl⟩,
    ⟨{ encAt 0x42 0 0 with model := { treeModel with excl := exclAdd 0 0x42 } }, 0x42, rfl, rfl, rfl, rfl, rfl,
      by decide, by decide +kernel⟩,
    ⟨{ encAt 0x43 0 0 with model := treeModel }, treeNode, 0x43, rfl, by decide, rfl, by decide +kernel, rfl,
      by decide⟩⟩

/-- The counter at its maximum: in ENC_CLOSE, and in an E3 pass of ENC_INTERVAL and of ENC_SYMBOL. -/
theorem witness_FullStores_counter :
    (∃ s : State, s.err = false ∧ s.mode = .enc ∧ s.closed = false ∧ s.coder.btf = 2 ^ 32 - 1) ∧
    (∃ (s : State) (iv : Interval), s.err = false ∧ s.mode = .enc ∧ s.closed = false ∧ s.argsHold iv ∧ iv.ok = true ∧
      (s.coder.narrow iv).overflows) ∧
    ∃ (s : State) (sym : Sym) (iv : Interval) (m : Model), s.err = false ∧ s.mode = .enc ∧ s.closed = false ∧
      s.model.eofdone = false ∧ sym ≠ .escape ∧ s.arg0 = symWord sym ∧
      s.model.codeSymbol (if s.model.escaped sym then .escape else sym) = .ok (iv, m) ∧ iv.ok = true ∧
      (s.coder.narrow iv).overflows := by
  have now : ∀ c : Coder, c.btf = maxBtf → c.pass = .e3 → c.overflows := fun c hb hp =>
    ⟨0, by decide, hb, fun j hj => by obtain rfl := Nat.le_zero.1 hj; exact hp⟩
  have h : yields ((Model.fresh 0).codeSymbol (.byte 128)) (fun r => r.1.ok &&
      (Coder.narrow { Coder.reset with btf := maxBtf } r.1).pass == .e3) = true := by decide +kernel
  obtain ⟨r, hr, hp⟩ := yields_elim h
  simp only [Bool.and_eq_true, beq_iff_eq] at hp
  exact ⟨⟨{ encAt 0 0 0 with coder := { Coder.reset with btf := 4294967295 } }, rfl, rfl, rfl, rfl⟩,
    ⟨{ encAt 1 3 4 with coder := { Coder.reset with btf := maxBtf } }, ⟨1, 3, 4⟩, rfl, rfl, rfl, ⟨rfl, rfl, rfl⟩,
      by decide, now _ rfl (by decide)⟩,
    ⟨{ encAt 128 0 0 with coder := { Coder.reset with btf := maxBtf } }, .byte 128, r.1, r.2, rfl, rfl, rfl, rfl,
      by decide, rfl, hr, hp.1, now _ rfl hp.2⟩⟩

/-- A full store, outside any context: below the root of "A", whose one child is "B". -/
def fullModel : Model := { treeModel with ctxlen := 0, nodes := Config.nodeCap }

theorem fullModel_offers (b : Byte) : fullModel.offers b :=
  ⟨by show excluded 0 b = false; simp [excluded], fun n h => by rw [ctxNode_zero rfl] at h; cases h⟩

/-- A byte that ends below the root, one below an empty root slot, and one two levels below the root. -/
theorem witness_FullStores_missing :
    (∃ (m : Model) (b : Byte), m.nodes ≤ Config.nodeCap ∧ Config.nodeCap < m.nodes + m.missing b ∧ m.noRescale b ∧
      m.offers b) ∧
    (∃ (m : Model) (b : Byte), m.nodes ≤ Config.nodeCap ∧ Config.nodeCap < m.nodes + m.missing b ∧ m.noRescale b ∧
      m.rootOf 0x41 = none) ∧
    ∃ (m : Model) (b : Byte), m.nodes ≤ Config.nodeCap ∧ Config.nodeCap < m.nodes + m.missing b ∧ m.noRescale b ∧
      (m.incrementPath b).1 = [0x42, b] :=
  ⟨⟨fullModel, 0, Nat.le_refl _, Nat.lt_succ_self _, trivial, fullModel_offers 0⟩,
    ⟨{ fullModel with root := List.replicate 256 none }, 0, Nat.le_refl _, Nat.lt_succ_self _, trivial,
      by decide +kernel⟩,
    ⟨{ fullModel with order := 2, buf := [0x41, 0x42] }, 0, Nat.le_refl _, Nat.lt_succ_self _,
      ⟨by decide, trivial⟩, rfl⟩⟩

theorem witness_FullStores_commands :
    (∃ (s : State) (b : Byte), s.err = false ∧ s.mode = .enc ∧ s.closed = false ∧ s.model.eofdone = false ∧
      s.arg0 = symWord (.byte b) ∧ s.model.increment b = .error .capacity ∧
      s.model.codeSymbol (.byte b) = .error .capacity ∧ s.model.escaped (.byte b) = false) ∧
    ∃ (s : State) (b : Byte), s.err = false ∧ s.mode = .dec ∧ s.coder.eos = false ∧ s.model.eofdone = false ∧
      s.model.codeSymbol (.byte b) = .error .capacity ∧
      s.model.point (s.coder.count s.model.total) = .ok (.byte b) := by
  have hi : ∀ m : Model, m.nodes = Config.nodeCap → m.incrementPath 0 = fullModel.incrementPath 0 →
      m.increment 0 = .error .capacity := fun m hn hp =>
    increment_full (Nat.le_of_eq hn)
      (by rw [hn, Model.missing, hp]; exact Nat.lt_succ_self Config.nodeCap)
      (by rw [Model.noRescale, hp]; trivial)
  have hc : fullModel.codeSymbol (.byte 0) = .error .capacity := by
    have hb : fullModel.byteInterval 0 = .ok (fullModel.uniInterval 0, fullModel.uniBump 0) := by
      unfold Model.byteInterval
      rw [(fullModel_offers 0).1, ctxNode_zero rfl]
      rfl
    rw [Model.codeSymbol, hb]
    simp only [hi (fullModel.uniBump 0) rfl rfl]
  have hp : fullModel.point (Coder.reset.count fullModel.total) = .ok (.byte 0) := by decide +kernel
  exact ⟨⟨{ encAt 0 0 0 with model := fullModel }, 0, rfl, rfl, rfl, rfl, rfl, hi _ rfl rfl, hc, rfl⟩,
    ⟨{ decAt 0 0 0 with model := fullModel }, 0, rfl, rfl, rfl, rfl, hc, hp⟩⟩

theorem witness_IllegalWords : ∃ (w : Word) (s : State), (∀ i, w ≠ encode i) ∧ s.ready :=
  ⟨0x36, State.reset, by intro i; cases i <;> decide, rfl, rfl⟩

theorem witness_Step :
    (∃ (s : State) (w : Word) (i : Instr) (early : Bool) (rest : List HostEvent),
      s.hostq = ⟨.write 0x00 4 w, early⟩ :: rest ∧ early = false ∧ s.canResume = false ∧ decode w = .ok i ∧ s.ready) ∧
    ∃ (s : State) (w : Word) (rest : List HostEvent), s.hostq = ⟨.write 0x00 4 w, true⟩ :: rest ∧
      decode w = .ok .softReset ∧ s.busy = true :=
  ⟨⟨{ State.reset with hostq := [⟨.write 0 4 0x35, false⟩] }, 0x35, .ppmIncrement, false, [], rfl, rfl, by decide,
    by decide, rfl, rfl⟩,
    ⟨{ State.reset with hostq := [cmdWrite 1], busy := true, holdin := true, held := [.readBits 1] }, 1, [], rfl,
      by decide, rfl⟩⟩

theorem witness_HeldCommand :
    (∃ s : State, s.canResume = true ∧ ∀ e ∈ s.hostq.head?, e.early = false) ∧
    (∃ s : State, s.canResume = false ∧ s.hostq = [] ∧ s.busy = true) ∧
    ∃ s : State, s.canResume = false ∧ s.hostq = [] ∧ s.busy = false :=
  ⟨⟨{ decAt 0 0 0 with busy := true, holdin := true, held := [.readBits 1], hostq := [⟨.read 0x1C 4, false⟩] },
    by decide, by decide⟩,
    ⟨{ decAt 0 0 0 with inend := false, busy := true, holdin := true, held := [.readBits 1] }, by decide, rfl, rfl⟩,
    ⟨State.reset, by decide, rfl, rfl⟩⟩

/-- An encoder that has to emit a byte's last bit holds while the output FIFO is full. -/
theorem encRenorm_full {s : State} (hp : s.coder.pass = .e1) (ho : s.bitio.ocnt = 7)
    (hf : Config.outDepth ≤ s.outq.length) :
    encRenorm renormPasses s = .held s .output [.putBit false, .follow true, .encShift 0, .encRenorm 26] := by
  have hb : putBit false s = .held s .output [.putBit false] := by rw [putBit_eq, if_pos ⟨ho, hf⟩]
  show encRenorm (26 + 1) s = _
  unfold encRenorm
  simp only [hp, bitPlusFollow, hb, andThen_held]
  rfl

theorem witness_Holds : ∃ (s s' t : State) (rest : List Task) (q : List Byte), s.bitio.wf ∧
    encRenorm renormPasses s = .held s' .output rest ∧ runTasks rest { s' with outq := q } = .done t := by
  have h : (runTasks [.putBit false, .follow true, .encShift 0, .encRenorm 26] { fullState with outq := [] } matches
      .done _) = true := by decide +kernel
  generalize hr : runTasks [.putBit false, .follow true, .encShift 0, .encRenorm 26] { fullState with outq := [] } = r
    at h
  cases r with
  | done t => exact ⟨fullState, fullState, t, _, [], fullState_wf, encRenorm_full (by decide) rfl fullState_full, hr⟩
  | _ => cases h

/-- ENC_INTERVAL with a hold in which the host takes every byte; ENC_CLOSE and ENC_SYMBOL to their ends. -/
theorem witness_Holds_encoder :
    (∃ (s u t : State) (iv : Interval) (taken : List Byte), s.mode = .enc ∧ s.closed = false ∧ s.bitio.wf ∧
      exec .encInterval s = .next u ∧ u.busy = true ∧ Served u taken [] t ∧ s.argsHold iv ∧ iv.ok = true ∧
      s.coder.btf + renormPasses ≤ maxBtf) ∧
    (∃ s u t : State, s.mode = .enc ∧ s.closed = false ∧ s.bitio.wf ∧ exec .encClose s = .next u ∧ Served u [] [] t ∧
      s.coder.btf < maxBtf) ∧
    ∃ (s u t : State) (sym : Sym) (ivs : List Interval) (m : Model), s.mode = .enc ∧ s.closed = false ∧ s.bitio.wf ∧
      exec .encSymbol s = .next u ∧ Served u [] [] t ∧ s.model.eofdone = false ∧ sym ≠ .escape ∧
      s.arg0 = symWord sym ∧ s.model.encPlan s.model.ctxlen sym = .ok (ivs, m) ∧ (∀ iv ∈ ivs, iv.ok = true) ∧
      s.coder.btf + renormPasses * ivs.length ≤ maxBtf := by
  have h2 : goesTo (exec .encClose (encAt 0 0 0)) isReady = true := by decide +kernel
  have h3 : goesTo (exec .encSymbol (encAt 0xFFFFFFFF 0 0)) isReady = true := by decide +kernel
  have h4 : yields ((Model.fresh 0).encPlan 0 .eof) (fun p => p.1.all Interval.ok && p.1.length == 1) = true := by
    decide +kernel
  obtain ⟨v, hv, hw⟩ := goesTo_elim h2
  obtain ⟨x, hx, hy⟩ := goesTo_elim h3
  obtain ⟨p, hp, hq⟩ := yields_elim h4
  simp only [Bool.and_eq_true, List.all_eq_true, beq_iff_eq] at hq
  refine ⟨?_, ⟨encAt 0 0 0, v, v, rfl, rfl, bitio_reset_wf, hv, .ended (isReady_elim hw).1, by decide⟩,
    ⟨encAt 0xFFFFFFFF 0 0, x, x, .eof, p.1, p.2, rfl, rfl, bitio_reset_wf, hx, .ended (isReady_elim hy).1, rfl,
      by decide, rfl, hp, hq.1, by rw [hq.2]; decide⟩⟩
  let s : State := { fullState with arg1 := 1, arg2 := 2, coder := Coder.reset }
  let v : State := { s.issue (opcode .encInterval) with coder := Coder.reset.narrow ⟨0, 1, 2⟩ }
  have hb : bodyOf .encInterval (s.issue (opcode .encInterval)) =
      .held v .output [.putBit false, .follow true, .encShift 0, .encRenorm 26] := by
    have ho : Interval.ok ⟨0, 1, 2⟩ = true := by decide
    have hb : s.encBarred = false := by decide
    show Run.guard _ s.encBarred _ (Run.ofExcept _ _ _) = _
    rw [operandInterval_of (iv := ⟨0, 1, 2⟩) ⟨rfl, rfl, rfl⟩ ho, hb, guard_false, ofExcept_ok]
    unfold encodeInterval
    rw [ho, Bool.not_true, guard_false]
    exact encRenorm_full (s := v) (by decide) rfl fullState_full
  let u : State := { v with busy := true, holdin := false, holdout := true,
                            held := [.putBit false, .follow true, .encShift 0, .encRenorm 26] }
  have hr : isReady (State.resume { u with outq := [] }) = true := by decide +kernel
  have hx : exec .encInterval s = .next u := by
    rw [exec_eq _ (by simp), hb]
    rfl
  have hs := Served.hold (s := u) (s' := { u with outq := [] }) (taken := u.outq) (pushed := []) rfl
    ⟨by simp, by simp, fun h => by cases h⟩ (by decide +kernel) (.ended (isReady_elim hr).1)
  exact ⟨s, u, _, ⟨0, 1, 2⟩, _, rfl, rfl, fullState_wf, hx, rfl, hs, ⟨rfl, rfl, rfl⟩, by decide, by decide⟩

theorem witness_Holds_decoder :
    (∃ s u t : State, exec .decStart s = .next u ∧ u.busy = true ∧ Served u [] [] t ∧ s.mode = .idle ∧
      s.config.toNat ≤ Config.maxOrder) ∧
    (∃ (s u t : State) (iv : Interval), exec .decRemove s = .next u ∧ u.busy = true ∧ Served u [] [] t ∧
      s.mode = .dec ∧ s.coder.eos = false ∧ s.argsHold iv ∧ iv.ok = true ∧ s.coder.misses iv = false) ∧
    ∃ (s u t : State) (d : Decoded), exec .decSymbol s = .next u ∧ u.busy = true ∧ Served u [] [] t ∧ s.mode = .dec ∧
      s.coder.eos = false ∧ s.model.eofdone = false ∧
      decPlan s.model.ctxlen s.model s.coder (s.inBits ++ bytesBits []) = .ok d := by
  obtain ⟨u, t, h, hb, hs, -⟩ := endsWithInput_elim (o := exec .decStart State.reset) (by decide +kernel)
  obtain ⟨v, w, k, kb, ks, -⟩ := endsWithInput_elim (o := exec .decRemove { decAt 0 1 2 with inend := false })
    (by decide +kernel)
  obtain ⟨x, y, l, lb, ls, -⟩ := endsWithInput_elim (o := exec .decSymbol { decAt 0 0 0 with inend := false })
    (by decide +kernel)
  have hd : yields (decPlan 0 (Model.fresh 0) Coder.reset []) (fun _ => true) = true := by decide +kernel
  obtain ⟨d, hd, -⟩ := yields_elim hd
  exact ⟨⟨_, u, t, h, hb, hs, rfl, Nat.zero_le _⟩,
    ⟨_, v, w, ⟨0, 1, 2⟩, k, kb, ks, rfl, rfl, ⟨rfl, rfl, rfl⟩, by decide, by decide⟩,
    ⟨_, x, y, d, l, lb, ls, rfl, rfl, rfl, hd⟩⟩

theorem witness_InData :
    (∃ s : State, s.err = false ∧ s.inq.length ≠ Config.inDepth ∧ s.inend = false) ∧
    (∃ s : State, s.err = false ∧ s.inq.length = Config.inDepth ∧ s.inend = false) ∧
    ∃ s : State, s.err = false ∧ s.inend = true :=
  ⟨⟨State.reset, rfl, (Nat.succ_ne_zero _).symm, rfl⟩,
    ⟨{ State.reset with inq := List.replicate Config.inDepth 0 }, rfl, List.length_replicate, rfl⟩,
    ⟨decAt 0 0 0, rfl, rfl⟩⟩

theorem witness_OutData :
    (∃ (s : State) (b : Byte) (rest : List Byte), s.err = false ∧ s.outq = b :: rest) ∧
    ∃ s : State, s.err = false ∧ s.outq = [] :=
  ⟨⟨{ State.reset with outq := [0xFF] }, 0xFF, [], rfl, rfl⟩, ⟨State.reset, rfl, rfl⟩⟩

theorem witness_PlainRegisters : ∃ s : State, s.err = false := ⟨State.reset, rfl⟩

theorem witness_StatusFields :
    (∃ s : State, s.err = false) ∧ ∃ s : State, s.err = true ∧ s.inend = true :=
  ⟨⟨State.reset, rfl⟩, ⟨{ decAt 0 0 0 with err := true, errcode := some .desync }, rfl, rfl⟩⟩

theorem witness_Views :
    (∃ s : State, s.err = false ∧ s.outq.length < 2 ^ 16 ∧ s.inq.length < 2 ^ 16) ∧
    (∃ s : State, s.ready ∧ s.coder.low < 2 ^ 32) ∧ (∃ s : State, s.ready ∧ s.bitio.wf ∧ s.bitio.icnt = 8) ∧
    ∃ s : State, ¬ s.ready :=
  ⟨⟨State.reset, rfl, by decide, by decide⟩, ⟨State.reset, ⟨rfl, rfl⟩, by decide⟩,
    ⟨{ State.reset with bitio := { BitIO.reset with icnt := 8 } }, ⟨rfl, rfl⟩,
      ⟨by decide, by decide, by decide⟩, rfl⟩,
    ⟨{ State.reset with err := true }, fun h => by cases h.2⟩⟩

theorem witness_Window :
    (∃ o n : Nat, ¬(n = 4 ∧ o % 4 = 0) ∧ o = 2) ∧ (∃ o n : Nat, n = 4 ∧ o % 4 = 0 ∧ 256 ≤ o ∧ o = 256) ∧
    (∃ o n : Nat, n = 4 ∧ o % 4 = 0 ∧ o < 256 ∧ 0xA0 ≤ o ∧ o = 252) ∧
    (∃ o n : Nat, n = 4 ∧ o % 4 = 0 ∧ o < 256 ∧ 0x68 ≤ o ∧ o < 0x80 ∧ o = 124) ∧
    ∃ o n : Nat, n = 4 ∧ o % 4 = 0 ∧ o < 256 ∧ 0x10 ≤ o ∧ o < 0x24 ∧ o = 32 :=
  ⟨⟨2, 4, by decide, rfl⟩, ⟨256, 4, rfl, rfl, by decide, rfl⟩, ⟨252, 4, rfl, rfl, by decide, by decide, rfl⟩,
    ⟨124, 4, rfl, rfl, by decide, by decide, by decide, rfl⟩, ⟨32, 4, rfl, rfl, by decide, by decide, by decide, rfl⟩⟩

theorem witness_BusyFaulted :
    (∃ (s : State) (w : Word), w ≠ 0x00000001 ∧ s.err = false ∧ s.busy = true) ∧
    ∃ (s : State) (w : Word), w ≠ 0x00000001 ∧ s.err = true :=
  ⟨⟨{ State.reset with busy := true, holdin := true, held := [.readBits 1] }, 0, by decide, rfl, rfl⟩,
    ⟨{ State.reset with err := true, errcode := some .protocol }, 0x10, by decide, rfl⟩⟩

/-- The reset state meets every invariant, and steps: with nothing to do, and into a command. -/
theorem witness_StepKeeps : State.reset.ControlInv ∧ State.reset.BufferInv ∧ State.reset.ModelInv ∧
    State.reset.CoderInv ∧ step State.reset = .next State.reset ∧
    ∃ t, step (State.reset.withFetchWord 32 0x20) = .next t := by
  refine ⟨by constructor <;> decide, fun _ => ⟨bitio_reset_wf, Nat.zero_le _, Nat.zero_le _⟩, fun _ => freshModel_wf,
    fun _ => ⟨⟨by decide, by decide⟩, reset_settled, fun h => by cases h⟩, rfl, ?_⟩
  have h : goesTo (step (State.reset.withFetchWord 32 0x20)) (fun t => t.holdin) = true := by decide +kernel
  obtain ⟨t, ht, -⟩ := goesTo_elim h
  exact ⟨t, ht⟩

end Sys2Proof.Tests
end

section
/-! PROOFS. The register window access by access (R17 to R29, R48, R49), the two resets, and the obligations about
them. -/

namespace Sys2Proof.Proofs

open Sys2Proof.Machine Sys2Proof.Laws

/-! ### Accesses to a register -/

theorem regAt_offsetOf (r : Reg) : regAt (offsetOf r) = some r := by
  cases r with
  | obsExcl j => revert j; decide
  | _ => rfl

theorem offsetOf_of_regAt {o : Nat} {r : Reg} (h : regAt o = some r) : o = offsetOf r := by
  unfold regAt at h
  split at h <;> cases h <;> rfl

theorem hostAct_badAccess (s : State) {o n : Nat} (w : Word) (h : ¬(n = 4 ∧ o % 4 = 0)) :
    s.hostAct (.read o n) = .refused .badAccess ∧ s.hostAct (.write o n w) = .refused .badAccess := by
  have hw : wordAccess o n = false := by simpa [wordAccess] using h
  simp [State.hostAct, hw]

theorem hostAct_outside (s : State) {o : Nat} (w : Word) (ha : o % 4 = 0) (h : 256 ≤ o) :
    s.hostAct (.read o 4) = .fault .outsideWindow ∧ s.hostAct (.write o 4 w) = .fault .outsideWindow := by
  have hi : inWindow o = false := by simpa [inWindow] using h
  simp [State.hostAct, wordAccess, ha, hi]

theorem hostAct_inside (s : State) {o : Nat} (w : Word) (ha : o % 4 = 0) (h : o < 256) :
    s.hostAct (.read o 4) = .next (s.readAt o) ∧ s.hostAct (.write o 4 w) = s.writeAt o w := by
  have hi : inWindow o = true := by simpa [inWindow] using h
  simp [State.hostAct, wordAccess, ha, hi]

theorem offsetOf_inside (r : Reg) : offsetOf r % 4 = 0 ∧ offsetOf r < 256 := by
  cases r with
  | obsExcl j => simp only [offsetOf]; omega
  | _ => decide

/-- A read of a register's word is the register's read. -/
theorem hostAct_read (s : State) (r : Reg) : s.hostAct (.read (offsetOf r) 4) = .next (readReg s r) := by
  obtain ⟨ha, hi⟩ := offsetOf_inside r
  rw [(hostAct_inside s 0 ha hi).1, State.readAt, regAt_offsetOf]

/-- A write of a register's word is the register's write. -/
theorem hostAct_write (s : State) (r : Reg) (w : Word) :
    s.hostAct (.write (offsetOf r) 4 w) = writeReg s w r := by
  obtain ⟨ha, hi⟩ := offsetOf_inside r
  rw [(hostAct_inside s w ha hi).2, State.writeAt, regAt_offsetOf]

theorem writeAt_next (s : State) (o : Nat) (w : Word) : ∃ t, s.writeAt o w = .next t := by
  rcases writeAt_cases s o w with h | ⟨t, h, -⟩
  · rw [h]
    rcases writeCmd_cases s w with h | ⟨-, h⟩ | ⟨-, -, h⟩ | ⟨-, -, ⟨i, -, h⟩ | h⟩
    · exact ⟨_, h⟩
    · exact ⟨_, h⟩
    · exact ⟨_, h⟩
    · rw [h]; exact exec_next i s
    · exact ⟨_, h⟩
  · exact ⟨t, h⟩

/-- The reserved offsets of the window (R17). -/
def reservedOffset (o : Nat) : Prop := o = 0x38 ∨ o = 0x3C ∨ 0x68 ≤ o ∧ o < 0x80 ∨ 0xA0 ≤ o

/-- The offsets of the window that ignore writes: read-only registers and reserved slots (R17, R49, R152). -/
def ignoresWrites (o : Nat) : Prop := 0x10 ≤ o ∧ o < 0x24 ∨ 0x30 ≤ o

theorem not_reservedOffset_offsetOf (r : Reg) : ¬ reservedOffset (offsetOf r) := by
  cases r with
  | obsExcl j => simp only [reservedOffset, offsetOf]; omega
  | _ => simp [reservedOffset, offsetOf]

theorem regAt_reserved {o : Nat} (h : reservedOffset o) : regAt o = none := by
  cases hr : regAt o with
  | none => rfl
  | some r => exact absurd (offsetOf_of_regAt hr ▸ h) (not_reservedOffset_offsetOf r)

theorem readAt_reserved (s : State) {o : Nat} (h : reservedOffset o) : s.readAt o = { s with rdata := 0 } := by
  rw [State.readAt, regAt_reserved h]
  rfl

theorem writeReg_ignored (s : State) (w : Word) {r : Reg} (h : ignoresWrites (offsetOf r)) :
    writeReg s w r = .next s := by
  cases r with
  | cmd | arg0 | arg1 | arg2 | config | inData | inCtrl => simp [ignoresWrites, offsetOf] at h
  | _ => rfl

theorem writeAt_ignored (s : State) {o : Nat} (w : Word) (h : ignoresWrites o) : s.writeAt o w = .next s := by
  unfold State.writeAt
  split
  · rename_i r hr
    exact writeReg_ignored s w (offsetOf_of_regAt hr ▸ h)
  · rfl

/-! ### Views -/

theorem readView_ready {s : State} (h : s.ready) {n : Nat} (hn : n < 2 ^ 32) :
    s.readView n = { s with rdata := BitVec.ofNat 32 n } := by
  have hc : (s.busy || s.err) = false := Bool.or_eq_false_iff.2 h
  rw [State.readView, hc, if_neg (by decide), if_pos hn]
  rfl

theorem readView_not_ready {s : State} (h : ¬ s.ready) (n : Nat) :
    s.readView n = { s with rdata := Config.draw s.draws, draws := s.draws + 1 } := by
  have hc : (s.busy || s.err) = true := by
    by_contra hc
    exact h (by simpa [State.ready] using hc)
  rw [State.readView, if_pos hc]
  rfl

theorem bitsView_eq {b : BitIO} (h : b.wf) : b.bitsView = b.icnt * 256 + b.ocnt := by
  obtain ⟨ho, -, hi⟩ := h
  rw [BitIO.bitsView, Nat.mod_eq_of_lt (by omega), Nat.mod_eq_of_lt (by omega)]

/-- A bit of OBS_EXCLj is the exclusion of its byte (R28). -/
theorem exclView_getLsbD (m : Model) (j : Fin 8) {i : Nat} (hi : i < 32) :
    (BitVec.ofNat 32 (m.exclView j)).getLsbD i = excluded m.excl (BitVec.ofNat 8 (32 * j.val + i)) := by
  have hb : (32 * j.val + i) % 2 ^ 8 = 32 * j.val + i := Nat.mod_eq_of_lt (by omega)
  rw [Model.exclView, BitVec.ofNat_toNat, BitVec.setWidth_eq, BitVec.getLsbD_extractLsb', excluded,
    BitVec.toNat_ofNat, hb]
  simp [hi]

/-! ### The stream registers -/

theorem hostFault_eq {s : State} (he : s.err = false) : s.hostFault = s.hostFaulted := by
  simp [State.hostFault, State.enterFault, State.hostFaulted, he]

theorem writeInData_pushes {s : State} (he : s.err = false) (hn : s.inq.length ≠ Config.inDepth)
    (hi : s.inend = false) (w : Word) : s.writeInData w = { s with inq := s.inq ++ [w.extractLsb' 0 8] } := by
  simp [State.writeInData, he, hi, hn.symm]

theorem writeInData_faults {s : State} (he : s.err = false) (hf : s.inq.length = Config.inDepth ∨ s.inend = true)
    (w : Word) : s.writeInData w = s.hostFaulted := by
  have hc : Config.inDepth = s.inq.length ∨ s.inend = true := hf.imp_left Eq.symm
  rw [State.writeInData, he, if_neg Bool.false_ne_true, if_pos hc, hostFault_eq he]

theorem writeInCtrl_eq {s : State} (he : s.err = false) (w : Word) :
    s.writeInCtrl w = { s with inend := s.inend || w.getLsbD 0 } := by
  rw [State.writeInCtrl, he, if_neg Bool.false_ne_true]

/-- Bit 8 above a byte marks it valid (R26). -/
theorem valid_or_byte (b : Byte) : 0x100 ||| b.setWidth 32 = BitVec.ofNat 32 (256 + b.toNat) := by
  have hb := b.isLt
  apply BitVec.eq_of_toNat_eq
  rw [BitVec.toNat_or, BitVec.toNat_setWidth, BitVec.toNat_ofNat, Nat.mod_eq_of_lt (by omega),
    Nat.mod_eq_of_lt (by omega)]
  exact (Nat.two_pow_add_eq_or_of_lt hb 1).symm

theorem readOutData_cons {s : State} (he : s.err = false) {b : Byte} {rest : List Byte} (hq : s.outq = b :: rest) :
    s.readOutData = { s with outq := rest, rdata := BitVec.ofNat 32 (256 + b.toNat) } := by
  simp only [State.readOutData, he, hq, valid_or_byte, Bool.false_eq_true, if_false]

theorem readOutData_nil {s : State} (he : s.err = false) (hq : s.outq = []) :
    s.readOutData = { s with rdata := 0 } := by
  simp [State.readOutData, State.readExact, he, hq]

/-! ### Fields of a word -/

theorem flagBit_toNat (b : Bool) {i : Nat} (hi : i < 32) : (flagBit b i).toNat = 2 ^ i * b.toNat := by
  have hlt : 2 ^ i < 2 ^ 32 := Nat.pow_lt_pow_right (by decide) hi
  cases b with
  | false => simp [flagBit]
  | true => simpa [flagBit, Nat.one_shiftLeft] using hlt

theorem flagBit_getLsbD (b : Bool) {i : Nat} (hi : i < 32) (k : Nat) :
    (flagBit b i).getLsbD k = (b && decide (k = i)) := by
  cases b with
  | false => simp [flagBit]
  | true => simp [flagBit, ← BitVec.twoPow_eq, BitVec.getLsbD_twoPow, hi, eq_comm]

/-- STATUS.MODE as two flags (R21). -/
theorem modeField_eq (m : Mode) : modeField m = flagBit (m == .enc) 0 ||| flagBit (m == .dec) 1 := by
  cases m <;> decide

theorem mod_four_eq (v : Word) : v.toNat % 4 = (v.getLsbD 0).toNat + 2 * (v.getLsbD 1).toNat := by
  simp only [BitVec.getLsbD, Nat.toNat_testBit]
  omega

/-- The word has bits in the places of EOS, CLOSED, EOFDONE and CTX only (R21). -/
def StreamFlags (w : Word) : Prop := ∀ k, k ∉ [4, 5, 6, 10] → w.getLsbD k = false

theorem statusStream_getLsbD (s : State) (k : Nat) : s.statusStream.getLsbD k =
    (s.coder.eos && decide (k = 4) || s.closed && decide (k = 5) || s.model.eofdone && decide (k = 6) ||
      s.ctxFlag && decide (k = 10)) := by
  simp [State.statusStream, flagBit_getLsbD]

theorem statusExact_getLsbD (s : State) (k : Nat) : s.statusExact.getLsbD k =
    (s.mode == .enc && decide (k = 0) || s.mode == .dec && decide (k = 1) || s.busy && decide (k = 2) ||
      s.err && decide (k = 3) || s.inend && decide (k = 7) || s.holdin && decide (k = 8) ||
      s.holdout && decide (k = 9)) := by
  simp [State.statusExact, modeField_eq, flagBit_getLsbD]

theorem statusStream_flags (s : State) : StreamFlags s.statusStream := by
  intro k hk
  simp only [List.mem_cons, List.not_mem_nil, or_false, not_or] at hk
  simp [statusStream_getLsbD, hk]

theorem masked_flags (d : Word) : StreamFlags (d &&& streamFlagsMask) := by
  intro k hk
  have hm : streamFlagsMask = flagBit true 4 ||| flagBit true 5 ||| flagBit true 6 ||| flagBit true 10 := by decide
  simp only [List.mem_cons, List.not_mem_nil, or_false, not_or] at hk
  simp [hm, flagBit_getLsbD, hk]

/-- A STATUS read: the exact fields, and the stream flags or a draw in their places (R21, R155). -/
theorem readStatus_eq (s : State) : ∃ w, StreamFlags w ∧ (s.err = false → w = s.statusStream) ∧
    s.readStatus = { s with rdata := s.statusExact ||| w, draws := if s.err then s.draws + 1 else s.draws } := by
  cases he : s.err with
  | false =>
    exact ⟨_, statusStream_flags s, fun _ => rfl, by simp [State.readStatus, he, State.readExact, State.status]⟩
  | true =>
    exact ⟨_, masked_flags (Config.draw s.draws), Bool.noConfusion,
      by simp [State.readStatus, he, State.readDrawn, State.statusFaulted]⟩

theorem codeField_lt (c : Option FaultCode) : (codeField c).toNat < 2 ^ 3 := by
  rcases c with _ | c
  · decide
  · cases c <;> decide

/-- ERRCODE as a number: its fields do not overlap (R22). -/
theorem errWord_toNat (s : State) :
    s.errWord.toNat = 2 ^ 16 * s.errhost.toNat + (2 ^ 8 * s.errop.toNat + (codeField s.errcode).toNat) := by
  have hc := codeField_lt s.errcode
  have ho := s.errop.isLt
  rw [Nat.two_pow_add_eq_or_of_lt (by omega), Nat.two_pow_add_eq_or_of_lt (by omega), State.errWord, BitVec.toNat_or,
    BitVec.toNat_or, flagBit_toNat _ (by decide), BitVec.toNat_shiftLeft, BitVec.toNat_setWidth,
    Nat.mod_eq_of_lt (a := s.errop.toNat) (by omega), Nat.shiftLeft_eq, Nat.mod_eq_of_lt (by omega),
    Nat.or_comm, Nat.mul_comm s.errop.toNat, Nat.or_comm (codeField _).toNat]

theorem fifoLevel_eq {s : State} (ho : s.outq.length < 2 ^ 16) (hi : s.inq.length < 2 ^ 16) (d : Word) :
    s.fifoLevel d = BitVec.ofNat 32 (s.outq.length * 2 ^ 16 + s.inq.length) := by
  apply BitVec.eq_of_toNat_eq
  rw [State.fifoLevel, fieldOr, fieldOr, if_pos ho, if_pos hi, BitVec.toNat_or, BitVec.toNat_shiftLeft, natWord_toNat,
    natWord_toNat, BitVec.toNat_ofNat, Nat.mod_eq_of_lt (a := s.outq.length) (by omega),
    Nat.mod_eq_of_lt (a := s.inq.length) (by omega), Nat.shiftLeft_eq, Nat.mod_eq_of_lt (by omega),
    Nat.mod_eq_of_lt (by omega), Nat.mul_comm, Nat.two_pow_add_eq_or_of_lt hi]

/-! ### The obligations -/

/-- Settles O51: every field of STATUS is read off bit by bit. -/
theorem statusFieldsStandInTheirPlaces : Obligations.StatusFieldsStandInTheirPlaces := by
  intro s
  obtain ⟨w, hw, hs, hr⟩ := readStatus_eq s
  have bit : ∀ k, k ∉ [4, 5, 6, 10] → (s.statusExact ||| w).getLsbD k = s.statusExact.getLsbD k := fun k hk => by
    rw [BitVec.getLsbD_or, hw k hk, Bool.or_false]
  refine ⟨s.statusExact ||| w, (hostAct_read s .status).trans (congrArg _ hr), ?_, ?_, ?_, ?_, ?_, ?_, ?_, ?_⟩
  · rw [mod_four_eq, bit 0 (by decide), bit 1 (by decide), statusExact_getLsbD, statusExact_getLsbD]
    cases s.mode <;> simp
  · rw [bit 2 (by decide), statusExact_getLsbD]; simp
  · rw [bit 3 (by decide), statusExact_getLsbD]; simp
  · rw [bit 7 (by decide), statusExact_getLsbD]; simp
  · rw [bit 8 (by decide), statusExact_getLsbD]; simp
  · rw [bit 9 (by decide), statusExact_getLsbD]; simp
  · refine Nat.lt_pow_two_of_testBit _ fun k hk => (bit k (by simp; omega)).trans ?_
    rw [statusExact_getLsbD]
    simp only [show k ≠ 0 ∧ k ≠ 1 ∧ k ≠ 2 ∧ k ≠ 3 ∧ k ≠ 7 ∧ k ≠ 8 ∧ k ≠ 9 by omega]
    simp
  · intro he
    simp only [hs he, BitVec.getLsbD_or, statusExact_getLsbD, statusStream_getLsbD]
    simp [State.ctxFlag]

/-- Settles O52: ERRCODE and FIFO_LEVEL as sums of their fields, OBS_EXCL bit by bit. -/
theorem recordLevelAndExclusionViews : Obligations.RecordLevelAndExclusionViews := by
  intro s
  refine ⟨⟨s.errWord, hostAct_read s .errcode, ?_⟩, fun he ho hi => ?_, fun hr j =>
    ⟨BitVec.ofNat 32 (s.model.exclView j), ?_, fun i hi => exclView_getLsbD s.model j hi⟩⟩
  · have hop := s.errop.isLt
    have hhost := Bool.toNat_le s.errhost
    have hcode := codeField_lt s.errcode
    have hword := errWord_toNat s
    refine ⟨?_, by omega, ?_, by omega⟩
    · calc s.errWord.toNat % 16 = (codeField s.errcode).toNat := by omega
        _ = _ := by
          rcases s.errcode with _ | c
          · rfl
          · cases c <;> rfl
    · have hbit : s.errWord.toNat / 2 ^ 16 % 2 = s.errhost.toNat := by omega
      rw [BitVec.getLsbD, Nat.testBit_eq_decide_div_mod_eq, hbit]
      cases s.errhost <;> rfl
  · have h := hostAct_read s .fifoLevel
    rw [readReg, State.readFifoLevel, he, if_neg (by decide), if_pos ⟨ho, hi⟩, fifoLevel_eq ho hi] at h
    exact h
  · exact (hostAct_read s (.obsExcl j)).trans (congrArg _ (readView_ready hr (BitVec.isLt _)))

/-- Settles O1: the values of the reset state one by one, and the two resets as the model writes them. -/
theorem resetLeavesTheStatedValues : Obligations.ResetLeavesTheStatedValues := by
  refine ⟨?_, fun s => ⟨rfl, rfl⟩⟩
  have hroot : ∀ b, State.reset.model.rootOf b = none := fun b =>
    List.getD_replicate none (show b.toNat < 256 from b.isLt)
  have huni : ∀ u ∈ State.reset.model.uni, u = 1 := fun u hu => List.eq_of_mem_replicate hu
  have hlen : State.reset.model.uni.length = 257 := List.length_replicate
  exact ⟨rfl, rfl, rfl, rfl, rfl, rfl, rfl, rfl, rfl, rfl, rfl, rfl, rfl, rfl, rfl, rfl, rfl, rfl, rfl, rfl, rfl, rfl,
    rfl, rfl, rfl, rfl, rfl, rfl, rfl, rfl, rfl, rfl, rfl, rfl, rfl, hroot, rfl, rfl, hlen, huni, rfl⟩

/-- Settles O48, by the two outcomes of the IN_DATA write. -/
theorem inDataPushesOrFaults : Obligations.InDataPushesOrFaults := by
  intro s w he
  have hw : s.hostAct (.write 0x28 4 w) = .next (s.writeInData w) := hostAct_write s .inData w
  refine ⟨fun hn hi => ?_, fun hf => ?_, hostAct_read s .inData⟩
  · rw [hw, writeInData_pushes he hn hi]
  · rw [hw, writeInData_faults he hf]

/-- Settles O49, by the two outcomes of the OUT_DATA read. -/
theorem outDataPopsTheHead : Obligations.OutDataPopsTheHead := by
  intro s w he
  have hr : s.hostAct (.read 0x30 4) = .next s.readOutData := hostAct_read s .outData
  refine ⟨fun b rest hq => ?_, fun hq => ?_, hostAct_write s .outData w⟩
  · rw [hr, readOutData_cons he hq]
  · rw [hr, readOutData_nil he hq]

/-- Settles O50, register by register. -/
theorem plainRegistersReadBack : Obligations.PlainRegistersReadBack := by
  intro s w
  have hcfg : s.hostAct (.read 0x24 4) = .next (s.readExact (s.config.setWidth 32)) := hostAct_read s .config
  have hctrl : s.hostAct (.write 0x2C 4 w) = .next (s.writeInCtrl w) := hostAct_write s .inCtrl w
  refine ⟨hostAct_write s .arg0 w, hostAct_write s .arg1 w, hostAct_write s .arg2 w, hostAct_write s .config w,
    hostAct_read s .arg0, hostAct_read s .arg1, hostAct_read s .arg2, ?_, fun he => ?_,
    hostAct_read s .inCtrl⟩
  · rw [hcfg, ← BitVec.ofNat_toNat]
    rfl
  · rw [hctrl, writeInCtrl_eq he]

/-- Settles O53: every such read is a view of one number. -/
theorem viewsAreExactOnlyWhenReady : Obligations.ViewsAreExactOnlyWhenReady := by
  intro s views
  have reads : ∀ v ∈ views, s.hostAct (.read v.1 4) = .next (s.readView v.2) := by
    simp only [views, List.forall_mem_cons]
    exact ⟨rfl, rfl, rfl, rfl, rfl, rfl, rfl, rfl, rfl, rfl, rfl, rfl, by simp⟩
  have others : ∀ o ∈ [0x60, 0x80, 0x84, 0x88, 0x8C, 0x90, 0x94, 0x98, 0x9C],
      ∃ n, s.hostAct (.read o 4) = .next (s.readView n) := by
    simp only [List.forall_mem_cons]
    exact ⟨⟨_, rfl⟩, ⟨_, rfl⟩, ⟨_, rfl⟩, ⟨_, rfl⟩, ⟨_, rfl⟩, ⟨_, rfl⟩, ⟨_, rfl⟩, ⟨_, rfl⟩, ⟨_, rfl⟩,
      by simp⟩
  have bits : s.hostAct (.read 0x60 4) = .next (s.readView s.bitio.bitsView) := rfl
  refine ⟨fun hr v hv hn => ?_, fun hr hw => ?_, fun hr o ho => ?_, rfl⟩
  · rw [reads v hv, readView_ready hr hn]
  · rw [bits, bitsView_eq hw, readView_ready hr]
    obtain ⟨h1, -, h2⟩ := hw
    omega
  · have view : ∃ n, s.hostAct (.read o 4) = .next (s.readView n) := by
      rcases List.mem_append.1 ho with ho | ho
      · obtain ⟨v, hv, rfl⟩ := List.mem_map.1 ho
        exact ⟨_, reads v hv⟩
      · exact others o ho
    obtain ⟨n, hn⟩ := view
    exact ⟨_, hn.trans (congrArg _ (readView_not_ready hr n))⟩

/-- Settles O54, by the kinds of offset. -/
theorem windowAdmitsAlignedWords : Obligations.WindowAdmitsAlignedWords := by
  intro s o n w
  refine ⟨hostAct_badAccess s w, ?_, ?_⟩
  · rintro rfl ha h
    exact hostAct_outside s w ha h
  · rintro rfl ha h
    obtain ⟨hr, hw⟩ := hostAct_inside s w ha h
    rw [hr, hw]
    obtain ⟨u, hu⟩ := writeAt_next s o w
    exact ⟨⟨_, u, rfl, hu⟩, fun ho => by rw [readAt_reserved s ho], fun ho => writeAt_ignored s w ho⟩

end Sys2Proof.Proofs
end

section
/-! PROOFS. What one step makes of the state, as eight moves, and the invariants that every move keeps
(R52, R150 to R155). -/

namespace Sys2Proof.Proofs

open Sys2Proof.Machine Sys2Proof.Laws

/-! ### The moves of a step -/

/-- What a step can make of a state. A host access that reaches no unit is the one move `host`, and both resets are
the one move `reset`, each with the values it leaves in the fields that the invariants do not speak of. -/
inductive Move (s : State) : State → Prop where
  | host (x y z : Word) (cfg : BitVec 16) (ended : Bool) (q : List HostEvent) (v : Word) (d : Nat) :
      Move s { s with arg0 := x, arg1 := y, arg2 := z, config := cfg, inend := ended, hostq := q, rdata := v,
                      draws := d }
  | popped (q : List HostEvent) (v : Word) (d : Nat) : s.err = false →
      Move s { s with hostq := q, rdata := v, draws := d, outq := s.outq.tail }
  | pushed (q : List HostEvent) (b : Byte) : s.err = false → s.inq.length ≠ Config.inDepth →
      Move s { s with hostq := q, inq := s.inq ++ [b] }
  | reset (x y z : Word) (cfg : BitVec 16) (q : List HostEvent) (v : Word) (d : Nat) :
      Move s { State.reset with arg0 := x, arg1 := y, arg2 := z, config := cfg, hostq := q, rdata := v, draws := d }
  | hostFault (q : List HostEvent) : s.err = false → Move s { s with hostq := q }.hostFault
  | illegal (q : List HostEvent) (op : Byte) : s.err = false → Move s ({ s with hostq := q }.illegalCommand op)
  | ran (q : List HostEvent) (i : Instr) : s.err = false → s.busy = false →
      Move s (bodyOf i ({ s with hostq := q }.issue (opcode i))).finish
  | resumed : s.canResume = true → Move s s.resume

theorem Move.idle (s : State) (q : List HostEvent) : Move s { s with hostq := q } :=
  .host s.arg0 s.arg1 s.arg2 s.config s.inend q s.rdata s.draws

theorem Move.softReset (s : State) (q : List HostEvent) : Move s { s with hostq := q }.softReset :=
  .reset s.arg0 s.arg1 s.arg2 s.config q s.rdata s.draws

theorem move_of_readAt (s : State) (q : List HostEvent) (o : Nat) : Move s ({ s with hostq := q }.readAt o) := by
  obtain ⟨v, d, h | ⟨he, -, h⟩⟩ := readAt_cases { s with hostq := q } o <;> rw [h]
  · exact .host s.arg0 s.arg1 s.arg2 s.config s.inend q v d
  · exact .popped q v d he

theorem move_of_exec {s t : State} {q : List HostEvent} {i : Instr} (he : s.err = false) (hb : s.busy = false)
    (h : exec i { s with hostq := q } = .next t) : Move s t := by
  by_cases hi : i = .softReset
  · subst hi
    obtain rfl := Host.Outcome.next.inj h
    exact .softReset s q
  · rw [exec_eq i hi] at h
    obtain rfl := Host.Outcome.next.inj h
    exact .ran q i he hb

theorem move_of_writeCmd {s t : State} {q : List HostEvent} {w : Word}
    (h : { s with hostq := q }.writeCmd w = .next t) : Move s t := by
  rcases writeCmd_cases { s with hostq := q } w with
      k | ⟨-, k⟩ | ⟨he, -, k⟩ | ⟨he, hb, ⟨i, -, k⟩ | k⟩ <;>
    rw [k] at h
  · obtain rfl := Host.Outcome.next.inj h
    exact .softReset s q
  · obtain rfl := Host.Outcome.next.inj h
    exact .idle s q
  · obtain rfl := Host.Outcome.next.inj h
    exact .hostFault q he
  · exact move_of_exec he hb h
  · obtain rfl := Host.Outcome.next.inj h
    exact .illegal q _ he

theorem move_of_plainWrite {s t : State} {q : List HostEvent} {w : Word} (h : PlainWrite { s with hostq := q } w t) :
    Move s t := by
  cases h with
  | ignored => exact .idle s q
  | arg0 => exact .host w s.arg1 s.arg2 s.config s.inend q s.rdata s.draws
  | arg1 => exact .host s.arg0 w s.arg2 s.config s.inend q s.rdata s.draws
  | arg2 => exact .host s.arg0 s.arg1 w s.config s.inend q s.rdata s.draws
  | config => exact .host s.arg0 s.arg1 s.arg2 _ s.inend q s.rdata s.draws
  | pushed he hn _ => exact .pushed q _ he hn
  | refused he => exact .hostFault q he
  | ended _ => exact .host s.arg0 s.arg1 s.arg2 s.config _ q s.rdata s.draws

theorem move_of_hostAct {s t : State} {q : List HostEvent} {a : HostAct}
    (h : { s with hostq := q }.hostAct a = .next t) : Move s t := by
  rcases hostAct_cases h with rfl | ⟨o, rfl⟩ | ⟨o, w, k⟩
  · exact .reset 0 0 0 0 q s.rdata s.draws
  · exact move_of_readAt s q o
  · rcases writeAt_cases { s with hostq := q } o w with e | ⟨u, e, hu⟩ <;> rw [e] at k
    · exact move_of_writeCmd k
    · obtain rfl := Host.Outcome.next.inj k
      exact move_of_plainWrite hu

/-- Every step that gives a next state is one of the moves. -/
theorem move_of_step {s t : State} (h : step s = .next t) : Move s t := by
  rcases step_cases h with ⟨e, q, -, -, k⟩ | ⟨hr, rfl⟩ | ⟨-, -, rfl⟩
  · exact move_of_hostAct k
  · exact .resumed hr
  · exact .idle t t.hostq

/-! ### The end of a command -/

theorem meets_and {r : Run} {D E : State → Prop} {H I : State → HoldKind → List Task → Prop}
    {F G : State → FaultCode → Prop} (h : Meets r D H F) (k : Meets r E I G) :
    Meets r (fun t => D t ∧ E t) (fun t x ts => H t x ts ∧ I t x ts) fun t c => F t c ∧ G t c := by
  cases r with
  | done t => exact ⟨h, k⟩
  | held t x ts => exact ⟨h, k⟩
  | raised t c => exact ⟨h, k⟩

/-- What every end of a run leads to holds of the state that the run ends in. -/
theorem finish_of_meets {P D : State → Prop} {r : Run} {H : State → HoldKind → List Task → Prop}
    {F : State → FaultCode → Prop} (h : Meets r D H F) (hD : ∀ t, D t → P (Run.done t).finish)
    (hH : ∀ t k ts, H t k ts → P (Run.held t k ts).finish) (hF : ∀ t c, F t c → P (Run.raised t c).finish) :
    P r.finish := by
  cases r with
  | done t => exact hD t h
  | held t k ts => exact hH t k ts h
  | raised t c => exact hF t c h

theorem err_of_streamOnly {s t : State} (h : StreamOnly s t) : t.err = s.err := by rw [h]

theorem mode_of_streamOnly {s t : State} (h : StreamOnly s t) : t.mode = s.mode := by rw [h]

/-- A held command that goes on leaves a fault record standing. -/
theorem resume_err {s : State} (h : s.resume.err = false) : s.err = false := by
  revert h
  refine finish_of_meets (P := fun t => t.err = false → s.err = false) (runTasks_framed s.held _)
    (fun t ht h => ?_) (fun t _ ts ht h => ?_) fun t c _ h => ?_
  · exact (err_of_streamOnly ht).symm.trans h
  · exact (err_of_streamOnly ht.1).symm.trans h
  · cases h

/-- `X` while no fault has been raised: the form of the invariants of buffers, model and coder. -/
def FaultFree (X : State → Prop) (s : State) : Prop := s.err = false → X s

/-- A run that raises a fault ends in the fault state, so its other two ends decide. -/
theorem faultFree_finish {X D : State → Prop} {r : Run} {H : State → HoldKind → List Task → Prop}
    {F : State → FaultCode → Prop} (h : Meets r D H F) (hD : ∀ t, D t → X (Run.done t).finish)
    (hH : ∀ t k ts, H t k ts → X (Run.held t k ts).finish) : FaultFree X r.finish :=
  finish_of_meets h (fun t ht _ => hD t ht) (fun t k ts ht _ => hH t k ts ht) fun _ _ _ he => nomatch he

/-! ### The control flags -/

/-- Nothing in execution. -/
structure Quiet (s : State) : Prop where
  busy : s.busy = false
  holdin : s.holdin = false
  holdout : s.holdout = false
  held : s.held = []

/-- No fault on record. -/
structure RecordEmpty (s : State) : Prop where
  err : s.err = false
  errcode : s.errcode = none
  errop : s.errop = 0
  errhost : s.errhost = false

theorem controlInv_of_quiet {s : State} (h : Quiet s) (code : s.err = s.errcode.isSome)
    (host : s.errhost = (s.errcode == some .hostIo)) (hop : s.errhost = true → s.errop = 0)
    (free : s.err = false → s.errop = 0) : s.ControlInv where
  busy_held := by rw [h.busy, h.held]; rfl
  busy_hold := by rw [h.busy, h.holdin, h.holdout]; rfl
  one_hold := by rw [h.holdin]; rfl
  err_idle := fun _ => h.busy
  err_code := code
  host_code := host
  host_op := hop
  no_fault_op := free

theorem RecordEmpty.controlInv {s : State} (h : RecordEmpty s) (hq : Quiet s) : s.ControlInv :=
  controlInv_of_quiet hq (by rw [h.err, h.errcode]; rfl) (by rw [h.errhost, h.errcode]; rfl) (fun _ => h.errop)
    fun _ => h.errop

/-- Without a fault the control invariant leaves the record empty. -/
theorem recordEmpty_of_controlInv {s : State} (h : s.ControlInv) (he : s.err = false) : RecordEmpty s := by
  have hc : s.errcode = none := by simpa [he] using h.err_code
  exact ⟨he, hc, h.no_fault_op he, by rw [h.host_code, hc]; rfl⟩

theorem quiet_of_controlInv {s : State} (h : s.ControlInv) (hb : s.busy = false) : Quiet s := by
  have hh : s.holdin = false ∧ s.holdout = false := by simpa [hb] using h.busy_hold
  exact ⟨hb, hh.1, hh.2, by simpa [hb] using h.busy_held⟩

/-- A block that can go on has a command in execution and no fault. -/
theorem err_of_canResume {s : State} (h : s.ControlInv) (hr : s.canResume = true) : s.err = false := by
  by_contra he
  have hq := quiet_of_controlInv h (h.err_idle (by simpa using he))
  simp [State.canResume, hq.holdin, hq.holdout] at hr

/-- The first fault on record: HOSTSRC marks HOST_IO, which has no opcode (R22, R154). -/
theorem enterFault_controlInv {s : State} (he : s.err = false) {code : FaultCode} {op : Byte} {host : Bool}
    (hc : host = (code == .hostIo)) (hop : host = true → op = 0) : (s.enterFault code op host).ControlInv :=
  controlInv_of_quiet ⟨rfl, rfl, rfl, rfl⟩ (by simp [he]) (by simp [he, hc]) (by simpa [he] using hop) (by simp)

theorem commandFault_controlInv {s : State} (he : s.err = false) {code : FaultCode} (hc : code ≠ .hostIo) :
    (s.commandFault code).ControlInv :=
  { enterFault_controlInv (op := s.op) (host := false) he (by simp [hc]) Bool.noConfusion with }

/-- A command or the rest of one, begun without a fault, ends with its flags in agreement. -/
theorem controlInv_of_meets {r : Run} (h : Meets r RecordEmpty (fun t _ ts => RecordEmpty t ∧ ts ≠ [])
    fun t c => RecordEmpty t ∧ c ≠ .hostIo) : r.finish.ControlInv := by
  refine finish_of_meets h (fun t ht => ?_) (fun t k ts ⟨ht, hts⟩ => ?_) fun t c ⟨ht, hc⟩ => ?_
  · exact RecordEmpty.controlInv ⟨ht.err, ht.errcode, ht.errop, ht.errhost⟩ ⟨rfl, rfl, rfl, rfl⟩
  · exact {
      busy_held := by simp [Run.finish, hts]
      busy_hold := by cases k <;> rfl
      one_hold := by cases k <;> rfl
      err_idle := fun he => absurd (ht.err.symm.trans he) Bool.noConfusion
      err_code := by simp [Run.finish, ht.err, ht.errcode]
      host_code := by simp [Run.finish, ht.errhost, ht.errcode]
      host_op := fun _ => ht.errop
      no_fault_op := fun _ => ht.errop }
  · exact commandFault_controlInv ht.err hc

theorem recordEmpty_of_streamAndMode {s t : State} (h : StreamAndMode s t) (hs : RecordEmpty s) : RecordEmpty t := by
  rw [h]
  exact ⟨hs.err, hs.errcode, hs.errop, hs.errhost⟩

theorem controlInv_of_bodyFramed {s : State} {r : Run} (h : BodyFramed s r) (hs : RecordEmpty s) :
    r.finish.ControlInv :=
  controlInv_of_meets <| Meets.mono h (fun _ ht => recordEmpty_of_streamAndMode ht hs)
    (fun _ _ _ ht => ⟨recordEmpty_of_streamAndMode ht.1 hs, ht.2⟩) fun _ _ ht =>
      ⟨recordEmpty_of_streamAndMode ht.1 hs, ht.2⟩

theorem move_keeps_controlInv {s t : State} (h : s.ControlInv) (m : Move s t) : t.ControlInv := by
  cases m with
  | host => exact { h with }
  | popped => exact { h with }
  | pushed => exact { h with }
  | reset => exact RecordEmpty.controlInv ⟨rfl, rfl, rfl, rfl⟩ ⟨rfl, rfl, rfl, rfl⟩
  | hostFault q he => exact enterFault_controlInv (s := { s with hostq := q }) he rfl fun _ => rfl
  | illegal q op he =>
    exact enterFault_controlInv (s := { s with hostq := q }.issue op) (code := .illegalCmd) he rfl fun h => nomatch h
  | ran q i he hb =>
    obtain ⟨h1, h2, h3, h4⟩ := recordEmpty_of_controlInv h he
    exact controlInv_of_bodyFramed (body_framed i _) ⟨h1, h2, h3, h4⟩
  | resumed hr =>
    obtain ⟨h1, h2, h3, h4⟩ := recordEmpty_of_controlInv h (err_of_canResume h hr)
    exact controlInv_of_bodyFramed (runTasks_framed s.held _).body ⟨h1, h2, h3, h4⟩

/-! ### Packer, unpacker and FIFOs -/

theorem reset_buffered : Buffered State.reset := ⟨bitio_reset_wf, Nat.zero_le _, Nat.zero_le _⟩

theorem bufferInv_of_keepsBuffers {r : Run} (h : KeepsBuffers r) : r.finish.BufferInv :=
  faultFree_finish (X := Buffered) h (fun _ ht => ht) fun _ _ _ ht => ht

theorem move_keeps_bufferInv {s t : State} (h : s.BufferInv) (m : Move s t) : t.BufferInv := by
  cases m with
  | host => exact h
  | popped q v d he =>
    obtain ⟨hw, hi, ho⟩ := h he
    exact fun _ => ⟨hw, hi, by simpa using Nat.le_succ_of_le ho⟩
  | pushed q b he hn =>
    obtain ⟨hw, hi, ho⟩ := h he
    exact fun _ => ⟨hw, by simpa using lt_of_le_of_ne hi hn, ho⟩
  | reset => exact fun _ => reset_buffered
  | hostFault => exact fun he => nomatch he
  | illegal => exact fun he => nomatch he
  | ran q i he _ => exact bufferInv_of_keepsBuffers (body_buffers i (s := State.issue _ _) (h he))
  | resumed => exact fun ht => bufferInv_of_keepsBuffers (runTasks_buffers s.held (h (resume_err ht))) ht

/-! ### The model -/

theorem modelInv_of_keepsModel {r : Run} (h : KeepsModel r) : r.finish.ModelInv :=
  faultFree_finish (X := fun t => t.model.Wf) h (fun _ ht => ht) fun _ _ _ ht => ht

theorem move_keeps_modelInv {s t : State} (h : s.ModelInv) (m : Move s t) : t.ModelInv := by
  cases m with
  | host => exact h
  | popped => exact h
  | pushed => exact h
  | reset => exact fun _ => fresh_wf (Nat.zero_le _)
  | hostFault => exact fun he => nomatch he
  | illegal => exact fun he => nomatch he
  | ran q i he _ => exact modelInv_of_keepsModel (body_keeps i (s := State.issue _ _) (h he))
  | resumed => exact fun ht => modelInv_of_keepsModel (runTasks_keeps s.held (h (resume_err ht))) ht

/-! ### The coder -/

/-- In DEC mode the piece ends with the value in the interval, counting in the code bits due when it holds (R91). -/
def KeepsValue (r : Run) : Prop :=
  Meets r (fun t => t.mode = .dec → t.coder.holdsValue)
    (fun t _ ts => t.mode = .dec → valueInInterval ts t.coder) fun _ _ => True

/-- A piece of a command outside DEC mode: no piece changes the mode. -/
theorem keepsValue_of_framed {s : State} {r : Run} (h : Framed s r) (hm : s.mode ≠ .dec) : KeepsValue r :=
  Meets.mono h (fun _ ht hd => absurd ((mode_of_streamOnly ht).symm.trans hd) hm)
    (fun _ _ _ ht hd => absurd ((mode_of_streamOnly ht.1).symm.trans hd) hm) fun _ _ _ => trivial

/-- The decoder's pieces keep the value inside whatever the model and the fault are. -/
def DecodesAny (r : Run) : Prop := Decodes (fun _ => True) (fun _ => True) r

theorem decodesSym_any : DecodesSym (fun _ => True) fun _ => True :=
  fun _ _ => ⟨fun _ _ => trivial, fun _ _ _ => trivial⟩

theorem DecodesAny.keepsValue {r : Run} (h : DecodesAny r) : KeepsValue r :=
  Meets.mono h (fun _ ht _ => ht.2.1) (fun _ _ _ ht _ => ht.2.1) fun _ _ h => h

theorem mode_of_encBarred {s : State} (h : s.encBarred = false) : s.mode ≠ .dec := by
  intro hm
  simp [State.encBarred, hm] at h

theorem mode_of_decBarred {s : State} (h : s.decBarred = false) : s.mode = .dec := by
  simp only [State.decBarred, Bool.or_eq_false_iff, bne_eq_false_iff_eq] at h
  exact h.1

theorem KeepsValue.guard {s : State} {bad : Bool} {c : FaultCode} {r : Run} (h : bad = false → KeepsValue r) :
    KeepsValue (Run.guard s bad c r) :=
  Meets.guard (fun _ => trivial) h

theorem KeepsValue.ofExcept {α : Type} {s : State} {e : Except FaultCode α} {f : α → Run}
    (h : ∀ a, e = .ok a → KeepsValue (f a)) : KeepsValue (Run.ofExcept s e f) :=
  Meets.ofExcept (fun _ _ => trivial) h

/-- A value that the narrowed bounds do not miss lies in them (R98). -/
theorem holdsValue_of_remove {c d : Coder} {iv : Interval} (h : c.remove iv = .ok d) : d.holdsValue := by
  obtain ⟨hm, rfl⟩ := remove_ok h
  simp only [Coder.misses, decide_eq_false_iff_not, not_or, Nat.not_lt] at hm
  exact hm

/-- Every command's body keeps the value inside, or brings it there. -/
theorem body_keepsValue (i : Instr) {s : State} (hs : s.coder.settled) (hv : s.mode = .dec → s.coder.holdsValue) :
    KeepsValue (bodyOf i s) := by
  cases i with
  | nop => exact hv
  | softReset => exact hv
  | encStart => exact .guard fun _ => .guard fun _ hm => nomatch hm
  | encInterval =>
    exact .guard fun hb => .ofExcept fun iv _ =>
      keepsValue_of_framed (encodeInterval_framed iv s) (mode_of_encBarred hb)
  | encClose =>
    exact .guard fun hb => .guard fun _ => keepsValue_of_framed (closeStream_framed s) (mode_of_encBarred hb)
  | encSymbol =>
    refine .guard fun hb => ?_
    split
    · trivial
    · exact keepsValue_of_framed (encLoop_framed _ _ _ s) (mode_of_encBarred (Bool.or_eq_false_iff.1 hb).1)
  | decStart => exact .guard fun _ => .guard fun _ => DecodesAny.keepsValue (decPrime_decodes trivial)
  | decCount => exact .guard fun _ => .ofExcept fun _ _ => hv
  | decRemove =>
    refine .guard fun _ => .ofExcept fun iv hi => .ofExcept fun c hc => DecodesAny.keepsValue ?_
    obtain ⟨-, rfl⟩ := remove_ok hc
    exact decRenorm_decodes renormPasses (enoughPasses_renorm (narrow_ordered hs (operandInterval_ok hi)))
      (holdsValue_of_remove hc) trivial
  | decSymbol =>
    refine .guard fun hb => DecodesAny.keepsValue ?_
    have hm := mode_of_decBarred (Bool.or_eq_false_iff.1 hb).1
    exact decLoop_decodes decodesSym_any _ _ ⟨hs, hv hm, trivial⟩
  | ppmTotal => exact .guard fun _ => hv
  | ppmPoint => exact .guard fun _ => .ofExcept fun _ _ => hv
  | ppmInterval =>
    refine .guard fun _ => ?_
    split
    · trivial
    · exact .ofExcept fun _ _ => hv
  | ppmEscaped =>
    refine .guard fun _ => ?_
    split
    · trivial
    · exact hv
  | ppmExclude =>
    refine .guard fun _ => ?_
    split
    · trivial
    · exact hv
  | ppmIncrement =>
    refine .guard fun _ => ?_
    split
    · trivial
    · exact .ofExcept fun _ _ => hv

/-- The rest of a held command keeps the value inside. -/
theorem runTasks_keepsValue {ts : List Task} {s : State} (hs : tasksSettle ts s.coder)
    (hv : s.mode = .dec → valueInInterval ts s.coder) : KeepsValue (runTasks ts s) := by
  by_cases hm : s.mode = .dec
  · exact DecodesAny.keepsValue (runTasks_decodes decodesSym_any hs (hv hm) trivial)
  · exact keepsValue_of_framed (runTasks_framed ts s) hm

theorem coderInv_of_settles {r : Run} (h : Settles r) (hv : KeepsValue r) : r.finish.CoderInv :=
  faultFree_finish
    (X := fun t =>
      t.coder.countersWf ∧ tasksSettle t.held t.coder ∧ (t.mode = .dec → valueInInterval t.held t.coder))
    (meets_and h hv)
    (fun _ ⟨ht, hd⟩ => ⟨ht.2, ht.1, fun hm => valueInInterval_nil.2 (hd hm)⟩)
    fun _ _ _ ⟨⟨hts, hc⟩, hd⟩ => ⟨hc, hts, hd⟩

/-- With no command held the invariant is the settled coder, and in DEC mode the value in its bounds. -/
theorem settled_of_coderInv {s : State} (h : s.CoderInv) (he : s.err = false) (hq : s.held = []) :
    Settled s ∧ (s.mode = .dec → s.coder.holdsValue) := by
  obtain ⟨hc, ht, hv⟩ := h he
  rw [hq] at ht hv
  exact ⟨⟨ht, hc⟩, fun hm => valueInInterval_nil.1 (hv hm)⟩

theorem reset_coderInv : State.reset.CoderInv :=
  fun _ => ⟨⟨Nat.zero_le _, Nat.le_refl _⟩, reset_settled, fun hm => nomatch hm⟩

theorem move_keeps_coderInv {s t : State} (hc : s.ControlInv) (h : s.CoderInv) (m : Move s t) : t.CoderInv := by
  cases m with
  | host => exact h
  | popped => exact h
  | pushed => exact h
  | reset => exact reset_coderInv
  | hostFault => exact fun he => nomatch he
  | illegal => exact fun he => nomatch he
  | ran q i he hb =>
    obtain ⟨hs, hv⟩ := settled_of_coderInv h he (quiet_of_controlInv hc hb).held
    exact coderInv_of_settles (body_settles i (s := State.issue _ _) hs)
      (body_keepsValue i (s := State.issue _ _) hs.1 hv)
  | resumed hr =>
    obtain ⟨hw, ht, hv⟩ := h (err_of_canResume hc hr)
    exact coderInv_of_settles (runTasks_settles s.held ht hw) (runTasks_keepsValue ht hv)

/-! ### The obligations -/

/-- Settles O57, move by move. -/
theorem stepKeepsTheControlFlags : Obligations.StepKeepsTheControlFlags :=
  fun _ _ h hs => move_keeps_controlInv h (move_of_step hs)

/-- Settles O58, move by move. -/
theorem stepKeepsTheBuffers : Obligations.StepKeepsTheBuffers :=
  fun _ _ h hs => move_keeps_bufferInv h (move_of_step hs)

/-- Settles O59, move by move. -/
theorem stepKeepsTheModel : Obligations.StepKeepsTheModel :=
  fun _ _ h hs => move_keeps_modelInv h (move_of_step hs)

/-- Settles O60, move by move. -/
theorem stepKeepsTheCoder : Obligations.StepKeepsTheCoder :=
  fun _ _ hc h hs => move_keeps_coderInv hc h (move_of_step hs)

/-- Settles O56: the moves' `reset` case at the reset state itself. -/
theorem resetMeetsTheInvariants : Obligations.ResetMeetsTheInvariants :=
  ⟨RecordEmpty.controlInv ⟨rfl, rfl, rfl, rfl⟩ ⟨rfl, rfl, rfl, rfl⟩, fun _ => reset_buffered,
    fun _ => fresh_wf (Nat.zero_le _), reset_coderInv⟩

end Sys2Proof.Proofs
end

section
/-! PROOFS. The command words: which words are commands, which are illegal and what an illegal one does (R60, R61, R66,
R67), the operands a command refuses (R62, R64, R85, R96), and the obligations about them. -/

namespace Sys2Proof.Proofs

open Sys2Proof.Machine Sys2Proof.Laws

/-! ### The fields of a word -/

theorem mbzClear_iff_toNat {w : Word} : mbzClear w = true ↔ w.toNat < 256 := by
  rw [mbzClear, beq_iff_eq, ← BitVec.toNat_inj, BitVec.extractLsb'_toNat, Nat.shiftRight_eq_div_pow]
  bv_omega

theorem shiftRight_eq_zero_iff_toNat {w : Word} : w >>> 8 = 0 ↔ w.toNat < 256 := by
  bv_omega

theorem opField_toNat (w : Word) : (opField w).toNat = w.toNat % 256 := by
  simp [opField]

theorem encode_toNat (i : Instr) : (encode i).toNat = (opcode i).toNat :=
  (BitVec.toNat_append (0 : BitVec 24) (opcode i)).trans (by simp)

/-- A word of format `CMD32` is its opcode with zeros above it (R60). -/
theorem eq_encode_of_fields {w : Word} {i : Instr} (hm : mbzClear w = true) (ho : opField w = opcode i) :
    w = encode i := by
  rw [mbzClear_iff_toNat] at hm
  apply BitVec.eq_of_toNat_eq
  rw [encode_toNat, ← ho, opField_toNat, Nat.mod_eq_of_lt hm]

/-! ### Opcodes -/

theorem opcode_of_decodeOp {op : Byte} {i : Instr} (h : decodeOp op = some i) : op = opcode i := by
  unfold decodeOp at h
  apply BitVec.eq_of_toNat_eq
  split at h <;> cases h <;> assumption

/-- The reserved opcodes (R67): the decoder's last case, where the sixteen above it do not apply. -/
theorem decodeOp_eq_none_iff {op : Byte} : decodeOp op = none ↔
    (0x02 ≤ op.toNat ∧ op.toNat ≤ 0x0F) ∨ (0x14 ≤ op.toNat ∧ op.toNat ≤ 0x1F) ∨
      (0x24 ≤ op.toNat ∧ op.toNat ≤ 0x2F) ∨ 0x36 ≤ op.toNat := by
  unfold decodeOp
  split
  case h_17 => simp only [imp_false, true_iff] at *; omega
  all_goals simp only [reduceCtorEq, false_iff]; omega

/-! ### Decoding -/

theorem decodeEncode_statement (i : Instr) : DecodeEncode.Statement i := by
  cases i
  exacts [DecodeEncode.nop, DecodeEncode.softReset, DecodeEncode.encStart, DecodeEncode.encInterval,
    DecodeEncode.encClose, DecodeEncode.encSymbol, DecodeEncode.decStart, DecodeEncode.decCount,
    DecodeEncode.decRemove, DecodeEncode.decSymbol, DecodeEncode.ppmTotal, DecodeEncode.ppmPoint,
    DecodeEncode.ppmInterval, DecodeEncode.ppmEscaped, DecodeEncode.ppmExclude, DecodeEncode.ppmIncrement]

theorem decode_encode (i : Instr) : decode (encode i) = .ok i := (decodeEncode_statement i).2.1

theorem decode_eq_ok_iff_fields {w : Word} {i : Instr} :
    decode w = .ok i ↔ mbzClear w = true ∧ decodeOp (opField w) = some i := by
  unfold decode
  split
  · split <;> simp_all
  · simp_all

/-- The decoder accepts exactly the words of commands, each as its own (R66). -/
theorem decode_eq_ok_iff {w : Word} {i : Instr} : decode w = .ok i ↔ w = encode i := by
  constructor
  · intro h
    obtain ⟨hm, ho⟩ := decode_eq_ok_iff_fields.1 h
    exact eq_encode_of_fields hm (opcode_of_decodeOp ho)
  · rintro rfl
    exact decode_encode i

/-- The two ways to be no command word (R67): bits above the opcode, or a reserved opcode. -/
theorem noCommand_iff_fields {w : Word} :
    (∀ i, w ≠ encode i) ↔ mbzClear w = false ∨ decodeOp (opField w) = none := by
  simp only [ne_eq, ← decode_eq_ok_iff, decode_eq_ok_iff_fields, Option.eq_none_iff_forall_ne_some]
  cases mbzClear w <;> simp

theorem noCommand_iff_ranges {w : Word} : (∀ i, w ≠ encode i) ↔
    (w >>> 8 ≠ 0 ∨ (0x02 ≤ w.toNat % 256 ∧ w.toNat % 256 ≤ 0x0F) ∨
      (0x14 ≤ w.toNat % 256 ∧ w.toNat % 256 ≤ 0x1F) ∨ (0x24 ≤ w.toNat % 256 ∧ w.toNat % 256 ≤ 0x2F) ∨
      0x36 ≤ w.toNat % 256) := by
  rw [noCommand_iff_fields, decodeOp_eq_none_iff, opField_toNat, ne_eq, shiftRight_eq_zero_iff_toNat,
    ← mbzClear_iff_toNat, Bool.not_eq_true]

/-- The sixteen commands, in the order of the opcode table (R66). -/
def commands : List Instr :=
  [.nop, .softReset, .encStart, .encInterval, .encClose, .encSymbol, .decStart, .decCount, .decRemove, .decSymbol,
    .ppmTotal, .ppmPoint, .ppmInterval, .ppmEscaped, .ppmExclude, .ppmIncrement]

theorem mem_commands (i : Instr) : i ∈ commands := by
  cases i <;> decide

/-- The rows of the opcode table: each command with its word. -/
theorem mem_opcodeTable_iff {w : Word} {i : Instr} :
    (w, i) ∈ commands.map (fun j => (encode j, j)) ↔ w = encode i := by
  simp [mem_commands, eq_comm]

/-! ### Issuing an illegal word -/

theorem writeCmd_ready {s : State} (h : s.ready) (w : Word) : s.writeCmd w = s.issueWord w := by
  obtain ⟨hb, he⟩ := h
  simp [State.writeCmd, hb, he]

theorem issueWord_noCommand {w : Word} (h : ∀ i, w ≠ encode i) (s : State) :
    s.issueWord w = .next (s.illegalCommand (opField w)) := by
  unfold State.issueWord
  split
  · rename_i i hi
    exact absurd (decode_eq_ok_iff.1 hi) (h i)
  · rfl

theorem illegalCommand_eq {s : State} (he : s.err = false) (op : Byte) : s.illegalCommand op =
    { s with a0 := s.arg0, a1 := s.arg1, a2 := s.arg2, op := op,
             err := true, errcode := some .illegalCmd, errop := op, errhost := false,
             busy := false, holdin := false, holdout := false, held := [] } := by
  simp [State.illegalCommand, State.enterFault, State.issue, he]

/-! ### A command that faults -/

/-- The fault record of a command, and what stays exact after its fault (R154, R155). -/
theorem commandFault_faultedBy {s : State} (he : s.err = false) (i : Instr) (code : FaultCode) :
    s.FaultedBy i code ((s.issue (opcode i)).commandFault code) := by
  constructor <;> simp [State.commandFault, he]

/-- A command whose body refuses it at once raises that fault. -/
theorem raises_of_refused {s : State} {i : Instr} {code : FaultCode} (he : s.err = false)
    (h : bodyOf i (s.issue (opcode i)) = .raised (s.issue (opcode i)) code)
    (hi : i ≠ .softReset := by decide) : raises i s code :=
  ⟨_, by rw [exec_eq i hi, h]; rfl, commandFault_faultedBy he i code⟩

/-! ### The mode checks -/

theorem encBarred_eq_false {s : State} (hm : s.mode = .enc) (hc : s.closed = false) : s.encBarred = false := by
  simp [State.encBarred, hm, hc]

theorem decBarred_eq_false {s : State} (hm : s.mode = .dec) (hc : s.coder.eos = false) : s.decBarred = false := by
  simp [State.decBarred, hm, hc]

theorem queryBarred_eq_false {s : State} (hm : s.mode ≠ .idle) : s.queryBarred = false := by
  simp [State.queryBarred, hm]

theorem updateBarred_eq_false {s : State} (hm : s.mode ≠ .idle) (hd : s.model.eofdone = false) :
    s.updateBarred = false := by
  simp [State.updateBarred, hm, hd]

/-! ### Operands that are refused -/

theorem operandInterval_refused {s : State} (h : ¬(0 ≤ s.a0.toInt ∧ s.a0.toInt < s.a1.toInt ∧
    s.a1.toInt ≤ s.a2.toInt ∧ s.a2.toInt ≤ 2 ^ 25)) : s.operandInterval = .error .interval :=
  if_neg fun hi => h (of_decide_eq_true hi)

theorem operandTotal_refused {s : State} (h : ¬(1 ≤ s.a2.toInt ∧ s.a2.toInt ≤ 2 ^ 25)) :
    s.operandTotal = .error .interval :=
  if_neg h

/-! ### The bodies that refuse an operand -/

theorem body_encInterval_refused {s : State} (hb : s.encBarred = false)
    (h : s.operandInterval = .error .interval) : bodyOf .encInterval s = .raised s .interval := by
  simp [bodyOf, hb, h]

theorem body_decRemove_refused {s : State} (hb : s.decBarred = false)
    (h : s.operandInterval = .error .interval) : bodyOf .decRemove s = .raised s .interval := by
  simp [bodyOf, hb, h]

theorem body_decCount_refused {s : State} (hb : s.decBarred = false)
    (h : s.operandTotal = .error .interval) : bodyOf .decCount s = .raised s .interval := by
  simp [bodyOf, hb, h]

theorem body_encSymbol_refused {s : State} (hb : s.encBarred = false) (hd : s.model.eofdone = false)
    (h : byteOrEofOperand s.a0 = none) : bodyOf .encSymbol s = .raised s .protocol := by
  simp [bodyOf, hb, hd, h]

theorem body_ppmEscaped_refused {s : State} (hb : s.queryBarred = false)
    (h : byteOrEofOperand s.a0 = none) : bodyOf .ppmEscaped s = .raised s .protocol := by
  simp [bodyOf, hb, h]

theorem body_ppmInterval_refused {s : State} (hb : s.updateBarred = false)
    (h : symOperand s.a0 = none) : bodyOf .ppmInterval s = .raised s .protocol := by
  simp [bodyOf, hb, h]

theorem body_ppmExclude_refused {s : State} (hb : s.updateBarred = false)
    (h : byteOperand s.a0 = none) : bodyOf .ppmExclude s = .raised s .protocol := by
  simp [bodyOf, hb, h]

theorem body_ppmIncrement_refused {s : State} (hb : s.updateBarred = false)
    (h : byteOperand s.a0 = none) : bodyOf .ppmIncrement s = .raised s .protocol := by
  simp [bodyOf, hb, h]

/-! ### The obligations -/

/-- Settles O43: the decoder accepts exactly the words of commands. -/
theorem decodeInvertsEncode : Obligations.DecodeInvertsEncode :=
  ⟨fun i _ => decode_encode i, fun _ _ => decode_eq_ok_iff.1⟩

/-- Settles O44: what the decoder accepts is the table of the commands' words. -/
theorem tableWordsDecode : Obligations.TableWordsDecode := by
  refine ⟨fun w i => ?_, fun w i h => ?_, by decide, by decide⟩
  · exact decode_eq_ok_iff.trans mem_opcodeTable_iff.symm
  · rw [decode_eq_ok_iff.1 h, encode_toNat]
    cases i <;> rfl

/-- Settles O42: the decoder's two reasons to reject a word, and the one branch of the CMD write that is left. -/
theorem illegalWordsFault : Obligations.IllegalWordsFault := by
  refine fun w => ⟨noCommand_iff_ranges, fun hw s hr => ?_⟩
  calc s.hostAct (.write 0x00 4 w) = s.writeCmd w := hostAct_write s .cmd w
    _ = s.issueWord w := writeCmd_ready hr w
    _ = .next (s.illegalCommand (opField w)) := issueWord_noCommand hw s
    _ = _ := congrArg Host.Outcome.next (illegalCommand_eq hr.2 (opField w))

/-- Settles O39: past the mode checks the body refuses the operand before it touches anything. -/
theorem badOperandsFault : Obligations.BadOperandsFault := by
  intro s he
  refine ⟨fun hm hc hd h => ?_, fun hm h => ?_, fun hm hd h => ?_, fun hm hd h => ⟨?_, ?_⟩,
    fun h => ⟨fun hm hc => ?_, fun hm hc => ?_⟩, fun hm hc h => ?_⟩
  · exact raises_of_refused he
      (body_encSymbol_refused (encBarred_eq_false hm hc) hd (byteOrEofOperand_eq_none.2 h))
  · exact raises_of_refused he
      (body_ppmEscaped_refused (queryBarred_eq_false hm) (byteOrEofOperand_eq_none.2 h))
  · exact raises_of_refused he
      (body_ppmInterval_refused (updateBarred_eq_false hm hd) (symOperand_eq_none.2 h))
  · exact raises_of_refused he
      (body_ppmExclude_refused (updateBarred_eq_false hm hd) (byteOperand_eq_none.2 h))
  · exact raises_of_refused he
      (body_ppmIncrement_refused (updateBarred_eq_false hm hd) (byteOperand_eq_none.2 h))
  · exact raises_of_refused he
      (body_encInterval_refused (encBarred_eq_false hm hc) (operandInterval_refused h))
  · exact raises_of_refused he
      (body_decRemove_refused (decBarred_eq_false hm hc) (operandInterval_refused h))
  · exact raises_of_refused he
      (body_decCount_refused (decBarred_eq_false hm hc) (operandTotal_refused h))

end Sys2Proof.Proofs
end

section
/-! PROOFS. The bit packer and unpacker, operation by operation (R77 to R81), and the obligations about them. -/

namespace Sys2Proof.Proofs

open Sys2Proof.Machine Sys2Proof.Laws

/-! ### The two halves of the bit unit -/

/-- The partial byte holds at most seven bits, so one more does not overflow it. -/
theorem oacc_lt_of_wf {p : BitIO} (h : p.wf) : p.oacc.toNat < 128 :=
  h.2.1.trans_le (Nat.pow_le_pow_right two_pos h.1)

/-- What the packer emits leaves the unpacker's half of the bit unit alone. -/
theorem emitted_frame {s t : State} {bits : List Bool} (h : Emitted s s.coder bits t) :
    t = { s with outq := t.outq, bitio := { s.bitio with oacc := t.bitio.oacc, ocnt := t.bitio.ocnt } } := by
  dsimp only
  rw [← h.ibyte, ← h.icnt]
  exact h.eq

/-- What the unpacker reads leaves the packer's half of the bit unit alone. -/
theorem consumed_frame {s t : State} {c : Coder} {bits : List Bool} (h : Consumed s c bits t) :
    t = { s with inq := t.inq, bitio := { s.bitio with ibyte := t.bitio.ibyte, icnt := t.bitio.icnt },
                 coder := c } := by
  dsimp only
  rw [← h.oacc, ← h.ocnt]
  exact h.eq

/-! ### PutBit -/

/-- The eighth bit of a byte pushes the byte and empties the packer (R77). -/
theorem putDone_eighth {s : State} (b : Bool) (h : s.bitio.wf) (h7 : s.bitio.ocnt = 7) :
    putDone b s = s.outPush (BitVec.ofNat 8 (2 * s.bitio.oacc.toNat + b.toNat)) := by
  rw [putDone, if_pos h7, pushBit_eq_ofNat (oacc_lt_of_wf h)]

/-- An earlier bit only joins the partial byte (R77). -/
theorem putDone_earlier {s : State} (b : Bool) (h7 : s.bitio.ocnt ≠ 7) :
    putDone b s =
      { s with bitio := { s.bitio with oacc := pushBit s.bitio.oacc b, ocnt := s.bitio.ocnt + 1 } } :=
  if_neg h7

/-! ### PackerClose -/

theorem packerClose_empty {s : State} (h : s.bitio.ocnt = 0) : packerClose s = .done s :=
  if_neg (by omega)

theorem packerClose_full {s : State} (h : 0 < s.bitio.ocnt) (hf : Config.outDepth ≤ s.outq.length) :
    packerClose s = .held s .output [.packerClose] := by
  rw [packerClose, if_pos h, State.outFull, decide_eq_true hf, if_pos rfl]

theorem packerClose_room {s : State} (h : 0 < s.bitio.ocnt) (hr : s.outq.length < Config.outDepth) :
    packerClose s = .done (s.outPush (s.bitio.oacc <<< (8 - s.bitio.ocnt))) := by
  rw [packerClose, if_pos h, State.outFull, decide_eq_false (Nat.not_le.2 hr), if_neg Bool.false_ne_true]

/-- The padded byte of R78 as the number it spells. -/
theorem shiftLeft_eq_ofNat (acc : Byte) (n : Nat) : acc <<< n = BitVec.ofNat 8 (acc.toNat * 2 ^ n) := by
  apply BitVec.eq_of_toNat_eq
  rw [BitVec.toNat_shiftLeft, BitVec.toNat_ofNat, Nat.shiftLeft_eq]

/-- The padding completes the byte (R78). -/
theorem outBits_of_packerClose {s t : State} (h : s.bitio.wf) (h0 : 0 < s.bitio.ocnt)
    (hr : s.outq.length < Config.outDepth) (ht : packerClose s = .done t) :
    t.outBits = s.outBits ++ List.replicate (8 - s.bitio.ocnt) false := by
  have hpad : (8 - s.bitio.ocnt) % 8 = 8 - s.bitio.ocnt := Nat.mod_eq_of_lt (by omega)
  have hroom : s.roomFor ((8 - s.bitio.ocnt) % 8) := by
    have h7 := h.1
    unfold State.roomFor
    omega
  obtain ⟨u, hu, emitted, -⟩ := packerClose_emits h hroom
  obtain rfl := Run.done.inj (hu.symm.trans ht)
  rw [emitted.outBits, hpad]

/-! ### The obligations -/

/-- Settles O20: by whether the eighth bit meets a full FIFO, and then by whether it is the eighth. -/
theorem putBitAppendsOneBit : Obligations.PutBitAppendsOneBit := by
  intro s b h
  refine ⟨fun hheld => (putBit_eq b s).trans (if_pos hheld), fun hgo => ?_⟩
  have emitted := putDone_emitted b h
  refine ⟨putDone b s, (putBit_eq b s).trans (if_neg hgo), emitted.outBits, emitted.wf, emitted_frame emitted,
    fun h7 => ?_, fun h7 => ?_⟩
  · rw [putDone_eighth b h h7]
    exact ⟨rfl, rfl, rfl⟩
  · rw [putDone_earlier b h7]
    exact ⟨rfl, pushBit_toNat (oacc_lt_of_wf h) b, rfl⟩

/-- Settles O21: no partial byte, a full FIFO, and room for the padded byte. -/
theorem packerClosePadsWithZeros : Obligations.PackerClosePadsWithZeros := by
  intro s h
  refine ⟨packerClose_empty, packerClose_full, fun h0 hr => ⟨?_, fun t => outBits_of_packerClose h h0 hr⟩⟩
  rw [packerClose_room h0 hr, shiftLeft_eq_ofNat]
  rfl

/-- Settles O22: a bit at hand, a virtual bit after the end of the input, and the wait for a byte. -/
theorem readCodeBitReadsBitsThenVirtualZeros : Obligations.ReadCodeBitReadsBitsThenVirtualZeros := by
  refine fun s => ⟨fun b rest hbits => ?_, fun hnone hend => ?_, readCodeBit_wait⟩
  · obtain ⟨t, ht, consumed, hpop⟩ := readCodeBit_bit hbits
    exact ⟨t, ht, consumed.inBits, consumed_frame consumed, hpop⟩
  · rw [readCodeBit_virtual hnone hend, shiftVirtual_eq]

end Sys2Proof.Proofs
end

section
/-! PROOFS. The runs of the coder's commands: what a completed or served run was made of, what the encoder's and the
decoder's pieces change whether they complete or hold (R86 to R91, R95, R98, R151), and the obligations about them. -/

namespace Sys2Proof.Proofs

open Sys2Proof.Machine Sys2Proof.Laws

/-! ### Runs that end -/

theorem andThen_eq_done {r : Run} {rest : List Task} {f : State → Run} {t : State} :
    r.andThen rest f = .done t ↔ ∃ u, r = .done u ∧ f u = .done t := by
  cases r <;> simp

theorem guard_eq_done {s t : State} {bad : Bool} {c : FaultCode} {r : Run} :
    Run.guard s bad c r = .done t ↔ bad = false ∧ r = .done t := by
  cases bad <;> simp

theorem ofExcept_eq_done {α : Type} {s t : State} {e : Except FaultCode α} {f : α → Run} :
    Run.ofExcept s e f = .done t ↔ ∃ a, e = .ok a ∧ f a = .done t := by
  cases e <;> simp

/-- A command that leaves the block ready has run to its end: it neither holds nor has raised a fault. -/
theorem done_of_ready {r : Run} (h : r.finish.ready) : ∃ u, r = .done u := by
  obtain ⟨hbusy, herr⟩ := h
  cases r with
  | done u => exact ⟨u, rfl⟩
  | held u k ts => cases hbusy
  | raised u c => cases herr

theorem exec_done_of_ready {i : Instr} {s t : State} (hx : exec i s = .next t) (hr : t.ready)
    (hi : i ≠ .softReset := by decide) : ∃ u, bodyOf i (s.issue (opcode i)) = .done u ∧ t = u.complete := by
  rw [exec_eq i hi] at hx
  obtain rfl := Host.Outcome.next.inj hx
  obtain ⟨u, hu⟩ := done_of_ready hr
  exact ⟨u, hu, by rw [hu]; rfl⟩

/-- Nothing serves a fault: the command ends in it. -/
theorem served_raised {s t : State} {c : FaultCode} {taken pushed : List Byte}
    (h : Served (Run.raised s c).finish taken pushed t) : t.err = true := by
  cases h with
  | ended _ => rfl
  | hold hb _ _ _ => cases hb

theorem served_guard {s t : State} {bad : Bool} {c : FaultCode} {r : Run} {taken pushed : List Byte}
    (h : Served (Run.guard s bad c r).finish taken pushed t) (he : t.err = false) :
    bad = false ∧ Served r.finish taken pushed t := by
  cases bad with
  | false => exact ⟨rfl, h⟩
  | true => exact absurd ((served_raised h).symm.trans he) Bool.noConfusion

theorem served_ofExcept {α : Type} {s t : State} {e : Except FaultCode α} {f : α → Run} {taken pushed : List Byte}
    (h : Served (Run.ofExcept s e f).finish taken pushed t) (he : t.err = false) :
    ∃ a, e = .ok a ∧ Served (f a).finish taken pushed t := by
  cases e with
  | ok a => exact ⟨a, rfl, h⟩
  | error c => exact absurd ((served_raised h).symm.trans he) Bool.noConfusion

/-! ### Pieces of the encoder -/

/-- `t` is `s` but for the coder, the bit unit and the output FIFO. -/
def OutputOnly (s t : State) : Prop := t = { s with coder := t.coder, bitio := t.bitio, outq := t.outq }

theorem outputOnly_refl (s : State) : OutputOnly s s := rfl

theorem outputOnly_coder (s : State) (c : Coder) : OutputOnly s { s with coder := c } := rfl

theorem OutputOnly.trans {s t u : State} (h : OutputOnly s t) (k : OutputOnly t u) : OutputOnly s u := by
  unfold OutputOnly at *
  rw [k, h]

/-- The piece writes output only, completed or held, and leaves coder `c` when it completes. -/
def Writes (s : State) (c : Coder) (r : Run) : Prop :=
  Meets r (fun t => t.coder = c ∧ OutputOnly s t) (fun t _ _ => OutputOnly s t) fun _ _ => True

theorem writes_done (s : State) : Writes s s.coder (.done s) := ⟨rfl, outputOnly_refl s⟩

theorem Writes.after {s t : State} {c : Coder} {r : Run} (h : OutputOnly s t) (k : Writes t c r) : Writes s c r :=
  Meets.mono k (fun _ hu => ⟨hu.1, h.trans hu.2⟩) (fun _ _ _ hu => h.trans hu) fun _ _ hu => hu

theorem Writes.andThen {s : State} {c d : Coder} {r : Run} {rest : List Task} {f : State → Run} (h : Writes s c r)
    (hf : ∀ t, t.coder = c → Writes t d (f t)) : Writes s d (r.andThen rest f) :=
  Meets.andThen h fun t ht => (hf t ht.1).after ht.2

theorem putBit_writes (b : Bool) (s : State) : Writes s s.coder (putBit b s) := by
  rw [putBit_eq]
  split
  · exact outputOnly_refl s
  · unfold putDone
    split <;> exact ⟨rfl, rfl⟩

theorem followBits_writes (b : Bool) : ∀ (n : Nat) (s : State), s.coder.btf = n →
    Writes s { s.coder with btf := 0 } (followBits b n s)
  | 0, s, hn => by
    have hcoder : ({ s.coder with btf := 0 } : Coder) = s.coder := by rw [← hn]
    rw [hcoder]
    exact writes_done s
  | n + 1, s, _ => by
    refine Meets.retryAs (putBit_writes b s) fun t ⟨hcoder, ht⟩ => ?_
    rw [← hcoder]
    exact (followBits_writes b n { t with coder := { t.coder with btf := n } } rfl).after
      (ht.trans (outputOnly_coder t _))

theorem bitPlusFollow_writes (b : Bool) (s : State) : Writes s { s.coder with btf := 0 } (bitPlusFollow b s) :=
  (putBit_writes b s).andThen fun t ht => by
    rw [← ht]
    exact followBits_writes (!b) _ t rfl

theorem packerClose_writes (s : State) : Writes s s.coder (packerClose s) := by
  unfold packerClose
  split
  · split
    · exact outputOnly_refl s
    · exact ⟨rfl, rfl⟩
  · exact writes_done s

/-- EncRenorm that completes leaves the coder of its trace, whatever the packer holds (R88). -/
theorem encRenorm_writes : ∀ (n : Nat) (s : State), Writes s (s.coder.encTrace n).1 (encRenorm n s)
  | 0, s => writes_done s
  | n + 1, s => by
    have emit : ∀ (b : Bool) (off : Nat), Writes s (({ s.coder with btf := 0 }.shiftBounds off).encTrace n).1
        ((bitPlusFollow b s).andThen [.encShift off, .encRenorm n] fun s => encRenorm n (encShift off s)) :=
      fun b off => (bitPlusFollow_writes b s).andThen fun t ht => by
        rw [← ht]
        exact (encRenorm_writes n (encShift off t)).after (outputOnly_coder t _)
    unfold encRenorm Coder.encTrace
    cases s.coder.pass with
    | e1 => exact emit false 0
    | e2 => exact emit true half
    | e3 => exact Meets.guard (fun _ => trivial) fun _ => (encRenorm_writes n _).after (outputOnly_coder s _)
    | stop => exact writes_done s

theorem encRenorm_done_coder {n : Nat} {s t : State} (h : encRenorm n s = .done t) :
    t.coder = (s.coder.encTrace n).1 := by
  have hw := encRenorm_writes n s
  rw [h] at hw
  exact hw.1

/-! ### Pieces of the decoder -/

/-- `t` is `s` but for the coder, the bit unit and the input FIFO. -/
def InputOnly (s t : State) : Prop := t = { s with coder := t.coder, bitio := t.bitio, inq := t.inq }

theorem inputOnly_coder (s : State) (c : Coder) : InputOnly s { s with coder := c } := rfl

theorem InputOnly.trans {s t u : State} (h : InputOnly s t) (k : InputOnly t u) : InputOnly s u := by
  unfold InputOnly at *
  rw [k, h]

theorem inputOnly_of_consumed {s t : State} {c : Coder} {bits : List Bool} (h : Consumed s c bits t) :
    InputOnly s t := by
  unfold InputOnly
  rw [h.coder]
  exact h.eq

/-- The piece reads input only and raises nothing, and leaves the coder and the bits of `p` when it completes. -/
def ReadsTo (s : State) (p : Coder × List Bool) (r : Run) : Prop :=
  Meets r (Consumed s p.1 p.2) (fun t _ _ => InputOnly s t) fun _ _ => False

theorem readCodeBit_readsTo (s : State) : ReadsTo s (s.coder.readBit s.inBits) (readCodeBit s) := by
  rcases readCodeBit_cases s with ⟨t, ht, consumed⟩ | ⟨hheld, -⟩
  · rw [ht]
    exact consumed
  · rw [hheld]
    exact inputOnly_coder s s.coder

/-- DecRenorm that completes leaves the coder of its trace (R89). -/
theorem decRenorm_readsTo : ∀ (n : Nat) (s : State), ReadsTo s (s.coder.decTrace n s.inBits) (decRenorm n s)
  | 0, s => Consumed.refl s
  | n + 1, s => by
    unfold decRenorm Coder.decTrace
    by_cases hp : s.coder.pass = .stop
    · rw [if_pos hp, if_pos hp]
      exact Consumed.refl s
    · rw [if_neg hp, if_neg hp]
      generalize s.coder.decShift s.coder.pass.offset = c
      refine Meets.andThen (Meets.mono (readCodeBit_readsTo { s with coder := c }) (fun _ ht => ht)
        (fun t _ _ ht => (inputOnly_coder s c).trans ht) fun _ _ hf => hf) fun t ht => ?_
      have hrest := decRenorm_readsTo n t
      rw [ht.coder, ht.inBits] at hrest
      exact Meets.mono hrest (fun _ hu => (ht.of_coder).trans hu)
        (fun _ _ _ hu => (inputOnly_of_consumed ht.of_coder).trans hu) fun _ _ hf => hf

theorem decRenorm_done_coder {n : Nat} {s t : State} (h : decRenorm n s = .done t) :
    t.coder = (s.coder.decTrace n s.inBits).1 := by
  have hr := decRenorm_readsTo n s
  rw [h] at hr
  exact Consumed.coder hr

/-! ### Passes past the settled bounds -/

theorem encRenorm_of_settled {s : State} (h : s.coder.settled) (n : Nat) : encRenorm n s = .done s := by
  cases n with
  | zero => rfl
  | succ n => rw [encRenorm, (stop_iff_settled (settled_ordered h)).2 h]

theorem decRenorm_of_settled {s : State} (h : s.coder.settled) (n : Nat) : decRenorm n s = .done s := by
  cases n with
  | zero => rfl
  | succ n => rw [decRenorm, if_pos ((stop_iff_settled (settled_ordered h)).2 h)]

/-- A renormalization that completes with enough passes completes alike with more (R90). -/
theorem encRenorm_done_more (k : Nat) : ∀ (n : Nat) {s t : State}, enoughPasses n s.coder →
    encRenorm n s = .done t → encRenorm (n + k) s = .done t
  | 0, s, t, h, ht => (encRenorm_of_settled (enoughPasses_zero h) _).trans ht
  | n + 1, s, t, h, ht => by
    have emit : ∀ (b : Bool) (off : Nat) (rest rest' : List Task), enoughPasses n (s.coder.shiftBounds off) →
        (bitPlusFollow b s).andThen rest (fun s => encRenorm n (encShift off s)) = .done t →
        (bitPlusFollow b s).andThen rest' (fun s => encRenorm (n + k) (encShift off s)) = .done t := by
      intro b off rest rest' hn hd
      obtain ⟨u, hu, hut⟩ := andThen_eq_done.1 hd
      have hw := bitPlusFollow_writes b s
      rw [hu] at hw
      have hcoder : u.coder = { s.coder with btf := 0 } := hw.1
      have hshift : enoughPasses n (encShift off u).coder := by
        show enoughPasses n (u.coder.shiftBounds off)
        rw [hcoder]
        exact enoughPasses_congr rfl rfl hn
      exact andThen_eq_done.2 ⟨u, hu, encRenorm_done_more k n hshift hut⟩
    have hn := fun hp => enoughPasses_pass h hp
    rw [Nat.add_right_comm]
    unfold encRenorm at ht ⊢
    cases hp : s.coder.pass with
    | stop => rwa [hp] at ht
    | e1 =>
      rw [hp] at hn ht
      exact emit false 0 _ _ (hn (by decide)) ht
    | e2 =>
      rw [hp] at hn ht
      exact emit true half _ _ (hn (by decide)) ht
    | e3 =>
      rw [hp] at hn ht
      obtain ⟨hroom, hd⟩ := guard_eq_done.1 ht
      exact guard_eq_done.2 ⟨hroom, encRenorm_done_more k n (enoughPasses_congr rfl rfl (hn (by decide))) hd⟩

theorem decRenorm_done_more (k : Nat) : ∀ (n : Nat) {s t : State}, enoughPasses n s.coder →
    decRenorm n s = .done t → decRenorm (n + k) s = .done t
  | 0, s, t, h, ht => (decRenorm_of_settled (enoughPasses_zero h) _).trans ht
  | n + 1, s, t, h, ht => by
    rw [Nat.add_right_comm]
    unfold decRenorm at ht ⊢
    by_cases hp : s.coder.pass = .stop
    · rwa [if_pos hp] at ht ⊢
    · rw [if_neg hp] at ht ⊢
      have hn := enoughPasses_congr (d := s.coder.decShift s.coder.pass.offset) rfl rfl (enoughPasses_pass h hp)
      generalize s.coder.decShift s.coder.pass.offset = c at ht hn ⊢
      obtain ⟨u, hu, hut⟩ := andThen_eq_done.1 ht
      have hr := readCodeBit_readsTo { s with coder := c }
      rw [hu] at hr
      obtain ⟨hlow, hhigh, -⟩ := readBit_bounds c (State.inBits { s with coder := c })
      rw [← Consumed.coder hr] at hlow hhigh
      exact andThen_eq_done.2 ⟨u, hu, decRenorm_done_more k n (enoughPasses_congr hlow hhigh hn) hut⟩

/-! ### The commands that complete -/

/-- ENC_INTERVAL that completes leaves the renormalized narrowed coder (R92). -/
theorem encInterval_completed {s t : State} (hx : exec .encInterval s = .next t) (hr : t.ready) :
    ∃ iv, (s.issue (opcode .encInterval)).operandInterval = .ok iv ∧
      t.coder = ((s.coder.narrow iv).encTrace renormPasses).1 := by
  obtain ⟨u, hu, rfl⟩ := exec_done_of_ready hx hr
  obtain ⟨-, hu⟩ := guard_eq_done.1 hu
  obtain ⟨iv, hiv, hu⟩ := ofExcept_eq_done.1 hu
  obtain ⟨-, hu⟩ := guard_eq_done.1 hu
  exact ⟨iv, hiv, encRenorm_done_coder hu⟩

/-- DEC_REMOVE that completes leaves the renormalized narrowed coder (R98). -/
theorem decRemove_completed {s t : State} (hx : exec .decRemove s = .next t) (hr : t.ready) :
    ∃ iv, (s.issue (opcode .decRemove)).operandInterval = .ok iv ∧
      t.coder = ((s.coder.narrow iv).decTrace renormPasses s.inBits).1 := by
  obtain ⟨u, hu, rfl⟩ := exec_done_of_ready hx hr
  obtain ⟨-, hu⟩ := guard_eq_done.1 hu
  obtain ⟨iv, hiv, hu⟩ := ofExcept_eq_done.1 hu
  obtain ⟨c, hc, hu⟩ := ofExcept_eq_done.1 hu
  obtain ⟨-, rfl⟩ := remove_ok hc
  exact ⟨iv, hiv, decRenorm_done_coder hu⟩

theorem operandInterval_congr {s d : State} (h0 : s.a0 = d.a0) (h1 : s.a1 = d.a1) (h2 : s.a2 = d.a2) :
    s.operandInterval = d.operandInterval := by
  unfold State.operandInterval
  rw [h0, h1, h2]

/-- Equal bounds narrow to equal bounds (R86). -/
theorem narrow_congr {c d : Coder} (hl : c.low = d.low) (hh : c.high = d.high) (iv : Interval) :
    (c.narrow iv).low = (d.narrow iv).low ∧ (c.narrow iv).high = (d.narrow iv).high := by
  have hrange : c.range = d.range := range_congr hl hh
  simp only [Coder.narrow, Coder.narrowLow, Coder.narrowHigh, hl, hrange, and_self]

/-! ### The decoder's value -/

/-- DEC_SYMBOL's loop decodes from settled bounds alone: its first pass raises DESYNC when the value is not inside
the narrowed bounds, and every later one starts with the value inside (R98, R140). -/
theorem decLoop_decodesAny (more n : Nat) {s : State} (h : s.coder.settled) : DecodesAny (decLoop more n s) := by
  cases more with
  | zero =>
    exact decodeSym_decodes h (fun _ _ => trivial) (fun _ _ _ => trivial) (rest := fun sym => [.decNext 0 sym n])
      (by simp [isDecPass]) (fun _ _ hc => ⟨hc, fun _ h => h⟩)
      fun sym _ ht => decNext_decodes (again := .done) (fun _ hu => hu) sym n ht
  | succ more =>
    exact decodeSym_decodes h (fun _ _ => trivial) (fun _ _ _ => trivial)
      (rest := fun sym => [.decNext (more + 1) sym n]) (by simp [isDecPass]) (fun _ _ hc => ⟨hc, fun _ h => h⟩)
      fun sym _ ht => decNext_decodes (fun _ hu => decLoop_decodes decodesSym_any more (n + 1) hu) sym n ht

/-- DEC_REMOVE's new coder renormalizes with the value inside (R98). -/
theorem decRemove_decodesAny {s : State} {iv : Interval} {c : Coder} (h : s.coder.settled) (ho : iv.ok = true)
    (hc : s.coder.remove iv = .ok c) : DecodesAny (decRenorm renormPasses { s with coder := c }) := by
  have hv := holdsValue_of_remove hc
  obtain ⟨-, rfl⟩ := remove_ok hc
  exact decRenorm_decodes renormPasses (enoughPasses_renorm (narrow_ordered h ho)) hv trivial

/-- A decoding piece that is served to its end without a fault ends with the value inside settled bounds. -/
theorem sound_of_served {s t : State} {r : Run} {taken pushed : List Byte} (h : Served r.finish taken pushed t)
    (he : t.err = false) (hf : Framed s r) (hd : DecodesAny r) : t.coder.settled ∧ t.coder.holdsValue := by
  obtain ⟨hs, hv, -⟩ := (served_decodes decodesSym_any h rfl hf hd).1 he
  exact ⟨hs, hv⟩

theorem decStart_served {s u t : State} {taken pushed : List Byte} (hx : exec .decStart s = .next u)
    (h : Served u taken pushed t) (he : t.err = false) : t.coder.settled ∧ t.coder.holdsValue := by
  obtain rfl := Host.Outcome.next.inj hx
  obtain ⟨-, h⟩ := served_guard h he
  obtain ⟨-, h⟩ := served_guard h he
  exact sound_of_served h he (decPrime_framed _) (decPrime_decodes trivial)

theorem decRemove_served {s u t : State} {taken pushed : List Byte} (hs : s.coder.settled)
    (hx : exec .decRemove s = .next u) (h : Served u taken pushed t) (he : t.err = false) :
    t.coder.settled ∧ t.coder.holdsValue := by
  obtain rfl := Host.Outcome.next.inj hx
  obtain ⟨-, h⟩ := served_guard h he
  obtain ⟨iv, hiv, h⟩ := served_ofExcept h he
  obtain ⟨c, hc, h⟩ := served_ofExcept h he
  exact sound_of_served h he (decRenorm_framed _ _)
    (decRemove_decodesAny (s := s.issue _) hs (operandInterval_ok hiv) hc)

theorem decSymbol_served {s u t : State} {taken pushed : List Byte} (hs : s.coder.settled)
    (hx : exec .decSymbol s = .next u) (h : Served u taken pushed t) (he : t.err = false) :
    t.coder.settled ∧ t.coder.holdsValue := by
  obtain rfl := Host.Outcome.next.inj hx
  obtain ⟨-, h⟩ := served_guard h he
  exact sound_of_served h he (decLoop_framed _ _ _) (decLoop_decodesAny _ _ (s := s.issue _) hs)

/-! ### The obligations -/

/-- Settles O19: what completes has the coder of its trace, which enough passes settle. -/
theorem renormSettlesWithinTwentySevenPasses : Obligations.RenormSettlesWithinTwentySevenPasses := by
  intro s t hs hdone
  have enough := enoughPasses_renorm hs
  have settled : t.coder.settled := by
    rcases hdone with h | h
    · rw [encRenorm_done_coder h]
      exact encTrace_settled _ _ enough
    · rw [decRenorm_done_coder h]
      exact (decTrace_settled _ _ _ enough).1
  exact ⟨settled, settled_range settled,
    fun k => ⟨encRenorm_done_more k _ enough, decRenorm_done_more k _ enough⟩⟩

/-- Settles O18: both commands narrow equal bounds by one interval, and their passes agree. -/
theorem encoderAndDecoderMoveInLockStep : Obligations.EncoderAndDecoderMoveInLockStep := by
  intro s d t u hlow hhigh h0 h1 h2 ht htr hu hur
  obtain ⟨iv, hiv, hcoder⟩ := encInterval_completed ht htr
  obtain ⟨jv, hjv, hdcoder⟩ := decRemove_completed hu hur
  have hargs : (s.issue (opcode .encInterval)).operandInterval = (d.issue (opcode .decRemove)).operandInterval :=
    operandInterval_congr h0 h1 h2
  obtain rfl : iv = jv := Except.ok.inj (hiv.symm.trans (hargs.trans hjv))
  obtain ⟨hl, hh⟩ := narrow_congr hlow hhigh iv
  rw [hcoder, hdcoder]
  exact traces_agree _ _ _ _ hl hh

/-- Settles O17, command by command. -/
theorem decoderKeepsItsValueInTheInterval : Obligations.DecoderKeepsItsValueInTheInterval := by
  refine ⟨fun s u t taken pushed hx h hr => decStart_served hx h hr.2, fun s u t taken pushed i hi hs hx h hr => ?_⟩
  rcases hi with rfl | rfl
  · exact decRemove_served hs hx h hr.2
  · exact decSymbol_served hs hx h hr.2

end Sys2Proof.Proofs
end

section
/-! PROOFS. Counts and intervals: the count that a value stands for (R96, R97), the intervals of the model's symbols
(R108, R109, R116, R123) and the points they invert (R110, R117, R121), and the obligations about them. -/

namespace Sys2Proof.Proofs

open Sys2Proof.Machine Sys2Proof.Laws

/-! ### The count of a value -/

/-- With the value inside the bounds the count of a total is below it (R91, R96). -/
theorem count_lt {c : Coder} {t : Nat} (hv : c.holdsValue) (ht : 1 ≤ t) : c.count t < t := by
  obtain ⟨hlow, hhigh⟩ := hv
  have hoff : c.value + 1 - c.low ≤ c.range := by unfold Coder.range; omega
  have hoff1 : 1 ≤ c.value + 1 - c.low := by omega
  have hpos : 1 ≤ (c.value + 1 - c.low) * t := Nat.mul_pos hoff1 ht
  unfold Coder.count
  rw [Nat.div_lt_iff_lt_mul (hoff1.trans hoff)]
  calc (c.value + 1 - c.low) * t - 1 < (c.value + 1 - c.low) * t := by omega
    _ ≤ c.range * t := Nat.mul_le_mul_right t hoff
    _ = t * c.range := Nat.mul_comm _ _

/-- The count reaches the low end of an interval exactly when the value reaches the narrowed low bound (R97). -/
theorem le_count_iff {c : Coder} {l t : Nat} (hv : c.low ≤ c.value) (ht : 1 ≤ t) (hr : 1 ≤ c.range) :
    l ≤ c.count t ↔ c.low + c.range * l / t ≤ c.value := by
  have hpos : 1 ≤ (c.value + 1 - c.low) * t := Nat.mul_pos (by omega) ht
  calc l ≤ c.count t ↔ l * c.range ≤ (c.value + 1 - c.low) * t - 1 := Nat.le_div_iff_mul_le hr
    _ ↔ c.range * l < (c.value + 1 - c.low) * t := by rw [Nat.mul_comm l]; omega
    _ ↔ c.range * l / t < c.value + 1 - c.low := (Nat.div_lt_iff_lt_mul ht).symm
    _ ↔ c.low + c.range * l / t ≤ c.value := by omega

/-- The count stays below the high end of an interval exactly when the value stays within the narrowed high bound,
which the interval's part of the range keeps from falling below the low one (R97). -/
theorem count_lt_iff {c : Coder} {h t : Nat} (hv : c.low ≤ c.value) (ht : 1 ≤ t) (hr : 1 ≤ c.range)
    (hpart : 1 ≤ c.range * h / t) : c.count t < h ↔ c.value ≤ c.low + c.range * h / t - 1 := by
  have hpos : 1 ≤ (c.value + 1 - c.low) * t := Nat.mul_pos (by omega) ht
  calc c.count t < h ↔ (c.value + 1 - c.low) * t - 1 < h * c.range := Nat.div_lt_iff_lt_mul hr
    _ ↔ (c.value + 1 - c.low) * t ≤ c.range * h := by rw [Nat.mul_comm h]; omega
    _ ↔ c.value + 1 - c.low ≤ c.range * h / t := (Nat.le_div_iff_mul_le ht).symm
    _ ↔ c.value ≤ c.low + c.range * h / t - 1 := by omega

theorem misses_eq_false_iff {c : Coder} {iv : Interval} :
    c.misses iv = false ↔ c.narrowLow iv ≤ c.value ∧ c.value ≤ c.narrowHigh iv := by
  simp [Coder.misses]

/-! ### The intervals of symbols -/

theorem slotSym_slotOf (b : Byte) : slotSym (slotOf b) = .byte b := by
  have hb := b.isLt
  have hne : slotOf b ≠ eofSlot := by unfold slotOf eofSlot; omega
  rw [slotSym, if_neg hne, slotOf, BitVec.ofNat_toNat, BitVec.setWidth_eq]

/-- The interval of an unexcluded child passes CheckInterval (R85, R108). -/
theorem interval_ok {n c : Node} {excl : BitVec 256} {b : Byte} (hw : bodyWf n) (hc : n.child b = some c)
    (hx : excluded excl c.byte = false) : (n.interval excl c).ok = true := by
  have hcount : 1 ≤ c.count := (child_nodeWf hw hc).1
  have htotal := interval_total (child_some hc).1 (bodyWf_iff.1 hw).2.2 hx
  have hle := node_total_le hw excl
  refine ok_iff.2 ⟨?_, ?_, by omega⟩
  · show (scanKids excl c.byte n.kids).1 < (scanKids excl c.byte n.kids).1 + c.count
    omega
  · show (scanKids excl c.byte n.kids).1 + c.count ≤
      (scanKids excl c.byte n.kids).1 + c.count + (scanKids excl c.byte n.kids).2 + n.outcomes
    omega

/-- The escape interval of a node with a child passes CheckInterval (R85, R109). -/
theorem escInterval_ok {n : Node} (hw : bodyWf n) (hk : n.kids ≠ []) (excl : BitVec 256) :
    (n.escInterval excl).ok = true := by
  obtain ⟨⟨-, houtcomes⟩, -⟩ := bodyWf_iff.1 hw
  have h1 := houtcomes hk
  have htotal := total_eq n excl
  exact ok_iff.2 ⟨show n.total excl - n.outcomes < n.total excl by omega, Nat.le_refl _, node_total_le hw excl⟩

/-- The interval of an open slot passes CheckInterval (R85, R116). -/
theorem uniInterval_ok {m : Model} {slot : Nat} (hm : m.Wf) (hs : slot < 257)
    (hx : slotExcluded m.excl slot = false) : (m.uniInterval slot).ok = true := by
  have hlt : slot < m.uni.length := hm.uni_len.symm ▸ hs
  have hget : m.uni.getD slot 0 = m.uni[slot] := List.getD_eq_getElem _ _ hlt
  have h1 : 1 ≤ m.uni.getD slot 0 := hget ▸ (hm.uni_range _ (List.getElem_mem hlt)).1
  have htotal := uniInterval_total hlt hx
  have hle := uniTotal_le hm.uni_len fun u hu => (hm.uni_range u hu).2
  refine ok_iff.2 ⟨?_, Nat.le_add_right _ _, by omega⟩
  show (m.uniMass.take slot).sum < (m.uniMass.take slot).sum + m.uni.getD slot 0
  omega

/-! ### The points of counts -/

theorem point_node {m : Model} {n : Node} {x : Nat} (hn : m.ctxNode = some n) (hx : x < m.total) :
    m.point x = .ok (n.point m.excl x) := by
  rw [Model.point, if_neg (by omega), hn]
  rfl

theorem point_uni {m : Model} {x : Nat} (hn : m.ctxNode = none) (hx : x < m.total) :
    m.point x = .ok (m.uniPoint x) := by
  rw [Model.point, if_neg (by omega), hn]
  rfl

/-- A backoff count inside an open slot's interval is the slot's symbol (R117). -/
theorem uniPoint_of_mem {m : Model} {slot x : Nat} (hl : m.uni.length = 257) (hs : slot < 257)
    (hx : slotExcluded m.excl slot = false) (hlow : (m.uniInterval slot).low ≤ x)
    (hhigh : x < (m.uniInterval slot).high) (ht : x < m.uniTotal) : m.uniPoint x = slotSym slot := by
  have hiff := pointSlots_iff (excl := m.excl) (x := x) m.uni 0 0 slot (by omega) (by omega) (by rwa [Nat.zero_add])
    (Nat.zero_le _) (by rwa [Nat.zero_add])
  rw [Nat.zero_add, Nat.zero_add] at hiff
  exact hiff.2 ⟨hlow, hhigh⟩

/-- What ModelInterval gives for a symbol of a well-formed model: a valid interval of the model's total, on which
ModelPoint is that symbol (R121, R123). -/
structure Codes (m : Model) (sym : Sym) (iv : Interval) : Prop where
  ok : iv.ok = true
  total : iv.total = m.total
  point : ∀ x, iv.low ≤ x → x < iv.high → x < m.total → m.point x = .ok sym

theorem codes_child {m : Model} {n c : Node} {b : Byte} (hm : m.Wf) (hn : m.ctxNode = some n)
    (hc : n.child b = some c) (hx : excluded m.excl b = false) : Codes m (.byte b) (n.interval m.excl c) := by
  obtain ⟨hw, -⟩ := ctxNode_body hm hn
  obtain ⟨hmem, rfl⟩ := child_some hc
  have hnodup := (bodyWf_iff.1 hw).2.2
  refine ⟨interval_ok hw hc hx, (interval_total hmem hnodup hx).trans (total_some hn).symm, fun x hlow hhigh ht => ?_⟩
  have hpoint : n.point m.excl x = .byte c.byte :=
    (pointKids_byte hmem hnodup hx (Nat.zero_le x)).2 (by rw [Nat.zero_add]; exact ⟨hlow, hhigh⟩)
  rw [point_node hn ht, hpoint]

theorem codes_escape {m : Model} {n : Node} (hm : m.Wf) (hn : m.ctxNode = some n) :
    Codes m .escape (n.escInterval m.excl) := by
  obtain ⟨hw, hk⟩ := ctxNode_body hm hn
  refine ⟨escInterval_ok hw hk m.excl, (total_some hn).symm, fun x hlow _ ht => ?_⟩
  have hopen : 0 + openSum m.excl n.kids ≤ x := by
    have htotal := total_eq n m.excl
    have hlow : n.total m.excl - n.outcomes ≤ x := hlow
    omega
  have hpoint : n.point m.excl x = .escape := (pointKids_escape (Nat.zero_le x)).2 hopen
  rw [point_node hn ht, hpoint]

theorem codes_slot {m : Model} {slot : Nat} (hm : m.Wf) (hn : m.ctxNode = none) (hs : slot < 257)
    (hx : slotExcluded m.excl slot = false) : Codes m (slotSym slot) (m.uniInterval slot) := by
  have htotal := total_none hn
  refine ⟨uniInterval_ok hm hs hx, ?_, fun x hlow hhigh ht => ?_⟩
  · rw [htotal]
    exact uniInterval_total (hm.uni_len.symm ▸ hs) hx
  · rw [point_uni hn ht, uniPoint_of_mem hm.uni_len hs hx hlow hhigh (htotal ▸ ht)]

theorem codes_of_codeSymbol {m m' : Model} {sym : Sym} {iv : Interval} (hm : m.Wf)
    (h : m.codeSymbol sym = .ok (iv, m')) : Codes m sym iv := by
  cases sym with
  | byte b =>
    obtain ⟨hx, ⟨n, c, hn, hc, rfl, -⟩ | ⟨hn, rfl, -⟩⟩ := codeByte_ok h
    · exact codes_child hm hn hc hx
    · have hs : slotOf b < 257 := b.isLt.trans (by decide)
      have codes := codes_slot hm hn hs (slot_open hx)
      rwa [slotSym_slotOf] at codes
  | eof =>
    obtain ⟨hn, rfl, -⟩ := codeEof_ok h
    exact codes_slot (slot := eofSlot) hm hn (by decide) rfl
  | escape =>
    obtain ⟨n, hn, rfl, -⟩ := codeEscape_ok h
    exact codes_escape hm hn

/-! ### The obligations -/

/-- Settles O12: each end of the interval against the narrowed bound it gives. -/
theorem countInIntervalIffValueInBounds : Obligations.CountInIntervalIffValueInBounds := by
  intro c iv hs hv ho
  obtain ⟨hlt, hle, hmax⟩ := ok_iff.1 ho
  have ht : 1 ≤ iv.total := by omega
  have hquarter : maxTotal = firstQuarter := rfl
  have hrange := settled_range hs
  have hr : 1 ≤ c.range := by omega
  obtain ⟨hpart, -⟩ := narrow_bounds hlt hle (show iv.total ≤ c.range by omega)
  exact and_congr (le_count_iff hv.1 ht hr) (count_lt_iff hv.1 ht hr ((Nat.le_add_left 1 _).trans hpart))

/-- Settles O27: the count of the value lies in the symbol's interval, and there ModelPoint is the symbol. -/
theorem decoderRecoversTheCodedSymbol : Obligations.DecoderRecoversTheCodedSymbol := by
  intro m m' c sym iv hm hs hv hcode hmiss
  have codes := codes_of_codeSymbol hm hcode
  obtain ⟨hlow, hhigh⟩ := (countInIntervalIffValueInBounds c iv hs hv codes.ok).2 (misses_eq_false_iff.1 hmiss)
  obtain ⟨hlt, hle, -⟩ := ok_iff.1 codes.ok
  have htotal : c.count m.total < m.total := count_lt hv (codes.total ▸ by omega)
  rw [codes.total] at hlow hhigh
  exact codes.point _ hlow hhigh htotal

end Sys2Proof.Proofs
end

section
/-! PROOFS. What each raw coder command and DEC_START come to when their bits are at hand (R92 to R98, R136 to R138),
what the raw ones leave alone however they end, and the obligations about them. -/

namespace Sys2Proof.Proofs

open Sys2Proof.Machine Sys2Proof.Laws

/-! ### Commands that complete -/

theorem exec_of_done {i : Instr} {s u : State} (h : bodyOf i (s.issue (opcode i)) = .done u)
    (hi : i ≠ .softReset := by decide) : exec i s = .next u.complete := by
  rw [exec_eq i hi, h]
  rfl

theorem body_encInterval {s : State} {iv : Interval} (hb : s.encBarred = false)
    (hi : s.operandInterval = .ok iv) (ho : iv.ok = true) :
    bodyOf .encInterval s = encRenorm renormPasses { s with coder := s.coder.narrow iv } := by
  simp [bodyOf, hb, hi, encodeInterval, ho]

theorem body_encClose {s : State} (hb : s.encBarred = false) (hc : s.coder.btf < maxBtf) :
    bodyOf .encClose s = closeStream s := by
  rw [bodyOf, hb, guard_false, guard_counter_room hc]

theorem body_decCount {s : State} {t : Nat} (hb : s.decBarred = false) (ht : s.operandTotal = .ok t) :
    bodyOf .decCount s = .done (s.setRes0 (natWord (s.coder.count t))) := by
  simp [bodyOf, hb, ht]

theorem body_decRemove {s : State} {iv : Interval} (hb : s.decBarred = false) (hi : s.operandInterval = .ok iv)
    (hm : s.coder.misses iv = false) :
    bodyOf .decRemove s = decRenorm renormPasses { s with coder := s.coder.narrow iv } := by
  simp [bodyOf, hb, hi, Coder.remove, hm]

theorem body_decRemove_missed {s : State} {iv : Interval} (hb : s.decBarred = false)
    (hi : s.operandInterval = .ok iv) (hm : s.coder.misses iv = true) :
    bodyOf .decRemove s = .raised s .desync := by
  simp [bodyOf, hb, hi, Coder.remove, hm]

theorem body_decStart {s : State} (hm : s.mode = .idle) (ho : s.config.toNat ≤ Config.maxOrder) :
    bodyOf .decStart s = decPrime { s.streamInit with mode := .dec } := by
  have hmode : (s.mode != .idle) = false := bne_eq_false_iff_eq.2 hm
  have horder : decide (Config.maxOrder < s.config.toNat) = false := decide_eq_false (Nat.not_lt.2 ho)
  rw [bodyOf, startChecks, hmode, horder, guard_false, guard_false]

/-- A legal total in ARG2 is the operand (R62, R96). -/
theorem operandTotal_of {s : State} {t : Nat} (h1 : 1 ≤ t) (ht : t ≤ maxTotal) (ha : s.arg2 = natWord t) (op : Byte) :
    (s.issue op).operandTotal = .ok t := by
  have hs : s32 (s.issue op).a2 = t := by
    rw [issue_a2, ha]
    unfold maxTotal at ht
    exact s32_natWord (by omega)
  rw [State.operandTotal, hs, if_pos (by omega), Int.toNat_natCast]

/-! ### The closing of a stream -/

/-- ENC_CLOSE with room for its bits and its padding (R93). -/
theorem closeStream_emits {s : State} (hw : s.bitio.wf) {bits : List Bool} {pad : Nat}
    (hbits : bits = s.coder.closeBit :: List.replicate (s.coder.btf + 1) (!s.coder.closeBit))
    (hpad : pad = (8 - (s.bitio.ocnt + bits.length) % 8) % 8) (hr : s.roomFor (bits.length + pad)) :
    ∃ t, closeStream s = .done { t with closed := true } ∧
      Emitted s { s.coder with btf := 0 } (bits ++ List.replicate pad false) t ∧
      t.bitio = { s.bitio with oacc := 0, ocnt := 0 } := by
  have hlen : bits.length = s.coder.btf + 1 + 1 := by simp [hbits]
  obtain ⟨u, hu, follow⟩ := bitPlusFollow_emits s.coder.closeBit
    (s := { s with coder := { s.coder with btf := s.coder.btf + 1 } }) hw
    (roomFor_mono hr (by rw [hlen]; exact Nat.le_add_right _ _))
  rw [← hbits] at follow
  have follow := follow.of_coder
  obtain rfl : pad = (8 - u.bitio.ocnt) % 8 := by rw [hpad, follow.ocnt_eq]
  obtain ⟨t, ht, close, hacc, hcnt⟩ := packerClose_emits follow.wf (follow.room hr)
  rw [follow.coder] at close
  have emitted := follow.trans close
  refine ⟨t, ?_, emitted, ?_⟩
  · unfold closeStream
    rw [hu, andThen_done, ht, andThen_done]
  · dsimp only
    rw [← hacc, ← hcnt, ← emitted.ibyte, ← emitted.icnt]

/-! ### The priming of the value -/

/-- Reading 27 bits takes four bytes from the FIFO, or all of them when there are fewer (R95). -/
theorem drop_four_of_inBits {t : State} {bytes : List Byte} (hi : t.bitio.icnt ≤ 8) (hq : ∃ k, t.inq = bytes.drop k)
    (hb : t.inBits = (bytesBits bytes).drop 27) : t.inq = bytes.drop 4 := by
  obtain ⟨k, hk⟩ := hq
  have hlen := congrArg List.length hb
  rw [State.inBits, List.length_append, lowBits_length, bytesBits_length, List.length_drop, bytesBits_length, hk,
    List.length_drop] at hlen
  rw [hk, List.drop_eq_drop_iff]
  omega

/-- The coder that DecPrime sets before its reads (R95). -/
def unprimed (c : Coder) : Coder :=
  { c with low := 0, high := topValue, value := 0, vbits := virtualBits, eos := false }

/-- The coder that 27 code bits of these bytes prime, zeros standing for missing ones (R81, R95). -/
def primed (c : Coder) (bytes : List Byte) : Coder :=
  { low := 0, high := topValue, btf := c.btf,
    value := bitsValue ((bytesBits bytes ++ List.replicate 27 false).take 27),
    vbits := min 27 (bytesBits bytes).length, eos := bytes.isEmpty }

theorem readMany_unprimed (c : Coder) (bytes : List Byte) :
    (readMany codeValueBits (unprimed c) (bytesBits bytes)).1 = primed c bytes := by
  rw [readMany_value _ _ _ (Nat.le_refl 27)]
  have hvbits : 27 - (27 - 8 * bytes.length) = min 27 (8 * bytes.length) := by omega
  have heos : decide (27 - 8 * bytes.length = 27) = bytes.isEmpty := by
    rw [Bool.eq_iff_iff, decide_eq_true_iff, List.isEmpty_iff_length_eq_zero]
    omega
  simp [unprimed, primed, virtualBits, codeValueBits, bitsValue, hvbits, heos]

/-- DecPrime with its 27 bits at hand (R95). -/
theorem decPrime_reads {s : State} (h0 : s.bitio.icnt = 0) (hr : s.inend = true ∨ 27 ≤ (bytesBits s.inq).length) :
    ∃ t, decPrime s = .done t ∧ t.inq = s.inq.drop 4 ∧
      Consumed s (primed s.coder s.inq) ((bytesBits s.inq).drop 27) t := by
  have hin : s.inBits = bytesBits s.inq := by rw [State.inBits, h0]; rfl
  have ready : State.bitsReady { s with coder := unprimed s.coder } codeValueBits := by
    rw [bitsReady_coder, State.bitsReady, hin]
    exact hr
  obtain ⟨t, ht, reads⟩ := readBits_reads codeValueBits { s with coder := unprimed s.coder } ready
  have consumed := reads.of_coder
  rw [inBits_coder, hin, readMany_unprimed, readMany_bits] at consumed
  exact ⟨t, ht, drop_four_of_inBits (by simpa [h0] using consumed.icnt) consumed.drop consumed.inBits, consumed⟩

/-! ### What the raw commands leave alone -/

/-- `s` with the execution flags and the remaining tasks of `t`. -/
def executingAs (s t : State) : State :=
  { s with busy := t.busy, holdin := t.holdin, holdout := t.holdout, held := t.held }

/-- A run that raises no fault ends in the state of one of its other two ends. -/
theorem finish_noFault {r : Run} {D : State → Prop} {F : State → FaultCode → Prop}
    (h : Meets r D (fun t _ _ => D t) F) (he : r.finish.err = false) :
    ∃ u, D u ∧ r.finish = executingAs u r.finish := by
  cases r with
  | done u => exact ⟨u, h, rfl⟩
  | held u k ts => exact ⟨u, h, rfl⟩
  | raised u c => cases he

/-- What a command's body does to the state it was issued in shows in the command's next state. -/
theorem exec_noFault {i : Instr} {s t : State} {D : State → Prop} {F : State → FaultCode → Prop}
    (hx : exec i s = .next t) (he : t.err = false)
    (h : Meets (bodyOf i (s.issue (opcode i))) D (fun t _ _ => D t) F) (hi : i ≠ .softReset := by decide) :
    ∃ u, D u ∧ t = executingAs u t := by
  rw [exec_eq i hi] at hx
  obtain rfl := Host.Outcome.next.inj hx
  exact finish_noFault h he

theorem encInterval_frame {s t : State} (hx : exec .encInterval s = .next t) (he : t.err = false) :
    ∃ u, OutputOnly (s.issue (opcode .encInterval)) u ∧ t = executingAs u t := by
  refine exec_noFault (F := fun _ _ => True) hx he (Meets.guard (fun _ => trivial) fun _ =>
    Meets.ofExcept (fun _ _ => trivial) fun iv _ => Meets.guard (fun _ => trivial) fun _ => ?_)
  exact Meets.mono (encRenorm_writes _ _) (fun _ hu => (outputOnly_coder _ _).trans hu.2)
    (fun _ _ _ hu => (outputOnly_coder _ _).trans hu) fun _ _ hu => hu

/-- `t` is `s` but for CLOSED, the coder, the bit unit and the output FIFO. -/
def ClosingOnly (s t : State) : Prop := OutputOnly { s with closed := t.closed } t

theorem closingOnly_of_outputOnly {s t : State} (h : OutputOnly s t) : ClosingOnly s t := by
  unfold ClosingOnly OutputOnly at *
  rw [h]

theorem closeStream_frame (s : State) :
    Meets (closeStream s) (ClosingOnly s) (fun t _ _ => ClosingOnly s t) fun _ _ => True := by
  refine Meets.andThen (E := OutputOnly s) (Meets.mono (bitPlusFollow_writes _ _)
    (fun _ ht => (outputOnly_coder s _).trans ht.2)
    (fun _ _ _ ht => closingOnly_of_outputOnly ((outputOnly_coder s _).trans ht)) fun _ _ h => h) fun t ht => ?_
  refine Meets.andThen (E := OutputOnly s) (Meets.mono (packerClose_writes t) (fun _ hu => ht.trans hu.2)
    (fun _ _ _ hu => closingOnly_of_outputOnly (ht.trans hu)) fun _ _ h => h) fun u hu => ?_
  show ClosingOnly s { u with closed := true }
  unfold ClosingOnly OutputOnly at *
  rw [hu]

theorem encClose_frame {s t : State} (hx : exec .encClose s = .next t) (he : t.err = false) :
    ∃ u, ClosingOnly (s.issue (opcode .encClose)) u ∧ t = executingAs u t :=
  exec_noFault (F := fun _ _ => True) hx he (Meets.guard (fun _ => trivial) fun _ =>
    Meets.guard (fun _ => trivial) fun _ => closeStream_frame _)

theorem decCount_frame {s t : State} (hx : exec .decCount s = .next t) (he : t.err = false) :
    ∃ u, (∃ w, u = (s.issue (opcode .decCount)).setRes0 w) ∧ t = executingAs u t :=
  exec_noFault (F := fun _ _ => True) hx he (Meets.guard (fun _ => trivial) fun _ =>
    Meets.ofExcept (fun _ _ => trivial) fun _ _ => ⟨_, rfl⟩)

theorem decRemove_frame {s t : State} (hx : exec .decRemove s = .next t) (he : t.err = false) :
    ∃ u, InputOnly (s.issue (opcode .decRemove)) u ∧ t = executingAs u t := by
  refine exec_noFault (F := fun _ _ => True) hx he (Meets.guard (fun _ => trivial) fun _ =>
    Meets.ofExcept (fun _ _ => trivial) fun iv _ => Meets.ofExcept (fun _ _ => trivial) fun c _ => ?_)
  exact Meets.mono (decRenorm_readsTo _ _) (fun _ hu => inputOnly_of_consumed hu.of_coder)
    (fun _ _ _ hu => (inputOnly_coder _ _).trans hu) fun _ _ hu => hu.elim

/-! ### The obligations -/

/-- Settles O5: 27 code bits read into the fresh stream. -/
theorem decStartPrimesTheValue : Obligations.DecStartPrimesTheValue := by
  intro s hm ho hr
  obtain ⟨u, hu, hinq, reads⟩ := decPrime_reads
    (s := { (s.issue (opcode .decStart)).streamInit with mode := .dec }) rfl hr
  refine ⟨u.complete, exec_of_done ((body_decStart (s := s.issue _) hm ho).trans hu), ?_, reads.oacc, reads.ocnt,
    reads.inBits⟩
  have heq := reads.eq
  rw [hinq] at heq
  exact congrArg State.complete heq

/-- Settles O7: the passes of the narrowed coder, emitted. -/
theorem encIntervalEmitsTheRenormBits : Obligations.EncIntervalEmitsTheRenormBits := by
  intro s iv hm hc ha ho hw hb hr
  have hbarred : (s.issue (opcode .encInterval)).encBarred = false := encBarred_eq_false hm hc
  obtain ⟨u, hu, passes⟩ := encRenorm_emits renormPasses
    { s.issue (opcode .encInterval) with coder := s.coder.narrow iv } hw hb hr
  refine ⟨u.complete, exec_of_done ((body_encInterval hbarred (operandInterval_of ha ho _) ho).trans hu), ?_,
    passes.outBits, passes.wf, passes.ibyte, passes.icnt⟩
  exact congrArg State.complete passes.eq

/-- Settles O8: the closing bit and its followers, then the padding. -/
theorem encCloseEndsTheStream : Obligations.EncCloseEndsTheStream := by
  intro s hm hc hw hbtf b bits pad hr
  have hbarred : (s.issue (opcode .encClose)).encBarred = false := encBarred_eq_false hm hc
  obtain ⟨u, hu, emitted, hbitio⟩ :=
    closeStream_emits (s := s.issue (opcode .encClose)) (bits := bits) (pad := pad) hw rfl rfl hr
  refine ⟨_, exec_of_done ((body_encClose hbarred hbtf).trans hu), ?_, ?_⟩
  · have heq := emitted.eq
    rw [hbitio] at heq
    exact congrArg (fun v : State => State.complete { v with closed := true }) heq
  · have hout := emitted.outBits
    rw [State.outBits, hbitio, lowBits_zero, List.append_nil, ← List.append_assoc] at hout
    exact hout

/-- Settles O11: the operand is the total, and the value's place in the range bounds its count. -/
theorem decCountWritesTheCount : Obligations.DecCountWritesTheCount := by
  intro s t hm he h1 ht ha count
  have hbarred : (s.issue (opcode .decCount)).decBarred = false := decBarred_eq_false hm he
  exact ⟨exec_of_done (body_decCount hbarred (operandTotal_of h1 ht ha _)), fun hv => count_lt hv h1⟩

/-- Settles O13: the passes of the narrowed coder, read. -/
theorem decRemoveReadsOneBitAPass : Obligations.DecRemoveReadsOneBitAPass := by
  intro s iv hm he ha ho hmiss hr
  have hbarred : (s.issue (opcode .decRemove)).decBarred = false := decBarred_eq_false hm he
  obtain ⟨u, hu, passes⟩ := decRenorm_reads renormPasses
    { s.issue (opcode .decRemove) with coder := s.coder.narrow iv } hr
  refine ⟨u.complete, exec_of_done ((body_decRemove hbarred (operandInterval_of ha ho _) hmiss).trans hu), ?_,
    passes.inBits, passes.drop, passes.oacc, passes.ocnt⟩
  exact congrArg State.complete passes.eq

/-- Settles O14: the interval passes its check and the narrowed bounds miss the value. -/
theorem decRemoveOfAMissIsDesync : Obligations.DecRemoveOfAMissIsDesync := by
  intro s iv he hm heos ha ho hmiss
  have hbarred : (s.issue (opcode .decRemove)).decBarred = false := decBarred_eq_false hm heos
  exact raises_of_refused he (body_decRemove_missed hbarred (operandInterval_of ha ho _) (decide_eq_true hmiss))

/-- Settles O37, command by command. -/
theorem rawCoderCommandsLeaveTheModel : Obligations.RawCoderCommandsLeaveTheModel := by
  intro s t i hi hx he
  simp only [List.mem_cons, List.not_mem_nil, or_false] at hi
  rcases hi with rfl | rfl | rfl | rfl
  · obtain ⟨u, hu, ht⟩ := encInterval_frame hx he
    rw [ht, hu]
    simp [executingAs]
  · obtain ⟨u, hu, ht⟩ := encClose_frame hx he
    rw [ht, hu]
    simp [executingAs]
  · obtain ⟨u, ⟨w, rfl⟩, ht⟩ := decCount_frame hx he
    rw [ht]
    simp [executingAs, State.setRes0]
  · obtain ⟨u, hu, ht⟩ := decRemove_frame hx he
    rw [ht, hu]
    simp [executingAs]

end Sys2Proof.Proofs
end

section
/-! PROOFS. The parts of a total: the children of a trie node (R107 to R110), the slots of the backoff table (R115 to
R117), and the insertion of a path below a node (R111 to R113), with the obligations about them. -/

namespace Sys2Proof.Proofs

open Sys2Proof.Machine Sys2Proof.Laws

/-! ### Points of a trie node -/

theorem wf_kids_nodup {n : Node} (hw : n.children.wf) : (n.kids.map Node.byte).Nodup := ((wf_iff n.children).1 hw).2

/-- A count is an unexcluded child's byte exactly on the child's interval (R108, R110). -/
theorem point_eq_byte_iff {n c : Node} {excl : BitVec 256} {x : Nat} (hw : n.children.wf) (hc : c ∈ n.kids)
    (hx : excluded excl c.byte = false) :
    n.point excl x = .byte c.byte ↔ (n.interval excl c).low ≤ x ∧ x < (n.interval excl c).high := by
  have h := pointKids_byte hc (wf_kids_nodup hw) hx (Nat.zero_le x)
  rwa [Nat.zero_add] at h

/-- A count is ESCAPE exactly on the outcomes region at the top of the total (R109, R110). -/
theorem point_eq_escape_iff (n : Node) (excl : BitVec 256) (x : Nat) :
    n.point excl x = .escape ↔ n.total excl - n.outcomes ≤ x := by
  have hopen : n.total excl - n.outcomes = 0 + openSum excl n.kids := by
    rw [total_eq, Nat.add_sub_cancel_left, Nat.zero_add]
  rw [hopen]
  exact pointKids_escape (Nat.zero_le x)

/-! ### Points and updates of the backoff table -/

/-- A count is an open slot's symbol exactly on the slot's interval (R116, R117). -/
theorem uniPoint_eq_iff {m : Model} {slot x : Nat} (hl : m.uni.length = 257) (hs : slot < 257)
    (hx : slotExcluded m.excl slot = false) (ht : x < m.uniTotal) :
    m.uniPoint x = slotSym slot ↔ (m.uniInterval slot).low ≤ x ∧ x < (m.uniInterval slot).high := by
  have h := pointSlots_iff (excl := m.excl) (x := x) m.uni 0 0 slot (by omega) (by omega) (by rwa [Nat.zero_add])
    (Nat.zero_le _) (by rwa [Nat.zero_add])
  rwa [Nat.zero_add, Nat.zero_add] at h

/-- A slot below the maximum goes up by 1 and the others stay (R116). -/
theorem bumpSlot_getD_below {uni : List Nat} {slot : Nat} (hs : slot < uni.length)
    (hlt : uni.getD slot 0 < maxIndividualCount) (j : Nat) :
    (bumpSlot uni slot).getD j 0 = uni.getD j 0 + if j = slot then 1 else 0 := by
  have hb : bumpSlot uni slot = uni.set slot (uni.getD slot 0 + 1) := if_neg (Nat.not_lt.2 hlt)
  by_cases hj : j = slot
  · subst hj
    simp [hb, hs]
  · simp [hb, Ne.symm hj, hj]

/-- A slot at the maximum becomes 4097 and every other one is halved, rounding up (R116). -/
theorem bumpSlot_getD_max {uni : List Nat} {slot : Nat} (hs : slot < uni.length)
    (hmax : uni.getD slot 0 = maxIndividualCount) (j : Nat) :
    (bumpSlot uni slot).getD j 0 = if j = slot then 4097 else (uni.getD j 0 + 1) / 2 := by
  have hb : bumpSlot uni slot = (uni.set slot 8193).map ceilHalf := by
    rw [bumpSlot, hmax]
    rfl
  by_cases hj : j = slot
  · subst hj
    simp [hb, hs, ceilHalf]
  · cases hget : uni[j]? <;> simp [hb, hj, Ne.symm hj, hget, ceilHalf]

/-! ### The insertion of a path -/

theorem map_eq_ok {α β : Type} {e : Except FaultCode α} {f : α → β} {b : β} :
    e.map f = .ok b ↔ ∃ a, e = .ok a ∧ f a = b := by
  cases e <;> simp [Except.map]

theorem addChild_eq (n : Node) (b : Byte) (rest : List Byte) (nodes : Nat) : n.addChild b rest nodes =
    (newChain b rest nodes).map fun r =>
      ({ n.withKids (r.1 :: n.kids) with outcomes := n.outcomes + 1 }, r.2) := by
  unfold Node.addChild
  cases newChain b rest nodes <;> rfl

/-- What an insertion that succeeds was made of: a new chain in front, or a bump and an insertion below the child that
it put in front (R111, R112). -/
theorem nodeIncrement_cons_ok {b : Byte} {rest : List Byte} {n n' : Node} {nodes nodes' : Nat}
    (h : nodeIncrement (b :: rest) n nodes = .ok (n', nodes')) (hs : n.children.size ≤ nodes) :
    (∃ c, newChain b rest nodes = .ok (c, nodes') ∧
      n' = { n.withKids (c :: n.kids) with outcomes := n.outcomes + 1 }) ∨
    ∃ c c' r others, n.child b = some c ∧ (n.bump c nodes).1.kids = c' :: others ∧ c'.byte = b ∧
      nodeIncrement rest c' (n.bump c nodes).2 = .ok (r, nodes') ∧
      n' = (n.bump c nodes).1.withKids (r :: others) := by
  cases hc : n.child b with
  | none =>
    simp only [nodeIncrement, hc, addChild_eq] at h
    obtain ⟨r, hr, hn⟩ := map_eq_ok.1 h
    obtain ⟨rfl, rfl⟩ := Prod.mk.inj hn
    exact .inl ⟨r.1, hr, rfl⟩
  | some c =>
    obtain ⟨-, -, -, -, c', others, hk, hb⟩ := bump_shape hc hs
    rw [nodeIncrement_bumped (n' := (n.bump c nodes).1) (nodes' := (n.bump c nodes).2) hc rest rfl hk] at h
    obtain ⟨r, hr, hn⟩ := map_eq_ok.1 h
    obtain ⟨rfl, rfl⟩ := Prod.mk.inj hn
    exact .inr ⟨c, c', r.1, others, rfl, hk, hb, hr, rfl⟩

theorem size_cons {n c : Node} {others : List Node} (h : n.kids = c :: others) :
    n.children.size = 1 + c.children.size + (others.map Node.size).sum := by
  rw [kids_size, h]
  rfl

/-- An insertion keeps the node's byte and count and the account of nodes, whatever the trie holds (R44). -/
theorem nodeIncrement_account : ∀ (path : List Byte) {n n' : Node} {nodes nodes' : Nat},
    nodeIncrement path n nodes = .ok (n', nodes') → n.children.size ≤ nodes →
    nodes' + n.children.size = nodes + n'.children.size ∧ n'.byte = n.byte ∧ n'.count = n.count
  | [], n, n', nodes, nodes', h, _ => by
    obtain ⟨rfl, rfl⟩ := Prod.mk.inj (Except.ok.inj h)
    exact ⟨rfl, rfl, rfl⟩
  | b :: rest, n, n', nodes, nodes', h, hs => by
    rcases nodeIncrement_cons_ok h hs with ⟨c, hchain, rfl⟩ | ⟨c, c', r, others, hc, hk, -, hr, rfl⟩
    · obtain ⟨-, -, -, hnodes, -⟩ := newChain_ok _ _ _ _ _ hchain
      have hsize : (Trie.ofList (c :: n.kids)).size = c.size + n.children.size := by
        rw [size_ofList, List.map_cons, List.sum_cons, ← kids_size]
      refine ⟨?_, rfl, rfl⟩
      show nodes' + n.children.size = nodes + (Trie.ofList (c :: n.kids)).size
      omega
    · obtain ⟨hbyte, hcount, hbump, -⟩ := bump_shape hc hs
      have hold := size_cons hk
      have hnew := size_cons (kids_withKids (n.bump c nodes).1 (r :: others))
      obtain ⟨hrest, -, -⟩ := nodeIncrement_account rest hr (by omega)
      exact ⟨by omega, hbyte, hcount⟩

/-- After an insertion the first child is the one of the path's first byte (R111, R112). -/
theorem nodeIncrement_first {b : Byte} {rest : List Byte} {n n' : Node} {nodes nodes' : Nat}
    (h : nodeIncrement (b :: rest) n nodes = .ok (n', nodes')) (hs : n.children.size ≤ nodes) :
    ∃ c others, n'.kids = c :: others ∧ c.byte = b := by
  rcases nodeIncrement_cons_ok h hs with ⟨c, hchain, rfl⟩ | ⟨c, c', r, others, hc, hk, hb, hr, rfl⟩
  · obtain ⟨-, hb, -⟩ := newChain_ok _ _ _ _ _ hchain
    exact ⟨c, n.kids, toList_ofList _, hb⟩
  · obtain ⟨-, -, hbump, -⟩ := bump_shape hc hs
    have hold := size_cons hk
    obtain ⟨-, hbyte, -⟩ := nodeIncrement_account rest hr (by omega)
    exact ⟨r, others, kids_withKids _ _, hbyte.trans hb⟩

/-! ### The obligations -/

/-- Settles O23: the scans of NodePoint and NodeInterval pass the same counts. -/
theorem nodePointInvertsNodeInterval : Obligations.NodePointInvertsNodeInterval := by
  refine fun n c excl b x hw _ => ⟨fun hc hx => ?_, point_eq_escape_iff n excl x⟩
  obtain ⟨hmem, rfl⟩ := child_some hc
  exact ⟨interval_total hmem (wf_kids_nodup hw) hx, point_eq_byte_iff hw hmem hx⟩

/-- Settles O24: the scan of UniPoint passes what UniInterval sums. -/
theorem uniPointInvertsUniInterval : Obligations.UniPointInvertsUniInterval := by
  intro m slot x hl hs hx ht
  exact ⟨uniInterval_total (by omega) hx, uniPoint_eq_iff hl (by omega) hx ht⟩

/-- Settles O25: the range of the update, and the update slot by slot. -/
theorem uniUpdateKeepsCountsInRange : Obligations.UniUpdateKeepsCountsInRange := by
  intro m slot hl hs hr
  have hlt : slot < m.uni.length := by omega
  obtain ⟨hlen, hrange⟩ := bumpSlot_range (slot := slot) hr
  exact ⟨hlen.trans hl, hrange, bumpSlot_getD_below hlt, bumpSlot_getD_max hlt⟩

/-- Settles O26: ModelInterval gives a valid coding of its symbol, and its update keeps the model well formed. -/
theorem modelIntervalsAreValid : Obligations.ModelIntervalsAreValid := by
  intro m m' sym iv hm hc
  have codes := codes_of_codeSymbol hm hc
  exact ⟨codes.ok, codes.total, codeSymbol_wf hm hc⟩

/-- Settles O32: a new chain, a bump, a rescale, and the account that all three keep. -/
theorem nodeIncrementCountsItsNodes : Obligations.NodeIncrementCountsItsNodes := by
  intro n b rest nodes
  refine ⟨fun hc hle => nodeIncrement_new hc rest hle, fun c hc => ?_, nodeIncrement_fits (b :: rest) n nodes,
    fun n' nodes' h hs => ?_⟩
  · exact ⟨fun hlt => nodeIncrement_bump hc hlt rest nodes, fun hmax => nodeIncrement_rescale hc hmax rest nodes⟩
  · obtain ⟨haccount, hbyte, hcount⟩ := nodeIncrement_account _ h hs
    exact ⟨haccount, hbyte, hcount, nodeIncrement_first h hs⟩

end Sys2Proof.Proofs
end

section
/-! PROOFS. The context of the model: the exclusion set (R101, R126), the two searches for a context (R118, R119) and
the update with a byte (R103, R124), with the obligations about them. -/

namespace Sys2Proof.Proofs

open Sys2Proof.Machine Sys2Proof.Laws

/-! ### The exclusion set -/

/-- ModelPoint that succeeds is the point of the context node, or of the backoff table without one (R121). -/
theorem point_ok {m : Model} {x : Int} {sym : Sym} (h : m.point x = .ok sym) :
    (∃ n, m.ctxNode = some n ∧ n.point m.excl x.toNat = sym) ∨ (m.ctxNode = none ∧ m.uniPoint x.toNat = sym) := by
  unfold Model.point at h
  split at h
  · cases h
  · cases hn : m.ctxNode with
    | some n =>
      rw [hn] at h
      exact .inl ⟨n, rfl, Except.ok.inj h⟩
    | none =>
      rw [hn] at h
      exact .inr ⟨rfl, Except.ok.inj h⟩

theorem node_point_byte_open {n : Node} {excl : BitVec 256} {x : Nat} {b : Byte} (h : n.point excl x = .byte b) :
    excluded excl b = false := by
  rcases pointKids_open (excl := excl) (x := x) (ks := n.kids) (acc := 0) with he | ⟨c, -, hx, hc⟩
  · cases he.symm.trans h
  · obtain rfl := Sym.byte.inj (hc.symm.trans h)
    exact hx

theorem uniPoint_byte_open {m : Model} {x : Nat} {b : Byte} (hl : m.uni.length = 257) (h : m.uniPoint x = .byte b) :
    excluded m.excl b = false := by
  rcases pointSlots_open (excl := m.excl) (x := x) m.uni 0 0 (by omega) with he | ⟨c, hx, hc⟩
  · cases he.symm.trans h
  · obtain rfl := Sym.byte.inj (hc.symm.trans h)
    exact hx

theorem codeSymbol_excluded {m : Model} {b : Byte} (hx : excluded m.excl b = true) :
    m.codeSymbol (.byte b) = .error .protocol := by
  simp [Model.codeSymbol, Model.byteInterval, hx]

/-- Excluding the bytes of a sibling list adds those and nothing else (R101, R126). -/
theorem excluded_foldl_exclAdd (b : Byte) : ∀ (ks : List Node) (excl : BitVec 256),
    excluded (ks.foldl (fun e (d : Node) => exclAdd e d.byte) excl) b = true ↔
      (excluded excl b = true ∨ ∃ c ∈ ks, c.byte = b)
  | [], excl => by simp
  | d :: ks, excl => by
    rw [List.foldl_cons, excluded_foldl_exclAdd b ks, excluded_exclAdd, or_assoc]
    simp only [List.mem_cons, exists_eq_or_imp]

/-! ### ContextBinarySearch -/

/-- Every length up to `top` has a node that is not childless, and all of them are deterministic or none is. -/
def allUsable (m : Model) (top : Nat) (det : Bool) : Prop :=
  ∀ k, 1 ≤ k → k ≤ top → ∃ n, m.lookup k = some n ∧ n.childless m.excl = false ∧ n.deterministic = det

theorem allUsable.node {m : Model} {top k : Nat} {det : Bool} {n : Node} (h : allUsable m top det) (h1 : 1 ≤ k)
    (ht : k ≤ top) (hn : m.lookup k = some n) : n.childless m.excl = false ∧ n.deterministic = det := by
  obtain ⟨n', hn', hfacts⟩ := h k h1 ht
  obtain rfl := Option.some.inj (hn.symm.trans hn')
  exact hfacts

theorem allUsable.exists_of_mid {m : Model} {top lo hi : Nat} {det : Bool} (h : allUsable m top det) (h1 : 1 ≤ lo)
    (hle : lo ≤ hi) (ht : hi ≤ top) : ∃ n, m.lookup ((hi + lo) / 2) = some n ∧ n.childless m.excl = false := by
  obtain ⟨n, hn, hc, -⟩ := h ((hi + lo) / 2) (by omega) (by omega)
  exact ⟨n, hn, hc⟩

/-- Where every length is usable and deterministic the search ends at the shortest: each pass lowers the upper bound,
and the last one is at length 1 (R118). -/
theorem searchEnds_shortest {m : Model} {top lo hi found result : Nat} {det : Bool} (h : allUsable m top true)
    (hs : SearchEnds m lo hi found det result) : lo = 1 → hi ≤ top → (1 ≤ hi ∨ found = 1) → result = 1 := by
  induction hs with
  | stop hlt => intro h1 _ hf; omega
  | unusable hle hn =>
    intro h1 ht _
    obtain ⟨n, hlook, hc⟩ := h.exists_of_mid (Nat.le_of_eq h1.symm) hle ht
    exact absurd ((hn n hlook).symm.trans hc) Bool.noConfusion
  | deterministic hle _ _ _ _ ih =>
    intro h1 ht _
    subst h1
    have hdown := searchDown_lt hle (Nat.le_refl 1)
    refine ih rfl (by omega) ?_
    unfold searchDown
    split <;> omega
  | longer hle hn _ hd =>
    intro h1 ht _
    exact absurd ((h.node (by omega) (by omega) hn).2.symm.trans hd) Bool.noConfusion
  | keep hle hn _ hd =>
    intro h1 ht _
    exact absurd ((h.node (by omega) (by omega) hn).2.symm.trans hd) Bool.noConfusion

/-- Where every length is usable and none is deterministic the search ends at the longest: each pass raises the lower
bound, and the last one is at the top (R118). -/
theorem searchEnds_longest {m : Model} {top lo hi found result : Nat} {det : Bool} (h : allUsable m top false)
    (hs : SearchEnds m lo hi found det result) : det = false → 1 ≤ lo → hi = top → (lo ≤ hi ∨ found = top) →
      result = top := by
  induction hs with
  | stop hlt => intro _ _ _ hf; omega
  | unusable hle hn =>
    intro _ h1 ht _
    obtain ⟨n, hlook, hc⟩ := h.exists_of_mid h1 hle (Nat.le_of_eq ht)
    exact absurd ((hn n hlook).symm.trans hc) Bool.noConfusion
  | deterministic hle hn _ hd =>
    intro _ h1 ht _
    exact absurd ((h.node (by omega) (by omega) hn).2.symm.trans hd) Bool.noConfusion
  | longer hle _ _ _ _ ih =>
    intro _ h1 ht _
    refine ih rfl ?_ ht ?_
    · exact h1.trans (Nat.le_of_lt (searchUp_gt _ _))
    · unfold searchUp
      split <;> omega
  | keep => intro hdet; cases hdet

theorem binarySearch_ends (m : Model) : SearchEnds m 1 m.ctxlen 0 false m.binarySearch :=
  searchLoop_ends m m.ctxlen 1 m.ctxlen 0 false (Nat.le_refl 1) (by omega)

/-! ### ModelIncrement -/

/-- ModelIncrement that succeeds inserts the rest of the new buffer below the root of its oldest byte, then resolves
the context again (R124). -/
theorem increment_inserted {m m' : Model} {b : Byte} (h : m.increment b = .ok m') :
    ∃ f rest n nodes, (m.bufPush b).buf = f :: rest ∧
      nodeIncrement rest ((m.rootOf f).getD (Node.new f)) m.nodes = .ok (n, nodes) ∧
      m' = Model.recontext { m.bufPush b with root := m.root.set f.toNat (some n), nodes := nodes } := by
  obtain ⟨f, rest, hbuf, -, he⟩ := increment_eq m b
  rw [he] at h
  obtain ⟨r, hr, rfl⟩ := map_eq_ok.1 h
  exact ⟨f, rest, r.1, r.2, hbuf, hr, rfl⟩

/-- At order 0 there is no context (R118, R124). -/
theorem recontext_ctxlen_zero {m : Model} (h : m.order = 0) : m.recontext.ctxlen = 0 := by
  have hle := (recontext_peopled m).1
  omega

/-! ### The obligations -/

/-- Settles O28: the scans pass over excluded bytes, and an escape adds the bytes of the context's children. -/
theorem excludedBytesAreNotOffered : Obligations.ExcludedBytesAreNotOffered := by
  intro m hl
  refine ⟨fun x b h => ?_, fun b => codeSymbol_excluded, fun iv m' n h hn b => ?_⟩
  · rcases point_ok h with ⟨n, -, hp⟩ | ⟨-, hp⟩
    · exact node_point_byte_open hp
    · exact uniPoint_byte_open hl hp
  · obtain ⟨n', hn', -, rfl⟩ := codeEscape_ok h
    obtain rfl := Option.some.inj (hn.symm.trans hn')
    exact excluded_foldl_exclAdd b n.kids m.excl

/-- Settles O29: the search from one length below ends at most there, at a length whose node has a child. -/
theorem escapeShortensTheContext : Obligations.EscapeShortensTheContext := by
  intro m m' iv h
  obtain ⟨n, hn, -, rfl⟩ := codeEscape_ok h
  obtain ⟨hle, hpeopled⟩ := escapeFrom_peopled m n
  have hpos : m.ctxlen ≠ 0 := fun h0 => by cases (ctxNode_zero h0).symm.trans hn
  refine ⟨by omega, escapeFrom_eq m n, fun h1 => ?_⟩
  rcases hpeopled with h0 | hnode
  · omega
  · exact hnode

/-- Settles O30: the loop with a pass for every length ends as the unbounded loop does, which ends in one way only. -/
theorem searchEndsAtAUsableContext : Obligations.SearchEndsAtAUsableContext := by
  intro m
  have hends := binarySearch_ends m
  refine ⟨fun k => ⟨fun h => ?_, fun h => h ▸ hends⟩, fun k => ?_, binarySearch_usable m, fun det h1 h => ?_⟩
  · exact (SearchEnds.searchLoop h (Nat.le_refl 1) m.ctxlen (by omega)).symm
  · exact SearchEnds.searchLoop hends (Nat.le_refl 1) (m.ctxlen + k) (by omega)
  · cases det with
    | true => exact searchEnds_shortest h hends rfl (Nat.le_refl _) (.inl h1)
    | false => exact searchEnds_longest h hends rfl (Nat.le_refl 1) rfl (.inl h1)

/-- Settles O31: one insertion below one root, then the search and the clearing of the exclusions. -/
theorem incrementLeavesTheBackoffTable : Obligations.IncrementLeavesTheBackoffTable := by
  refine fun m b hbuf => ⟨increment_fits, fun m' h => ?_⟩
  obtain ⟨f, rest, n, nodes, hcons, hn, rfl⟩ := increment_inserted h
  exact ⟨rfl, rfl, rfl, rfl, (bufPush_buf b hbuf).1, fun h0 => recontext_ctxlen_zero h0, rfl,
    fun hroot => ⟨f, rest, n, hcons, hn, rootOf_set hroot rfl⟩⟩

end Sys2Proof.Proofs
end

section
/-! PROOFS. The PPM commands (R127 to R133): what ModelInterval accepts, what each command completes with, and the
obligations about them. -/

namespace Sys2Proof.Proofs

open Sys2Proof.Machine Sys2Proof.Laws

/-! ### What ModelInterval accepts -/

theorem codeSymbol_escape {m : Model} {n : Node} (hn : m.ctxNode = some n) :
    m.codeSymbol .escape = .ok (n.escInterval m.excl, m.escapeFrom n) := by
  simp only [Model.codeSymbol, hn]

theorem codeSymbol_eof {m : Model} (hn : m.ctxNode = none) :
    m.codeSymbol .eof = .ok (m.uniInterval eofSlot, { m.uniBump eofSlot with eofdone := true }) := by
  simp only [Model.codeSymbol, hn]

/-- An unexcluded child of the context node is coded with its interval, then inserted (R123). -/
theorem codeSymbol_child {m m' : Model} {n c : Node} {b : Byte} (hx : excluded m.excl b = false)
    (hn : m.ctxNode = some n) (hc : n.child b = some c) (hi : m.increment b = .ok m') :
    m.codeSymbol (.byte b) = .ok (n.interval m.excl c, m') := by
  have hiv : m.byteInterval b = .ok (n.interval m.excl c, m) := by
    rw [Model.byteInterval, if_neg (ne_true_of_eq_false hx)]
    simp only [hn, hc]
  simp only [Model.codeSymbol, hiv, hi]

/-- Without a context an unexcluded byte is coded with its slot's interval, then inserted (R116, R123). -/
theorem codeSymbol_slot {m m' : Model} {b : Byte} (hx : excluded m.excl b = false) (hn : m.ctxNode = none)
    (hi : (m.uniBump (slotOf b)).increment b = .ok m') :
    m.codeSymbol (.byte b) = .ok (m.uniInterval (slotOf b), m') := by
  have hiv : m.byteInterval b = .ok (m.uniInterval (slotOf b), m.uniBump (slotOf b)) := by
    rw [Model.byteInterval, if_neg (ne_true_of_eq_false hx)]
    simp only [hn]
  simp only [Model.codeSymbol, hiv, hi]

/-- A byte that the model offers is coded when the store has the nodes it needs (R123, R124). -/
theorem codeSymbol_fits {m : Model} {b : Byte} (ho : m.offers b) (hf : m.nodes + m.missing b ≤ Config.nodeCap) :
    ∃ r, m.codeSymbol (.byte b) = .ok r := by
  obtain ⟨hx, hchild⟩ := ho
  cases hn : m.ctxNode with
  | some n =>
    obtain ⟨c, hc⟩ := Option.ne_none_iff_exists'.1 (hchild n hn)
    obtain ⟨m', hi⟩ := increment_fits hf
    exact ⟨_, codeSymbol_child hx hn hc hi⟩
  | none =>
    have hmissing : (m.uniBump (slotOf b)).missing b = m.missing b := missing_congr rfl rfl rfl b
    obtain ⟨m', hi⟩ := increment_fits (m := m.uniBump (slotOf b)) (b := b) (by rw [hmissing]; exact hf)
    exact ⟨_, codeSymbol_slot hx hn hi⟩

/-! ### Escapes -/

theorem escaped_none {m : Model} (hn : m.ctxNode = none) (sym : Sym) : m.escaped sym = false := by
  simp only [Model.escaped, hn]

theorem escaped_eof {m : Model} {n : Node} (hn : m.ctxNode = some n) : m.escaped .eof = true := by
  simp only [Model.escaped, hn]

/-- A byte escapes from a context exactly when no child has it (R122). -/
theorem escaped_byte_iff {m : Model} {n : Node} (hn : m.ctxNode = some n) (b : Byte) :
    m.escaped (.byte b) = true ↔ ∀ c ∈ n.kids, c.byte ≠ b := by
  simp only [Model.escaped, hn, Option.isNone_iff_eq_none, child_none, List.mem_map, not_exists, not_and, ne_eq]

/-! ### Commands that complete -/

theorem body_ppmTotal {s : State} (hb : s.queryBarred = false) :
    bodyOf .ppmTotal s = .done (s.setRes0 (natWord s.model.total)) := by
  rw [bodyOf, hb, guard_false]

theorem body_ppmPoint {s : State} {sym : Sym} (hb : s.queryBarred = false)
    (hp : s.model.point (s32 s.a0) = .ok sym) : bodyOf .ppmPoint s = .done (s.setRes0 (symWord sym)) := by
  rw [bodyOf, hb, guard_false, hp, ofExcept_ok]

theorem body_ppmEscaped {s : State} {sym : Sym} (hb : s.queryBarred = false)
    (ha : byteOrEofOperand s.a0 = some sym) :
    bodyOf .ppmEscaped s = .done (s.setRes0 (boolWord (s.model.escaped sym))) := by
  rw [bodyOf, hb, guard_false, ha]

theorem body_ppmInterval {s : State} {sym : Sym} {iv : Interval} {m : Model} (hb : s.updateBarred = false)
    (ha : symOperand s.a0 = some sym) (hc : s.model.codeSymbol sym = .ok (iv, m)) :
    bodyOf .ppmInterval s = .done ({ s with model := m }.setResInterval iv) := by
  rw [bodyOf, hb, guard_false, ha]
  simp only [hc, ofExcept_ok]

theorem body_ppmExclude {s : State} {b : Byte} (hb : s.updateBarred = false) (ha : byteOperand s.a0 = some b) :
    bodyOf .ppmExclude s = .done { s with model := s.model.exclude b } := by
  rw [bodyOf, hb, guard_false, ha]

theorem body_ppmIncrement {s : State} {b : Byte} {m : Model} (hb : s.updateBarred = false)
    (ha : byteOperand s.a0 = some b) (hi : s.model.increment b = .ok m) :
    bodyOf .ppmIncrement s = .done { s with model := m } := by
  rw [bodyOf, hb, guard_false, ha]
  simp only [hi, ofExcept_ok]

theorem exec_ppmTotal {s : State} (hm : s.mode ≠ .idle) :
    exec .ppmTotal s = .next { s.completed .ppmTotal with res0 := natWord s.model.total } := by
  rw [exec_of_done (body_ppmTotal (queryBarred_eq_false hm))]
  rfl

theorem exec_ppmPoint {s : State} {sym : Sym} (hm : s.mode ≠ .idle) (hp : s.model.point (s32 s.arg0) = .ok sym) :
    exec .ppmPoint s = .next { s.completed .ppmPoint with res0 := symWord sym } := by
  rw [exec_of_done (body_ppmPoint (queryBarred_eq_false hm) hp)]
  rfl

theorem exec_ppmEscaped {s : State} {sym : Sym} (hm : s.mode ≠ .idle) (hs : sym ≠ .escape)
    (ha : s.arg0 = symWord sym) :
    exec .ppmEscaped s = .next
      { s.completed .ppmEscaped with res0 := if s.model.escaped sym then 1 else 0 } := by
  have hop : byteOrEofOperand s.arg0 = some sym := ha ▸ byteOrEofOperand_symWord hs
  rw [exec_of_done (body_ppmEscaped (queryBarred_eq_false hm) hop)]
  rfl

theorem exec_ppmInterval {s : State} {sym : Sym} {iv : Interval} {m : Model} (hm : s.mode ≠ .idle)
    (hd : s.model.eofdone = false) (ha : s.arg0 = symWord sym) (hc : s.model.codeSymbol sym = .ok (iv, m)) :
    exec .ppmInterval s = .next
      { s.completed .ppmInterval with
        model := m, res0 := natWord iv.low, res1 := natWord iv.high, res2 := natWord iv.total } := by
  have hop : symOperand s.arg0 = some sym := symOperand_eq_some.2 ha
  rw [exec_of_done (body_ppmInterval (updateBarred_eq_false hm hd) hop hc)]
  rfl

theorem exec_ppmExclude {s : State} {b : Byte} (hm : s.mode ≠ .idle) (hd : s.model.eofdone = false)
    (ha : s.arg0 = symWord (.byte b)) :
    exec .ppmExclude s = .next { s.completed .ppmExclude with model := s.model.exclude b } := by
  have hop : byteOperand s.arg0 = some b := ha ▸ byteOperand_byte b
  rw [exec_of_done (body_ppmExclude (updateBarred_eq_false hm hd) hop)]
  rfl

theorem exec_ppmIncrement {s : State} {b : Byte} {m : Model} (hm : s.mode ≠ .idle) (hd : s.model.eofdone = false)
    (ha : s.arg0 = symWord (.byte b)) (hi : s.model.increment b = .ok m) :
    exec .ppmIncrement s = .next { s.completed .ppmIncrement with model := m } := by
  have hop : byteOperand s.arg0 = some b := ha ▸ byteOperand_byte b
  rw [exec_of_done (body_ppmIncrement (updateBarred_eq_false hm hd) hop hi)]
  rfl

/-! ### What the PPM commands leave alone -/

/-- `t` is `s` but for the model and the results. -/
def ModelOnly (s t : State) : Prop :=
  t = { s with model := t.model, res0 := t.res0, res1 := t.res1, res2 := t.res2 }

/-- If the piece completes, it has changed the model and the results alone. -/
def Models (s : State) (r : Run) : Prop := Meets r (ModelOnly s) (fun _ _ _ => True) fun _ _ => True

theorem models_raised (s : State) (c : FaultCode) : Models s (.raised s c) := trivial

theorem models_guard {s : State} {bad : Bool} {c : FaultCode} {r : Run} (h : Models s r) :
    Models s (Run.guard s bad c r) := Meets.guard (fun _ => trivial) fun _ => h

theorem models_ofExcept {α : Type} {s : State} {e : Except FaultCode α} {f : α → Run} (h : ∀ a, Models s (f a)) :
    Models s (Run.ofExcept s e f) := Meets.ofExcept (fun _ _ => trivial) fun a _ => h a

/-- The six PPM commands (R127). -/
def ppmCommands : List Instr := [.ppmTotal, .ppmPoint, .ppmInterval, .ppmEscaped, .ppmExclude, .ppmIncrement]

theorem body_models {i : Instr} (hi : i ∈ ppmCommands) (s : State) : Models s (bodyOf i s) := by
  simp only [ppmCommands, List.mem_cons, List.not_mem_nil, or_false] at hi
  rcases hi with rfl | rfl | rfl | rfl | rfl | rfl
  · exact models_guard rfl
  · exact models_guard (models_ofExcept fun _ => rfl)
  · refine models_guard ?_
    split
    · exact models_raised s _
    · exact models_ofExcept fun _ => rfl
  · refine models_guard ?_
    split
    · exact models_raised s _
    · rfl
  · refine models_guard ?_
    split
    · exact models_raised s _
    · rfl
  · refine models_guard ?_
    split
    · exact models_raised s _
    · exact models_ofExcept fun _ => rfl

/-! ### The obligations -/

/-- Settles O33: the three queries, and the two cases of the context. -/
theorem modelQueriesWriteOnlyTheResult : Obligations.ModelQueriesWriteOnlyTheResult := by
  intro s hm
  refine ⟨exec_ppmTotal hm, ?_, fun c ha hc ht => ?_, fun sym hs ha => exec_ppmEscaped hm hs ha,
    escaped_none, fun n hn => ⟨escaped_eof hn, escaped_byte_iff hn⟩⟩
  · cases hn : s.model.ctxNode with
    | some n => exact total_some hn
    | none => exact total_none hn
  · have hs : s32 s.arg0 = c := by rw [ha, s32_natWord hc]
    cases hn : s.model.ctxNode with
    | some n => exact exec_ppmPoint hm (by rw [hs, point_node hn ht])
    | none => exact exec_ppmPoint hm (by rw [hs, point_uni hn ht])

/-- Settles O34: the command, then what ModelInterval accepts symbol by symbol. -/
theorem ppmIntervalReturnsTheInterval : Obligations.PpmIntervalReturnsTheInterval := by
  refine ⟨fun s sym iv m hm hd ha hc => exec_ppmInterval hm hd ha hc,
    fun m => ⟨fun n hn => codeSymbol_escape hn, fun hn => codeSymbol_eof hn, fun b ho => ?_⟩⟩
  exact ⟨codeSymbol_fits ho, fun n c m' hn hc hi => codeSymbol_child ho.1 hn hc hi,
    fun m' hn hi => codeSymbol_slot ho.1 hn hi⟩

/-- Settles O36: a command that leaves the block ready has run its body to the end. -/
theorem modelCommandsLeaveTheCoderAndTheFifos : Obligations.ModelCommandsLeaveTheCoderAndTheFifos := by
  intro s t i hi hx hr
  have hne : i ≠ .softReset := by
    rintro rfl
    simp at hi
  obtain ⟨u, hu, rfl⟩ := exec_done_of_ready hx hr hne
  have hbody := body_models hi (s.issue (opcode i))
  rw [hu] at hbody
  exact congrArg State.complete hbody

/-- Settles O35: both updates of a byte, and the store that suffices for the second. -/
theorem excludeAndIncrementUpdateTheModel : Obligations.ExcludeAndIncrementUpdateTheModel := by
  intro s b hm hd ha
  refine ⟨exec_ppmExclude hm hd ha, fun m hi => exec_ppmIncrement hm hd ha hi, fun hf => ?_⟩
  obtain ⟨m, hi⟩ := increment_fits hf
  exact ⟨m, hi, exec_ppmIncrement hm hd ha hi⟩

end Sys2Proof.Proofs
end

section
/-! PROOFS. NOP and the two STARTs (R134, R136 to R138, R153): what the checks of a START come to, and the obligations
about them. -/

namespace Sys2Proof.Proofs

open Sys2Proof.Machine Sys2Proof.Laws

/-! ### The checks of a START -/

theorem startChecks_accepted {s : State} (hm : s.mode = .idle) (ho : s.config.toNat ≤ Config.maxOrder) (next : Run) :
    startChecks s next = next := by
  have hmode : (s.mode != .idle) = false := bne_eq_false_iff_eq.2 hm
  have horder : decide (Config.maxOrder < s.config.toNat) = false := decide_eq_false (Nat.not_lt.2 ho)
  rw [startChecks, hmode, horder, guard_false, guard_false]

theorem startChecks_misplaced {s : State} (hm : s.mode ≠ .idle) (next : Run) :
    startChecks s next = .raised s .protocol := by
  rw [startChecks, bne_iff_ne.2 hm, guard_true]

theorem startChecks_badOrder {s : State} (hm : s.mode = .idle) (ho : Config.maxOrder < s.config.toNat) (next : Run) :
    startChecks s next = .raised s .config := by
  rw [startChecks, bne_eq_false_iff_eq.2 hm, guard_false, decide_eq_true ho, guard_true]

/-- Both STARTs make the same checks before anything else (R137, R138). -/
theorem body_start {i : Instr} (hi : i = .encStart ∨ i = .decStart) (s : State) :
    ∃ next, bodyOf i s = startChecks s next := by
  rcases hi with rfl | rfl <;> exact ⟨_, rfl⟩

/-- A START that its checks refuse raises the fault that they name. -/
theorem start_raises {i : Instr} (hi : i = .encStart ∨ i = .decStart) {s : State} {code : FaultCode}
    (he : s.err = false)
    (h : ∀ next, startChecks (s.issue (opcode i)) next = .raised (s.issue (opcode i)) code) : raises i s code := by
  obtain ⟨next, hb⟩ := body_start hi (s.issue (opcode i))
  exact raises_of_refused he (hb.trans (h next)) (by rcases hi with rfl | rfl <;> decide)

/-! ### The obligations -/

/-- Settles O3: NOP's body is done at once. -/
theorem nopChangesNothing : Obligations.NopChangesNothing := by
  intro s
  exact exec_of_done (i := .nop) (u := s.issue (opcode .nop)) rfl

/-- Settles O4: past its checks ENC_START is StreamInit and the mode. -/
theorem encStartBeginsAFreshStream : Obligations.EncStartBeginsAFreshStream := by
  intro s hm ho
  exact exec_of_done (i := .encStart) (startChecks_accepted (s := s.issue _) hm ho _)

/-- Settles O6: the mode check, then the order check. -/
theorem startsCheckModeThenOrder : Obligations.StartsCheckModeThenOrder := by
  intro s i hi he
  refine ⟨fun hm => start_raises hi he (startChecks_misplaced (s := s.issue _) hm), fun hm => ?_⟩
  rcases Nat.lt_or_ge Config.maxOrder s.config.toNat with ho | ho
  · exact .inr (start_raises hi he (startChecks_badOrder (s := s.issue _) hm ho))
  · exact .inl ho

end Sys2Proof.Proofs
end

section
/-! PROOFS. ENC_SYMBOL (R139): when the model codes a symbol, the plan of its escape cascade, and what its loop does
with room for the plan's bits, with the obligation about it. -/

namespace Sys2Proof.Proofs

open Sys2Proof.Machine Sys2Proof.Laws

/-! ### Coding a symbol -/

/-- ModelInterval of a byte that the model offers refuses nothing (R123). -/
theorem byteInterval_offered {m : Model} {b : Byte} (ho : m.offers b) : ∃ r, m.byteInterval b = .ok r := by
  obtain ⟨hx, hchild⟩ := ho
  unfold Model.byteInterval
  rw [if_neg (ne_true_of_eq_false hx)]
  cases hn : m.ctxNode with
  | none => exact ⟨_, rfl⟩
  | some n =>
    obtain ⟨c, hc⟩ := Option.ne_none_iff_exists'.1 (hchild n hn)
    simp only [hc]
    exact ⟨_, rfl⟩

theorem codeSymbol_offered_code {m : Model} {b : Byte} {code : FaultCode} (ho : m.offers b)
    (h : m.codeSymbol (.byte b) = .error code) : code = .capacity := by
  obtain ⟨r, hr⟩ := byteInterval_offered ho
  simp only [Model.codeSymbol, hr] at h
  split at h
  · rename_i e he
    cases h
    exact increment_code he
  · cases h

/-- A byte that the model offers is coded, or the store lacks the nodes it needs (R112, R123). -/
theorem codeSymbol_offered {m : Model} {b : Byte} (ho : m.offers b) :
    (∃ r, m.codeSymbol (.byte b) = .ok r) ∨
      (m.codeSymbol (.byte b) = .error .capacity ∧ Config.nodeCap < m.nodes + m.missing b) := by
  cases hc : m.codeSymbol (.byte b) with
  | ok r => exact .inl ⟨r, rfl⟩
  | error code =>
    refine .inr ⟨by rw [codeSymbol_offered_code ho hc], Nat.lt_of_not_le fun hf => ?_⟩
    obtain ⟨r, hr⟩ := codeSymbol_fits ho hf
    cases hc.symm.trans hr

/-- What a symbol escapes from is a context node (R122). -/
theorem ctxNode_of_escaped {m : Model} {sym : Sym} (h : m.escaped sym = true) : ∃ n, m.ctxNode = some n := by
  cases hn : m.ctxNode with
  | some n => exact ⟨n, rfl⟩
  | none => cases (escaped_none hn sym).symm.trans h

/-- An unexcluded byte that does not escape is offered (R122, R123). -/
theorem offers_of_not_escaped {m : Model} {b : Byte} (hx : excluded m.excl b = false)
    (he : m.escaped (.byte b) = false) : m.offers b := by
  refine ⟨hx, fun n hn hc => ?_⟩
  simp only [Model.escaped, hn, hc, Option.isNone_none, Bool.true_eq_false] at he

/-! ### The plan of a symbol -/

/-- A plan without an escape codes the symbol alone. -/
theorem encPlan_last {more : Nat} {m : Model} {sym : Sym} (h : m.escaped sym = false) :
    m.encPlan more sym = (m.codeSymbol sym).map fun r => ([r.1], r.2) := by
  cases more with
  | zero =>
    rw [Model.encPlan]
    cases m.codeSymbol sym <;> rfl
  | succ more =>
    rw [Model.encPlan, if_neg (ne_true_of_eq_false h)]
    cases m.codeSymbol sym <;> rfl

/-- A plan that begins with an escape goes on from the model after it. -/
theorem encPlan_escape {more : Nat} {m : Model} {sym : Sym} {n : Node} (h : m.escaped sym = true)
    (hn : m.ctxNode = some n) :
    m.encPlan (more + 1) sym =
      ((m.escapeFrom n).encPlan more sym).map fun r => (n.escInterval m.excl :: r.1, r.2) := by
  rw [Model.encPlan, if_pos h, codeSymbol_escape hn]
  dsimp only [bind, Except.bind]
  cases (m.escapeFrom n).encPlan more sym <;> rfl

/-- A symbol that a cascade of this model can code: EOF, or an unexcluded byte whose nodes the store can hold. -/
def Plannable (m : Model) (sym : Sym) : Prop :=
  sym = .eof ∨ ∃ b, sym = .byte b ∧ excluded m.excl b = false ∧ m.nodes + m.missing b ≤ Config.nodeCap

/-- Such a symbol is coded at once when it does not escape (R123). -/
theorem codeSymbol_plannable {m : Model} {sym : Sym} (hp : Plannable m sym) (he : m.escaped sym = false) :
    ∃ r, m.codeSymbol sym = .ok r := by
  rcases hp with rfl | ⟨b, rfl, hx, hf⟩
  · cases hn : m.ctxNode with
    | none => exact ⟨_, codeSymbol_eof hn⟩
    | some n => cases (escaped_eof hn).symm.trans he
  · exact codeSymbol_fits (offers_of_not_escaped hx he) hf

/-- An escape leaves the nodes that a byte's insertion needs as they are (R123, R124). -/
theorem escapeFrom_missing (m : Model) (n : Node) (b : Byte) :
    (m.escapeFrom n).nodes + (m.escapeFrom n).missing b = m.nodes + m.missing b := by
  rw [missing_congr (m' := m.escapeFrom n) rfl rfl rfl b]
  rfl

/-- A symbol that escapes from a node is not among the bytes which that excludes (R122, R123). -/
theorem plannable_escapeFrom {m : Model} {sym : Sym} {n : Node} (hp : Plannable m sym) (hn : m.ctxNode = some n)
    (he : m.escaped sym = true) : Plannable (m.escapeFrom n) sym := by
  rcases hp with rfl | ⟨b, rfl, hx, hf⟩
  · exact .inl rfl
  · refine .inr ⟨b, rfl, Bool.eq_false_iff.2 fun hxe => ?_, by rw [escapeFrom_missing]; exact hf⟩
    rcases (excluded_foldl_exclAdd b n.kids m.excl).1 hxe with h | ⟨c, hc, hb⟩
    · cases hx.symm.trans h
    · exact (escaped_byte_iff hn b).1 he c hc hb

theorem escapeFrom_shorter {m : Model} {n : Node} (hn : m.ctxNode = some n) :
    (m.escapeFrom n).ctxlen < m.ctxlen :=
  codeEscape_shorter (codeSymbol_escape hn)

/-- A well-formed model has a plan for such a symbol, of valid intervals and at most `S.ctxlen` escapes: every escape
shortens the context, and without one no symbol escapes (R119, R122, R139). -/
theorem encPlan_exists : ∀ (more : Nat) {m : Model} {sym : Sym}, m.Wf → m.ctxlen ≤ more → Plannable m sym →
    ∃ ivs m', m.encPlan more sym = .ok (ivs, m') ∧ (∀ iv ∈ ivs, iv.ok = true) ∧ 1 ≤ ivs.length ∧
      ivs.length ≤ m.ctxlen + 1
  | more, m, sym, hm, hlen, hp => by
    cases he : m.escaped sym with
    | false =>
      obtain ⟨r, hr⟩ := codeSymbol_plannable hp he
      have codes := codes_of_codeSymbol hm hr
      refine ⟨[r.1], r.2, by rw [encPlan_last he, hr]; rfl, fun iv hiv => ?_, Nat.le_refl 1, Nat.le_add_left 1 _⟩
      rw [List.mem_singleton.1 hiv]
      exact codes.ok
    | true =>
      obtain ⟨n, hn⟩ := ctxNode_of_escaped he
      have hshort := escapeFrom_shorter hn
      cases more with
      | zero => omega
      | succ more =>
        obtain ⟨ivs, m', hplan, hok, -, hle⟩ := encPlan_exists more (escapeFrom_wf hm n) (by omega)
          (plannable_escapeFrom hp hn he)
        refine ⟨_, m', by rw [encPlan_escape he hn, hplan]; rfl, fun iv hiv => ?_, Nat.le_add_left 1 _, ?_⟩
        · rcases List.mem_cons.1 hiv with rfl | hiv
          · exact (codes_escape hm hn).ok
          · exact hok iv hiv
        · rw [List.length_cons]
          show ivs.length + 1 ≤ m.ctxlen + 1
          omega

/-! ### The loop with room for its bits -/

/-- What the last symbol of ENC_SYMBOL's loop is. -/
theorem encLoop_last {more n : Nat} {sym : Sym} {s : State} (h : s.model.escaped sym = false) :
    encLoop more sym n s = encFinal sym n s := by
  cases more with
  | zero => rfl
  | succ more => exact if_neg (ne_true_of_eq_false h)

/-- What an escape of ENC_SYMBOL's loop is. -/
theorem encLoop_escape {more n : Nat} {sym : Sym} {s : State} (h : s.model.escaped sym = true) :
    encLoop (more + 1) sym n s =
      (encodeSym .escape s).andThen [.encLoop more sym (n + 1)] (encLoop more sym (n + 1)) := if_pos h

/-- The model plays no part in what the packer does. -/
theorem emitted_model {s t : State} {c : Coder} {bits : List Bool} (h : Emitted s c bits t) (m : Model) :
    Emitted { s with model := m } c bits { t with model := m } where
  eq := by rw [h.eq]
  outBits := h.outBits
  wf := h.wf
  ibyte := h.ibyte
  icnt := h.icnt
  outq_len := h.outq_len
  ocnt_eq := h.ocnt_eq

/-- One interval encoded: the coder after it, and its bits (R86 to R88). -/
def encOne (iv : Interval) (c : Coder) : Coder × List Bool := (c.narrow iv).encTrace renormPasses

theorem encAll_cons (iv : Interval) (ivs : List Interval) (c : Coder) :
    Coder.encAll (iv :: ivs) c =
      ((Coder.encAll ivs (encOne iv c).1).1, (encOne iv c).2 ++ (Coder.encAll ivs (encOne iv c).1).2) := rfl

theorem encAll_singleton (iv : Interval) (c : Coder) : Coder.encAll [iv] c = encOne iv c := by
  rw [encAll_cons, Coder.encAll, List.append_nil]

/-- A symbol whose interval is valid is coded with room for its bits (R92, R139). -/
theorem encodeSym_emits {s : State} {sym : Sym} {iv : Interval} {m : Model}
    (hc : s.model.codeSymbol sym = .ok (iv, m)) (ho : iv.ok = true) (hw : s.bitio.wf)
    (hb : s.coder.btf + renormPasses ≤ maxBtf) (hr : s.roomFor (encOne iv s.coder).2.length) :
    ∃ t, encodeSym sym s = .done t ∧
      Emitted { s with model := m } (encOne iv s.coder).1 (encOne iv s.coder).2 t := by
  obtain ⟨t, ht, passes⟩ := encRenorm_emits renormPasses { s with model := m, coder := s.coder.narrow iv } hw hb hr
  refine ⟨t, ?_, passes.of_coder (s := { s with model := m })⟩
  rw [encodeSym, hc, ofExcept_ok, encodeInterval, ho, Bool.not_true, guard_false]
  exact ht

/-- The loop of ENC_SYMBOL with room for the bits of its plan codes the plan's intervals (R139). -/
theorem encLoop_emits : ∀ (more n : Nat) (s : State) (sym : Sym) (ivs : List Interval) (m : Model),
    s.model.ctxlen ≤ more → s.model.encPlan more sym = .ok (ivs, m) → (∀ iv ∈ ivs, iv.ok = true) → s.bitio.wf →
    s.coder.btf + renormPasses * ivs.length ≤ maxBtf → s.roomFor (Coder.encAll ivs s.coder).2.length →
    ∃ t, encLoop more sym n s = .done (t.setRes0 (natWord (n + (ivs.length - 1)))) ∧ 1 ≤ ivs.length ∧
      Emitted { s with model := m } (Coder.encAll ivs s.coder).1 (Coder.encAll ivs s.coder).2 t
  | more, n, s, sym, ivs, m, hlen, hp, ho, hw, hb, hr => by
    cases he : s.model.escaped sym with
    | false =>
      rw [encPlan_last he] at hp
      obtain ⟨⟨iv, m'⟩, hc, hivs⟩ := map_eq_ok.1 hp
      obtain ⟨rfl, rfl⟩ := Prod.mk.inj hivs
      rw [encAll_singleton] at hr ⊢
      obtain ⟨t, ht, emitted⟩ := encodeSym_emits hc (ho _ (List.mem_singleton_self _)) hw hb hr
      exact ⟨t, by rw [encLoop_last he, encFinal, ht, andThen_done]; rfl, Nat.le_refl 1, emitted⟩
    | true =>
      obtain ⟨node, hn⟩ := ctxNode_of_escaped he
      have hshort := escapeFrom_shorter hn
      cases more with
      | zero => omega
      | succ more =>
        rw [encPlan_escape he hn] at hp
        obtain ⟨r, hrest, hivs⟩ := map_eq_ok.1 hp
        obtain ⟨rfl, rfl⟩ := Prod.mk.inj hivs
        rw [encAll_cons] at hr ⊢
        rw [List.length_append] at hr
        rw [List.length_cons, Nat.mul_add] at hb
        obtain ⟨t, ht, first⟩ := encodeSym_emits (codeSymbol_escape hn) (ho _ List.mem_cons_self) hw (by omega)
          (roomFor_mono hr (Nat.le_add_right _ _))
        have hmodel : t.model = s.model.escapeFrom node := by rw [first.eq]
        have hbtf : (encOne (node.escInterval s.model.excl) s.coder).1.btf ≤ s.coder.btf + renormPasses :=
          encTrace_btf_le _ _
        rw [← first.coder] at hr hbtf ⊢
        obtain ⟨u, hu, hlong, rest⟩ := encLoop_emits more (n + 1) t sym r.1 r.2 (by rw [hmodel]; omega)
          (by rw [hmodel]; exact hrest) (fun iv hiv => ho iv (List.mem_cons_of_mem _ hiv)) first.wf (by omega)
          (first.room hr)
        refine ⟨u, ?_, Nat.le_add_left 1 _, (emitted_model first r.2).trans rest⟩
        rw [encLoop_escape he, ht, andThen_done, hu, List.length_cons, Nat.add_assoc n 1, Nat.add_sub_cancel,
          Nat.add_comm 1, Nat.sub_add_cancel hlong]

theorem body_encSymbol {s : State} {sym : Sym} (hb : s.encBarred = false) (hd : s.model.eofdone = false)
    (ha : byteOrEofOperand s.a0 = some sym) : bodyOf .encSymbol s = encLoop s.model.ctxlen sym 0 s := by
  rw [bodyOf, hb, hd, Bool.or_false, guard_false, ha]

/-! ### The obligation -/

/-- Settles O9: the loop codes its plan, and a well-formed model has one. -/
theorem encSymbolCodesItsCascade : Obligations.EncSymbolCodesItsCascade := by
  refine ⟨fun s sym ivs m hm hc hd hs ha hp ho hw hb hr => ?_,
    fun m sym hm hp => encPlan_exists m.ctxlen hm (Nat.le_refl _) hp⟩
  have hbarred : (s.issue (opcode .encSymbol)).encBarred = false := encBarred_eq_false hm hc
  have hop : byteOrEofOperand (s.issue (opcode .encSymbol)).a0 = some sym := by
    rw [issue_a0, ha]
    exact byteOrEofOperand_symWord hs
  obtain ⟨t, ht, -, emitted⟩ := encLoop_emits s.model.ctxlen 0 (s.issue (opcode .encSymbol)) sym ivs m (Nat.le_refl _)
    hp ho hw hb hr
  rw [Nat.zero_add] at ht
  refine ⟨_, exec_of_done ((body_encSymbol hbarred hd hop).trans ht), ?_, emitted.outBits, emitted.wf, emitted.ibyte,
    emitted.icnt⟩
  exact congrArg (fun u : State => (u.setRes0 (natWord (ivs.length - 1))).complete) emitted.eq

end Sys2Proof.Proofs
end

section
/-! PROOFS. ENC_SYMBOL as a sequence of primitive commands (R141): what the encoder's pieces do depends on the coder,
the packer, the output FIFO and the model alone, with the obligation about the sequence. -/

namespace Sys2Proof.Proofs

open Sys2Proof.Machine Sys2Proof.Laws

/-! ### States that the encoder cannot tell apart -/

/-- The two states agree in everything that an encoder's piece reads or writes. -/
structure Agree (s t : State) : Prop where
  coder : t.coder = s.coder
  bitio : t.bitio = s.bitio
  outq : t.outq = s.outq
  model : t.model = s.model

/-- When the first run completes so does the second, in a state that agrees with the first one's. -/
def Follows (r r' : Run) : Prop := ∀ t, r = .done t → ∃ t', r' = .done t' ∧ Agree t t'

theorem follows_done {s s' : State} (h : Agree s s') : Follows (.done s) (.done s') := by
  rintro t ht
  obtain rfl := Run.done.inj ht
  exact ⟨s', rfl, h⟩

theorem Follows.andThen {r r' : Run} {rest rest' : List Task} {f f' : State → Run} (h : Follows r r')
    (hf : ∀ t t', r = .done t → Agree t t' → Follows (f t) (f' t')) :
    Follows (r.andThen rest f) (r'.andThen rest' f') := by
  intro u hu
  obtain ⟨t, ht, hft⟩ := andThen_eq_done.1 hu
  obtain ⟨t', ht', agree⟩ := h t ht
  obtain ⟨u', hu', agree'⟩ := hf t t' ht agree u hft
  exact ⟨u', andThen_eq_done.2 ⟨t', ht', hu'⟩, agree'⟩

theorem Follows.guard {s s' : State} {bad : Bool} {c : FaultCode} {r r' : Run} (h : Follows r r') :
    Follows (Run.guard s bad c r) (Run.guard s' bad c r') := by
  intro t ht
  obtain ⟨hbad, hr⟩ := guard_eq_done.1 ht
  obtain ⟨t', ht', agree⟩ := h t hr
  exact ⟨t', guard_eq_done.2 ⟨hbad, ht'⟩, agree⟩

theorem Follows.ofExcept {α : Type} {s s' : State} {e : Except FaultCode α} {f f' : α → Run}
    (h : ∀ a, Follows (f a) (f' a)) : Follows (Run.ofExcept s e f) (Run.ofExcept s' e f') := by
  intro t ht
  obtain ⟨a, ha, hf⟩ := ofExcept_eq_done.1 ht
  obtain ⟨t', ht', agree⟩ := h a t hf
  exact ⟨t', ofExcept_eq_done.2 ⟨a, ha, ht'⟩, agree⟩

/-! ### The pieces -/

theorem Agree.with_coder {s s' : State} (h : Agree s s') (c : Coder) :
    Agree { s with coder := c } { s' with coder := c } := ⟨rfl, h.bitio, h.outq, h.model⟩

theorem putDone_agree (b : Bool) {s s' : State} (h : Agree s s') : Agree (putDone b s) (putDone b s') := by
  unfold putDone State.outPush
  rw [h.bitio, h.outq]
  split
  · exact ⟨h.coder, rfl, rfl, h.model⟩
  · exact ⟨h.coder, rfl, rfl, h.model⟩

theorem putBit_follows (b : Bool) {s s' : State} (h : Agree s s') : Follows (putBit b s) (putBit b s') := by
  rw [putBit_eq, putBit_eq, h.bitio, h.outq]
  split
  · intro t ht
    cases ht
  · exact follows_done (putDone_agree b h)

theorem followBits_follows (b : Bool) : ∀ (n : Nat) {s s' : State}, Agree s s' →
    Follows (followBits b n s) (followBits b n s')
  | 0, _, _, h => follows_done h
  | n + 1, s, s', h => by
    rw [followBits, followBits, putBit_eq, putBit_eq, h.bitio, h.outq]
    split
    · intro t ht
      cases ht
    · have agree := putDone_agree b h
      rw [retryAs_done, retryAs_done, agree.coder]
      exact followBits_follows b n (agree.with_coder _)

theorem bitPlusFollow_follows (b : Bool) {s s' : State} (h : Agree s s') :
    Follows (bitPlusFollow b s) (bitPlusFollow b s') :=
  (putBit_follows b h).andThen fun t t' _ agree => by
    rw [agree.coder]
    exact followBits_follows (!b) _ agree

theorem encShift_agree (off : Nat) {s s' : State} (h : Agree s s') : Agree (encShift off s) (encShift off s') := by
  unfold encShift
  rw [h.coder]
  exact h.with_coder _

theorem encRenorm_follows : ∀ (n : Nat) {s s' : State}, Agree s s' → Follows (encRenorm n s) (encRenorm n s')
  | 0, _, _, h => follows_done h
  | n + 1, s, s', h => by
    unfold encRenorm
    rw [h.coder]
    cases s.coder.pass with
    | e1 =>
      exact (bitPlusFollow_follows false h).andThen fun _ _ _ agree => encRenorm_follows n (encShift_agree 0 agree)
    | e2 =>
      exact (bitPlusFollow_follows true h).andThen fun _ _ _ agree => encRenorm_follows n (encShift_agree half agree)
    | e3 => exact (encRenorm_follows n (encShift_agree firstQuarter (h.with_coder _))).guard
    | stop => exact follows_done h

theorem encodeInterval_follows (iv : Interval) {s s' : State} (h : Agree s s') :
    Follows (encodeInterval iv s) (encodeInterval iv s') := by
  unfold encodeInterval
  rw [h.coder]
  exact (encRenorm_follows renormPasses (h.with_coder _)).guard

theorem encodeSym_follows (sym : Sym) {s s' : State} (h : Agree s s') :
    Follows (encodeSym sym s) (encodeSym sym s') := by
  unfold encodeSym
  rw [h.model]
  exact .ofExcept fun r => encodeInterval_follows r.1 ⟨h.coder, h.bitio, h.outq, rfl⟩

theorem encFinal_follows (sym : Sym) (n n' : Nat) {s s' : State} (h : Agree s s') :
    Follows (encFinal sym n s) (encFinal sym n' s') :=
  (encodeSym_follows sym h).andThen fun _ _ _ agree =>
    follows_done ⟨agree.coder, agree.bitio, agree.outq, agree.model⟩

/-- What a symbol that has been coded was made of: its interval, then the passes (R139). -/
theorem encodeSym_done {sym : Sym} {s t : State} (h : encodeSym sym s = .done t) :
    ∃ iv m, s.model.codeSymbol sym = .ok (iv, m) ∧ iv.ok = true ∧
      encRenorm renormPasses { s with model := m, coder := s.coder.narrow iv } = .done t ∧ t.model = m := by
  obtain ⟨⟨iv, m⟩, hc, hcoded⟩ := ofExcept_eq_done.1 h
  obtain ⟨hok, hrenorm⟩ := guard_eq_done.1 hcoded
  have model := encodeInterval_model iv (s := { s with model := m }) rfl
  rw [hcoded] at model
  exact ⟨iv, m, hc, by simpa using hok, hrenorm, model⟩

/-- The loop of ENC_SYMBOL does the same from states that agree, whatever it counts and however many escapes it allows,
as long as `S.ctxlen` does not exceed them (R119, R139). -/
theorem encLoop_follows {sym : Sym} : ∀ (more more' n n' : Nat) {s s' : State}, Agree s s' →
    s.model.ctxlen ≤ more → s.model.ctxlen ≤ more' → Follows (encLoop more sym n s) (encLoop more' sym n' s')
  | more, more', n, n', s, s', h, hlen, hlen' => by
    cases he : s.model.escaped sym with
    | false =>
      rw [encLoop_last he, encLoop_last (h.model ▸ he)]
      exact encFinal_follows sym n n' h
    | true =>
      obtain ⟨node, hn⟩ := ctxNode_of_escaped he
      have hshort := escapeFrom_shorter hn
      cases more with
      | zero => omega
      | succ more =>
        cases more' with
        | zero => omega
        | succ more' =>
          rw [encLoop_escape he, encLoop_escape (h.model ▸ he)]
          refine (encodeSym_follows .escape h).andThen fun t t' ht agree => ?_
          obtain ⟨iv, m, hc, -, -, hm⟩ := encodeSym_done ht
          have hless := codeEscape_shorter hc
          exact encLoop_follows more more' _ _ agree (by rw [hm]; omega) (by rw [hm]; omega)

/-! ### The primitive commands -/

theorem encBarred_eq_false_iff {s : State} : s.encBarred = false ↔ s.mode = .enc ∧ s.closed = false := by
  simp [State.encBarred]

/-- An open encoder stream between commands, before its EOF: what ENC_SYMBOL and the primitives for it ask for. -/
structure Encoding (s : State) : Prop where
  mode : s.mode = .enc
  closed : s.closed = false
  eofdone : s.model.eofdone = false
  err : s.err = false

/-- ENC_INTERVAL makes the passes of its interval from every open encoder stream that agrees (R92). -/
theorem exec_encInterval_follows {s t w : State} {iv : Interval} (hb : w.encBarred = false) (he : w.err = false)
    (ha : w.argsHold iv) (ho : iv.ok = true) (h : Agree s w)
    (hpasses : encRenorm renormPasses { s with coder := s.coder.narrow iv } = .done t) :
    ∃ v, exec .encInterval w = .next v ∧ v.ready ∧ Agree t v ∧ v.mode = w.mode ∧ v.closed = w.closed := by
  have agree : Agree { s with coder := s.coder.narrow iv }
      { w.issue (opcode .encInterval) with coder := w.coder.narrow iv } :=
    ⟨congrArg (Coder.narrow · iv) h.coder, h.bitio, h.outq, h.model⟩
  obtain ⟨v, hv, agree⟩ := encRenorm_follows renormPasses agree t hpasses
  have writes := encRenorm_writes renormPasses { w.issue (opcode .encInterval) with coder := w.coder.narrow iv }
  rw [hv] at writes
  have frame : OutputOnly _ v := writes.2
  refine ⟨v.complete, exec_of_done ((body_encInterval (s := w.issue _) hb (operandInterval_of ha ho _) ho).trans hv),
    ⟨rfl, ?_⟩, ⟨agree.coder, agree.bitio, agree.outq, agree.model⟩, ?_, ?_⟩
  · show v.err = false
    rw [frame]
    exact he
  · show v.mode = w.mode
    rw [frame]
    rfl
  · show v.closed = w.closed
    rw [frame]
    rfl

/-- PPM_INTERVAL of a symbol and ENC_INTERVAL of its result do what coding the symbol does (R130, R141). -/
theorem primitives_of_encodeSym {s t : State} {sym : Sym} {op : Byte} (hs : Encoding s)
    (h : encodeSym sym (s.issue op) = .done t) :
    ∃ u v, exec .ppmInterval { s with arg0 := symWord sym } = .next u ∧ u.ready ∧
      exec .encInterval { u with arg0 := u.res0, arg1 := u.res1, arg2 := u.res2 } = .next v ∧ v.ready ∧
      Agree t v ∧ v.mode = .enc ∧ v.closed = false := by
  obtain ⟨iv, m, hc, hok, hpasses, -⟩ := encodeSym_done h
  have hne : s.mode ≠ .idle := by rw [hs.mode]; decide
  have hppm := exec_ppmInterval (s := { s with arg0 := symWord sym }) hne hs.eofdone rfl hc
  obtain ⟨v, hv, ready, agree, hmode, hclosed⟩ := exec_encInterval_follows (s := { s.issue op with model := m })
    (w := { State.completed { s with arg0 := symWord sym } .ppmInterval with
      model := m, res0 := natWord iv.low, res1 := natWord iv.high, res2 := natWord iv.total,
      arg0 := natWord iv.low, arg1 := natWord iv.high, arg2 := natWord iv.total })
    (encBarred_eq_false hs.mode hs.closed) hs.err ⟨rfl, rfl, rfl⟩ hok ⟨rfl, rfl, rfl, rfl⟩ hpasses
  exact ⟨_, v, hppm, ⟨rfl, hs.err⟩, hv, ready, agree, hmode.trans hs.mode, hclosed.trans hs.closed⟩

/-- ENC_SYMBOL that leaves the block ready has run its loop, in an open encoder stream (R139). -/
theorem encSymbol_completed {s t : State} {sym : Sym} (hs : sym ≠ .escape) (ha : s.arg0 = symWord sym)
    (hx : exec .encSymbol s = .next t) (hr : t.ready) :
    Encoding s ∧ ∃ u, encLoop s.model.ctxlen sym 0 (s.issue (opcode .encSymbol)) = .done u ∧ t = u.complete := by
  obtain ⟨u, hu, rfl⟩ := exec_done_of_ready hx hr
  obtain ⟨hbarred, hloop⟩ := guard_eq_done.1 hu
  obtain ⟨hbarred, hd⟩ := Bool.or_eq_false_iff.1 hbarred
  obtain ⟨hmode, hclosed⟩ := encBarred_eq_false_iff.1 hbarred
  have hop : byteOrEofOperand (s.issue (opcode .encSymbol)).a0 = some sym := by
    rw [issue_a0, ha]
    exact byteOrEofOperand_symWord hs
  rw [hop] at hloop
  have framed := encLoop_framed s.model.ctxlen sym 0 (s.issue (opcode .encSymbol))
  rw [show encLoop s.model.ctxlen sym 0 (s.issue (opcode .encSymbol)) = .done u from hloop] at framed
  exact ⟨⟨hmode, hclosed, hd, (err_of_streamOnly framed).symm.trans hr.2⟩, u, hloop, rfl⟩

/-- ENC_SYMBOL goes on with the loop from every encoder stream that agrees with its state (R139, R141). -/
theorem exec_encSymbol_follows {s t w : State} {sym : Sym} {more n : Nat} (hs : sym ≠ .escape)
    (ha : w.arg0 = symWord sym) (hw : Encoding w) (h : Agree s w) (hlen : s.model.ctxlen ≤ more)
    (hloop : encLoop more sym n s = .done t) :
    ∃ v, exec .encSymbol w = .next v ∧ v.ready ∧ Agree t v := by
  have agree : Agree s (w.issue (opcode .encSymbol)) := ⟨h.coder, h.bitio, h.outq, h.model⟩
  obtain ⟨v, hv, agree⟩ := encLoop_follows more w.model.ctxlen n 0 agree hlen (by rw [h.model]) t hloop
  have hop : byteOrEofOperand (w.issue (opcode .encSymbol)).a0 = some sym := by
    rw [issue_a0, ha]
    exact byteOrEofOperand_symWord hs
  have framed := encLoop_framed w.model.ctxlen sym 0 (w.issue (opcode .encSymbol))
  rw [hv] at framed
  exact ⟨v.complete, exec_of_done ((body_encSymbol (s := w.issue _) (encBarred_eq_false hw.mode hw.closed) hw.eofdone
    hop).trans hv), ⟨rfl, (err_of_streamOnly framed).trans hw.err⟩,
    ⟨agree.coder, agree.bitio, agree.outq, agree.model⟩⟩

/-! ### The obligation -/

/-- Settles O10: the first symbol by the primitives, and after an escape the loop from there. -/
theorem encSymbolIsThePrimitiveSequence : Obligations.EncSymbolIsThePrimitiveSequence := by
  intro s t sym hs ha hx hr first
  obtain ⟨encoding, t, hloop, rfl⟩ := encSymbol_completed hs ha hx hr
  cases he : s.model.escaped sym with
  | false =>
    have hfirst : first = sym := if_neg (ne_true_of_eq_false he)
    rw [encLoop_last (s := s.issue _) he] at hloop
    obtain ⟨r, hcoded, hend⟩ := andThen_eq_done.1 hloop
    obtain rfl := Run.done.inj hend
    obtain ⟨u, v, hu, hur, hv, hvr, agree, -⟩ := primitives_of_encodeSym encoding hcoded
    rw [hfirst]
    exact ⟨u, v, hu, hur, hv, hvr, agree.coder, agree.bitio, agree.outq, agree.model⟩
  | true =>
    have hfirst : first = .escape := if_pos he
    obtain ⟨node, hn⟩ := ctxNode_of_escaped he
    have hshort := escapeFrom_shorter hn
    obtain ⟨more, hmore⟩ := Nat.exists_eq_succ_of_ne_zero (Nat.ne_zero_of_lt hshort)
    rw [hmore, encLoop_escape (s := s.issue _) he] at hloop
    obtain ⟨r, hcoded, hrest⟩ := andThen_eq_done.1 hloop
    obtain ⟨u, v, hu, hur, hv, hvr, agree, hmode, hclosed⟩ := primitives_of_encodeSym encoding hcoded
    obtain ⟨iv, m, hc, -, -, hm⟩ := encodeSym_done hcoded
    obtain ⟨-, rfl⟩ := Prod.mk.inj (Except.ok.inj ((codeSymbol_escape hn).symm.trans hc))
    have heof : v.model.eofdone = false := by
      rw [agree.model, hm]
      exact encoding.eofdone
    obtain ⟨w, hw, hwr, agree⟩ := exec_encSymbol_follows (w := { v with arg0 := symWord sym }) hs rfl
      ⟨hmode, hclosed, heof, hvr.2⟩ ⟨agree.coder, agree.bitio, agree.outq, agree.model⟩ (by rw [hm]; omega) hrest
    rw [hfirst]
    exact ⟨u, v, hu, hur, hv, hvr, w, hw, hwr, agree.coder, agree.bitio, agree.outq, agree.model⟩

end Sys2Proof.Proofs
end

section
/-! PROOFS. DEC_SYMBOL (R140): the symbol that the value stands for, the plan of the loop, what the loop does with its
bits at hand and which faults it can raise, with the obligations about it. -/

namespace Sys2Proof.Proofs

open Sys2Proof.Machine Sys2Proof.Laws

/-! ### The symbol of a count -/

/-- A well-formed model's total is positive: a context node has outcomes, and EOF's slot is never skipped (R114,
R115). -/
theorem total_pos {m : Model} (hm : m.Wf) : 1 ≤ m.total := by
  have pos : ∀ {sym : Sym} {iv : Interval}, Codes m sym iv → 1 ≤ m.total := by
    intro sym iv codes
    obtain ⟨hlt, hle, -⟩ := ok_iff.1 codes.ok
    rw [← codes.total]
    omega
  cases hn : m.ctxNode with
  | some n => exact pos (codes_escape hm hn)
  | none => exact pos (codes_slot (slot := eofSlot) hm hn (by decide) rfl)

/-- A symbol that ModelPoint gives is coded, or it is a byte whose nodes the store lacks (R121, R123, R126). -/
theorem codeSymbol_point {m : Model} {x : Int} {sym : Sym} (hm : m.Wf) (hp : m.point x = .ok sym) :
    (∃ r, m.codeSymbol sym = .ok r) ∨
      (m.codeSymbol sym = .error .capacity ∧ ∃ b, Config.nodeCap < m.nodes + m.missing b) := by
  have offered : ∀ b, m.offers b → (∃ r, m.codeSymbol (.byte b) = .ok r) ∨
      (m.codeSymbol (.byte b) = .error .capacity ∧ ∃ b, Config.nodeCap < m.nodes + m.missing b) :=
    fun b ho => (codeSymbol_offered ho).imp_right fun ⟨hc, hfull⟩ => ⟨hc, b, hfull⟩
  rcases point_ok hp with ⟨n, hn, rfl⟩ | ⟨hn, rfl⟩
  · rcases pointKids_open (excl := m.excl) (x := x.toNat) (ks := n.kids) (acc := 0) with he | ⟨c, hc, hx, hb⟩
    · rw [Node.point, he]
      exact .inl ⟨_, codeSymbol_escape hn⟩
    · rw [Node.point, hb]
      refine offered c.byte ⟨hx, fun n' hn' hchild => ?_⟩
      obtain rfl := Option.some.inj (hn.symm.trans hn')
      exact child_none.1 hchild (List.mem_map_of_mem hc)
  · rcases pointSlots_open (excl := m.excl) (x := x.toNat) m.uni 0 0 (by rw [hm.uni_len]) with he | ⟨b, hx, hb⟩
    · rw [Model.uniPoint, he]
      exact .inl ⟨_, codeSymbol_eof hn⟩
    · rw [Model.uniPoint, hb]
      exact offered b ⟨hx, fun n hn' => absurd (hn.symm.trans hn') (by simp)⟩

/-- The count lies in the interval of the symbol that ModelPoint gives for it (R108, R109, R116, R121). -/
theorem interval_of_point {m m' : Model} {x : Nat} {sym : Sym} {iv : Interval} (hm : m.Wf) (hx : x < m.total)
    (hp : m.point x = .ok sym) (hc : m.codeSymbol sym = .ok (iv, m')) : iv.low ≤ x ∧ x < iv.high := by
  have node : ∀ {n : Node}, m.ctxNode = some n → n.point m.excl x = sym := fun hn =>
    Except.ok.inj ((point_node hn hx).symm.trans hp)
  have slot : ∀ {j : Nat}, m.ctxNode = none → j < 257 → slotExcluded m.excl j = false → slotSym j = sym →
      (m.uniInterval j).low ≤ x ∧ x < (m.uniInterval j).high := fun hn hj hopen hsym =>
    (uniPoint_eq_iff hm.uni_len hj hopen (total_none hn ▸ hx)).1
      ((Except.ok.inj ((point_uni hn hx).symm.trans hp)).trans hsym.symm)
  cases sym with
  | byte b =>
    obtain ⟨hopen, ⟨n, c, hn, hchild, rfl, -⟩ | ⟨hn, rfl, -⟩⟩ := codeByte_ok hc
    · obtain ⟨hmem, rfl⟩ := child_some hchild
      exact (point_eq_byte_iff (ctxNode_body hm hn).1.2 hmem hopen).1 (node hn)
    · exact slot hn (b.isLt.trans (by decide)) (slot_open hopen) (slotSym_slotOf b)
  | eof =>
    obtain ⟨hn, rfl, -⟩ := codeEof_ok hc
    exact slot hn (by decide) rfl rfl
  | escape =>
    obtain ⟨n, hn, rfl, -⟩ := codeEscape_ok hc
    exact ⟨(point_eq_escape_iff n m.excl x).1 (node hn), lt_of_lt_of_eq hx (total_some hn)⟩

/-! ### One pass of the loop -/

/-- The value stands for `sym`, whose interval is valid and contains it, and `m'` is the model after it (R140). -/
structure PassOf (m : Model) (c : Coder) (sym : Sym) (iv : Interval) (m' : Model) : Prop where
  point : m.point (c.count m.total) = .ok sym
  codes : m.codeSymbol sym = .ok (iv, m')
  ok : iv.ok = true
  hits : c.misses iv = false

/-- What such a pass makes of a bit stream: the passes of the narrowed coder, a code bit each (R89, R98). -/
def passResult (c : Coder) (sym : Sym) (iv : Interval) (m' : Model) (bits : List Bool) : Decoded :=
  ⟨sym, 0, m', ((c.narrow iv).decTrace renormPasses bits).1, ((c.narrow iv).decTrace renormPasses bits).2,
    (c.narrow iv).passCount renormPasses⟩

theorem PassOf.decPass_eq {m m' : Model} {c : Coder} {sym : Sym} {iv : Interval} (h : PassOf m c sym iv m')
    (bits : List Bool) : decPass m c bits = .ok (passResult c sym iv m' bits) := by
  simp [decPass, bind, Except.bind, h.point, h.codes, h.ok, Coder.remove, h.hits, passResult]

theorem PassOf.decodeSym_eq {s : State} {m' : Model} {sym : Sym} {iv : Interval}
    (h : PassOf s.model s.coder sym iv m') :
    decodeSym s = .ok (sym, { s with model := m', coder := s.coder.narrow iv }) := by
  simp [decodeSym, bind, Except.bind, h.point, h.codes, h.ok, Coder.remove, h.hits]

theorem passOf_of_decPass {m : Model} {c : Coder} {bits : List Bool} {d : Decoded}
    (h : decPass m c bits = .ok d) :
    ∃ iv, PassOf m c d.sym iv d.model ∧ d = passResult c d.sym iv d.model bits := by
  simp only [decPass, bind, Except.bind] at h
  split at h
  · cases h
  · rename_i sym hp
    split at h
    · cases h
    · rename_i r hc
      split at h
      · rename_i ho
        split at h
        · cases h
        · rename_i c' hr
          obtain ⟨hm, rfl⟩ := remove_ok hr
          cases h
          exact ⟨r.1, ⟨hp, hc, ho, hm⟩, rfl⟩
      · cases h

/-- From a well-formed model and a settled coder with its value inside there is a pass, or the store lacks the nodes of
the byte that the value stands for (R91, R97, R123). -/
theorem passOf_or_full {m : Model} {c : Coder} (hm : m.Wf) (hs : c.settled) (hv : c.holdsValue) :
    ∃ sym, m.point (c.count m.total) = .ok sym ∧ ((∃ iv m', PassOf m c sym iv m') ∨
      (m.codeSymbol sym = .error .capacity ∧ ∃ b, Config.nodeCap < m.nodes + m.missing b)) := by
  have hx : c.count m.total < m.total := count_lt hv (total_pos hm)
  obtain ⟨sym, hp⟩ : ∃ sym, m.point (c.count m.total) = .ok sym := by
    cases hn : m.ctxNode with
    | some n => exact ⟨_, point_node hn hx⟩
    | none => exact ⟨_, point_uni hn hx⟩
  refine ⟨sym, hp, (codeSymbol_point hm hp).imp_left fun ⟨⟨iv, m'⟩, hc⟩ => ⟨iv, m', hp, hc, ?_, ?_⟩⟩
  · exact (codes_of_codeSymbol hm hc).ok
  · have codes := codes_of_codeSymbol hm hc
    refine misses_eq_false_iff.2 ((countInIntervalIffValueInBounds c iv hs hv codes.ok).1 ?_)
    rw [codes.total]
    exact interval_of_point hm hx hp hc

/-- The coder that a pass leaves is settled, with its value inside (R90, R91). -/
theorem PassOf.sound {m m' : Model} {c : Coder} {sym : Sym} {iv : Interval} (h : PassOf m c sym iv m')
    (hs : c.settled) (bits : List Bool) :
    (passResult c sym iv m' bits).coder.settled ∧ (passResult c sym iv m' bits).coder.holdsValue := by
  obtain ⟨hsettled, hholds⟩ :=
    decTrace_settled renormPasses (c.narrow iv) bits (enoughPasses_renorm (narrow_ordered hs h.ok))
  exact ⟨hsettled, hholds (misses_eq_false_iff.1 h.hits)⟩

/-! ### The plan of the loop -/

/-- A plan is one pass, or a pass that decodes ESCAPE and the plan from there, which is not reached at length 0. -/
theorem decPlan_cases {more : Nat} {m : Model} {c : Coder} {bits : List Bool} {d : Decoded} (hlen : m.ctxlen ≤ more)
    (h : decPlan more m c bits = .ok d) :
    ∃ d₁, decPass m c bits = .ok d₁ ∧ ((d₁.sym ≠ .escape ∧ d = d₁) ∨
      (d₁.sym = .escape ∧ ∃ k e, more = k + 1 ∧ decPlan k d₁.model d₁.coder d₁.bits = .ok e ∧
        d = { e with escapes := e.escapes + 1, reads := d₁.reads + e.reads })) := by
  cases more with
  | zero =>
    obtain ⟨iv, pass, -⟩ := passOf_of_decPass h
    refine ⟨d, h, .inl ⟨fun he => ?_, rfl⟩⟩
    have hshort := codeEscape_shorter (he ▸ pass.codes)
    omega
  | succ k =>
    simp only [decPlan, bind, Except.bind] at h
    split at h
    · cases h
    · rename_i d₁ hd
      refine ⟨d₁, hd, ?_⟩
      split at h
      · rename_i he
        split at h
        · cases h
        · rename_i e hrest
          exact .inr ⟨he, k, e, rfl, hrest, (Except.ok.inj h).symm⟩
      · rename_i he
        exact .inl ⟨he, (Except.ok.inj h).symm⟩

theorem decPlan_last {more : Nat} {m : Model} {c : Coder} {bits : List Bool} {d : Decoded}
    (hd : decPass m c bits = .ok d) (he : d.sym ≠ .escape) : decPlan more m c bits = .ok d := by
  cases more with
  | zero => exact hd
  | succ k => simp [decPlan, bind, Except.bind, hd, he]

theorem decPlan_escape {more : Nat} {m : Model} {c : Coder} {bits : List Bool} {d e : Decoded}
    (hd : decPass m c bits = .ok d) (he : d.sym = .escape)
    (hrest : decPlan more d.model d.coder d.bits = .ok e) :
    decPlan (more + 1) m c bits = .ok { e with escapes := e.escapes + 1, reads := d.reads + e.reads } := by
  simp [decPlan, bind, Except.bind, hd, he, hrest]

/-- With a well-formed model, settled bounds, the value inside and a store that suffices the loop decodes a symbol:
each pass keeps all of that, and an escape shortens the context (R91, R119, R140). -/
theorem decPlan_exists : ∀ (more : Nat) {m : Model} {c : Coder} (bits : List Bool), m.Wf → c.settled → c.holdsValue →
    m.ctxlen ≤ more → (∀ b, m.nodes + m.missing b ≤ Config.nodeCap) →
    ∃ d, decPlan more m c bits = .ok d ∧ d.sym ≠ .escape ∧ d.escapes ≤ m.ctxlen
  | more, m, c, bits, hm, hs, hv, hlen, hfits => by
    obtain ⟨sym, -, ⟨iv, m', pass⟩ | ⟨-, b, hfull⟩⟩ := passOf_or_full hm hs hv
    · have hd := pass.decPass_eq bits
      by_cases he : sym = .escape
      · subst he
        obtain ⟨n, hn, rfl, rfl⟩ := codeEscape_ok pass.codes
        have hshort := escapeFrom_shorter hn
        obtain ⟨hsettled, hholds⟩ := pass.sound hs bits
        cases more with
        | zero => omega
        | succ more =>
          obtain ⟨e, hrest, hsym, hle⟩ := decPlan_exists more _ (escapeFrom_wf hm n) hsettled hholds (by omega)
            fun b => by rw [escapeFrom_missing]; exact hfits b
          refine ⟨_, decPlan_escape hd rfl hrest, hsym, ?_⟩
          show e.escapes + 1 ≤ m.ctxlen
          omega
      · exact ⟨_, decPlan_last hd he, he, Nat.zero_le _⟩
    · have := hfits b
      omega

/-! ### The loop with its bits at hand -/

/-- The loop of DEC_SYMBOL in one form for every bound on its passes. -/
theorem decLoop_eq (more n : Nat) (s : State) : decLoop more n s =
    Run.ofExcept s (decodeSym s) fun r =>
      (decRenorm renormPasses r.2).andThen [.decNext more r.1 n] (decNext (decAgain more n) r.1 n) := by
  cases more <;> rfl

/-- A renormalization takes one bit a pass from the stream (R89). -/
theorem decTrace_bits : ∀ (n : Nat) (c : Coder) (bits : List Bool),
    (c.decTrace n bits).2 = bits.drop (c.passCount n)
  | 0, _, _ => rfl
  | n + 1, c, bits => by
    unfold Coder.decTrace Coder.passCount
    by_cases hp : c.pass = .stop
    · rw [if_pos hp, if_pos hp]
      rfl
    · rw [if_neg hp, if_neg hp]
      obtain ⟨hlow, hhigh, -⟩ := readBit_bounds (c.decShift c.pass.offset) bits
      rw [decTrace_bits n, passCount_congr n (d := c.shiftBounds c.pass.offset) hlow hhigh]
      cases bits <;> simp [Coder.readBit]

/-- Bits at hand for `j` reads and `k` more are bits at hand for the `k` after them. -/
theorem ready_after {s t : State} {c : Coder} {j k : Nat} (h : Consumed s c (s.inBits.drop j) t)
    (hr : s.bitsReady (j + k)) : t.bitsReady k := by
  rcases hr with he | hlen
  · exact .inl (h.inend.trans he)
  · refine .inr ?_
    rw [h.inBits, List.length_drop]
    omega

/-- The model plays no part in what the unpacker does. -/
theorem consumed_model {s t : State} {c : Coder} {bits : List Bool} (h : Consumed s c bits t) (m : Model) :
    Consumed { s with model := m } c bits { t with model := m } where
  eq := by rw [h.eq]
  inBits := h.inBits
  oacc := h.oacc
  ocnt := h.ocnt
  icnt := h.icnt
  drop := h.drop

/-- A decoded symbol and its renormalization with their bits at hand (R140). -/
theorem decRenorm_passResult {s : State} {sym : Sym} {iv : Interval} {m' : Model}
    (hr : s.bitsReady ((s.coder.narrow iv).passCount renormPasses)) :
    ∃ t, decRenorm renormPasses { s with model := m', coder := s.coder.narrow iv } = .done t ∧
      Consumed { s with model := m' } (passResult s.coder sym iv m' s.inBits).coder
        (passResult s.coder sym iv m' s.inBits).bits t := by
  obtain ⟨t, ht, reads⟩ := decRenorm_reads renormPasses { s with model := m', coder := s.coder.narrow iv } hr
  exact ⟨t, ht, reads.of_coder (s := { s with model := m' })⟩

/-- The loop of DEC_SYMBOL with the bits of its plan at hand follows the plan (R140). -/
theorem decLoop_reads : ∀ (more n : Nat) (s : State) (d : Decoded), s.model.ctxlen ≤ more →
    decPlan more s.model s.coder s.inBits = .ok d → s.bitsReady d.reads →
    ∃ t, decLoop more n s = .done (t.setRes01 (symWord d.sym) (natWord (n + d.escapes))) ∧ d.sym ≠ .escape ∧
      Consumed { s with model := d.model } d.coder d.bits t
  | more, n, s, d, hlen, hplan, hr => by
    obtain ⟨d₁, hd, hcases⟩ := decPlan_cases hlen hplan
    obtain ⟨iv, pass, hresult⟩ := passOf_of_decPass hd
    have hreads : d₁.reads = (s.coder.narrow iv).passCount renormPasses := by rw [hresult]; rfl
    have hmore : d₁.reads ≤ d.reads := by
      rcases hcases with ⟨-, rfl⟩ | ⟨-, k, e, -, -, rfl⟩
      · exact Nat.le_refl _
      · exact Nat.le_add_right _ _
    obtain ⟨t, ht, first⟩ := decRenorm_passResult (sym := d₁.sym) (m' := d₁.model)
      (hreads ▸ bitsReady_mono hr hmore)
    rw [← hresult] at first
    have hloop : decLoop more n s = decNext (decAgain more n) d₁.sym n t := by
      rw [decLoop_eq, pass.decodeSym_eq, ofExcept_ok, ht, andThen_done]
    rcases hcases with ⟨he, rfl⟩ | ⟨he, k, e, rfl, hrest, rfl⟩
    · have hescapes : d.escapes = 0 := by rw [hresult]; rfl
      refine ⟨t, ?_, he, first⟩
      rw [hloop, decNext, if_neg he, hescapes]
      rfl
    · have hmodel : t.model = d₁.model := by rw [first.eq]
      have hbits : d₁.bits = s.inBits.drop d₁.reads := by
        rw [hreads, hresult]
        exact decTrace_bits _ _ _
      have hshort := codeEscape_shorter (he ▸ pass.codes)
      have hready : t.bitsReady e.reads := ready_after (s := { s with model := d₁.model }) (hbits ▸ first) hr
      rw [← hmodel, ← first.coder, ← first.inBits] at hrest
      obtain ⟨u, hu, hsym, rest⟩ := decLoop_reads k (n + 1) t e (by rw [hmodel]; omega) hrest hready
      refine ⟨u, ?_, hsym, (consumed_model first e.model).trans rest⟩
      rw [hloop, decNext, if_pos he]
      exact hu.trans (by rw [Nat.add_assoc, Nat.add_comm 1])

theorem body_decSymbol {s : State} (hb : s.decBarred = false) (hd : s.model.eofdone = false) :
    bodyOf .decSymbol s = decLoop s.model.ctxlen 0 s := by
  rw [bodyOf, hb, hd, Bool.or_false, guard_false]

/-! ### The faults of the loop -/

/-- A sound state with a well-formed model decodes a symbol or runs out of nodes (R91, R97, R123). -/
theorem decodesSym_wf : DecodesSym Model.Wf (· = .capacity) := by
  rintro s ⟨hs, hv, hm⟩
  refine ⟨fun code h => ?_, fun sym t h => decodeSym_keeps hm h⟩
  obtain ⟨sym, hp, ⟨iv, m', pass⟩ | ⟨hc, -⟩⟩ := passOf_or_full hm hs hv
  · cases pass.decodeSym_eq.symm.trans h
  · have hfull : decodeSym s = .error .capacity := by simp [decodeSym, bind, Except.bind, hp, hc]
    exact (Except.error.inj (hfull.symm.trans h)).symm

/-- A run that can raise CAPACITY only ends without a fault or with that one. -/
theorem finish_capacity {P : Model → Prop} {s : State} {r : Run} (he : s.err = false) (hf : Framed s r)
    (hd : Decodes P (· = .capacity) r) : r.finish.err = false ∨ r.finish.errcode = some .capacity := by
  refine finish_of_meets (P := fun t => t.err = false ∨ t.errcode = some .capacity) (meets_and hf hd)
    (fun t ht => ?_) (fun t k ts ht => ?_) fun t code ht => ?_
  · exact .inl ((err_of_streamOnly ht.1).trans he)
  · exact .inl ((err_of_streamOnly ht.1.1).trans he)
  · obtain ⟨⟨frame, -⟩, rfl⟩ := ht
    have he' : t.err = false := (err_of_streamOnly frame).trans he
    exact .inr (by simp [Run.finish, State.commandFault, he'])

/-! ### The obligations -/

/-- Settles O15: the loop follows its plan, and a sound state has one. -/
theorem decSymbolFollowsItsCascade : Obligations.DecSymbolFollowsItsCascade := by
  refine ⟨fun s d hm heos hd hplan hr => ?_, fun m c bits hm hs hv hfits =>
    decPlan_exists m.ctxlen bits hm hs hv (Nat.le_refl _) hfits⟩
  have hbarred : (s.issue (opcode .decSymbol)).decBarred = false := decBarred_eq_false hm heos
  obtain ⟨t, ht, hsym, consumed⟩ :=
    decLoop_reads s.model.ctxlen 0 (s.issue (opcode .decSymbol)) d (Nat.le_refl _) hplan hr
  rw [Nat.zero_add] at ht
  refine ⟨_, exec_of_done ((body_decSymbol hbarred hd).trans ht), ?_, hsym, consumed.inBits, consumed.drop,
    consumed.oacc, consumed.ocnt⟩
  exact congrArg (fun u : State => (u.setRes01 (symWord d.sym) (natWord d.escapes)).complete) consumed.eq

/-- Settles O16: every pass starts sound, and a sound state can only run out of nodes. -/
theorem decSymbolFaultsOnlyForCapacity : Obligations.DecSymbolFaultsOnlyForCapacity := by
  intro s u he hm heos hd hw hs hv hx
  have hbarred : (s.issue (opcode .decSymbol)).decBarred = false := decBarred_eq_false hm heos
  rw [exec_eq .decSymbol (by decide), body_decSymbol hbarred hd] at hx
  obtain rfl := Host.Outcome.next.inj hx
  have framed := decLoop_framed s.model.ctxlen 0 (s.issue (opcode .decSymbol))
  have decodes : Decodes Model.Wf (· = .capacity) (decLoop s.model.ctxlen 0 (s.issue (opcode .decSymbol))) :=
    decLoop_decodes decodesSym_wf _ _ ⟨hs, hv, hw⟩
  refine ⟨finish_capacity (s := s.issue _) he framed decodes, fun taken pushed t served => ?_⟩
  cases ht : t.err with
  | false => exact .inl rfl
  | true =>
    obtain ⟨code, hcode, rfl⟩ := (served_decodes decodesSym_wf served rfl framed decodes).2 he ht
    exact .inr hcode

end Sys2Proof.Proofs
end

section
/-! PROOFS. The step that takes a CMD write or goes on with a held command (R52, R150, R151), and what a held or faulted
block makes of a write (R152, R155, R156), with the obligations about them. -/

namespace Sys2Proof.Proofs

open Sys2Proof.Machine Sys2Proof.Laws

/-! ### The turns of a step -/

/-- A hold waits for a byte or the end of the input, or for space in the output FIFO (R151). -/
theorem canResume_iff {s : State} : s.canResume = true ↔
    (s.holdin = true ∧ (s.inq ≠ [] ∨ s.inend = true)) ∨ (s.holdout = true ∧ s.outq.length < Config.outDepth) := by
  simp [State.canResume]

/-- The host moves when its action is early, or when no hold's condition is true (R151). -/
theorem step_hostAct {s : State} {e : HostEvent} {rest : List HostEvent} (hq : s.hostq = e :: rest)
    (h : e.early = true ∨ s.canResume = false) : step s = { s with hostq := rest }.hostAct e.act := by
  have hturn : s.hostTurn = some (e.act, rest) := by
    rcases h with h | h <;> simp [State.hostTurn, hq, h]
  rw [step, State.advance, hturn]

/-- The block moves when a hold's condition is true and the host's next action, if any, is not early (R151). -/
theorem step_resume {s : State} (hr : s.canResume = true) (h : ∀ e ∈ s.hostq.head?, e.early = false) :
    step s = .next s.resume := by
  have hturn : s.hostTurn = none := by
    unfold State.hostTurn
    cases hq : s.hostq with
    | nil => rfl
    | cons e rest => simp [hr, h e (by rw [hq]; rfl)]
  rw [step, State.advance, hturn]
  exact if_pos hr

/-- With no host action left a block that cannot go on is stuck in a held command, or rests (R151). -/
theorem step_quiet {s : State} (hr : s.canResume = false) (hq : s.hostq = []) :
    step s = if s.busy then .fault .stuckHold else .next s := by
  have hturn : s.hostTurn = none := by rw [State.hostTurn, hq]
  rw [step, State.advance, hturn]
  exact if_neg (ne_true_of_eq_false hr)

/-! ### CMD writes -/

theorem writeCmd_softReset (s : State) : s.writeCmd softResetWord = exec .softReset s := by
  have hissue : s.issueWord softResetWord = exec .softReset s := by
    rw [State.issueWord, softResetWord, decode_encode]
  unfold State.writeCmd
  rw [if_pos rfl, if_pos rfl, hissue, ite_self, ite_self]

/-- A command's word is executed when the block can take the command (R61, R150). -/
theorem writeCmd_encode {s : State} {i : Instr} (h : i = .softReset ∨ s.ready) :
    s.writeCmd (encode i) = exec i s := by
  rcases h with rfl | hr
  · exact writeCmd_softReset s
  · rw [writeCmd_ready hr, State.issueWord, decode_encode]

/-- While a command is held every other word is HOST_IO (R150, R152). -/
theorem writeCmd_held {s : State} {w : Word} (hw : w ≠ softResetWord) (he : s.err = false) (hb : s.busy = true) :
    s.writeCmd w = .next s.hostFaulted := by
  simp [State.writeCmd, he, hb, hw, hostFault_eq he]

/-! ### Writes after a fault -/

theorem writeCmd_faulted {s : State} {w : Word} (hw : w ≠ softResetWord) (he : s.err = true) :
    s.writeCmd w = .next s := by
  simp [State.writeCmd, he, hw]

theorem writeInData_faulted {s : State} (he : s.err = true) (w : Word) : s.writeInData w = s := if_pos he

theorem writeInCtrl_faulted {s : State} (he : s.err = true) (w : Word) : s.writeInCtrl w = s := if_pos he

/-! ### The obligations -/

/-- Settles O45: the host's turn, the CMD write, and the command its word decodes to. -/
theorem stepRunsTheDecodedCommand : Obligations.StepRunsTheDecodedCommand := by
  intro s w i early rest hq hturn hw hi
  obtain rfl := decode_eq_ok_iff.1 hw
  calc step s = { s with hostq := rest }.hostAct (.write 0x00 4 (encode i)) := step_hostAct hq hturn
    _ = { s with hostq := rest }.writeCmd (encode i) := hostAct_write _ .cmd _
    _ = exec i { s with hostq := rest } := writeCmd_encode (s := { s with hostq := rest }) hi

/-- Settles O46: the condition of a hold, and the turns that are not the host's. -/
theorem heldCommandResumesOrIsStuck : Obligations.HeldCommandResumesOrIsStuck := by
  refine fun s => ⟨canResume_iff, step_resume, fun hr hq hb => ?_, fun hr hq hb => ?_⟩
  · rw [step_quiet hr hq, if_pos hb]
  · rw [step_quiet hr hq, if_neg (ne_true_of_eq_false hb)]

/-- Settles O55: the CMD write of a held and of a faulted block, and the other writes of a faulted one. -/
theorem busyAndFaultedBlocksTakeOnlySoftReset : Obligations.BusyAndFaultedBlocksTakeOnlySoftReset := by
  intro s w
  have cmd : ∀ v, s.hostAct (.write 0x00 4 v) = s.writeCmd v := hostAct_write s .cmd
  have reset : (0x00000001 : Word) = softResetWord := by decide
  rw [reset]
  refine ⟨fun hw he hb => (cmd w).trans (writeCmd_held hw he hb), fun he =>
    ⟨fun hw => (cmd w).trans (writeCmd_faulted hw he), ?_, ?_⟩, fun _ => ⟨s.softReset, ?_, ⟨rfl, rfl⟩, rfl, rfl⟩⟩
  · exact (hostAct_write s .inData w).trans (congrArg _ (writeInData_faulted he w))
  · exact (hostAct_write s .inCtrl w).trans (congrArg _ (writeInCtrl_faulted he w))
  · exact (cmd softResetWord).trans (writeCmd_softReset s)

end Sys2Proof.Proofs
end

section
/-! PROOFS. Commands that fault: the checks of mode and stream state (R127, R149, R153), what the model refuses (R121,
R123), and the two stores that run full (R88, R93, R112, R148), with the obligations about them. -/

namespace Sys2Proof.Proofs

open Sys2Proof.Machine Sys2Proof.Laws

/-! ### The check every command makes first -/

/-- The mode or the stream state forbids the command (R149). -/
def misplaced : Instr → State → Bool
  | .nop, _ | .softReset, _ => false
  | .encStart, s | .decStart, s => s.mode != .idle
  | .encInterval, s | .encClose, s => s.encBarred
  | .encSymbol, s => s.encBarred || s.model.eofdone
  | .decCount, s | .decRemove, s => s.decBarred
  | .decSymbol, s => s.decBarred || s.model.eofdone
  | .ppmTotal, s | .ppmPoint, s | .ppmEscaped, s => s.queryBarred
  | .ppmInterval, s | .ppmExclude, s | .ppmIncrement, s => s.updateBarred

/-- A command's body checks its place before it looks at anything else (R153). -/
theorem body_checks_place (i : Instr) (s : State) :
    ∃ next, bodyOf i s = Run.guard s (misplaced i s) .protocol next := by
  cases i <;> exact ⟨_, rfl⟩

theorem misplaced_issue (i : Instr) (s : State) (op : Byte) : misplaced i (s.issue op) = misplaced i s := by
  cases i <;> rfl

theorem raises_of_misplaced {i : Instr} {s : State} (he : s.err = false) (h : misplaced i s = true) :
    raises i s .protocol := by
  obtain ⟨next, hbody⟩ := body_checks_place i (s.issue (opcode i))
  rw [misplaced_issue, h, guard_true] at hbody
  exact raises_of_refused he hbody (by rintro rfl; cases h)

theorem encBarred_of {s : State} (h : s.mode ≠ .enc ∨ s.closed = true) : s.encBarred = true := by
  rcases h with h | h <;> simp [State.encBarred, h]

theorem decBarred_of {s : State} (h : s.mode ≠ .dec ∨ s.coder.eos = true) : s.decBarred = true := by
  rcases h with h | h <;> simp [State.decBarred, h]

theorem queryBarred_of {s : State} (h : s.mode = .idle) : s.queryBarred = true := beq_iff_eq.2 h

theorem updateBarred_of {s : State} (h : s.mode = .idle ∨ s.model.eofdone = true) : s.updateBarred = true := by
  rcases h with h | h <;> simp [State.updateBarred, h]

/-! ### What the model refuses -/

/-- A count outside [0, total) stands for no symbol (R121). -/
theorem point_outside {m : Model} {c : Int} (h : c < 0 ∨ (m.total : Int) ≤ c) : m.point c = .error .protocol :=
  if_pos h

theorem codeSymbol_escape_refused {m : Model} (hn : m.ctxNode = none) : m.codeSymbol .escape = .error .protocol := by
  simp only [Model.codeSymbol, hn]

theorem codeSymbol_eof_refused {m : Model} {n : Node} (hn : m.ctxNode = some n) :
    m.codeSymbol .eof = .error .protocol := by
  simp only [Model.codeSymbol, hn]

/-- A byte that is no child of the context node is refused, excluded or not (R123). -/
theorem codeSymbol_stranger {m : Model} {n : Node} {b : Byte} (hn : m.ctxNode = some n) (hc : n.child b = none) :
    m.codeSymbol (.byte b) = .error .protocol := by
  have hiv : m.byteInterval b = .error .protocol := by
    simp only [Model.byteInterval, hn, hc, ite_self]
  simp only [Model.codeSymbol, hiv]

/-! ### Insertions into a full store -/

/-- The backoff table plays no part in what an insertion meets. -/
theorem noRescale_congr {m m' : Model} (hb : m'.buf = m.buf) (hr : m'.root = m.root) (ho : m'.order = m.order)
    (b : Byte) : m'.noRescale b ↔ m.noRescale b := by
  unfold Model.noRescale
  rw [incrementPath_congr hb hr ho]

/-- A byte that the model offers is not coded when the store lacks the nodes it needs and no rescale frees any: with
the context node or with the backoff table, its insertion meets the full store (R112, R123). -/
theorem codeSymbol_full {m : Model} {b : Byte} (hn : m.nodes ≤ Config.nodeCap)
    (h : Config.nodeCap < m.nodes + m.missing b) (hs : m.noRescale b) (ho : m.offers b) :
    m.codeSymbol (.byte b) = .error .capacity := by
  rcases codeSymbol_offered ho with ⟨⟨iv, m'⟩, hc⟩ | ⟨hc, -⟩
  · rcases (codeByte_ok hc).2 with ⟨-, -, -, -, -, hi⟩ | ⟨-, -, hi⟩
    · cases hi.symm.trans (increment_full hn h hs)
    · have hmissing : (m.uniBump (slotOf b)).missing b = m.missing b := missing_congr rfl rfl rfl b
      cases hi.symm.trans (increment_full (m := m.uniBump (slotOf b)) hn (by rw [hmissing]; exact h)
        ((noRescale_congr rfl rfl rfl b).2 hs))
  · exact hc

/-! ### Bodies that end in a fault of the model -/

section Refusals

variable {s : State} {code : FaultCode}

theorem body_ppmPoint_fails (hb : s.queryBarred = false) (hp : s.model.point (s32 s.a0) = .error code) :
    bodyOf .ppmPoint s = .raised s code := by
  rw [bodyOf, hb, guard_false, hp, ofExcept_error]

theorem body_ppmInterval_fails {sym : Sym} (hb : s.updateBarred = false) (ha : symOperand s.a0 = some sym)
    (hc : s.model.codeSymbol sym = .error code) : bodyOf .ppmInterval s = .raised s code := by
  rw [bodyOf, hb, guard_false, ha]
  simp only [hc, ofExcept_error]

theorem body_ppmIncrement_fails {b : Byte} (hb : s.updateBarred = false) (ha : byteOperand s.a0 = some b)
    (hi : s.model.increment b = .error code) : bodyOf .ppmIncrement s = .raised s code := by
  rw [bodyOf, hb, guard_false, ha]
  simp only [hi, ofExcept_error]

/-- A symbol that does not escape and that the model does not code ends ENC_SYMBOL at once (R139). -/
theorem body_encSymbol_fails {sym : Sym} (hb : s.encBarred = false) (hd : s.model.eofdone = false)
    (ha : byteOrEofOperand s.a0 = some sym) (he : s.model.escaped sym = false)
    (hc : s.model.codeSymbol sym = .error code) : bodyOf .encSymbol s = .raised s code := by
  rw [body_encSymbol hb hd ha, encLoop_last he, encFinal, encodeSym, hc, ofExcept_error, andThen_raised]

/-- A value that stands for a symbol which the model does not code ends DEC_SYMBOL at once (R140). -/
theorem body_decSymbol_fails {sym : Sym} (hb : s.decBarred = false) (hd : s.model.eofdone = false)
    (hp : s.model.point (s.coder.count s.model.total) = .ok sym) (hc : s.model.codeSymbol sym = .error code) :
    bodyOf .decSymbol s = .raised s code := by
  have hdec : decodeSym s = .error code := by simp [decodeSym, bind, Except.bind, hp, hc]
  rw [body_decSymbol hb hd, decLoop_eq, hdec, ofExcept_error]

/-! ### The commands of one symbol -/

theorem raises_ppmInterval {sym : Sym} (he : s.err = false) (hm : s.mode ≠ .idle) (hd : s.model.eofdone = false)
    (ha : s.arg0 = symWord sym) (hc : s.model.codeSymbol sym = .error code) : raises .ppmInterval s code :=
  raises_of_refused he (body_ppmInterval_fails (s := s.issue _) (updateBarred_eq_false hm hd)
    (symOperand_eq_some.2 ha) hc)

theorem raises_encSymbol {sym : Sym} (he : s.err = false) (hm : s.mode = .enc) (hcl : s.closed = false)
    (hd : s.model.eofdone = false) (hs : sym ≠ .escape) (ha : s.arg0 = symWord sym)
    (hesc : s.model.escaped sym = false) (hc : s.model.codeSymbol sym = .error code) : raises .encSymbol s code := by
  have hop : byteOrEofOperand s.arg0 = some sym := ha ▸ byteOrEofOperand_symWord hs
  exact raises_of_refused he (body_encSymbol_fails (s := s.issue _) (encBarred_eq_false hm hcl) hd hop hesc hc)

/-! ### Faults on the way -/

/-- A fault in the midst of a command is recorded as one at its start: the pieces before it change the stream state
alone (R154, R155). -/
theorem commandFault_faultedBy_of_streamOnly {t : State} {i : Instr} (he : s.err = false)
    (h : StreamOnly (s.issue (opcode i)) t) : s.FaultedBy i code (t.commandFault code) := by
  rw [h]
  constructor <;> simp [State.commandFault, he]

theorem raises_of_raised {t : State} {i : Instr} {r : Run} (he : s.err = false)
    (hb : bodyOf i (s.issue (opcode i)) = r) (hf : Framed (s.issue (opcode i)) r) (hr : r = .raised t code)
    (hi : i ≠ .softReset := by decide) : raises i s code := by
  rw [hr] at hf
  exact ⟨_, by rw [exec_eq i hi, hb, hr]; rfl, commandFault_faultedBy_of_streamOnly he hf.1⟩

/-- Encoding an interval whose passes meet the full bit counter raises CAPACITY (R88, R92). -/
theorem encodeInterval_overflows {iv : Interval} (ho : iv.ok = true) (hv : (s.coder.narrow iv).overflows) :
    ∃ t, encodeInterval iv s = .raised t .capacity := by
  obtain ⟨k, hk, hbtf, hpass⟩ := hv
  obtain ⟨t, ht⟩ := encRenorm_overflows k renormPasses { s with coder := s.coder.narrow iv } hk hbtf hpass
  exact ⟨t, by rw [encodeInterval, ho, Bool.not_true, guard_false, ht]⟩

theorem encodeSym_overflows {sym : Sym} {iv : Interval} {m : Model} (hc : s.model.codeSymbol sym = .ok (iv, m))
    (ho : iv.ok = true) (hv : (s.coder.narrow iv).overflows) : ∃ t, encodeSym sym s = .raised t .capacity := by
  obtain ⟨t, ht⟩ := encodeInterval_overflows (s := { s with model := m }) ho hv
  exact ⟨t, by rw [encodeSym, hc, ofExcept_ok, ht]⟩

/-- The loop of ENC_SYMBOL ends where its first interval does, an escape's or the symbol's (R139). -/
theorem encLoop_overflows {more n : Nat} {sym : Sym} {iv : Interval} {m : Model} (hlen : s.model.ctxlen ≤ more)
    (hc : s.model.codeSymbol (if s.model.escaped sym then .escape else sym) = .ok (iv, m)) (ho : iv.ok = true)
    (hv : (s.coder.narrow iv).overflows) : ∃ t, encLoop more sym n s = .raised t .capacity := by
  obtain ⟨t, ht⟩ := encodeSym_overflows hc ho hv
  refine ⟨t, ?_⟩
  cases he : s.model.escaped sym with
  | false =>
    rw [he, if_neg Bool.false_ne_true] at ht
    rw [encLoop_last he, encFinal, ht, andThen_raised]
  | true =>
    rw [he, if_pos rfl] at ht hc
    have hshort := codeEscape_shorter hc
    obtain ⟨more, rfl⟩ := Nat.exists_eq_succ_of_ne_zero (show more ≠ 0 by omega)
    rw [encLoop_escape he, ht, andThen_raised]

/-! ### The commands that meet a full bit counter -/

theorem raises_encClose (he : s.err = false) (hm : s.mode = .enc) (hcl : s.closed = false)
    (hb : s.coder.btf = maxBtf) : raises .encClose s .capacity := by
  have hbarred : (s.issue (opcode .encClose)).encBarred = false := encBarred_eq_false hm hcl
  refine raises_of_refused he ?_
  rw [bodyOf, hbarred, guard_false]
  exact guard_counter_full (s := s.issue _) hb _

theorem raises_encInterval {iv : Interval} (he : s.err = false) (hm : s.mode = .enc) (hcl : s.closed = false)
    (ha : s.argsHold iv) (ho : iv.ok = true) (hv : (s.coder.narrow iv).overflows) :
    raises .encInterval s .capacity := by
  have hbarred : (s.issue (opcode .encInterval)).encBarred = false := encBarred_eq_false hm hcl
  obtain ⟨t, ht⟩ := encodeInterval_overflows (s := s.issue (opcode .encInterval)) ho hv
  refine raises_of_raised he ?_ (encodeInterval_framed iv _) ht
  rw [bodyOf, hbarred, guard_false, operandInterval_of ha ho, ofExcept_ok]

theorem raises_encSymbol_overflow {sym : Sym} {iv : Interval} {m : Model} (he : s.err = false) (hm : s.mode = .enc)
    (hcl : s.closed = false) (hd : s.model.eofdone = false) (hs : sym ≠ .escape) (ha : s.arg0 = symWord sym)
    (hc : s.model.codeSymbol (if s.model.escaped sym then .escape else sym) = .ok (iv, m)) (ho : iv.ok = true)
    (hv : (s.coder.narrow iv).overflows) : raises .encSymbol s .capacity := by
  have hop : byteOrEofOperand s.arg0 = some sym := ha ▸ byteOrEofOperand_symWord hs
  obtain ⟨t, ht⟩ := encLoop_overflows (s := s.issue (opcode .encSymbol)) (n := 0) (Nat.le_refl _) hc ho hv
  exact raises_of_raised he (body_encSymbol (s := s.issue _) (encBarred_eq_false hm hcl) hd hop)
    (encLoop_framed _ sym 0 _) ht

end Refusals

/-! ### The obligations -/

/-- Settles O38: every command checks its place first. -/
theorem misplacedCommandsRaiseProtocol : Obligations.MisplacedCommandsRaiseProtocol := by
  intro s he
  refine ⟨fun h => ?_, fun h => ?_, fun h => ?_, fun h => ?_, fun h => ?_⟩
  · have hb := encBarred_of h
    exact ⟨raises_of_misplaced he hb, raises_of_misplaced he hb,
      raises_of_misplaced he (Bool.or_eq_true_iff.2 (.inl hb))⟩
  · have hb := decBarred_of h
    exact ⟨raises_of_misplaced he hb, raises_of_misplaced he hb,
      raises_of_misplaced he (Bool.or_eq_true_iff.2 (.inl hb))⟩
  · have hb := queryBarred_of h
    exact ⟨raises_of_misplaced he hb, raises_of_misplaced he hb, raises_of_misplaced he hb⟩
  · exact ⟨raises_of_misplaced he (Bool.or_eq_true_iff.2 (.inr h)),
      raises_of_misplaced he (Bool.or_eq_true_iff.2 (.inr h))⟩
  · have hb := updateBarred_of h
    exact ⟨raises_of_misplaced he hb, raises_of_misplaced he hb, raises_of_misplaced he hb⟩

/-- Settles O40: the model's refusals one by one, each as the fault of the command that asks. -/
theorem modelRefusalsRaiseProtocol : Obligations.ModelRefusalsRaiseProtocol := by
  intro s he hm
  refine ⟨fun h => ?_, fun hd => ⟨fun hn ha => ?_, fun n hn ha => ?_, fun b ha hx => ⟨?_, fun hm hcl hesc => ?_⟩,
    fun n b hn ha hc => ?_⟩⟩
  · exact raises_of_refused he (body_ppmPoint_fails (s := s.issue _) (queryBarred_eq_false hm) (point_outside h))
  · exact raises_ppmInterval he hm hd ha (codeSymbol_escape_refused hn)
  · exact raises_ppmInterval he hm hd ha (codeSymbol_eof_refused hn)
  · exact raises_ppmInterval he hm hd ha (codeSymbol_excluded hx)
  · exact raises_encSymbol he hm hcl hd Sym.noConfusion ha hesc (codeSymbol_excluded hx)
  · exact raises_ppmInterval he hm hd ha (codeSymbol_stranger hn hc)

/-- Settles O41: the full counter, the full store, and the commands that meet the latter. -/
theorem fullStoresRaiseCapacity : Obligations.FullStoresRaiseCapacity := by
  refine ⟨fun s he hm hcl => ⟨fun hb => raises_encClose he hm hcl hb, fun iv => raises_encInterval he hm hcl,
      fun sym iv m => raises_encSymbol_overflow he hm hcl⟩,
    fun m b hn h hs => ⟨increment_full hn h hs, codeSymbol_full hn h hs⟩, fun s b he hm hd => ⟨fun ha hi => ?_,
      fun hc => ⟨fun ha => raises_ppmInterval he hm hd ha hc, fun ha hm hcl hesc => ?_, fun hm heos hp => ?_⟩⟩⟩
  · have hop : byteOperand s.arg0 = some b := ha ▸ byteOperand_byte b
    exact raises_of_refused he (body_ppmIncrement_fails (s := s.issue _) (updateBarred_eq_false hm hd) hop hi)
  · exact raises_encSymbol he hm hcl hd Sym.noConfusion ha hesc hc
  · exact raises_of_refused he (body_decSymbol_fails (s := s.issue _) (decBarred_eq_false hm heos) hd hp hc)

end Sys2Proof.Proofs
end

section
/-! PROOFS. Holds (R77, R80, R151): a held renormalization goes on to the coder and the bits of its trace, and a command
that is served to its end leaves what its body makes of the whole streams, with the obligation about it. -/

namespace Sys2Proof.Proofs

open Sys2Proof.Machine Sys2Proof.Laws

/-! ### A held renormalization -/

/-- What a renormalization has emitted at a hold and what its tasks still emit are the bits of its trace, whatever the
host has left in the output FIFO (R77, R88). -/
theorem encRenorm_held {n : Nat} {s s' t : State} {kind : HoldKind} {rest : List Task} {q : List Byte}
    (hw : s.bitio.wf) (hheld : encRenorm n s = .held s' kind rest)
    (ht : runTasks rest { s' with outq := q } = .done t) :
    t.coder = (s.coder.encTrace n).1 ∧
      ∃ tail, s'.outBits ++ tail = s.outBits ++ (s.coder.encTrace n).2 ∧
        t.outBits = bytesBits q ++ lowBits s'.bitio.oacc s'.bitio.ocnt ++ tail := by
  have before := encRenorm_emitsAs n s hw
  rw [hheld] at before
  obtain ⟨-, htasks, c, bits, emitted, htrace⟩ := before
  have after := runTasks_emitsAs rest htasks { s' with outq := q } emitted.wf
  rw [ht, show State.coder { s' with outq := q } = c from emitted.coder] at after
  refine ⟨?_, (tasksBits rest c).2, ?_, after.outBits⟩
  · rw [htrace]
    exact after.coder
  · rw [htrace, emitted.outBits, List.append_assoc]

/-! ### Commands that are served to their end -/

/-- `s` when the command that was in execution has ended, with the registers, the input mark and the model's own fields
as the host has left them in `t` (R150, R151). -/
def endedAs (s t : State) : State :=
  { s.hostSideOf t with busy := false, holdin := false, holdout := false, held := [] }

/-- What a served command leaves: the items of the view it came to, the FIFOs and the bit unit of its end. -/
theorem eq_of_ended {md : Mode} {s t : State} {taken pushed : List Byte} {o : View}
    (ho : o = viewOf (bytesBits taken) [] t) (h : Ended md s taken pushed t) :
    t = { endedAs s t with
          res0 := o.res0, res1 := o.res1, closed := o.closed, coder := o.coder, model := o.model,
          bitio := t.bitio, inq := t.inq, outq := t.outq } ∧
      bytesBits taken ++ t.outBits = o.out ∧ t.inBits = o.inp := by
  subst ho
  exact ⟨h.eq, rfl, (List.append_nil _).symm⟩

section Served

variable {i : Instr} {s s₀ u t : State} {taken pushed : List Byte} {r : Run} {o : View}

/-- An encoder command that is served to its end, in terms of the view that its body comes to. -/
theorem encoder_served (hx : exec i s = .next u) (hs : Served u taken pushed t) (hi : i ≠ .softReset)
    (hb : bodyOf i (s.issue (opcode i)) = r) (hw : s.bitio.wf) (hf : Framed (s.issue (opcode i)) r)
    (hc : Fit .enc [] (bytesBits pushed) (s.issue (opcode i)) →
      ComesTo .enc [] (bytesBits pushed) (s.issue (opcode i)) (some o) r) :
    t = { (s.completed i).hostSideOf t with
          res0 := o.res0, res1 := o.res1, closed := o.closed, coder := o.coder, model := o.model,
          bitio := t.bitio, outq := t.outq, inq := s.inq ++ pushed } ∧
      bytesBits taken ++ t.outBits = o.out ∧
      t.bitio.wf ∧ t.bitio.ibyte = s.bitio.ibyte ∧ t.bitio.icnt = s.bitio.icnt := by
  obtain ⟨hview, ended⟩ := exec_served hi hx hs hb (s0 := s.issue (opcode i)) (fun _ => hw) hf hc
  obtain ⟨heq, hout, -⟩ := eq_of_ended hview ended
  obtain ⟨hinq, hibyte, hicnt, hwf⟩ := ended.enc rfl
  rw [hinq] at heq
  exact ⟨heq, hout, hwf, hibyte, hicnt⟩

/-- A decoder command that is served to its end, in terms of the view that its body comes to. -/
theorem decoder_served (hx : exec i s = .next u) (hs : Served u taken pushed t) (hi : i ≠ .softReset)
    (hb : bodyOf i (s.issue (opcode i)) = r) (hf : Framed s₀ r)
    (hc : Fit .dec [] (bytesBits pushed) s₀ → ComesTo .dec [] (bytesBits pushed) s₀ (some o) r) :
    t = { endedAs s₀ t with
          res0 := o.res0, res1 := o.res1, closed := o.closed, coder := o.coder, model := o.model,
          bitio := t.bitio, inq := t.inq, outq := t.outq } ∧
      t.inBits = o.inp ∧
      t.bitio.oacc = s₀.bitio.oacc ∧ t.bitio.ocnt = s₀.bitio.ocnt ∧ s₀.outq = taken ++ t.outq := by
  obtain ⟨hview, ended⟩ := exec_served hi hx hs hb (fun hm => by cases hm) hf hc
  obtain ⟨heq, -, hin⟩ := eq_of_ended hview ended
  obtain ⟨hout, hoacc, hocnt⟩ := ended.dec rfl
  exact ⟨heq, hin, hoacc, hocnt, hout⟩

/-! ### The encoder commands -/

/-- ENC_INTERVAL through its holds (R88, R92). -/
theorem encInterval_through_holds {iv : Interval} (hm : s.mode = .enc) (hcl : s.closed = false) (hw : s.bitio.wf)
    (hx : exec .encInterval s = .next u) (hs : Served u taken pushed t) (ha : s.argsHold iv) (ho : iv.ok = true)
    (hbtf : s.coder.btf + renormPasses ≤ maxBtf) :
    t = { (s.completed .encInterval).hostSideOf t with
          coder := ((s.coder.narrow iv).encTrace renormPasses).1, bitio := t.bitio, outq := t.outq,
          inq := s.inq ++ pushed } ∧
      bytesBits taken ++ t.outBits = s.outBits ++ ((s.coder.narrow iv).encTrace renormPasses).2 ∧
      t.bitio.wf ∧ t.bitio.ibyte = s.bitio.ibyte ∧ t.bitio.icnt = s.bitio.icnt := by
  have hbarred : (s.issue (opcode .encInterval)).encBarred = false := encBarred_eq_false hm hcl
  have hbody : bodyOf .encInterval (s.issue (opcode .encInterval)) =
      encodeInterval iv (s.issue (opcode .encInterval)) := by
    rw [bodyOf, hbarred, guard_false, operandInterval_of ha ho, ofExcept_ok]
  exact encoder_served hx hs (by decide) hbody hw (encodeInterval_framed iv _) fun hfit =>
    view_encodeInterval (v := viewOf [] (bytesBits pushed) (s.issue (opcode .encInterval))) ho hbtf ▸
      encodeInterval_comes iv hfit

/-- ENC_SYMBOL through its holds (R139). -/
theorem encSymbol_through_holds {sym : Sym} {ivs : List Interval} {m : Model} (hm : s.mode = .enc)
    (hcl : s.closed = false) (hw : s.bitio.wf) (hx : exec .encSymbol s = .next u) (hs : Served u taken pushed t)
    (hd : s.model.eofdone = false) (hne : sym ≠ .escape) (ha : s.arg0 = symWord sym)
    (hp : s.model.encPlan s.model.ctxlen sym = .ok (ivs, m)) (ho : ∀ iv ∈ ivs, iv.ok = true)
    (hbtf : s.coder.btf + renormPasses * ivs.length ≤ maxBtf) :
    t = { (s.completed .encSymbol).hostSideOf t with
          model := m, coder := (Coder.encAll ivs s.coder).1, res0 := natWord (ivs.length - 1),
          bitio := t.bitio, outq := t.outq, inq := s.inq ++ pushed } ∧
      bytesBits taken ++ t.outBits = s.outBits ++ (Coder.encAll ivs s.coder).2 ∧
      t.bitio.wf ∧ t.bitio.ibyte = s.bitio.ibyte ∧ t.bitio.icnt = s.bitio.icnt := by
  have hop : byteOrEofOperand s.arg0 = some sym := ha ▸ byteOrEofOperand_symWord hne
  have hview := (view_encLoop s.model.ctxlen 0 (viewOf [] (bytesBits pushed) (s.issue (opcode .encSymbol))) sym ivs m
    hp ho hbtf).1
  rw [Nat.zero_add] at hview
  exact encoder_served hx hs (by decide) (body_encSymbol (s := s.issue _) (encBarred_eq_false hm hcl) hd hop) hw
    (encLoop_framed s.model.ctxlen sym 0 _) fun hfit => hview ▸ encLoop_comes s.model.ctxlen sym 0 _ hfit

/-- An output stream of whole bytes leaves no partial byte. -/
theorem packer_empty {bits : List Bool} (hw : t.bitio.wf) (h : bytesBits taken ++ t.outBits = bits)
    (h8 : bits.length % 8 = 0) : t.bitio.oacc = 0 ∧ t.bitio.ocnt = 0 := by
  obtain ⟨h7, hacc, -⟩ := hw
  have hlen := congrArg List.length h
  simp only [State.outBits, List.length_append, bytesBits_length, lowBits_length] at hlen
  have h0 : t.bitio.ocnt = 0 := by omega
  rw [h0] at hacc
  exact ⟨BitVec.eq_of_toNat_eq (by simpa using hacc), h0⟩

/-- The end of ENC_CLOSE: a whole byte, and the mark (R78, R93). -/
theorem view_closed (v : View) :
    v.tasks [.packerClose, .markClosed] =
      some { v.emit (List.replicate ((8 - v.out.length % 8) % 8) false) with closed := true } := rfl

/-- ENC_CLOSE through its holds (R78, R93). -/
theorem encClose_through_holds (hm : s.mode = .enc) (hcl : s.closed = false) (hw : s.bitio.wf)
    (hx : exec .encClose s = .next u) (hs : Served u taken pushed t) (hbtf : s.coder.btf < maxBtf) {bits : List Bool}
    (hbits : bits = s.coder.closeBit :: List.replicate (s.coder.btf + 1) (!s.coder.closeBit)) :
    t = { (s.completed .encClose).hostSideOf t with
          closed := true, coder := { s.coder with btf := 0 },
          bitio := { s.bitio with oacc := 0, ocnt := 0 }, outq := t.outq, inq := s.inq ++ pushed } ∧
      bytesBits (taken ++ t.outq) =
        s.outBits ++ bits ++ List.replicate ((8 - (s.bitio.ocnt + bits.length) % 8) % 8) false := by
  have hbarred : (s.issue (opcode .encClose)).encBarred = false := encBarred_eq_false hm hcl
  have hlen : (s.outBits ++ bits).length % 8 = (s.bitio.ocnt + bits.length) % 8 := by
    simp only [State.outBits, List.length_append, bytesBits_length, lowBits_length]
    omega
  obtain ⟨heq, hout, hwf, hibyte, hicnt⟩ := encoder_served hx hs (by decide)
    (body_encClose (s := s.issue (opcode .encClose)) hbarred hbtf) hw (closeStream_framed _)
    fun hfit => view_closed _ ▸ closeStream_comes hfit
  replace hout : bytesBits taken ++ t.outBits =
      s.outBits ++ bits ++ List.replicate ((8 - (s.outBits ++ bits).length % 8) % 8) false := by
    rw [hbits]
    exact hout
  obtain ⟨hoacc, hocnt⟩ := packer_empty hwf hout (by rw [List.length_append, List.length_replicate]; omega)
  constructor
  · have hbitio : t.bitio = { s.bitio with oacc := 0, ocnt := 0 } := by
      dsimp only
      rw [← hoacc, ← hocnt, ← hibyte, ← hicnt]
    rw [hbitio] at heq
    exact heq
  · rw [State.outBits, hocnt, lowBits_zero, List.append_nil, ← bytesBits_append, hlen] at hout
    exact hout

/-! ### The decoder commands -/

theorem isEmpty_bytesBits (bytes : List Byte) : (bytesBits bytes).isEmpty = bytes.isEmpty := by
  rw [Bool.eq_iff_iff, List.isEmpty_iff, List.isEmpty_iff, bytesBits_eq_nil]

/-- The priming from a stream of whole bytes (R95). -/
theorem view_primed {v : View} {c : Coder} {bytes : List Byte} (hc : v.coder = unprimed c)
    (hi : v.inp = bytesBits bytes) :
    v.readBits codeValueBits = { v with coder := primed c bytes, inp := (bytesBits bytes).drop codeValueBits } := by
  rw [View.readBits, hc, hi, readMany_unprimed, readMany_bits]

/-- The block when DEC_START begins to prime the value (R95, R136, R138). -/
def primingState (s : State) : State :=
  { (s.issue (opcode .decStart)).streamInit with mode := .dec, coder := unprimed Coder.reset }

/-- DEC_START through its holds (R95, R138). -/
theorem decStart_through_holds (hx : exec .decStart s = .next u) (hs : Served u taken pushed t) (hm : s.mode = .idle)
    (ho : s.config.toNat ≤ Config.maxOrder) :
    t = { (s.completed .decStart).hostSideOf t with
          mode := .dec, closed := false, coder := primed Coder.reset (s.inq ++ pushed),
          bitio := t.bitio, inq := t.inq, outq := t.outq, model := Model.fresh s.config.toNat } ∧
      t.inBits = (bytesBits (s.inq ++ pushed)).drop 27 ∧
      t.bitio.oacc = 0 ∧ t.bitio.ocnt = 0 ∧ s.outq = taken ++ t.outq := by
  have hview := view_primed (v := viewOf [] (bytesBits pushed) (primingState s)) rfl
    (bytesBits_append s.inq pushed).symm
  exact decoder_served hx hs (by decide) (s₀ := primingState s) (body_decStart (s := s.issue _) hm ho)
    (readBits_framed codeValueBits _) fun hfit => hview ▸ readBits_comes codeValueBits _ hfit

/-- DEC_REMOVE through its holds (R89, R98). -/
theorem decRemove_through_holds {iv : Interval} (hx : exec .decRemove s = .next u) (hs : Served u taken pushed t)
    (hm : s.mode = .dec) (heos : s.coder.eos = false) (ha : s.argsHold iv) (ho : iv.ok = true)
    (hmiss : s.coder.misses iv = false) {out : Coder × List Bool}
    (hout : out = (s.coder.narrow iv).decTrace renormPasses (s.inBits ++ bytesBits pushed)) :
    t = { (s.completed .decRemove).hostSideOf t with
          coder := out.1, bitio := t.bitio, inq := t.inq, outq := t.outq } ∧
      t.inBits = out.2 ∧
      t.bitio.oacc = s.bitio.oacc ∧ t.bitio.ocnt = s.bitio.ocnt ∧ s.outq = taken ++ t.outq := by
  have hbarred : (s.issue (opcode .decRemove)).decBarred = false := decBarred_eq_false hm heos
  subst hout
  exact decoder_served hx hs (by decide)
    (s₀ := { s.issue (opcode .decRemove) with coder := s.coder.narrow iv })
    (body_decRemove hbarred (operandInterval_of ha ho _) hmiss) (decRenorm_framed renormPasses _)
    (decRenorm_comes renormPasses _)

/-- DEC_SYMBOL through its holds (R140). -/
theorem decSymbol_through_holds {d : Decoded} (hx : exec .decSymbol s = .next u) (hs : Served u taken pushed t)
    (hm : s.mode = .dec) (heos : s.coder.eos = false) (hd : s.model.eofdone = false)
    (hp : decPlan s.model.ctxlen s.model s.coder (s.inBits ++ bytesBits pushed) = .ok d) :
    t = { (s.completed .decSymbol).hostSideOf t with
          model := d.model, coder := d.coder, res0 := symWord d.sym, res1 := natWord d.escapes,
          bitio := t.bitio, inq := t.inq, outq := t.outq } ∧
      t.inBits = d.bits ∧
      t.bitio.oacc = s.bitio.oacc ∧ t.bitio.ocnt = s.bitio.ocnt ∧ s.outq = taken ++ t.outq := by
  have hbarred : (s.issue (opcode .decSymbol)).decBarred = false := decBarred_eq_false hm heos
  have hview := view_decLoop s.model.ctxlen 0 (viewOf [] (bytesBits pushed) (s.issue (opcode .decSymbol))) d
    (Nat.le_refl _) hp
  rw [Nat.zero_add] at hview
  exact decoder_served hx hs (by decide) (s₀ := s.issue (opcode .decSymbol)) (body_decSymbol hbarred hd)
    (decLoop_framed s.model.ctxlen 0 _) fun hfit => hview ▸ decLoop_comes s.model.ctxlen 0 _ hfit

end Served

/-! ### The obligation -/

/-- Settles O47: a renormalization that held once, then every command that can hold, through all its holds. -/
theorem holdsChangeNoBit : Obligations.HoldsChangeNoBit := by
  refine ⟨fun s s' t rest q hw hheld ht => encRenorm_held hw hheld ht,
    fun s u t i taken pushed hm hcl hw hx hs => ⟨?_, ?_, ?_⟩, fun s u t i taken pushed hx hs => ⟨?_, ?_, ?_⟩⟩
  · rintro iv rfl ha ho hbtf
    exact encInterval_through_holds hm hcl hw hx hs ha ho hbtf
  · rintro rfl hbtf
    exact encClose_through_holds hm hcl hw hx hs hbtf rfl
  · rintro sym ivs m rfl hd hne ha hp ho hbtf
    exact encSymbol_through_holds hm hcl hw hx hs hd hne ha hp ho hbtf
  · rintro rfl hm ho stream
    rw [isEmpty_bytesBits]
    exact decStart_through_holds hx hs hm ho
  · rintro iv rfl hm heos ha ho hmiss r
    exact decRemove_through_holds hx hs hm heos ha ho hmiss rfl
  · rintro d rfl hm heos hd hp
    exact decSymbol_through_holds hx hs hm heos hd hp

end Sys2Proof.Proofs
end

section
/-! PROOFS. SOFT_RESET (R135, R162): the flag words that the host reads after it, and the obligation about it. -/

namespace Sys2Proof.Proofs

open Sys2Proof.Machine Sys2Proof.Laws

/-! ### The flag words of the reset state -/

theorem status_reset : State.reset.status = 0 := by decide

theorem errWord_reset : State.reset.errWord = 0 := by decide

/-- STATUS shows nothing of what SOFT_RESET keeps (R21, R162). -/
theorem status_softReset (s : State) : s.softReset.status = State.reset.status := rfl

/-- ERRCODE shows nothing of what SOFT_RESET keeps (R22, R162). -/
theorem errWord_softReset (s : State) : s.softReset.errWord = State.reset.errWord := rfl

/-! ### The obligation -/

/-- Settles O2: SOFT_RESET is R162's reset in every state, and its flag words are those of the reset state. -/
theorem softResetKeepsOnlyConfigAndArgs : Obligations.SoftResetKeepsOnlyConfigAndArgs := by
  intro s
  have hstatus : s.softReset.status = 0 := (status_softReset s).trans status_reset
  have herr : s.softReset.errWord = 0 := (errWord_softReset s).trans errWord_reset
  exact ⟨s.softReset, exec_softReset s, rfl, hstatus, herr⟩

end Sys2Proof.Proofs
end
